-- ==== Sys2Proof/Word.lean ====
section
/-! DEFINITION. The byte of the Page Inlet link and of the band store. -/

namespace Sys2Proof

/-- A byte of a parcel, of a tile slot, of a packed stream, of a screen or of a curve. -/
abbrev Byte := BitVec 8

end Sys2Proof
end

