-- ==== Sys2Proof/Config.lean ====
section
/-! DEFINITION. The capacities of the part (00_scope.md, 2.3) and the values its manual leaves open. -/

namespace Sys2Proof.Config

/-- Page records of the page table (R1). -/
def pageRecords : Nat := 48
/-- Parcels the inlet queue holds (R29). -/
def inletCapacity : Nat := 96
/-- Intake's write slots (R36). -/
def writeSlots : Nat := 8
/-- Reports the report queue holds (R172). -/
def reportCapacity : Nat := 32
/-- Tickets the plate schedule holds (R127). -/
def scheduleCapacity : Nat := 16
/-- Lines the line pool holds (R151). -/
def poolCapacity : Nat := 64
/-- Screen slots (R111). -/
def screenSlots : Nat := 6
/-- Curve slots (R112). -/
def curveSlots : Nat := 8
/-- Slots of room in a stream's buffer (R90). -/
def bufferSlots : Nat := 32
/-- Outstanding reads of one page slot and layer at which a stream issues no more (R90). -/
def maxOutstanding : Nat := 4
/-- Entries of a damaged-layer list (R65). -/
def damagedListLimit : Nat := 40
/-- The largest payload of a forward parcel (R23). -/
def maxPayload : Nat := 272
/-- The value at which a counter stays (R181). -/
def counterMax : Nat := 65535

/-- The check code of the number that a slot's tile, slot number and 256 bytes make together (R48). A permutation, so
that bytes read from the wrong place, or changed, never have the code of what was written. The manual gives neither its
width nor its function; free value, log entry 8. -/
opaque checkCode : Equiv.Perm Nat

/-- The sweep's test patterns: slot number `n` is tested with the 256 bytes `sweepPattern n`. A permutation, so that the
pattern differs from slot to slot and from tile to tile, whatever it is (R57). The manual gives no pattern; free value,
log entry 9. -/
opaque sweepPattern : Equiv.Perm (BitVec 2048)

/-- The byte that the DRAM holds at an offset of a slot which no sweep has written. Free value, log entry 37. -/
opaque powerOnByte (slotNumber offset : Nat) : Byte

/-- The check code that the DRAM holds beside such a slot. Free value, log entry 37. -/
opaque powerOnCode (slotNumber : Nat) : Nat

/-- What a reset does to the write in service (R56: it "may leave its slot only partly written"): the whole slot is
written, or nothing of it, or (`none`) a part of it. Free value, log entry 10; `n` is the number of the draw. -/
opaque tornWhole (n : Nat) : Option Bool

/-- Whether the byte at an offset of a partly written slot is a written one. Free value, log entry 10. -/
opaque tornByte (n offset : Nat) : Bool

/-- The check code beside a partly written slot, but that it never agrees with the slot (R56). Free value, log
entry 10. -/
opaque tornCode (n : Nat) : Nat

end Sys2Proof.Config
end

