-- ==== Sys2Proof/Syntax.lean ====
section
/-! DEFINITION. The commands of the block: one constructor for each row of spec/opcode_table.json. An operand is
what the world decides at the event; what a parcel carries stands in the parcel (log entry 6). -/

namespace Sys2Proof

/-- The size the STORE_SIZE strap selects (R43). -/
inductive StoreSize where
  | mib128
  | mib256
  deriving DecidableEq, Repr

/-- The CRC initial value the CRC_INIT strap selects (R26). -/
inductive CrcInit where
  | ffff
  | zero
  deriving DecidableEq, Repr

/-- What the DRAM gives for a slot of the tile being read in place of what was written there (R48; log entry 7): other
bytes, another check code, or the bytes and the code of another place. -/
inductive DramFault where
  | bytes (slot : Nat) (bytes : List Byte)
  | code (slot : Nat) (code : Nat)
  | place (slot : Nat) (tile otherSlot : Nat)
  deriving DecidableEq, Repr

/-- The faults that the two read passes of a tile's sweep test meet (R57; log entry 7). -/
structure SweepFaults where
  first : List DramFault
  second : List DramFault
  deriving DecidableEq, Repr

/-- The steps of the part. -/
inductive Instr where
  /-- R24: a start marker arrives on the forward lane. -/
  | startMarker
  /-- R23: a data byte arrives that shows the parcel malformed. -/
  | headerMalformedDrop (b : Byte)
  /-- R27: the last byte of a parcel arrives. -/
  | parcelComplete (b : Byte)
  /-- R25: the assembly timer expires. -/
  | assemblyTimeout
  /-- R30: Intake takes the SEGMENT or PARITY parcel at the queue head. -/
  | takeSegmentParcel
  /-- R11: the store write in service completes. -/
  | storeWriteCompletion
  /-- R49: the store read in service completes, over a DRAM with the given faults. -/
  | storeReadCompletion (faults : List DramFault)
  /-- R68: Repair begins the reconstruction at the queue head. -/
  | repairBegin
  /-- R57: the sweep completes the test of its tile, with the faults its two read passes meet. -/
  | sweepTileTest (faults : SweepFaults)
  /-- R57: PORn, with the straps as sampled and the level of PLATE_READY. -/
  | powerOnReset (size : StoreSize) (crc : CrcInit) (plateReady : Bool)
  /-- R60: RESETn, with the level of PLATE_READY. -/
  | pinReset (plateReady : Bool)
  /-- R166: Intake takes a directive whose code is not known. -/
  | unknownDirective
  /-- R14. -/
  | openPage
  /-- R15. -/
  | closePage
  /-- R16. -/
  | releasePage
  /-- R132. -/
  | postTicket
  /-- R139. -/
  | withdrawTicket
  /-- R122, the form BIND. -/
  | setInkBind
  /-- R122, the form UNBIND. -/
  | setInkUnbind
  /-- R117. -/
  | screenBegin
  /-- R118. -/
  | screenData
  /-- R120. -/
  | screenEnd
  /-- R121. -/
  | curveLoad
  /-- R41. -/
  | setFlow
  /-- R162. -/
  | setHead
  /-- R161. -/
  | resumeHead
  /-- R179. -/
  | setAlarmMask
  /-- R179. -/
  | clearAlarms
  /-- R19, QUERY of kind PAGE. -/
  | queryPage
  /-- R19, QUERY of kind PAGES. -/
  | queryPages
  /-- R145, QUERY of kind SCHEDULE. -/
  | querySchedule
  /-- R44, QUERY of kind STORE. -/
  | queryStore
  /-- R125, QUERY of kind INKS. -/
  | queryInks
  /-- R163, QUERY of kind HEAD. -/
  | queryHead
  /-- R168, QUERY of kind COUNTERS. -/
  | queryCounters
  /-- R168, QUERY of kind COUNTERS with the option CLEAR. -/
  | queryCountersClear
  /-- R169. -/
  | identify
  /-- R170: RESTART is taken. -/
  | restart
  /-- R171: the RESTART in hand finishes. -/
  | restartFinish
  /-- R86: Prefetch makes the next plate line. -/
  | makeLine
  /-- R90: the first stream that may issues its next read. -/
  | prefetchReadIssue
  /-- R150: PLATE_READY rises. -/
  | plateReadyRise
  /-- R156: PLATE_READY falls. -/
  | plateReadyFall
  /-- R153: the head requests a line. -/
  | lineReq
  /-- R154: the transfer of a line completes. -/
  | lineTransferCompletion
  /-- R155: the stall timer expires. -/
  | stallTimerExpiry
  /-- R160: a low sample of HALT, which ends a pulse. -/
  | haltRequest
  /-- R159: a high sample of HALT, the seventh of a run. -/
  | haltLineStuck
  /-- R173: the report being sent ends. `causeFirst` is what R178 leaves open where a cause latches at the same event: whether
  the cause, which is the next command, is taken before the freeing of the place. Without the operand no cause is. -/
  | reportParcelEnd (causeFirst : Bool := false)
  /-- R178: the owed ALARM report joins the queue. -/
  | owedAlarmReport
  /-- R22: a data byte arrives. -/
  | dataByteArrival (b : Byte)
  /-- R159: a sample of HALT. -/
  | haltLineSample (high : Bool)
  deriving DecidableEq, Repr

end Sys2Proof
end

