-- ==== Sys2Proof/WellFormed.lean ====
section
/-! DEFINITION. Which commands are well formed. Only the faults of a DRAM have operands with a range: a tile has 16
slots of 256 bytes (R43). -/

namespace Sys2Proof

/-- A fault concerns a slot of a tile and gives the bytes of a slot (R43). -/
def DramFault.wellFormed : DramFault → Bool
  | .bytes k b => decide (k < 16) && b.length == 256
  | .code k _ => decide (k < 16)
  | .place k _ other => decide (k < 16) && decide (other < 16)

/-- The operands of a command lie in their ranges. Every other operand is a byte, a level or a strap, each of
whose values may occur. -/
def Instr.wellFormed : Instr → Bool
  | .storeReadCompletion faults => faults.all DramFault.wellFormed
  | .startMarker => true
  | .headerMalformedDrop _ => true
  | .parcelComplete _ => true
  | .assemblyTimeout => true
  | .takeSegmentParcel => true
  | .storeWriteCompletion => true
  | .repairBegin => true
  | .sweepTileTest faults => faults.first.all DramFault.wellFormed && faults.second.all DramFault.wellFormed
  | .powerOnReset _ _ _ => true
  | .pinReset _ => true
  | .unknownDirective => true
  | .openPage => true
  | .closePage => true
  | .releasePage => true
  | .postTicket => true
  | .withdrawTicket => true
  | .setInkBind => true
  | .setInkUnbind => true
  | .screenBegin => true
  | .screenData => true
  | .screenEnd => true
  | .curveLoad => true
  | .setFlow => true
  | .setHead => true
  | .resumeHead => true
  | .setAlarmMask => true
  | .clearAlarms => true
  | .queryPage => true
  | .queryPages => true
  | .querySchedule => true
  | .queryStore => true
  | .queryInks => true
  | .queryHead => true
  | .queryCounters => true
  | .queryCountersClear => true
  | .identify => true
  | .restart => true
  | .restartFinish => true
  | .makeLine => true
  | .prefetchReadIssue => true
  | .plateReadyRise => true
  | .plateReadyFall => true
  | .lineReq => true
  | .lineTransferCompletion => true
  | .stallTimerExpiry => true
  | .haltRequest => true
  | .haltLineStuck => true
  | .reportParcelEnd _ => true
  | .owedAlarmReport => true
  | .dataByteArrival _ => true
  | .haltLineSample _ => true

end Sys2Proof
end

