-- ==== Sys2Proof/Machine/State.lean ====
section
/-! DEFINITION. The state of the block, grouped by the block that owns it (00_scope.md, section 2), as plain data,
and the state right after a power-on reset. -/

namespace Sys2Proof.Machine

open Sys2Proof (Byte StoreSize CrcInit Instr)

/-! ## Names -/

/-- The inks, in the order of the conventions of 00_scope.md. -/
inductive Ink where
  | k | c | m | y
  deriving DecidableEq, Repr

/-- The two layers of a band of one ink. -/
inductive LayerKind where
  | line | picture
  deriving DecidableEq, Repr

/-- The states of a layer record (R9). -/
inductive LayerState where
  | empty | filling | whole | repairing | repaired | damaged
  deriving DecidableEq, Repr

/-- The states of a live page record (R1); an EMPTY record is `none` in the page table. -/
inductive PageState where
  | opened | evaluating | complete | damaged | releasing
  deriving DecidableEq, Repr

/-- The states of a ticket (R128). -/
inductive TicketState where
  | posted | armed | imaging
  deriving DecidableEq, Repr

/-- The damage policies of a ticket (R127). -/
inductive Policy where
  | holdForRepair | imageMarked
  deriving DecidableEq, Repr

/-- The order modes of the schedule (R135). -/
inductive OrderMode where
  | inOrder | firstArmed
  deriving DecidableEq, Repr

/-- The drive states (R147). -/
inductive DriveState where
  | idle | waitPlate | priming | imaging | unloading | halted
  deriving DecidableEq, Repr

/-- The page slots of a plate. -/
inductive Side where
  | left | right
  deriving DecidableEq, Repr

/-- The flow symbols (R40). -/
inductive FlowSymbol where
  | hold | resume
  deriving DecidableEq, Repr

/-- The sides of the store arbiter (R55). -/
inductive ArbiterSide where
  | write | read
  deriving DecidableEq, Repr

/-- The fourteen alarms, in the order of the alarm set of table 10-2. -/
inductive Alarm where
  | inletOverflow | parcelCheck | parcelMalformed | assemblyTimeout | storeFull | storeLow | tileRetired
  | storeDegraded | pageDamaged | unpackFault | plateSpoiled | headHalt | haltLineStuck | reportsLost
  deriving DecidableEq, Repr

/-- The fifteen counters, in the order of the QUERY COUNTERS reply (table 10-5). -/
inductive Counter where
  | discardedFull | checkFail | malformed | assemblyTimeouts | unknownPage | duplicate | late
  | storeFullLosses | layersRepaired | thresholdsRaised | unpackFaults | platesDone | platesSpoiled
  | reportsLost | earlyLineRequests
  deriving DecidableEq, Repr

/-- The refusal reasons a REPLY carries, in the order of the table of section 10.2. -/
inductive Reason where
  | badArgument | tableFull | unknownPage | staleVersion | pageInUse | wrongState | scheduleFull
  | duplicateTag | unknownTicket | slotBusy | loadInProgress | outOfOrder | incomplete | notLoading
  | unknownDirective
  deriving DecidableEq, Repr

/-- The spoil reasons of a plate (R143). -/
inductive SpoilReason where
  | underrun | headStall | halted | plateLost | headProtocol
  deriving DecidableEq, Repr

/-- How a ticket ended (R143). -/
inductive PlateOutcome where
  | done
  | spoiled (reason : SpoilReason)
  | withdrawn
  deriving DecidableEq, Repr

/-- The arming conditions that can fail (R145). -/
inductive FailCond where
  | unresolved | inkAbsent | pageNotReady | inkNotReady
  deriving DecidableEq, Repr

/-- The causes of a STARTED report (R174). -/
inductive StartCause where
  | powerOn | pin | restart
  deriving DecidableEq, Repr

/-! ## Parcels and the Framer -/

/-- The kind header of a SEGMENT or PARITY parcel (R176, table 10-1), as sent. -/
structure SegHeader where
  pageId : Nat
  version : Nat
  ink : Nat
  band : Nat
  layer : Nat
  index : Nat
  lengthField : Nat
  deriving DecidableEq, Repr

/-- A good parcel with its header, kind header and payload whole (R29). -/
inductive Parcel where
  | data (parity : Bool) (flags : Byte) (header : SegHeader) (payload : List Byte)
  | directive (flags : Byte) (code : Nat) (tag : Nat) (payload : List Byte)
  deriving DecidableEq, Repr

/-- The Framer (R22, R25). -/
structure Framer where
  /-- ASSEMBLING (`true`) or OUTSIDE (`false`), R22. -/
  assembling : Bool
  /-- The assembly buffer, oldest byte first, R22. -/
  buffer : List Byte
  /-- The assembly timer: stopped, or running with the period in ms it was started with, R25. -/
  timer : Option Nat
  deriving DecidableEq, Repr

/-! ## Layers and pages -/

/-- The identity of a layer within a page record. -/
structure LayerId where
  ink : Ink
  band : Nat
  kind : LayerKind
  deriving DecidableEq, Repr

/-- What a store write carries into a layer: a data segment or the parity. -/
inductive Item where
  | segment (index : Nat)
  | parity
  deriving DecidableEq, Repr

/-- A layer record (R8). The segment count and the missing set are derived from it. -/
structure LayerRecord where
  id : LayerId
  state : LayerState
  /-- The layer length in bytes, absent until a first parcel is accepted. -/
  length : Option Nat
  received : List Nat
  pending : List Nat
  parityHeld : Bool
  parityPending : Bool
  /-- 17 entries: 0..15 hold data, 16 holds parity. -/
  tileMap : List (Option Nat)
  deriving DecidableEq, Repr

/-- A live page record (R1), with its damage-noted indicator (R65) and its layer records in layer order (R7, R63). -/
structure PageRecord where
  pageId : Nat
  version : Nat
  state : PageState
  width : Nat
  height : Nat
  /-- The ink set, bit 0 K to bit 3 Y (table 10-2). -/
  inkSet : BitVec 4
  bandCount : Nat
  pendingWrites : Nat
  useCount : Nat
  superseded : Bool
  damageNoted : Bool
  layers : List LayerRecord
  deriving DecidableEq, Repr

/-- A layer of a page record, by record number (R67). -/
structure LayerRef where
  record : Nat
  layer : LayerId
  deriving DecidableEq, Repr

/-! ## Intake and the Store -/

/-- A store write as a write slot or Repair holds it (R36, R70): the byte offset is `slot` × 256. -/
structure StoreWrite where
  target : LayerRef
  item : Item
  tile : Nat
  slot : Nat
  payload : List Byte
  deriving DecidableEq, Repr

/-- The five SET_FLOW settings (R41). -/
structure FlowSettings where
  hold : Nat
  resume : Nat
  low : Nat
  high : Nat
  timeoutMs : Nat
  deriving DecidableEq, Repr

/-- Intake (chapter 2). -/
structure Intake where
  /-- The inlet queue, oldest first, R29. -/
  queue : List Parcel
  /-- The eight write slots, R36. -/
  slots : List (Option StoreWrite)
  /-- The holding flag, R38. -/
  holding : Bool
  /-- Whether the reserve cause was present at the last evaluation, R39. -/
  reserveCause : Bool
  flow : FlowSettings
  deriving DecidableEq, Repr

/-- Who issued a write: an Intake write slot, or Repair (R47). What it writes stands in the slot or in Repair. -/
inductive WriteRef where
  | intake (slot : Nat)
  | repair
  deriving DecidableEq, Repr

/-- Who issued a read (R49); a read of Prefetch names its page slot, its layer and its capture. -/
inductive Requester where
  | repair
  | prefetch (side : Side) (kind : LayerKind) (serial : Nat)
  deriving DecidableEq, Repr

/-- A store read (R49): a tile and one or more of its slots, with the tile-map slot it was read for. -/
structure StoreRead where
  requester : Requester
  tile : Nat
  mapSlot : Nat
  slots : List Nat
  deriving DecidableEq, Repr

/-- The request in service at the arbiter (R55). -/
inductive Request where
  | write (w : WriteRef)
  | read (r : StoreRead)
  deriving DecidableEq, Repr

/-- One slot of the DRAM: its 256 bytes, and the check code kept beside them (R48). -/
structure SlotCell where
  bytes : List Byte
  code : Nat
  deriving DecidableEq, Repr

/-- The DRAM of the tile area with its check codes: the slots written since a sweep wrote their tile, by slot number
(tile × 16 + slot), rising (log entry 11), and the number of tiles, from tile 0 on, that a sweep has written (log
entry 37). -/
structure Dram where
  swept : Nat
  cells : List (Nat × SlotCell)
  deriving DecidableEq, Repr

/-- The band store controller (chapter 3). -/
structure Store where
  /-- The tile under test in the power-on sweep; none when no sweep runs, R57. -/
  sweep : Option Nat
  /-- The free pool, held as the rising list of the tile numbers that are NOT in it, R45 (log entry 22). -/
  poolOut : List Nat
  /-- The retired set, rising, R52. -/
  retired : List Nat
  dram : Dram
  writeSide : List WriteRef
  readSide : List StoreRead
  inService : Option Request
  /-- The side served last, R55. -/
  lastSide : ArbiterSide
  deriving DecidableEq, Repr

/-! ## Repair -/

/-- The state of the Repair engine (R68). `mapSlot` is the tile-map slot of the outstanding read, 16 for parity. -/
inductive RepairEngine where
  | idle
  | reading (target : LayerRef) (missing : Nat) (mapSlot : Nat) (acc : List Byte)
  | writing (target : LayerRef) (missing : Nat)
  | draining
  deriving DecidableEq, Repr

/-- Repair (chapter 4). -/
structure Repair where
  queue : List LayerRef
  engine : RepairEngine
  /-- The reconstruction write issued and not completed, R68. -/
  write : Option StoreWrite
  deriving DecidableEq, Repr

/-! ## Prefetch -/

/-- The code in progress of a row under construction (R80, R81): a code byte is expected; `k` source bytes of a
literal remain; the operand of a run of `k`, a vertical copy or a row fill is expected; `k` operand bytes of an
overrun literal are still to be consumed without effect. -/
inductive UnpackOp where
  | code
  | literal (k : Nat)
  | run (k : Nat)
  | verticalCopy
  | rowFill
  | skip (k : Nat)
  deriving DecidableEq, Repr

/-- How the rows of a read capture come: from the stream; the last row has been produced; the stream has ended
early (R82); a row at or after the cut has been reached (R92). -/
inductive StreamMode where
  | reading | finished | ended | lost
  deriving DecidableEq, Repr

/-- The stream of a read capture (R80, R87, R90, R91). -/
structure Stream where
  /-- The layer length captured, R87. -/
  length : Nat
  /-- The tiles of data tile-map slots 0..(n − 1) div 16, R87. -/
  tiles : List Nat
  rowWidth : Nat
  rowCount : Nat
  /-- Tile slots issued, counted along the stream, R90. -/
  issued : Nat
  /-- Tile slots whose bytes have arrived, R91. -/
  arrived : Nat
  /-- Bytes arrived and not consumed. -/
  buffer : List Byte
  /-- The stream position: bytes consumed, R79. -/
  position : Nat
  /-- Rows produced. -/
  rows : Nat
  /-- The last row produced; zeros before the first, R79. -/
  previous : List Byte
  /-- The bytes placed in the row under construction, R80. -/
  placed : List Byte
  op : UnpackOp
  mode : StreamMode
  /-- The cut position, R92. -/
  cut : Option Nat
  /-- The last row produced has been completed ahead of its line, which waits for another row or for room in the pool:
  whether it was an overrun, which acts when the line is made (R84, R86, R91; log entry 15). -/
  ahead : Option Bool
  deriving DecidableEq, Repr

/-- The kind of a layer capture (R87). -/
inductive CaptureKind where
  | fill (state : LayerState)
  | read (stream : Stream)
  deriving DecidableEq, Repr

/-- A layer capture (R87) with what it has counted for the plate summary (R84, R94). `serial` numbers it
(log entry 23). -/
structure Capture where
  serial : Nat
  kind : CaptureKind
  /-- The faulted indicator, R84. -/
  faulted : Bool
  /-- A LINE capture has counted in LINE layers marked, R94. -/
  marked : Bool
  deriving DecidableEq, Repr

/-- A page slot of the plate in context as Prefetch keeps it (5.3). -/
structure PageSlot where
  record : Nat
  width : Nat
  height : Nat
  /-- The next page line of the slot to be made. -/
  cursor : Nat
  line : Capture
  picture : Capture
  /-- The held contone row, R93. -/
  held : List Byte
  deriving DecidableEq, Repr

/-- Prefetch's work for the plate in context (R85). -/
structure PrefetchJob where
  nextLine : Nat
  left : PageSlot
  right : Option PageSlot
  /-- The serial of the plate's first capture. -/
  firstSerial : Nat
  /-- The captures of the plate that have counted in store faults, R92, R94. -/
  storeFaulted : List Nat
  deriving DecidableEq, Repr

/-- Prefetch (chapter 5). -/
structure Prefetch where
  /-- The serial of the next capture (log entry 23). -/
  serial : Nat
  job : Option PrefetchJob
  deriving DecidableEq, Repr

/-! ## Screener -/

/-- Parameters and entries of a screen (R111). -/
structure ScreenTable where
  w : Nat
  h : Nat
  sh : Nat
  entries : List Byte
  deriving DecidableEq, Repr

/-- A screen slot (R111). While LOADING the entries are those stored so far. -/
inductive ScreenSlot where
  | empty
  | loading (t : ScreenTable)
  | ready (t : ScreenTable)
  deriving DecidableEq, Repr

/-- A bound ink record (R113). -/
structure InkBinding where
  screen : Nat
  curve : Nat
  floor : Nat
  ceiling : Nat
  deriving DecidableEq, Repr

/-- The four ink records; `none` is unbound (R113). -/
structure InkTable where
  k : Option InkBinding
  c : Option InkBinding
  m : Option InkBinding
  y : Option InkBinding
  deriving DecidableEq, Repr

/-- The screen-load context when it names a slot (R115). -/
structure ScreenLoad where
  slot : Nat
  fillPoint : Nat
  deriving DecidableEq, Repr

/-- The Screener's tables (chapter 7). A curve slot is EMPTY (`none`) or READY (R112). -/
structure Screener where
  screens : List ScreenSlot
  curves : List (Option (List Byte))
  inks : InkTable
  load : Option ScreenLoad
  deriving DecidableEq, Repr

/-! ## Schedule -/

/-- A slot binding (R129): a page id with a version, or LATEST (`none`). -/
structure Binding where
  pageId : Nat
  version : Option Nat
  deriving DecidableEq, Repr

/-- A resolution (R129): a record number with the version the record held. -/
structure Resolution where
  record : Nat
  version : Nat
  deriving DecidableEq, Repr

/-- A ticket (R127). -/
structure Ticket where
  tag : Nat
  ink : Ink
  margin : Nat
  gutter : Nat
  left : Binding
  right : Option Binding
  policy : Policy
  state : TicketState
  leftRes : Option Resolution
  rightRes : Option Resolution
  deriving DecidableEq, Repr

/-! ## Drive -/

/-- A plate line of W_h dots, dot 0 first (R151); `true` is on. -/
abbrev Line := List Bool

/-- A page of the plate context (R97, R150). -/
structure PlatePage where
  record : Nat
  version : Nat
  width : Nat
  height : Nat
  deriving DecidableEq, Repr

/-- The damage summary of a plate (R94, R109). -/
structure Summary where
  lineMarked : Nat
  pictureHeld : Nat
  unpackFaults : Nat
  storeFaults : Nat
  clipped : Bool
  deriving DecidableEq, Repr

/-- The plate context (R97, R150). -/
structure Plate where
  tag : Nat
  ink : Ink
  margin : Nat
  gutter : Nat
  left : PlatePage
  right : Option PlatePage
  settings : InkBinding
  headWidth : Nat
  lineCount : Nat
  summary : Summary
  requested : Nat
  sent : Nat
  /-- The line on the dot lanes while a transfer is in progress, R153. -/
  transfer : Option Line
  deriving DecidableEq, Repr

/-- The four SET_HEAD settings (R162). -/
structure HeadSettings where
  width : Nat
  prime : Nat
  stallMs : Nat
  mode : OrderMode
  deriving DecidableEq, Repr

/-- The head drive (chapter 9). EXPOSE and the dot lanes are derived: `Drive.exposeHigh`, `Drive.dotLanes` (R147). -/
structure Drive where
  state : DriveState
  /-- The tag of the ticket selected in WAIT_PLATE, R148. -/
  selected : Option Nat
  /-- The level of PLATE_READY as last taken, R147. -/
  plateReady : Bool
  plate : Option Plate
  /-- The line pool, oldest first, R151. -/
  pool : List Line
  /-- The stall timer: stopped, or running with the period in ms it was started with, R155. -/
  stall : Option Nat
  /-- The run count n, R159. -/
  haltRun : Nat
  stuck : Bool
  lastSample : Bool
  settings : HeadSettings
  /-- PLATE_END was strobed in the last step, R147 (log entry 24). -/
  plateEnd : Bool
  deriving DecidableEq, Repr

/-! ## Directives and reports -/

/-- The RESTART in hand (R170). -/
structure RestartHold where
  tag : Nat
  quiet : Bool
  /-- The tag of the plate it aborted. -/
  aborted : Option Nat
  deriving DecidableEq, Repr

/-- An entry of a damaged-layer list (R65); `none` is "length unknown". -/
structure DamagedEntry where
  layer : LayerId
  missing : Option Nat
  deriving DecidableEq, Repr

/-- The fields of a PAGE report (R65). -/
structure PageReport where
  pageId : Nat
  version : Nat
  record : Nat
  state : PageState
  repaired : Nat
  damaged : Nat
  more : Bool
  entries : List DamagedEntry
  deriving DecidableEq, Repr

/-- A page of a PLATE report (R143): its page id, and its version or `none` for unresolved. -/
structure ReportedPage where
  pageId : Nat
  version : Option Nat
  deriving DecidableEq, Repr

/-- The fields of a PLATE report (R143). -/
structure PlateReport where
  tag : Nat
  outcome : PlateOutcome
  stateAtEnd : TicketState
  linesSent : Nat
  left : ReportedPage
  right : Option ReportedPage
  summary : Summary
  deriving DecidableEq, Repr

/-- The fields of a STARTED report (R174). -/
structure StartedReport where
  cause : StartCause
  size : StoreSize
  tileCount : Nat
  retired : Nat
  aborted : Option Nat
  deriving DecidableEq, Repr

/-- The reports of the return lane (R167, R65, R143, R177, R174). A refused REPLY carries its reason. -/
inductive Report where
  | reply (tag code : Nat) (reason : Option Reason) (body : List Byte)
  | page (p : PageReport)
  | plate (p : PlateReport)
  | alarm (latched mask : BitVec 14)
  | started (r : StartedReport)
  deriving DecidableEq, Repr

/-- What the return lane begins to send (R173): a flow symbol, or a report parcel with its bytes. -/
inductive LaneItem where
  | symbol (f : FlowSymbol)
  | parcel (bytes : List Byte)
  deriving DecidableEq, Repr

/-- The fifteen counters (R181). -/
structure Counters where
  discardedFull : Nat
  checkFail : Nat
  malformed : Nat
  assemblyTimeouts : Nat
  unknownPage : Nat
  duplicate : Nat
  late : Nat
  storeFullLosses : Nat
  layersRepaired : Nat
  thresholdsRaised : Nat
  unpackFaults : Nat
  platesDone : Nat
  platesSpoiled : Nat
  reportsLost : Nat
  earlyLineRequests : Nat
  deriving DecidableEq, Repr

/-- The Report unit (chapters 10 and 11). ALERT is derived from the latches and the mask: `Reports.alertLow`
(R180). -/
structure Reports where
  /-- The report queue, oldest first, R172. -/
  queue : List Report
  /-- The report being sent, R172. -/
  sending : Option Report
  /-- The last flow symbol sent, R40. -/
  lastSymbol : Option FlowSymbol
  latches : BitVec 14
  /-- A set bit masks, R179. -/
  mask : BitVec 14
  /-- The alarm-owed indicator, R178. -/
  owed : Bool
  /-- A power-on or pin reset has been taken and its STARTED report has not been queued, R177. -/
  awaitStarted : Bool
  counters : Counters
  /-- What the return lane began in the last step, in order (log entry 24). -/
  sent : List LaneItem
  deriving DecidableEq, Repr

/-! ## The whole -/

/-- The straps as sampled at the last power-on reset (R26, R43). -/
structure Straps where
  size : StoreSize
  crcInit : CrcInit
  deriving DecidableEq, Repr

/-- The state of the block, and the queue of the commands that wait. -/
structure State where
  pending : List Instr
  straps : Straps
  framer : Framer
  intake : Intake
  pages : List (Option PageRecord)
  store : Store
  repair : Repair
  prefetch : Prefetch
  screener : Screener
  schedule : List Ticket
  drive : Drive
  restart : Option RestartHold
  reports : Reports
  /-- The number of free values drawn so far (log entry 10). -/
  freeIndex : Nat
  deriving DecidableEq, Repr

/-- Why the model stops. The spec itself names no condition that stops the block. -/
inductive Fault where
  /-- Raised by STORE_WRITE_COMPLETION and STORE_READ_COMPLETION when the request in service names a tile at or
  above the tile count, an address R43 does not give the store. No run reaches it. Safe (log entry 27). -/
  | noSuchTile (tile : Nat)
  deriving DecidableEq, Repr

/-- Why the model refuses. -/
inductive Refusal where
  /-- Raised by an arm of `exec` whose command has no meaning yet; no arm does. Safe. -/
  | notModelled (mnemonic : String)
  deriving DecidableEq, Repr

/-- The SET_FLOW defaults (R41). -/
def FlowSettings.default : FlowSettings := ⟨64, 32, 256, 512, 4⟩

/-- The SET_HEAD defaults (R162). -/
def HeadSettings.default : HeadSettings := ⟨16384, 48, 40, .inOrder⟩

/-- All counters 0 (R181). -/
def Counters.zero : Counters := ⟨0, 0, 0, 0, 0, 0, 0, 0, 0, 0, 0, 0, 0, 0, 0⟩

/-- The machine right after a power-on reset: the sweep stands at tile 0 (R57), the holding flag is true and HOLD
has just been sent (R42), the drive is IDLE with PLATE_READY low (R164), and every register is at its reset
value. The straps and the level of PLATE_READY are samples of the world: log entry 1. -/
def State.reset : State where
  pending := []
  straps := ⟨.mib128, .ffff⟩
  framer := ⟨false, [], none⟩
  intake := ⟨[], [none, none, none, none, none, none, none, none], true, false, FlowSettings.default⟩
  pages := List.replicate Config.pageRecords none
  store := ⟨some 0, [], [], ⟨0, []⟩, [], [], none, .write⟩
  repair := ⟨[], .idle, none⟩
  prefetch := ⟨0, none⟩
  screener := ⟨List.replicate Config.screenSlots .empty, List.replicate Config.curveSlots none,
    ⟨none, none, none, none⟩, none⟩
  schedule := []
  drive := ⟨.idle, none, false, none, [], none, 0, false, false, HeadSettings.default, false⟩
  restart := none
  reports := ⟨[], none, some .hold, 0, 0, false, true, Counters.zero, [.symbol .hold]⟩
  freeIndex := 0

end Sys2Proof.Machine
end

