-- ==== Sys2Proof/Machine/Ops.lean ====
section
/-! DEFINITION. The named operations the steps share: bytes and fields, the CRC, geometry, the page table, the free
pool, the DRAM. -/

namespace Sys2Proof.Machine

open Sys2Proof (Byte StoreSize CrcInit Instr DramFault)

/-! ## Bytes and fields (R176: most significant byte first) -/

/-- A one-byte field. -/
def byteOf (n : Nat) : Byte := BitVec.ofNat 8 n

/-- A two-byte field. -/
def be16 (n : Nat) : List Byte := [byteOf (n / 256), byteOf n]

/-- A four-byte field. -/
def be32 (n : Nat) : List Byte := [byteOf (n / 16777216), byteOf (n / 65536), byteOf (n / 256), byteOf n]

/-- A yes/no field: 0 for no, 1 for yes. -/
def boolByte (b : Bool) : Byte := if b then 1 else 0

/-- The one-byte field at offset `i` of a list of bytes. -/
def u8 (p : List Byte) (i : Nat) : Nat := (p.getD i 0).toNat

/-- The two-byte field at offset `i`. -/
def u16 (p : List Byte) (i : Nat) : Nat := 256 * u8 p i + u8 p (i + 1)

/-- The four-byte field at offset `i`. -/
def u32 (p : List Byte) (i : Nat) : Nat := 65536 * u16 p i + u16 p (i + 2)

/-- The quotient rounded up (00_scope.md, section 3). -/
def ceilDiv (x y : Nat) : Nat := (x + y - 1) / y

/-! ## The parcel CRC (R26) -/

/-- One bit of the CRC with the generator 0x1021. -/
def crcBit (r : BitVec 16) (b : Bool) : BitVec 16 :=
  if xor r.msb b then (r <<< 1) ^^^ 0x1021#16 else r <<< 1

/-- One byte, most significant bit first. -/
def crcByte (r : BitVec 16) (b : Byte) : BitVec 16 :=
  [0, 1, 2, 3, 4, 5, 6, 7].foldl (fun acc i => crcBit acc (b.getMsbD i)) r

/-- The CRC over a list of bytes from an initial value. -/
def crc16 (init : BitVec 16) (bytes : List Byte) : BitVec 16 := bytes.foldl crcByte init

/-- The initial value the CRC_INIT strap selects. -/
def crcInitValue : CrcInit → BitVec 16
  | .ffff => 0xFFFF#16
  | .zero => 0#16

/-- The trailer of a parcel: the CRC over its bytes, most significant byte first. -/
def crcTrailer (c : CrcInit) (bytes : List Byte) : List Byte := be16 (crc16 (crcInitValue c) bytes).toNat

/-! ## Codes of table 10-2 -/

/-- The code of an ink. -/
def Ink.code : Ink → Nat
  | .k => 0 | .c => 1 | .m => 2 | .y => 3

/-- The ink of a code. -/
def inkOf : Nat → Option Ink
  | 0 => some .k | 1 => some .c | 2 => some .m | 3 => some .y | _ => none

/-- The inks in order. -/
def allInks : List Ink := [.k, .c, .m, .y]

/-- Whether an ink set contains an ink. -/
def hasInk (set : BitVec 4) (i : Ink) : Bool := set.getLsbD i.code

/-- The inks of an ink set, in order. -/
def inksOf (set : BitVec 4) : List Ink := allInks.filter (hasInk set)

/-- The code of a layer. -/
def LayerKind.code : LayerKind → Nat
  | .line => 0 | .picture => 1

/-- The layer of a code. -/
def layerKindOf : Nat → Option LayerKind
  | 0 => some .line | 1 => some .picture | _ => none

/-- The code of a page state; EMPTY is 0. -/
def PageState.code : PageState → Nat
  | .opened => 1 | .evaluating => 2 | .complete => 3 | .damaged => 4 | .releasing => 5

/-- The code of a ticket state. -/
def TicketState.code : TicketState → Nat
  | .posted => 0 | .armed => 1 | .imaging => 2

/-- The code of a drive state. -/
def DriveState.code : DriveState → Nat
  | .idle => 0 | .waitPlate => 1 | .priming => 2 | .imaging => 3 | .unloading => 4 | .halted => 5

/-- The code of a damage policy. -/
def Policy.code : Policy → Nat
  | .holdForRepair => 0 | .imageMarked => 1

/-- The code of an order mode. -/
def OrderMode.code : OrderMode → Nat
  | .inOrder => 0 | .firstArmed => 1

/-- The code of a refusal reason: 1 to 15 in the order of the table of section 10.2. -/
def Reason.code : Reason → Nat
  | .badArgument => 1 | .tableFull => 2 | .unknownPage => 3 | .staleVersion => 4 | .pageInUse => 5
  | .wrongState => 6 | .scheduleFull => 7 | .duplicateTag => 8 | .unknownTicket => 9 | .slotBusy => 10
  | .loadInProgress => 11 | .outOfOrder => 12 | .incomplete => 13 | .notLoading => 14 | .unknownDirective => 15

/-- The code of a spoil reason. -/
def SpoilReason.code : SpoilReason → Nat
  | .underrun => 1 | .headStall => 2 | .halted => 3 | .plateLost => 4 | .headProtocol => 5

/-- The code of a plate outcome. -/
def PlateOutcome.code : PlateOutcome → Nat
  | .done => 1 | .spoiled _ => 2 | .withdrawn => 3

/-- The spoil-reason field of a plate outcome: 0 unless SPOILED. -/
def PlateOutcome.reasonCode : PlateOutcome → Nat
  | .spoiled r => r.code
  | .done => 0
  | .withdrawn => 0

/-- The code of a failing condition; none is 0. -/
def FailCond.code : FailCond → Nat
  | .unresolved => 1 | .inkAbsent => 2 | .pageNotReady => 3 | .inkNotReady => 4

/-- The code of a STARTED cause. -/
def StartCause.code : StartCause → Nat
  | .powerOn => 0 | .pin => 1 | .restart => 2

/-- The code of a store size. -/
def storeSizeCode : StoreSize → Nat
  | .mib128 => 0 | .mib256 => 1

/-! ## Page geometry (R6) -/

/-- The band count of a page. -/
def bandCountOf (height : Nat) : Nat := ceilDiv height 256

/-- The lines of band `b` of a page. -/
def bandLines (height b : Nat) : Nat :=
  if b + 1 < bandCountOf height then 256 else height - 256 * (bandCountOf height - 1)

/-- The row width in bytes of a layer of a page. -/
def rowWidthOf (kind : LayerKind) (width : Nat) : Nat :=
  match kind with
  | .line => ceilDiv width 8
  | .picture => ceilDiv width 4

/-- The rows a layer of band `b` has. -/
def rowCountOf (kind : LayerKind) (height b : Nat) : Nat :=
  match kind with
  | .line => bandLines height b
  | .picture => ceilDiv (bandLines height b) 4

/-- The segment count of a layer length (R8). -/
def segmentCount (length : Nat) : Nat := ceilDiv length 256

/-- The length of segment `s` of a layer of the given length (R8). -/
def segmentLength (length s : Nat) : Nat :=
  if s + 1 < segmentCount length then 256 else length - 256 * (segmentCount length - 1)

/-! ## Rising lists without repeats (the sets of the spec) -/

/-- Add a number to a rising list. -/
def insertRising (x : Nat) : List Nat → List Nat
  | [] => [x]
  | y :: ys => if x < y then x :: y :: ys else if x = y then y :: ys else y :: insertRising x ys

/-- Take a number out of a list. -/
def dropValue (x : Nat) (l : List Nat) : List Nat := l.filter (fun y => !(y == x))

/-! ## Layer records (R7, R8) -/

/-- A layer record as OPEN_PAGE creates it: EMPTY (R9). -/
def LayerRecord.fresh (id : LayerId) : LayerRecord :=
  ⟨id, .empty, none, [], [], false, false, List.replicate 17 none⟩

/-- The layer identities of a page, in layer order: ink, then band, then LINE before PICTURE (R7, R63). -/
def layerIds (inkSet : BitVec 4) (bandCount : Nat) : List LayerId :=
  (inksOf inkSet).flatMap fun i =>
    (List.range bandCount).flatMap fun b => [⟨i, b, .line⟩, ⟨i, b, .picture⟩]

/-- The segment count of a layer record; 0 while the length is absent. -/
def LayerRecord.segments (l : LayerRecord) : Nat :=
  match l.length with
  | none => 0
  | some n => segmentCount n

/-- The missing set: every index below the segment count that has not been received (R8). -/
def LayerRecord.missing (l : LayerRecord) : List Nat :=
  (List.range l.segments).filter (fun i => !(l.received.contains i))

/-- The tile in tile-map slot `k`. -/
def LayerRecord.tileAt (l : LayerRecord) (k : Nat) : Option Nat := l.tileMap.getD k none

/-- The tiles a layer record maps. -/
def LayerRecord.tiles (l : LayerRecord) : List Nat := l.tileMap.filterMap fun t => t

/-- The tile-map slot of an item: s div 16 for a segment, 16 for the parity (R10). -/
def Item.mapSlot : Item → Nat
  | .segment s => s / 16
  | .parity => 16

/-- The tile slot of an item: s mod 16 for a segment, 0 for the parity (R10, R43). -/
def Item.tileSlot : Item → Nat
  | .segment s => s % 16
  | .parity => 0

/-! ## Page records -/

/-- The record can be found by name (R2). -/
def PageRecord.current (p : PageRecord) : Bool := !(p.state == .releasing)

/-- EVALUATING, COMPLETE or DAMAGED (1.2). -/
def PageRecord.closed (p : PageRecord) : Bool :=
  p.state == .evaluating || p.state == .complete || p.state == .damaged

/-- The layer record of an identity. -/
def PageRecord.layer? (p : PageRecord) (id : LayerId) : Option LayerRecord := p.layers.find? (fun l => l.id == id)

/-- Change the layer record of an identity. -/
def PageRecord.modifyLayer (p : PageRecord) (id : LayerId) (f : LayerRecord → LayerRecord) : PageRecord :=
  { p with layers := p.layers.map fun l => if l.id == id then f l else l }

/-- The tiles mapped by a page record. -/
def PageRecord.tiles (p : PageRecord) : List Nat := p.layers.flatMap LayerRecord.tiles

/-- The number of layers in a state. -/
def PageRecord.countState (p : PageRecord) (st : LayerState) : Nat := (p.layers.filter (fun l => l.state == st)).length

/-- The live record of a number, if it is live. -/
def State.page? (s : State) (r : Nat) : Option PageRecord := s.pages.getD r none

/-- Replace a record of the page table; `none` makes it EMPTY. -/
def State.setPage (s : State) (r : Nat) (p : Option PageRecord) : State := { s with pages := s.pages.set r p }

/-- Change a live record. -/
def State.modifyPage (s : State) (r : Nat) (f : PageRecord → PageRecord) : State :=
  match s.page? r with
  | none => s
  | some p => s.setPage r (some (f p))

/-- The live records with their numbers, in record-number order. -/
def State.liveRecords (s : State) : List (Nat × PageRecord) :=
  s.pages.zipIdx.filterMap fun (p, r) => p.map fun p => (r, p)

/-- The current record of a name (R2), with its number. -/
def State.findPage (s : State) (pageId version : Nat) : Option (Nat × PageRecord) :=
  s.liveRecords.find? fun (_, p) => p.current && p.pageId == pageId && p.version == version

/-- The lowest-numbered EMPTY record (R1). -/
def State.emptyRecord (s : State) : Option Nat := s.pages.findIdx? (·.isNone)

/-- The superseded indicator of every current record of an id, worked out again (R3). -/
def State.resupersede (s : State) (pageId : Nat) : State :=
  { s with pages := s.pages.map fun p => p.map fun p =>
      if p.current && p.pageId == pageId then
        { p with superseded := s.liveRecords.any fun (_, q) => q.current && q.pageId == pageId && decide (p.version < q.version) }
      else p }

/-- Raise or lower a record's use count (R4). -/
def State.addUse (s : State) (r : Option Resolution) (up : Bool) : State :=
  match r with
  | none => s
  | some r => s.modifyPage r.record fun p => { p with useCount := if up then p.useCount + 1 else p.useCount - 1 }

/-! ## The Store: tiles and the free pool (R43, R45, R52) -/

/-- The tile count the strap selects. -/
def tileCountOf : StoreSize → Nat
  | .mib128 => 32768
  | .mib256 => 65536

/-- The tile count of the machine. -/
def State.tileCount (s : State) : Nat := tileCountOf s.straps.size

/-- The degraded threshold: the tile count divided by 32 (R53). -/
def State.degradedThreshold (s : State) : Nat := s.tileCount / 32

/-- The free count (R44). -/
def State.freeCount (s : State) : Nat := s.tileCount - s.store.poolOut.length

/-- The retired count (R52). -/
def State.retiredCount (s : State) : Nat := s.store.retired.length

/-- The mapped count: tiles in the tile maps of all layer records (R44). -/
def State.mappedCount (s : State) : Nat := ((s.liveRecords.map fun (_, p) => p.tiles.length)).sum

/-- Whether a tile stands in the free pool. -/
def State.inPool (s : State) (t : Nat) : Bool := decide (t < s.tileCount) && !(s.store.poolOut.contains t)

/-- The least number from `i` on that a rising list does not hold. -/
def firstGap (i : Nat) : List Nat → Nat
  | [] => i
  | x :: xs => if x = i then firstGap (i + 1) xs else i

/-- The lowest-numbered tile of the free pool (R45). -/
def State.lowestFree (s : State) : Option Nat :=
  let t := firstGap 0 s.store.poolOut
  if t < s.tileCount then some t else none

/-- Take a tile out of the free pool. -/
def State.takeFromPool (s : State) (t : Nat) : State :=
  { s with store := { s.store with poolOut := insertRising t s.store.poolOut } }

/-- Give tiles back to the free pool (R46). -/
def State.giveToPool (s : State) (tiles : List Nat) : State :=
  { s with store := { s.store with poolOut := s.store.poolOut.filter fun t => !(tiles.contains t) } }

/-! ## The DRAM (R43, R47, R48) -/

/-- The number of a tile's slot. -/
def slotNumber (tile slot : Nat) : Nat := tile * 16 + slot

/-- The cell listed at a slot number, if one is. -/
def cellIn (n : Nat) : List (Nat × SlotCell) → Option SlotCell
  | [] => none
  | (m, c) :: rest => if m = n then some c else cellIn n rest

/-- List a cell at a slot number, keeping the numbers rising. -/
def putCell (n : Nat) (c : SlotCell) : List (Nat × SlotCell) → List (Nat × SlotCell)
  | [] => [(n, c)]
  | (m, d) :: rest =>
    if n < m then (n, c) :: (m, d) :: rest
    else if n = m then (n, c) :: rest
    else (m, d) :: putCell n c rest

/-- The check code of 256 bytes at a slot number (tile × 16 + slot): computed from the bytes, the tile number and the slot
number, as the digits of one number (R48; log entry 8). -/
def checkCodeAt (n : Nat) (bytes : List Byte) : Nat :=
  Config.checkCode (bytes.foldl (fun acc b => 256 * acc + b.toNat) n)

/-- A slot with the check code of its own bytes at its own address, as every write leaves it (R48). -/
def codedCell (n : Nat) (bytes : List Byte) : SlotCell := ⟨bytes, checkCodeAt n bytes⟩

/-- The check of a slot read at a slot number: the code computed over the bytes read and the address they were read
from equals the code read (R48). -/
def SlotCell.passes (c : SlotCell) (n : Nat) : Bool := checkCodeAt n c.bytes == c.code

/-- The sweep's test pattern for a slot (R57): the 256 bytes of a free value, different for different slots. -/
def testPattern (n : Nat) : List Byte :=
  (List.range 256).map fun o => (Config.sweepPattern (BitVec.ofNat 2048 n)).extractLsb' (8 * o) 8

/-- The bitwise complement of the test pattern, which the sweep leaves in every slot of a tile (R57). -/
def sweptBytes (n : Nat) : List Byte := (testPattern n).map fun b => ~~~b

/-- What a slot that is not listed holds: the sweep's complement pattern with its code where a sweep has written the
tile, and otherwise what power-on left, a free value (R57; log entry 37). -/
def unlistedCell (swept n : Nat) : SlotCell :=
  if n / 16 < swept then codedCell n (sweptBytes n)
  else ⟨(List.range 256).map (Config.powerOnByte n), Config.powerOnCode n⟩

/-- The slot that stands at a slot number. -/
def Dram.slotAt (d : Dram) (n : Nat) : SlotCell := (cellIn n d.cells).getD (unlistedCell d.swept n)

/-- The 256 bytes that stand in a slot. -/
def Dram.bytesAt (d : Dram) (n : Nat) : List Byte := (d.slotAt n).bytes

/-- The check code of a slot agrees with its bytes (R48). -/
def Dram.agrees (d : Dram) (n : Nat) : Bool := (d.slotAt n).passes n

/-- Write a slot. -/
def Dram.write (d : Dram) (n : Nat) (c : SlotCell) : Dram := { d with cells := putCell n c d.cells }

/-- Write every slot of a tile with its check code. -/
def Dram.writeTile (d : Dram) (tile : Nat) (pattern : Nat → List Byte) : Dram :=
  (List.range 16).foldl
    (fun d k => d.write (slotNumber tile k) (codedCell (slotNumber tile k) (pattern (slotNumber tile k)))) d

/-- The sweep writes its complement pattern into a tile (R57). Its slots are listed only where the tiles before it have
not been swept, which no run reaches. -/
def Dram.sweepTile (d : Dram) (tile : Nat) : Dram :=
  if tile ≤ d.swept then
    ⟨max d.swept (tile + 1), d.cells.filter fun e => !(e.1 / 16 == tile)⟩
  else d.writeTile tile sweptBytes

/-- One byte of the tile area by its address: tile × 4096 + slot × 256 + offset (R43). -/
def Dram.readByte (d : Dram) (address : Nat) : Byte := (d.bytesAt (address / 256)).getD (address % 256) 0

/-- The slot numbers of a list of cells rise strictly. -/
def risingCells : List (Nat × SlotCell) → Bool
  | [] => true
  | [_] => true
  | (m, _) :: (n, d) :: rest => decide (m < n) && risingCells ((n, d) :: rest)

/-- The canonical form of the DRAM: slot numbers strictly rising, and 256 bytes in every cell. -/
def Dram.wf (d : Dram) : Bool := risingCells d.cells && d.cells.all (fun e => decide (e.2.bytes.length = 256))

/-- The 256 bytes a write of a payload stores: the payload, then zeros (R47). -/
def paddedSlot (payload : List Byte) : List Byte :=
  payload.take 256 ++ List.replicate (256 - (payload.take 256).length) 0

/-- Serve a write: the whole slot and its check code (R47, R48). -/
def State.dramWrite (s : State) (w : StoreWrite) : State :=
  { s with store := { s.store with
      dram := s.store.dram.write (slotNumber w.tile w.slot)
        (codedCell (slotNumber w.tile w.slot) (paddedSlot w.payload)) } }

/-! ## Reading the DRAM (R48, R49) -/

/-- A fault concerns the slot. -/
def faultOf (k : Nat) : DramFault → Bool
  | .bytes slot _ => slot == k
  | .code slot _ => slot == k
  | .place slot _ _ => slot == k

/-- What the DRAM gives for slot `k` of a tile under the faults the world decides: what stands there, or other bytes,
another code, or what stands in another place (log entry 7). -/
def Dram.readSlot (d : Dram) (tile k : Nat) (faults : List DramFault) : SlotCell :=
  match faults.find? (faultOf k) with
  | none => d.slotAt (slotNumber tile k)
  | some (.bytes _ b) => { d.slotAt (slotNumber tile k) with bytes := paddedSlot b }
  | some (.code _ c) => { d.slotAt (slotNumber tile k) with code := c }
  | some (.place _ t m) => d.slotAt (slotNumber t m)

/-- Slot `k` of a tile, as the DRAM gives it, passes its check (R48). -/
def Dram.slotPasses (d : Dram) (tile k : Nat) (faults : List DramFault) : Bool :=
  (d.readSlot tile k faults).passes (slotNumber tile k)

/-- A read pass of the sweep (R57): every slot of the tile passes its check and holds the pattern. -/
def Dram.tilePasses (d : Dram) (tile : Nat) (pattern : Nat → List Byte) (faults : List DramFault) : Bool :=
  (List.range 16).all fun k =>
    d.slotPasses tile k faults && (d.readSlot tile k faults).bytes == pattern (slotNumber tile k)

/-! ## Writes in flight -/

/-- The number of busy write slots (R37). -/
def State.busySlots (s : State) : Nat := (s.intake.slots.filter (·.isSome)).length

/-- A free write slot: the lowest-numbered (log entry 26). -/
def State.freeSlot (s : State) : Option Nat := s.intake.slots.findIdx? (·.isNone)

/-- Some store write issued against a page record has not completed (R170). -/
def State.writesInFlight (s : State) : Bool := s.intake.slots.any (·.isSome) || s.repair.write.isSome

/-- The write a reference stands for. -/
def State.writeOf (s : State) : WriteRef → Option StoreWrite
  | .intake i => s.intake.slots.getD i none
  | .repair => s.repair.write

/-! ## The record of the last step -/

/-- Clear the record of what the outputs did, as a step begins (log entry 24). -/
def State.beginStep (s : State) : State :=
  { s with drive := { s.drive with plateEnd := false }, reports := { s.reports with sent := [] } }

end Sys2Proof.Machine
end

