-- ==== Sys2Proof/Machine/Layout.lean ====
section
/-! DEFINITION. The byte layouts of the reports of the return lane (R173, R176, tables 10-1 and 10-4). -/

namespace Sys2Proof.Machine

open Sys2Proof (Byte CrcInit)

/-- An entry of the damaged-layer list: ink, band, layer, missing count or 0 for length unknown. A missing count of 0 is
sent as 0 too, which reads as length unknown: the model's choice (log entry 38). -/
def DamagedEntry.bytes (e : DamagedEntry) : List Byte :=
  [byteOf e.layer.ink.code, byteOf e.layer.band, byteOf e.layer.kind.code] ++ be16 (e.missing.getD 0)

/-- The damaged list from the field "layers DAMAGED" on (PAGE report and QUERY PAGE). -/
def damagedListBytes (damaged : Nat) (more : Bool) (entries : List DamagedEntry) : List Byte :=
  be16 damaged ++ [boolByte more, byteOf entries.length] ++ entries.flatMap DamagedEntry.bytes

/-- The payload of a PAGE report. -/
def PageReport.bytes (p : PageReport) : List Byte :=
  be16 p.pageId ++ [byteOf p.version, byteOf p.record, byteOf p.state.code] ++ be16 p.repaired
    ++ damagedListBytes p.damaged p.more p.entries

/-- A page of a PLATE report: page id, then version or 0 for unresolved; page id 0 for an absent page. -/
def reportedPageBytes : Option ReportedPage → List Byte
  | none => be16 0 ++ [byteOf 0]
  | some p => be16 p.pageId ++ [byteOf (p.version.getD 0)]

/-- The payload of a PLATE report. The two fault counts are sent as the low byte of what R94 has counted, which can exceed
the 192 that R143 gives: the model's choice (log entry 39). -/
def PlateReport.bytes (p : PlateReport) : List Byte :=
  be16 p.tag ++ [byteOf p.outcome.code, byteOf p.outcome.reasonCode, byteOf p.stateAtEnd.code]
    ++ be16 p.linesSent ++ reportedPageBytes (some p.left) ++ reportedPageBytes p.right
    ++ [byteOf p.summary.lineMarked, byteOf p.summary.pictureHeld, byteOf p.summary.unpackFaults,
        byteOf p.summary.storeFaults, boolByte p.summary.clipped]

/-- The payload of a STARTED report. -/
def StartedReport.bytes (r : StartedReport) : List Byte :=
  [byteOf r.cause.code, byteOf (storeSizeCode r.size)] ++ be32 r.tileCount ++ be32 r.retired
    ++ [boolByte r.aborted.isSome] ++ be16 (r.aborted.getD 0)

/-- The kind byte of a report (table 10-1). -/
def Report.kindByte : Report → Byte
  | .reply _ _ _ _ => 0x8
  | .page _ => 0x9
  | .plate _ => 0xA
  | .alarm _ _ => 0xB
  | .started _ => 0xC

/-- The payload of a report (table 10-4). -/
def Report.payload : Report → List Byte
  | .reply tag code reason body =>
      be16 tag ++ [byteOf code, boolByte reason.isSome, byteOf ((reason.map Reason.code).getD 0)] ++ body
  | .page p => p.bytes
  | .plate p => p.bytes
  | .alarm latched mask => be16 latched.toNat ++ be16 mask.toNat
  | .started r => r.bytes

/-- The bytes of a report parcel from the kind byte through the last payload byte: flags 0, then the payload length
(table 10-1, R173). -/
def Report.covered (r : Report) : List Byte := [r.kindByte, 0] ++ be16 r.payload.length ++ r.payload

/-- A whole report parcel, with its CRC trailer (R173). -/
def Report.parcel (c : CrcInit) (r : Report) : List Byte := r.covered ++ crcTrailer c r.covered

end Sys2Proof.Machine
end

