-- ==== Sys2Proof/Machine/Flags.lean ====
section
/-! DEFINITION. Status and flags: the counters (R181), the alarm latches, mask and ALERT (R177 to R180), the report
queue and the return lane (R172, R173), the flow symbols (R40) and the holding flag (R38, R39). -/

namespace Sys2Proof.Machine

open Sys2Proof (Byte CrcInit)

/-! ## Counters (R181) -/

/-- A count of `n` on a counter that stays at 65535. -/
def saturate (x n : Nat) : Nat := min Config.counterMax (x + n)

/-- Count `n` times. -/
def Counters.add (c : Counters) (n : Nat) : Counter → Counters
  | .discardedFull => { c with discardedFull := saturate c.discardedFull n }
  | .checkFail => { c with checkFail := saturate c.checkFail n }
  | .malformed => { c with malformed := saturate c.malformed n }
  | .assemblyTimeouts => { c with assemblyTimeouts := saturate c.assemblyTimeouts n }
  | .unknownPage => { c with unknownPage := saturate c.unknownPage n }
  | .duplicate => { c with duplicate := saturate c.duplicate n }
  | .late => { c with late := saturate c.late n }
  | .storeFullLosses => { c with storeFullLosses := saturate c.storeFullLosses n }
  | .layersRepaired => { c with layersRepaired := saturate c.layersRepaired n }
  | .thresholdsRaised => { c with thresholdsRaised := saturate c.thresholdsRaised n }
  | .unpackFaults => { c with unpackFaults := saturate c.unpackFaults n }
  | .platesDone => { c with platesDone := saturate c.platesDone n }
  | .platesSpoiled => { c with platesSpoiled := saturate c.platesSpoiled n }
  | .reportsLost => { c with reportsLost := saturate c.reportsLost n }
  | .earlyLineRequests => { c with earlyLineRequests := saturate c.earlyLineRequests n }

/-- The counters in the order of the QUERY COUNTERS reply. -/
def Counters.toList (c : Counters) : List Nat :=
  [c.discardedFull, c.checkFail, c.malformed, c.assemblyTimeouts, c.unknownPage, c.duplicate, c.late,
   c.storeFullLosses, c.layersRepaired, c.thresholdsRaised, c.unpackFaults, c.platesDone, c.platesSpoiled,
   c.reportsLost, c.earlyLineRequests]

/-! ## Alarms (R177 to R180) -/

/-- The bit of an alarm in an alarm set (table 10-2). -/
def Alarm.index : Alarm → Nat
  | .inletOverflow => 0 | .parcelCheck => 1 | .parcelMalformed => 2 | .assemblyTimeout => 3 | .storeFull => 4
  | .storeLow => 5 | .tileRetired => 6 | .storeDegraded => 7 | .pageDamaged => 8 | .unpackFault => 9
  | .plateSpoiled => 10 | .headHalt => 11 | .haltLineStuck => 12 | .reportsLost => 13

/-- The alarm set that holds one alarm. -/
def Alarm.bit (a : Alarm) : BitVec 14 := 1#14 <<< a.index

/-- Whether a latch is set. -/
def Reports.latched (rp : Reports) (a : Alarm) : Bool := rp.latches.getLsbD a.index

/-- Whether an alarm is masked. -/
def Reports.masked (rp : Reports) (a : Alarm) : Bool := rp.mask.getLsbD a.index

/-- ALERT is driven low: some unmasked latch is set (R180). -/
def Reports.alertLow (rp : Reports) : Bool := !(rp.latches &&& ~~~rp.mask == 0)

/-! ## The return lane (R40, R173) -/

/-- The symbol that matches the holding flag. -/
def symbolFor (holding : Bool) : FlowSymbol := if holding then .hold else .resume

/-- Send the flow symbol if the holding flag differs from the last one sent (R40). -/
def Reports.sendSymbol (rp : Reports) (holding : Bool) : Reports :=
  if rp.lastSymbol = some (symbolFor holding) then rp
  else { rp with lastSymbol := some (symbolFor holding), sent := rp.sent ++ [.symbol (symbolFor holding)] }

/-- The ALARM report that is owed, with the latched set and the mask as they stand: none where nothing is owed or no
unmasked latch is set (R178). -/
def Reports.owedReport (rp : Reports) : List Report :=
  if rp.owed && rp.alertLow then [.alarm rp.latches rp.mask] else []

/-- A place of the queue is free: the owed ALARM report joins the tail, if any unmasked latch is set, and the indicator
becomes no (R178). -/
def Reports.queueOwed (rp : Reports) : Reports := { rp with owed := false, queue := rp.queue ++ rp.owedReport }

/-- What the lane does at a parcel boundary (R173): the symbol that the flag calls for goes out, then the head report leaves
the queue and its sending begins. -/
def Reports.sendNext (rp : Reports) (holding : Bool) (crc : CrcInit) : Reports :=
  match rp.queue with
  | [] => rp.sendSymbol holding
  | r :: rest =>
    { rp.sendSymbol holding with
      queue := rest, sending := some r, sent := (rp.sendSymbol holding).sent ++ [.parcel (r.parcel crc)] }

/-- A parcel boundary (R173) whose freeing is taken before any cause that comes with it: where the head report leaves the
queue a place frees, so that an owed ALARM report joins at this event, behind the reports of the event (R178). -/
def Reports.boundary (rp : Reports) (holding : Bool) (crc : CrcInit) : Reports :=
  match rp.queue with
  | [] => rp.sendNext holding crc
  | _ :: _ => (rp.sendNext holding crc).queueOwed

/-! ## The report queue (R172, R178) -/

/-- Whether a report is an ALARM report. -/
def Report.isAlarm : Report → Bool
  | .alarm _ _ => true
  | .reply _ _ _ _ => false
  | .page _ => false
  | .plate _ => false
  | .started _ => false

/-- A report is dropped at a full queue: reports_lost counts and REPORTS_LOST is latched; an ALARM report, or a
clear-to-set change of the unmasked REPORTS_LOST, is owed instead of queued (R172, R178). -/
def Reports.drop (rp : Reports) (isAlarm : Bool) : Reports :=
  { rp with
    counters := rp.counters.add 1 .reportsLost
    latches := rp.latches ||| Alarm.reportsLost.bit
    owed := rp.owed || isAlarm || (!rp.latched .reportsLost && !rp.masked .reportsLost) }

/-- Queue a report: it joins the tail, or is dropped when the queue holds 32 (R172). -/
def Reports.enqueue (rp : Reports) (r : Report) : Reports :=
  if Config.reportCapacity ≤ rp.queue.length then rp.drop r.isAlarm else { rp with queue := rp.queue ++ [r] }

/-- Latch an alarm (R177): a clear-to-set change of an unmasked alarm queues an ALARM report, or is owed until the
STARTED report of a power-on or pin reset has been queued. -/
def Reports.latch (rp : Reports) (a : Alarm) : Reports :=
  if rp.latched a then rp
  else if rp.masked a then { rp with latches := rp.latches ||| a.bit }
  else if rp.awaitStarted then { rp with latches := rp.latches ||| a.bit, owed := true }
  else Reports.enqueue { rp with latches := rp.latches ||| a.bit } (.alarm (rp.latches ||| a.bit) rp.mask)

/-! ## The same operations on the state -/

/-- Queue a report. -/
def State.report (s : State) (r : Report) : State := { s with reports := s.reports.enqueue r }

/-- Latch an alarm. -/
def State.latch (s : State) (a : Alarm) : State := { s with reports := s.reports.latch a }

/-- Count on a counter. -/
def State.count (s : State) (c : Counter) (n : Nat := 1) : State :=
  { s with reports := { s.reports with counters := s.reports.counters.add n c } }

/-- The owed ALARM report. -/
def State.queueOwed (s : State) : State := { s with reports := s.reports.queueOwed }

/-- What the return lane does at a parcel boundary, the owed ALARM report aside. -/
def State.sendNext (s : State) : State :=
  { s with reports := s.reports.sendNext s.intake.holding s.straps.crcInit }

/-- A parcel boundary of the return lane. -/
def State.boundary (s : State) : State :=
  { s with reports := s.reports.boundary s.intake.holding s.straps.crcInit }

/-! ## One event (R40, R173) -/

/-- An event on an idle lane is a boundary: it has changed the holding flag, or has queued a report into an empty queue
(R40, R173). -/
def State.boundaryAfter (before s : State) : Bool :=
  s.reports.sending.isNone
    && (s.intake.holding != before.intake.holding || (before.reports.queue.isEmpty && !s.reports.queue.isEmpty))

/-- The end of an event: on an idle lane the boundary follows, with the flag and the queue as the event leaves them, so
that a symbol goes ahead of a report of the same event (R40, R173). -/
def State.settle (before s : State) : State := if before.boundaryAfter s then s.boundary else s

/-- One event: the record of the last step is cleared, the event acts, and the lane settles. -/
def State.event (s : State) (act : State → State) : State := s.beginStep.settle (act s.beginStep)

/-! ## The holding flag (R38, R39, R40) -/

/-- The value the holding flag takes at an evaluation with the given occupancy and free count (R38). -/
def holdingAfter (f : FlowSettings) (holding : Bool) (occupancy free : Nat) : Bool :=
  if holding then !(decide (occupancy ≤ f.resume) && decide (f.high ≤ free))
  else decide (f.hold ≤ occupancy) || decide (free ≤ f.low)

/-- The reserve cause is present (R39). -/
def reservePresent (f : FlowSettings) (free : Nat) : Bool := decide (free ≤ f.low)

/-- An evaluation of the holding flag (R38): the flag, and STORE_LOW where the reserve cause has become present (R39). No
evaluation is made during the sweep. -/
def State.evalFlag (s : State) : State :=
  if s.store.sweep.isSome then s
  else
    let s1 := { s with intake := { s.intake with
      holding := holdingAfter s.intake.flow s.intake.holding s.intake.queue.length s.freeCount
      reserveCause := reservePresent s.intake.flow s.freeCount } }
    if reservePresent s.intake.flow s.freeCount && !s.intake.reserveCause then s1.latch .storeLow else s1

end Sys2Proof.Machine
end

