-- ==== Sys2Proof/Machine/Unpack.lean ====
section
/-! DEFINITION. The unpacker: the packing codes, row by row (R79 to R84), and the buffer of a stream (R90, R91). -/

namespace Sys2Proof.Machine

open Sys2Proof (Byte)

/-! ## One byte of the packed stream (R80, R81) -/

/-- A row under construction: the bytes placed and the code in progress. -/
structure RowState where
  placed : List Byte
  op : UnpackOp
  deriving DecidableEq, Repr

/-- What one byte does to a row: it goes on; or it is complete, overrun or not. -/
inductive RowStep where
  | more (r : RowState)
  | complete (row : List Byte) (overrun : Bool)
  deriving DecidableEq, Repr

/-- The operation a code byte begins (R80). -/
def opOfCode (c : Nat) : UnpackOp :=
  if c < 128 then .literal (c + 1) else if c < 254 then .run (c - 125) else if c = 254 then .verticalCopy else .rowFill

/-- Place `k` bytes of output at the fill point; an output that reaches past the row end is an overrun (R81). -/
def placeOutput (width : Nat) (placed chunk : List Byte) (k : Nat) : RowStep :=
  if placed.length + k < width then .more ⟨placed ++ chunk, .code⟩
  else .complete ((placed ++ chunk).take width) (decide (width < placed.length + k))

/-- Consume one byte (R80, R81). A literal that reaches past the row end has placed its row; its source bytes that were
not placed are consumed without effect, and the row is complete with the last of them. -/
def eatByte (width : Nat) (previous : List Byte) (r : RowState) (b : Byte) : RowStep :=
  match r.op with
  | .skip k => if k ≤ 1 then .complete r.placed true else .more ⟨r.placed, .skip (k - 1)⟩
  | .code => .more ⟨r.placed, opOfCode b.toNat⟩
  | .literal k =>
    if r.placed.length + 1 < width then .more ⟨r.placed ++ [b], if k ≤ 1 then .code else .literal (k - 1)⟩
    else if k ≤ 1 then .complete ((r.placed ++ [b]).take width) false
    else .more ⟨(r.placed ++ [b]).take width, .skip (k - 1)⟩
  | .run k => placeOutput width r.placed (List.replicate k b) k
  | .verticalCopy => placeOutput width r.placed ((previous.drop r.placed.length).take (b.toNat + 1)) (b.toNat + 1)
  | .rowFill => .complete (r.placed ++ List.replicate (width - r.placed.length) b) false

/-- What the unpacker makes of the bytes at hand: a complete row and the bytes left, or none left and a row still
under construction. -/
inductive RowResult where
  | complete (row : List Byte) (overrun : Bool) (rest : List Byte)
  | starved (r : RowState)
  deriving DecidableEq, Repr

/-- Consume bytes until the row is complete or none are left. -/
def eatBytes (width : Nat) (previous : List Byte) : RowState → List Byte → RowResult
  | r, [] => .starved r
  | r, b :: bs =>
    match eatByte width previous r b with
    | .more r' => eatBytes width previous r' bs
    | .complete row overrun => .complete row overrun bs

/-! ## A stream and its rows -/

/-- A read capture's stream at its start (R87): empty buffer, nothing issued, position 0, row 0. -/
def Stream.start (length : Nat) (tiles : List Nat) (rowWidth rowCount : Nat) : Stream :=
  { length, tiles, rowWidth, rowCount, issued := 0, arrived := 0, buffer := [], position := 0, rows := 0,
    previous := List.replicate rowWidth 0, placed := [], op := .code, mode := .reading, cut := none,
    ahead := none }

/-- The number of data slots of the stream: the segment count. -/
def Stream.slotCount (u : Stream) : Nat := segmentCount u.length

/-- The row under construction is placed in full and only operand bytes of its overrun literal are still to come (R81). -/
def UnpackOp.skips : UnpackOp → Bool
  | .skip _ => true
  | .code => false
  | .literal _ => false
  | .run _ => false
  | .verticalCopy => false
  | .rowFill => false

/-- The stream after a row has been produced: the row is the previous row, and a stream whose last row this was is
finished, its buffered bytes dropped (R83, R91; log entry 17). -/
def Stream.afterRow (u : Stream) (row : List Byte) (rest : List Byte) : Stream :=
  { u with
    buffer := if u.rows + 1 = u.rowCount then [] else rest
    position := u.position + (u.buffer.length - rest.length)
    rows := u.rows + 1
    previous := row
    placed := []
    op := .code
    mode := if u.rows + 1 = u.rowCount then .finished else u.mode }

/-- The last row of the band has been produced and bytes of the stream are left over (R83). -/
def Stream.leftover (u : Stream) : Bool := (u.mode == .finished) && decide (u.position < u.length)

/-- How the next row of a stream stands (R86): it can be produced, with the stream after it; the stream has ended
(R82); it lies at or after the cut (R92); or it waits, with the stream as far as unpacking has gone (R91). -/
inductive Verdict where
  | produced (row : List Byte) (overrun : Bool) (u : Stream)
  | ended
  | cut
  | waiting (u : Stream)
  deriving DecidableEq, Repr

/-- Judge the next row of a stream by its bytes. A row is produced when all its codes and operands have been consumed (R92);
where the stream ends within the operand bytes of an overrun literal, the row, placed in full, stands (log entry 16). A row
that waits has taken every byte at hand, as R91 says. DESIGN CHOICE (unsafe): the worked case 5.9 leaves a tail of segment 15
in the buffer instead (log entry 40). -/
def Stream.judge (u : Stream) : Verdict :=
  match u.mode with
  | .ended => .ended
  | .lost => .cut
  | .finished => .ended
  | .reading =>
    match eatBytes u.rowWidth u.previous ⟨u.placed, u.op⟩ u.buffer with
    | .complete row overrun rest => .produced row overrun (u.afterRow row rest)
    | .starved r =>
      if u.slotCount ≤ u.arrived then (if r.op.skips then .produced r.placed true (u.afterRow r.placed []) else .ended)
      else if u.cut.isSome then .cut
      else .waiting { u with buffer := [], position := u.position + u.buffer.length, placed := r.placed, op := r.op }

/-- The row that the next line needs of a stream: the one completed ahead of the line, if there is one, and otherwise the
next row (R86, R91). -/
def Stream.verdict (u : Stream) : Verdict :=
  match u.ahead with
  | some overrun => .produced u.previous overrun { u with ahead := none }
  | none => u.judge

/-- The stream once the row that a held-up line needs of it has been unpacked as far as the buffer allows (R86, R91). A row
that can be completed is completed ahead of its line: its bytes are consumed and their room is freed, while what it does
at the making of the line, its faults and the held contone row, waits for the line (R84, R93; log entry 15). -/
def Stream.goOn (u : Stream) : Stream :=
  match u.verdict with
  | .waiting u' => u'
  | .produced _ overrun u' => { u' with ahead := some overrun }
  | .ended => u
  | .cut => u

/-- A row of the stream is under construction: bytes of it have been placed, or a code of it is in progress (R91). -/
def Stream.building (u : Stream) : Bool := (u.placed != []) || (u.op != .code)

/-- The stream once the unpacker has gone on with the row it is building, where it is building one, as far as the buffer
allows (R91). The row held up a line when it was begun, and it goes on whatever holds the line up now, a row of the other
slot or a full pool (log entry 15). -/
def Stream.goOnBuilding (u : Stream) : Stream := if u.building then u.goOn else u

/-- The slots whose every byte has been consumed, or dropped after the last row (R91). The bytes that a waiting row has taken
are consumed. DESIGN CHOICE (unsafe): in the worked case 5.9 this frees slot 15 too, where the case frees slots 0..14 (log
entry 40). -/
def Stream.slotsConsumed (u : Stream) : Nat :=
  if u.mode == .finished then u.arrived
  else if u.length ≤ u.position then u.slotCount else u.position / 256

/-- Free room in the buffer, in slots (R90, R91). -/
def Stream.room (u : Stream) : Nat := Config.bufferSlots - (u.issued - u.slotsConsumed)

/-- The slots of the current tile that have not been issued (R90). -/
def Stream.leftInTile (u : Stream) : Nat := min (16 - u.issued % 16) (u.slotCount - u.issued)

/-- The slots the next read of the stream names: as many as the current tile and the room allow (R90). -/
def Stream.nextSlots (u : Stream) : List Nat :=
  (List.range (min u.leftInTile u.room)).map (fun i => u.issued % 16 + i)

/-- A passed read's slots join the buffer, each with its segment's bytes (R91); after the last row they are dropped. -/
def Stream.receive (u : Stream) (data : List (List Byte)) : Stream :=
  if u.cut.isSome then u
  else
    { u with
      arrived := u.arrived + data.length
      buffer :=
        if u.mode == .finished then []
        else u.buffer ++ (data.zipIdx.flatMap fun (d, i) => d.take (segmentLength u.length (u.arrived + i))) }

/-- A failed read cuts the stream at the first byte of the first slot it named, unless it is already cut (R92). -/
def Stream.cutAt (u : Stream) (position : Nat) : Stream :=
  if u.cut.isSome then u else { u with cut := some position }

end Sys2Proof.Machine
end

