-- ==== Sys2Proof/Machine/Screening.lean ====
section
/-! DEFINITION. Screening: the geometry of a plate line and the dot arithmetic (R98 to R108). -/

namespace Sys2Proof.Machine

open Sys2Proof (Byte)

/-- A LINE row handed to the Screener: its bytes, or marked (R82, R88, R92). -/
inductive LineRow where
  | bytes (b : List Byte)
  | marked
  deriving DecidableEq, Repr

/-- The rows of one page slot for one plate line. -/
structure SlotRows where
  line : LineRow
  picture : List Byte
  deriving DecidableEq, Repr

/-- The content width of a plate (R100). -/
def contentWidth (leftWidth gutter : Nat) (rightWidth : Option Nat) : Nat :=
  match rightWidth with
  | none => leftWidth
  | some w => leftWidth + gutter + w

/-- The plate line count (R85, R98). -/
def plateLineCount (margin leftHeight : Nat) (rightHeight : Option Nat) : Nat :=
  margin + max leftHeight (rightHeight.getD 0)

/-- The tone of a contone value: its entry in the curve (R102). -/
def tone (curve : List Byte) (c : Nat) : Nat := (curve.getD c 0).toNat

/-- The toned value held within floor and ceiling (R103). -/
def toned (floor ceiling v1 : Nat) : Nat :=
  if v1 = 0 ∨ v1 = 255 then v1 else if v1 < floor then floor else if ceiling < v1 then ceiling else v1

/-- The position of a plate dot's threshold in the screen (R104). -/
def thresholdPosition (t : ScreenTable) (x y : Nat) : Nat := (y % t.h) * t.w + (x + y / t.h * t.sh) % t.w

/-- The threshold of a plate dot (R104). -/
def threshold (t : ScreenTable) (x y : Nat) : Nat := (t.entries.getD (thresholdPosition t x y) 0).toNat

/-- The damage mark at plate coordinates (R106). -/
def damageMark (x y : Nat) : Bool := decide ((x + y) % 64 < 8)

/-- The line-work bit of a page dot (R106). -/
def lineWorkBit (row : LineRow) (px x y : Nat) : Bool :=
  match row with
  | .bytes b => (b.getD (px / 8) 0).getMsbD (px % 8)
  | .marked => damageMark x y

/-- The screened dot of a page dot (R101 to R105). -/
def screenedDot (t : ScreenTable) (curve : List Byte) (floor ceiling : Nat) (picture : List Byte) (px x y : Nat) : Bool :=
  decide (threshold t x y ≤ toned floor ceiling (tone curve (u8 picture (px / 4))))

/-- The output dot of a page dot (R107). -/
def pageDot (t : ScreenTable) (curve : List Byte) (floor ceiling : Nat) (rows : SlotRows) (px x y : Nat) : Bool :=
  lineWorkBit rows.line px x y || screenedDot t curve floor ceiling rows.picture px x y

/-- The content of plate dot `x` on line `y` (R98, R99): the rows of a page slot are absent where its page is
exhausted or the slot is absent. -/
def plateDot (pl : Plate) (t : ScreenTable) (curve : List Byte) (left right : Option SlotRows) (y x : Nat) : Bool :=
  if x < pl.left.width then
    match left with
    | none => false
    | some rows => pageDot t curve pl.settings.floor pl.settings.ceiling rows x x y
  else
    match pl.right with
    | none => false
    | some page =>
      if pl.left.width + pl.gutter ≤ x ∧ x < pl.left.width + pl.gutter + page.width then
        match right with
        | none => false
        | some rows =>
          pageDot t curve pl.settings.floor pl.settings.ceiling rows (x - (pl.left.width + pl.gutter)) x y
      else false

/-- The W_h dots of an image line (R99, R100, R107). -/
def imageLine (pl : Plate) (t : ScreenTable) (curve : List Byte) (left right : Option SlotRows) (y : Nat) : Line :=
  (List.range pl.headWidth).map (plateDot pl t curve left right y)

/-- A margin line: all dots off (R98). -/
def marginLine (pl : Plate) : Line := List.replicate pl.headWidth false

/-- The ink record of an ink (R113). -/
def InkTable.get (t : InkTable) : Ink → Option InkBinding
  | .k => t.k | .c => t.c | .m => t.m | .y => t.y

/-- Replace the ink record of an ink. -/
def InkTable.set (t : InkTable) (i : Ink) (b : Option InkBinding) : InkTable :=
  match i with
  | .k => { t with k := b }
  | .c => { t with c := b }
  | .m => { t with m := b }
  | .y => { t with y := b }

/-- A screen slot that is READY. -/
def ScreenSlot.isReady : ScreenSlot → Bool
  | .ready _ => true
  | .empty => false
  | .loading _ => false

/-- The screen slot of a number. -/
def Screener.screen (sc : Screener) (n : Nat) : ScreenSlot := sc.screens.getD n .empty

/-- The curve slot of a number. -/
def Screener.curve (sc : Screener) (n : Nat) : Option (List Byte) := sc.curves.getD n none

/-- The table a plate is screened with; a captured slot is READY (R123). -/
def Screener.screenTable (sc : Screener) (n : Nat) : ScreenTable :=
  match sc.screen n with
  | .ready t => t
  | .loading t => t
  | .empty => ⟨1, 1, 0, []⟩

/-- The curve a plate is screened with. -/
def Screener.curveTable (sc : Screener) (n : Nat) : List Byte := (sc.curve n).getD []

/-- An ink is ready (R114). -/
def Screener.inkReady (sc : Screener) (i : Ink) : Bool :=
  match sc.inks.get i with
  | none => false
  | some b => (sc.screen b.screen).isReady && (sc.curve b.curve).isSome

end Sys2Proof.Machine
end

