-- ==== Sys2Proof/Machine/Schedule.lean ====
section
/-! DEFINITION. The schedule as read from the state: resolutions (R129), the arming conditions (R133), the eligible
ticket (R135). -/

namespace Sys2Proof.Machine

/-- A record may be a resolution of a binding: it is current, of the binding's id, and of its version where that is
fixed (R129). -/
def Binding.names (b : Binding) (p : PageRecord) : Bool :=
  p.current && p.pageId == b.pageId && (match b.version with | none => true | some v => p.version == v)

/-- Of two candidate records, the one of higher version; the first where they are equal. -/
def higherVersion (a b : Nat × PageRecord) : Nat × PageRecord := if a.2.version < b.2.version then b else a

/-- The candidate of highest version. -/
def highest : List (Nat × PageRecord) → Option (Nat × PageRecord)
  | [] => none
  | x :: xs =>
    match highest xs with
    | none => some x
    | some y => some (higherVersion x y)

/-- The resolution of a binding (R129): the current record of the fixed version, or of the highest. -/
def State.resolve (s : State) (b : Binding) : Option Resolution :=
  (highest (s.liveRecords.filter fun (_, p) => b.names p)).map fun (r, p) => ⟨r, p.version⟩

/-- The resolutions of a ticket that are present, left first. -/
def Ticket.resolutions (t : Ticket) : List Resolution := t.leftRes.toList ++ t.rightRes.toList

/-- A resolution of the ticket names the record. -/
def Ticket.resolvedTo (t : Ticket) (r : Nat) : Bool := t.resolutions.any fun x => x.record == r

/-- Every binding the ticket has is resolved (R133). -/
def Ticket.resolved (t : Ticket) : Bool := t.leftRes.isSome && (t.right.isNone || t.rightRes.isSome)

/-- The page state meets the ticket's policy (R133). -/
def Policy.admits (p : Policy) (st : PageState) : Bool := st == .complete || (p == .imageMarked && st == .damaged)

/-- Every resolved page of a ticket passes a test. -/
def State.allPages (s : State) (t : Ticket) (f : PageRecord → Bool) : Bool :=
  t.resolutions.all fun x => match s.page? x.record with | none => false | some p => f p

/-- The first arming condition of R133 that fails, in the order of its table; none means the ticket arms. -/
def State.armingFailure (s : State) (t : Ticket) : Option FailCond :=
  if !t.resolved then some .unresolved
  else if !(s.allPages t fun p => hasInk p.inkSet t.ink) then some .inkAbsent
  else if !(s.allPages t fun p => t.policy.admits p.state) then some .pageNotReady
  else if !s.screener.inkReady t.ink then some .inkNotReady
  else none

/-- The state an arming evaluation gives a ticket; an IMAGING ticket keeps its state (R133, R134). -/
def State.armedState (s : State) (t : Ticket) : TicketState :=
  match t.state with
  | .imaging => .imaging
  | .posted => if (s.armingFailure t).isNone then .armed else .posted
  | .armed => if (s.armingFailure t).isNone then .armed else .posted

/-- The eligible ticket of a schedule under an order mode (R135). -/
def eligibleIn (mode : OrderMode) (schedule : List Ticket) : Option Ticket :=
  match mode with
  | .inOrder =>
    match schedule.find? (fun t => !(t.state == .imaging)) with
    | none => none
    | some t => if t.state = .armed then some t else none
  | .firstArmed => schedule.find? (fun t => t.state == .armed)

/-- The eligible ticket (R135). -/
def State.eligible (s : State) : Option Ticket := eligibleIn s.drive.settings.mode s.schedule

/-- The live ticket of a tag. -/
def State.ticket? (s : State) (tag : Nat) : Option Ticket := s.schedule.find? (fun t => t.tag == tag)

/-- Change the ticket of a tag. -/
def State.modifyTicket (s : State) (tag : Nat) (f : Ticket → Ticket) : State :=
  { s with schedule := s.schedule.map fun t => if t.tag == tag then f t else t }

/-- The IMAGING ticket, if there is one. -/
def State.imagingTicket (s : State) : Option Ticket := s.schedule.find? (fun t => t.state == .imaging)

end Sys2Proof.Machine
end

