-- ==== Sys2Proof/Machine/Prefetch.lean ====
section
/-! DEFINITION. Prefetch: band captures (R87, R88), its start (R85), the making of a line (R86), the reads of its
streams (R90 to R92), the held contone row (R93) and what it adds to the plate summary (R94). -/

namespace Sys2Proof.Machine

open Sys2Proof (Byte)

/-! ## Page slots and captures -/

/-- The page slot of a side. -/
def PrefetchJob.slot (j : PrefetchJob) : Side → Option PageSlot
  | .left => some j.left
  | .right => j.right

/-- Replace the page slot of a side that is present. -/
def PrefetchJob.setSlot (j : PrefetchJob) (side : Side) (ps : PageSlot) : PrefetchJob :=
  match side with
  | .left => { j with left := ps }
  | .right => { j with right := j.right.map fun _ => ps }

/-- The capture of a layer. -/
def PageSlot.capture (ps : PageSlot) : LayerKind → Capture
  | .line => ps.line
  | .picture => ps.picture

/-- Replace the capture of a layer. -/
def PageSlot.setCapture (ps : PageSlot) (kind : LayerKind) (c : Capture) : PageSlot :=
  match kind with
  | .line => { ps with line := c }
  | .picture => { ps with picture := c }

/-- A capture reads its layer. -/
def Capture.isFill (c : Capture) : Bool :=
  match c.kind with
  | .fill _ => true
  | .read _ => false

/-- The stream of a read capture. -/
def Capture.stream? (c : Capture) : Option Stream :=
  match c.kind with
  | .fill _ => none
  | .read u => some u

/-- Replace the stream of a read capture. -/
def Capture.withStream (c : Capture) (u : Stream) : Capture :=
  match c.kind with
  | .fill _ => c
  | .read _ => { c with kind := .read u }

/-- What a WHOLE or REPAIRED layer is captured as (R87): a read capture with its length and the tiles of its data
tile-map slots. Such a layer has a length; without one there is nothing to read, and it is filled (log entry 32). -/
def readCaptureOf (l : LayerRecord) (rowWidth rowCount : Nat) : CaptureKind :=
  if 0 < l.length.getD 0 then
    .read (Stream.start (l.length.getD 0)
      ((List.range (ceilDiv l.segments 16)).map fun k => (l.tileAt k).getD 0) rowWidth rowCount)
  else .fill l.state

/-- The kind of capture a layer record gives (R87): a read capture of a WHOLE or REPAIRED layer, a fill capture of
any other. -/
def captureKindOf (l : LayerRecord) (rowWidth rowCount : Nat) : CaptureKind :=
  match l.state with
  | .whole => readCaptureOf l rowWidth rowCount
  | .repaired => readCaptureOf l rowWidth rowCount
  | .empty => .fill .empty
  | .filling => .fill .filling
  | .repairing => .fill .repairing
  | .damaged => .fill .damaged

/-- The capture of one layer of a band of a page record, as it stands (R87). -/
def State.captureLayer (s : State) (record width height : Nat) (id : LayerId) (serial : Nat) : Capture :=
  let kind :=
    match (s.page? record).bind (fun p => p.layer? id) with
    | none => .fill .empty
    | some l => captureKindOf l (rowWidthOf id.kind width) (rowCountOf id.kind height id.band)
  { serial, kind, faulted := false, marked := match kind with | .fill _ => true | .read _ => false }

/-- A page slot with band `b` captured, LINE first (R87). -/
def State.captureBand (s : State) (ps : PageSlot) (ink : Ink) (b serial : Nat) : PageSlot :=
  { ps with
    line := s.captureLayer ps.record ps.width ps.height ⟨ink, b, .line⟩ serial
    picture := s.captureLayer ps.record ps.width ps.height ⟨ink, b, .picture⟩ (serial + 1) }

/-- What the fill captures of a band just captured add to the summary (R94). -/
def Summary.addFills (sm : Summary) (ps : PageSlot) : Summary :=
  { sm with
    lineMarked := sm.lineMarked + (if ps.line.isFill then 1 else 0)
    pictureHeld := sm.pictureHeld + (if ps.picture.isFill then 1 else 0) }

/-! ## The start (R85) -/

/-- A page slot before its first capture: cursor 0 and a held contone row of zeros. -/
def PageSlot.fresh (p : PlatePage) : PageSlot :=
  { record := p.record, width := p.width, height := p.height, cursor := 0,
    line := ⟨0, .fill .empty, false, false⟩, picture := ⟨0, .fill .empty, false, false⟩,
    held := List.replicate (rowWidthOf .picture p.width) 0 }

/-- Prefetch starts for the plate in context (R85): line 0, cursors 0, held rows of zeros, band 0 captured, left
slot first, and the fill captures counted. -/
def State.startPrefetch (s : State) (pl : Plate) : State :=
  let n := s.prefetch.serial
  let left := s.captureBand (PageSlot.fresh pl.left) pl.ink 0 n
  let right := pl.right.map fun p => s.captureBand (PageSlot.fresh p) pl.ink 0 (n + 2)
  let sm := pl.summary.addFills left
  let sm := match right with | none => sm | some ps => sm.addFills ps
  { s with
    prefetch := ⟨n + 4, some { nextLine := 0, left, right, firstSerial := n, storeFaulted := [] }⟩
    drive := { s.drive with plate := some { pl with summary := sm } } }

/-! ## The rows of one line (R86, R88, R92, R93) -/

/-- A LINE row is ready (R86). -/
def Capture.lineReady (c : Capture) : Bool :=
  match c.kind with
  | .fill _ => true
  | .read u =>
    match u.verdict with
    | .waiting _ => false
    | .produced _ _ _ => true
    | .ended => true
    | .cut => true

/-- PICTURE row `p` is ready (R86): produced already, or ready as a LINE row is. -/
def Capture.pictureReady (c : Capture) (p : Nat) : Bool :=
  match c.kind with
  | .fill _ => true
  | .read u => decide (p < u.rows) || c.lineReady

/-- The rows page line `j` needs of a slot are ready; a slot whose height is `j` or less needs none (R86). -/
def PageSlot.ready (ps : PageSlot) (j : Nat) : Bool :=
  decide (ps.height ≤ j) || (ps.line.lineReady && ps.picture.pictureReady (j % 256 / 4))

/-- What the making of a row does: the capture after it, the row, and the unpack faults met (R84). -/
structure RowMade (α : Type) where
  capture : Capture
  row : α
  faults : Nat

/-- The LINE row of a capture (R80 to R83, R88, R92). -/
def Capture.makeLineRow (c : Capture) : RowMade LineRow :=
  match c.kind with
  | .fill _ => ⟨c, .marked, 0⟩
  | .read u =>
    match u.verdict with
    | .produced row overrun u' =>
      ⟨{ c with kind := .read u' }, .bytes row, (if overrun then 1 else 0) + (if u'.leftover then 1 else 0)⟩
    | .ended => ⟨{ c with kind := .read { u with mode := .ended } }, .marked, if u.mode == .ended then 0 else 1⟩
    | .cut => ⟨{ c with kind := .read { u with mode := .lost } }, .marked, 0⟩
    | .waiting _ => ⟨c, .marked, 0⟩

/-- PICTURE row `p` of a capture, with the slot's held contone row; the row is the new held row where it has just
been produced (R80 to R83, R88, R92, R93). -/
def Capture.makePictureRow (c : Capture) (held : List Byte) (p : Nat) : RowMade (List Byte × List Byte) :=
  match c.kind with
  | .fill _ => ⟨c, (held, held), 0⟩
  | .read u =>
    if p < u.rows ∧ u.ahead = none then ⟨c, (u.previous, held), 0⟩
    else
      match u.verdict with
      | .produced row overrun u' =>
        ⟨{ c with kind := .read u' }, (row, row), (if overrun then 1 else 0) + (if u'.leftover then 1 else 0)⟩
      | .ended =>
        ⟨{ c with kind := .read { u with mode := .ended } }, (u.previous, held), if u.mode == .ended then 0 else 1⟩
      | .cut => ⟨{ c with kind := .read { u with mode := .lost } }, (held, held), 0⟩
      | .waiting _ => ⟨c, (held, held), 0⟩

/-- What the making of a slot's rows does: the slot after it, its rows, the faults met, and what it adds to the
plate summary. -/
structure SlotMade where
  slot : PageSlot
  rows : SlotRows
  faults : Nat
  newlyFaulted : Nat
  newlyMarked : Nat

/-- A capture that has met faults becomes faulted (R84). -/
def Capture.afterFaults (c : Capture) (faults : Nat) : Capture := { c with faulted := c.faulted || decide (0 < faults) }

/-- 1 where the capture becomes faulted by these faults (R84, R94). -/
def Capture.becomesFaulted (c : Capture) (faults : Nat) : Nat := if !c.faulted && decide (0 < faults) then 1 else 0

/-- Make the rows of page line `j` of a slot and advance its cursor (R86, steps 1 and 4). -/
def PageSlot.makeRows (ps : PageSlot) (j : Nat) : SlotMade :=
  let l := ps.line.makeLineRow
  let p := ps.picture.makePictureRow ps.held (j % 256 / 4)
  let marks := (l.row == .marked) && !ps.line.marked
  { slot := { ps with
      cursor := j + 1
      line := { l.capture.afterFaults l.faults with marked := ps.line.marked || marks }
      picture := p.capture.afterFaults p.faults
      held := p.row.2 }
    rows := ⟨l.row, p.row.1⟩
    faults := l.faults + p.faults
    newlyFaulted := ps.line.becomesFaulted l.faults + ps.picture.becomesFaulted p.faults
    newlyMarked := if marks then 1 else 0 }

/-! ## Going on with a row that waits (R86, R91) -/

/-- A capture goes on with the row that a held-up line needs of it, as far as its buffer allows. -/
def Capture.goOn (c : Capture) : Capture :=
  match c.kind with
  | .fill _ => c
  | .read u => { c with kind := .read u.goOn }

/-- The captures of a slot of which a row holds up page line `j` go on with the rows that the line needs of them. A slot
whose rows are all ready is left as it stands: its rows are not completed ahead of a holdup by the other slot (R86), but
for the row that a passed read finds under construction (`Stream.goOnBuilding`). Where rows of both slots hold up the
line, each slot goes on, which is the model's reading (log entry 15). -/
def PageSlot.goOn (ps : PageSlot) (j : Nat) : PageSlot :=
  if ps.ready j then ps
  else
    { ps with
      line := ps.line.goOn
      picture :=
        match ps.picture.stream? with
        | none => ps.picture
        | some u => if j % 256 / 4 < u.rows then ps.picture else ps.picture.goOn }

/-- The slots go on with the rows of the next plate line (log entry 15). -/
def PrefetchJob.goOn (j : PrefetchJob) (pl : Plate) : PrefetchJob :=
  if j.nextLine < pl.margin ∨ pl.lineCount ≤ j.nextLine then j
  else
    { j with
      left := j.left.goOn (j.nextLine - pl.margin)
      right := j.right.map fun ps => ps.goOn (j.nextLine - pl.margin) }

/-! ## Making a line (R86) -/

/-- The plate is in context: the drive is PRIMING or IMAGING (R97). -/
def DriveState.inContext : DriveState → Bool
  | .priming => true
  | .imaging => true
  | .idle => false
  | .waitPlate => false
  | .unloading => false
  | .halted => false

/-- Prefetch can make the next line (R86): a plate is in context, the pool has room, lines are left to make, and
every row the line needs is ready. -/
def State.canMakeLine (s : State) : Bool :=
  match s.drive.plate, s.prefetch.job with
  | some pl, some j =>
    s.drive.state.inContext && decide (s.drive.pool.length < Config.poolCapacity)
      && decide (j.nextLine < pl.lineCount)
      && (decide (j.nextLine < pl.margin)
          || (j.left.ready (j.nextLine - pl.margin)
              && (match j.right with | none => true | some ps => ps.ready (j.nextLine - pl.margin))))
  | some _, none => false
  | none, some _ => false
  | none, none => false

/-- The prime test (R152): with the pool at the prime level, or every line made, the drive enters IMAGING and the
stall timer starts. -/
def State.primeTest (s : State) : State :=
  match s.drive.plate, s.prefetch.job with
  | some pl, some j =>
    if s.drive.state = .priming ∧ (s.drive.settings.prime ≤ s.drive.pool.length ∨ pl.lineCount ≤ j.nextLine) then
      { s with drive := { s.drive with state := .imaging, stall := some s.drive.settings.stallMs } }
    else s
  | some _, none => s
  | none, some _ => s
  | none, none => s

/-- Each unpack fault counts once and latches UNPACK_FAULT (R84). -/
def State.unpackFaults : Nat → State → State
  | 0, s => s
  | n + 1, s => State.unpackFaults n ((s.count .unpackFaults).latch .unpackFault)

/-- A slot's rows for page line `j`, if its page reaches that line. -/
def slotMade? (ps : Option PageSlot) (j : Nat) : Option SlotMade :=
  match ps with
  | none => none
  | some ps => if ps.height ≤ j then none else some (ps.makeRows j)

/-- The slot of a side after its rows have been made, with the band its cursor has entered captured (R86, step 5;
R87). -/
def State.enterBand (s : State) (ps : PageSlot) (ink : Ink) (made : Bool) (serial : Nat) : PageSlot :=
  if made && ps.cursor % 256 == 0 && decide (ps.cursor < ps.height) then s.captureBand ps ink (ps.cursor / 256) serial
  else ps

/-- What the captures of a newly entered band add to the summary. -/
def Summary.entered (sm : Summary) (ps : PageSlot) (made : Bool) : Summary :=
  if made && ps.cursor % 256 == 0 && decide (ps.cursor < ps.height) then sm.addFills ps else sm

/-- Place a line at the tail of the pool, with the job and the summary after it (R86, steps 3 to 5). -/
def State.placeLine (s : State) (pl : Plate) (j : PrefetchJob) (sm : Summary) (line : Line) : State :=
  { s with
    drive := { s.drive with pool := s.drive.pool ++ [line], plate := some { pl with summary := sm } }
    prefetch := ⟨s.prefetch.serial + 4, some (j.goOn pl)⟩ }

/-- An image line: the rows are made, the faults counted, the dots formed, the line placed, the slots advanced and
newly entered bands captured (R86). The summary's unpack faults count once per capture that becomes faulted (R94), and on
beyond 192: the model's choice (log entry 39). -/
def State.makeImageLine (s : State) (pl : Plate) (j : PrefetchJob) : State :=
  let y := j.nextLine
  let l := slotMade? (some j.left) (y - pl.margin)
  let r := slotMade? j.right (y - pl.margin)
  let n := s.prefetch.serial
  let faults := (l.elim 0 (·.faults)) + (r.elim 0 (·.faults))
  let left := s.enterBand (l.elim j.left (·.slot)) pl.ink l.isSome n
  let right := j.right.map fun ps => s.enterBand (r.elim ps (·.slot)) pl.ink r.isSome (n + 2)
  let sm := { pl.summary with
    lineMarked := pl.summary.lineMarked + l.elim 0 (·.newlyMarked) + r.elim 0 (·.newlyMarked)
    unpackFaults := pl.summary.unpackFaults + l.elim 0 (·.newlyFaulted) + r.elim 0 (·.newlyFaulted) }
  let sm := sm.entered left l.isSome
  let sm := right.elim sm fun ps => sm.entered ps r.isSome
  let line := imageLine pl (s.screener.screenTable pl.settings.screen) (s.screener.curveTable pl.settings.curve)
    (l.map (·.rows)) (r.map (·.rows)) y
  (State.unpackFaults faults s).placeLine pl { j with nextLine := y + 1, left, right } sm line

/-- Make the next plate line (R86). -/
def State.makeLine (s : State) : State :=
  match s.drive.plate, s.prefetch.job with
  | some pl, some j =>
    if j.nextLine < pl.margin then
      s.placeLine pl { j with nextLine := j.nextLine + 1 } pl.summary (marginLine pl)
    else s.makeImageLine pl j
  | some _, none => s
  | none, some _ => s
  | none, none => s

/-- Make lines, up to a number of them, for as long as one can be made (R86). -/
def State.makeLines : Nat → State → State
  | 0, s => s
  | n + 1, s => if s.canMakeLine then State.makeLines n s.makeLine else s

/-- An event of Prefetch: it makes every line it can, and then the prime test is made (R86, R152). The pool's room bounds
the lines of one event. -/
def State.prefetchEvent (s : State) : State := (State.makeLines Config.poolCapacity s).primeTest

/-! ## The reads of the streams (R90 to R92) -/

/-- A read was issued for a page slot and layer. -/
def StoreRead.isFor (r : StoreRead) (side : Side) (kind : LayerKind) : Bool :=
  match r.requester with
  | .repair => false
  | .prefetch sd k _ => sd == side && k == kind

/-- The outstanding reads of a page slot and layer, counting those of replaced captures and ended plates (R90). -/
def State.outstanding (s : State) (side : Side) (kind : LayerKind) : Nat :=
  (s.store.readSide.filter (fun r => r.isFor side kind)).length
    + (match s.store.inService with
       | some (.read r) => if r.isFor side kind then 1 else 0
       | some (.write _) => 0
       | none => 0)

/-- The four streams, in the order in which they issue (R90). -/
def streamOrder : List (Side × LayerKind) :=
  [(.left, .line), (.left, .picture), (.right, .line), (.right, .picture)]

/-- The capture of a side and layer for the plate in context. -/
def State.captureOf (s : State) (side : Side) (kind : LayerKind) : Option Capture :=
  (s.prefetch.job.bind (fun j => j.slot side)).map (fun ps => ps.capture kind)

/-- The stream of a side and layer issues a read now (R90). -/
def State.streamIssues (s : State) (side : Side) (kind : LayerKind) : Bool :=
  match (s.captureOf side kind).bind Capture.stream? with
  | none => false
  | some u =>
    decide (u.issued < u.slotCount) && u.cut.isNone && decide (0 < u.room)
      && decide (s.outstanding side kind < Config.maxOutstanding)

/-- The first stream that issues a read now, if one does. -/
def State.issuingStream (s : State) : Option (Side × LayerKind) :=
  streamOrder.find? fun (sd, k) => s.streamIssues sd k

/-- The next read of a stream (R90). -/
def Stream.nextRead (u : Stream) (side : Side) (kind : LayerKind) (serial : Nat) : StoreRead :=
  ⟨.prefetch side kind serial, u.tiles.getD (u.issued / 16) 0, u.issued / 16, u.nextSlots⟩

/-- Change the current capture of a side and layer. -/
def State.setCapture (s : State) (side : Side) (kind : LayerKind) (c : Capture) : State :=
  match s.prefetch.job with
  | none => s
  | some j =>
    match j.slot side with
    | none => s
    | some ps => { s with prefetch := { s.prefetch with job := some (j.setSlot side (ps.setCapture kind c)) } }

/-- Issue the next read of a stream: the slots are issued and the read joins the read side (R90). -/
def State.issueRead (s : State) (side : Side) (kind : LayerKind) : State :=
  match s.captureOf side kind with
  | none => s
  | some c =>
    match c.stream? with
    | none => s
    | some u =>
      let s1 := s.setCapture side kind (c.withStream { u with issued := u.issued + u.nextSlots.length })
      { s1 with store := { s1.store with readSide := s1.store.readSide ++ [u.nextRead side kind c.serial] } }

/-- The rows of the slots that hold up the next line go on (R91). -/
def State.prefetchGoOn (s : State) : State :=
  match s.drive.plate, s.prefetch.job with
  | some pl, some j => { s with prefetch := { s.prefetch with job := some (j.goOn pl) } }
  | some _, none => s
  | none, some _ => s
  | none, none => s

/-- A passed read reaches Prefetch (R91): its slots join the buffer of a current capture that is not cut, the unpacker
goes on with the row of the stream it is building and with the rows that a held-up line needs, and Prefetch makes lines;
the data of any other read is discarded. -/
def State.prefetchPassed (s : State) (side : Side) (kind : LayerKind) (serial : Nat) (data : List (List Byte)) : State :=
  match s.captureOf side kind with
  | none => s
  | some c =>
    if c.serial = serial then
      match c.stream? with
      | none => s
      | some u =>
        if u.cut.isSome then s.prefetchEvent
        else (s.setCapture side kind (c.withStream (u.receive data).goOnBuilding)).prefetchGoOn.prefetchEvent
    else s

/-- Change the damage summary of the plate in context. -/
def State.modifySummary (s : State) (f : Summary → Summary) : State :=
  match s.drive.plate with
  | none => s
  | some pl => { s with drive := { s.drive with plate := some { pl with summary := f pl.summary } } }

/-- The store fault of a capture of the plate counts once (R92, R94), and on beyond 192: the model's choice (log entry
39). -/
def State.countStoreFault (s : State) (serial : Nat) : State :=
  match s.prefetch.job with
  | none => s
  | some j =>
    if j.firstSerial ≤ serial ∧ ¬ serial ∈ j.storeFaulted then
      State.modifySummary
        { s with prefetch := { s.prefetch with job := some { j with storeFaulted := serial :: j.storeFaulted } } }
        fun sm => { sm with storeFaults := sm.storeFaults + 1 }
    else s

/-- A failed read reaches Prefetch (R92): it cuts the stream of a current capture, a PICTURE capture with a row
still to be made counts as held (R94), the store fault of the capture counts, and Prefetch makes lines. -/
def State.prefetchFailed (s : State) (side : Side) (kind : LayerKind) (serial : Nat) (position : Nat) : State :=
  match s.captureOf side kind with
  | none => s.countStoreFault serial
  | some c =>
    if c.serial = serial then
      match c.stream? with
      | none => s.countStoreFault serial
      | some u =>
        let holds := kind == .picture && u.cut.isNone && u.mode == .reading && decide (u.rows < u.rowCount)
        let s1 := s.setCapture side kind (c.withStream (u.cutAt position))
        let s2 := if holds then s1.modifySummary fun sm => { sm with pictureHeld := sm.pictureHeld + 1 } else s1
        (s2.countStoreFault serial).prefetchEvent
    else s.countStoreFault serial

end Sys2Proof.Machine
end

