-- ==== Sys2Proof/Machine/DriveOps.lean ====
section
/-! DEFINITION. The drive's shared operations: the plate context (R150), selection (R148), unloading (R149), arming
(R133, R134), resolutions (R130), the end of a ticket (R142) and of a plate (R154, R157). -/

namespace Sys2Proof.Machine

/-! ## The plate context (R97, R150) -/

/-- A page of the plate context from a resolution: the record's width and height (R97). -/
def State.platePage (s : State) (r : Resolution) : Option PlatePage :=
  (s.page? r.record).map fun p => ⟨r.record, r.version, p.width, p.height⟩

/-- The plate context of a ticket as the settings stand (R100, R150). -/
def State.plateOf (s : State) (t : Ticket) (left : PlatePage) (right : Option PlatePage) (b : InkBinding) : Plate :=
  { tag := t.tag, ink := t.ink, margin := t.margin, gutter := t.gutter, left, right, settings := b,
    headWidth := s.drive.settings.width
    lineCount := plateLineCount t.margin left.height (right.map (·.height))
    summary := ⟨0, 0, 0, 0,
      decide (s.drive.settings.width < contentWidth left.width t.gutter (right.map (·.width)))⟩
    requested := 0, sent := 0, transfer := none }

/-- The plate context the eligible ticket gives, where its pages and its ink record stand. -/
def State.plateFor (s : State) (t : Ticket) : Option Plate :=
  match t.leftRes.bind s.platePage, s.screener.inks.get t.ink with
  | some l, some b =>
    match t.right with
    | none => some (s.plateOf t l none b)
    | some _ =>
      match t.rightRes.bind s.platePage with
      | none => none
      | some r => some (s.plateOf t l (some r) b)
  | some _, none => none
  | none, some _ => none
  | none, none => none

/-- The capture of a plate context for the eligible ticket (R150): the ticket becomes IMAGING (R137), the context is
filled, the drive enters PRIMING with an empty pool, Prefetch starts (R85) and makes the lines it can, and the prime
test is made (R152). -/
def State.capturePlate (s : State) : State :=
  match s.eligible with
  | none => s
  | some t =>
    match s.plateFor t with
    | none => s
    | some pl =>
      let s1 := s.modifyTicket t.tag fun t => { t with state := .imaging }
      let s2 := { s1 with drive := { s1.drive with state := .priming, selected := none, pool := [], stall := none } }
      (s2.startPrefetch pl).prefetchEvent

/-- EXPOSE is high: the drive is IMAGING (R147). -/
def Drive.exposeHigh (dr : Drive) : Bool := dr.state == .imaging

/-- What the dot lanes carry: the line of a transfer in progress, and nothing between transfers (R147). -/
def Drive.dotLanes (dr : Drive) : Option Line := dr.plate.bind (·.transfer)

/-! ## Selection (R148, R149) -/

/-- The drive holds a ticket selected in WAIT_PLATE; with PLATE_READY high its plate context is captured at the same
event (R148, R150). -/
def State.selectTicket (s : State) (tag : Nat) : State :=
  let s1 := { s with drive := { s.drive with state := .waitPlate, selected := some tag } }
  if s.drive.plateReady then s1.capturePlate else s1

/-- The drive is given the eligible ticket as it stands (R135, R148): taken up in IDLE and WAIT_PLATE only. -/
def State.offer (s : State) : State :=
  match s.drive.state with
  | .idle =>
    match s.eligible with
    | none => s
    | some t => s.selectTicket t.tag
  | .waitPlate =>
    match s.eligible with
    | none => { s with drive := { s.drive with state := .idle, selected := none } }
    | some t => s.selectTicket t.tag
  | .priming => s
  | .imaging => s
  | .unloading => s
  | .halted => s

/-- The drive enters IDLE and takes the eligible ticket as it then stands (R148). -/
def State.enterIdle (s : State) : State :=
  State.offer { s with drive := { s.drive with state := .idle, selected := none } }

/-- The drive enters UNLOADING, and IDLE at the same event when PLATE_READY is low (R149). -/
def State.enterUnloading (s : State) : State :=
  if s.drive.plateReady then { s with drive := { s.drive with state := .unloading, selected := none } }
  else s.enterIdle

/-! ## Arming (R133, R134) -/

/-- The schedule after an arming evaluation of the tickets a test picks (R133). -/
def State.armedSchedule (s : State) (f : Ticket → Bool) : List Ticket :=
  s.schedule.map fun t => if f t then { t with state := s.armedState t } else t

/-- Evaluate the arming of the tickets a test picks; an evaluation that changes a ticket's state is an event of
eligibility, at which the drive is given the eligible ticket (R133 to R135). -/
def State.rearm (s : State) (f : Ticket → Bool) : State :=
  if s.armedSchedule f = s.schedule then s else State.offer { s with schedule := s.armedSchedule f }

/-- Evaluate the arming of the tickets of every ink whose readiness differs from what it was (R114). -/
def State.rearmInks (s : State) (before : Screener) : State :=
  s.rearm fun t => s.screener.inkReady t.ink != before.inkReady t.ink

/-! ## Resolutions (R130) -/

/-- A ticket with its bindings resolved as the page table stands. -/
def State.resolveTicket (s : State) (t : Ticket) : Ticket :=
  { t with leftRes := s.resolve t.left, rightRes := t.right.bind s.resolve }

/-- The resolution of a binding after an event of a page id: computed again where the binding names the id (R130). -/
def State.recomputed (s : State) (pageId : Nat) (b : Binding) (old : Option Resolution) : Option Resolution :=
  if b.pageId = pageId then s.resolve b else old

/-- A ticket after an event of a page id: the bindings of a POSTED or ARMED ticket that name the id are computed again
(R130). -/
def State.recomputeTicket (s : State) (pageId : Nat) (t : Ticket) : Ticket :=
  match t.state with
  | .imaging => t
  | .posted | .armed =>
    { t with
      leftRes := s.recomputed pageId t.left t.leftRes
      rightRes := t.right.elim t.rightRes fun b => s.recomputed pageId b t.rightRes }

/-- Move the use counts of a ticket from its old resolutions to its new ones (R130, steps 1 and 2). -/
def State.moveUse (s : State) (old new : Ticket) : State :=
  let s := if old.leftRes = new.leftRes then s else (s.addUse old.leftRes false).addUse new.leftRes true
  if old.rightRes = new.rightRes then s else (s.addUse old.rightRes false).addUse new.rightRes true

/-- The resolutions of one ticket differ. -/
def Ticket.moved (old new : Ticket) : Bool := !(old.leftRes == new.leftRes) || !(old.rightRes == new.rightRes)

/-- Compute again the bindings that name a page id, move the use counts, and evaluate the arming of the tickets whose
resolutions changed (R130). -/
def State.reresolve (s : State) (pageId : Nat) : State :=
  let next := s.recomputeTicket pageId
  let s1 := s.schedule.foldl (fun acc t => acc.moveUse t (next t)) s
  let changed := (s.schedule.filter fun t => Ticket.moved t (next t)).map (·.tag)
  State.rearm { s1 with schedule := s.schedule.map next } fun t => changed.contains t.tag

/-! ## The end of a ticket (R139, R142 to R144) -/

/-- The page a PLATE report gives for a binding and its resolution (R143). -/
def reportedPage (b : Binding) (r : Option Resolution) : ReportedPage := ⟨b.pageId, r.map (·.version)⟩

/-- The PLATE report of a ticket (R143). -/
def Ticket.plateReport (t : Ticket) (outcome : PlateOutcome) (linesSent : Nat) (sm : Summary) : Report :=
  .plate {
    tag := t.tag, outcome, stateAtEnd := t.state, linesSent
    left := reportedPage t.left t.leftRes
    right := t.right.map fun b => reportedPage b t.rightRes
    summary := sm }

/-- A ticket leaves the schedule, and the use counts of its resolutions fall (R139, R142 steps 2 and 3). -/
def State.removeTicket (s : State) (t : Ticket) : State :=
  State.addUse (State.addUse { s with schedule := s.schedule.filter fun x => !(x.tag == t.tag) } t.leftRes false)
    t.rightRes false

/-- The counter and the alarm of a ticket's end (R144). -/
def State.tallyOutcome (s : State) : PlateOutcome → State
  | .done => s.count .platesDone
  | .spoiled _ => (s.count .platesSpoiled).latch .plateSpoiled
  | .withdrawn => s

/-- The end of the IMAGING ticket of the plate in context (R142, R144). -/
def State.endTicket (s : State) (pl : Plate) (outcome : PlateOutcome) : State :=
  match s.ticket? pl.tag with
  | none => s
  | some t => ((s.removeTicket t).report (t.plateReport outcome pl.sent pl.summary)).tallyOutcome outcome

/-! ## The end of a plate (R154, R157) -/

/-- The plate leaves the context: a transfer in progress is cut, the stall timer stops, the pool is emptied, Prefetch
ends its work (R95), and the context is released (R157). -/
def State.dropPlate (s : State) : State :=
  { s with
    drive := { s.drive with plate := none, pool := [], stall := none }
    prefetch := { s.prefetch with job := none } }

/-- A plate in context is ended short with an outcome (R157); the drive then enters HALTED for a halt and UNLOADING
otherwise. -/
def State.endShort (s : State) (outcome : PlateOutcome) : State :=
  let s1 := match s.drive.plate with
    | none => s.dropPlate
    | some pl => s.dropPlate.endTicket pl outcome
  if outcome = .spoiled .halted then { s1 with drive := { s1.drive with state := .halted, selected := none } }
  else s1.enterUnloading

/-- The plate ends DONE (R154): PLATE_END is strobed, the ticket ends, and the drive enters UNLOADING. -/
def State.endDone (s : State) (pl : Plate) : State :=
  let s1 := s.dropPlate
  (State.endTicket { s1 with drive := { s1.drive with plateEnd := true } } pl .done).enterUnloading

/-! ## Halt requests (R160) -/

/-- A halt request: HEAD_HALT is latched, a plate in context is spoiled, and the drive is HALTED. -/
def State.haltRequest (s : State) : State :=
  let s1 := s.latch .headHalt
  if s1.drive.state.inContext then s1.endShort (.spoiled .halted)
  else { s1 with drive := { s1.drive with state := .halted, selected := none } }

/-- One sample of HALT (R159). -/
def State.haltSample (s : State) (high : Bool) : State :=
  let n := s.drive.haltRun
  if high then
    if n < 6 then { s with drive := { s.drive with haltRun := n + 1, lastSample := true } }
    else if n = 6 then
      (State.latch { s with drive := { s.drive with haltRun := 7, stuck := true, lastSample := true } }
        .haltLineStuck).haltRequest
    else { s with drive := { s.drive with lastSample := true } }
  else
    let s1 := { s with drive := { s.drive with haltRun := 0, lastSample := false } }
    if n < 4 then s1
    else if n < 7 then s1.haltRequest
    else { s1 with drive := { s1.drive with stuck := false } }

end Sys2Proof.Machine
end

