-- ==== Sys2Proof/Machine/Pages.lean ====
section
/-! DEFINITION. The page table's shared operations: what a store write does to a layer record at its issue (R10) and
at its completion (R11), evaluation (R61 to R63), the state of a closed page and its PAGE report (R64 to R66), the
repair queue (R67), abandonment (R73), the freeing of a record (R17) and the retirement of a tile (R12, R51). -/

namespace Sys2Proof.Machine

open Sys2Proof (Byte)

/-! ## PAGE reports (R65) -/

/-- The damaged layers of a page, in layer order. -/
def PageRecord.damagedLayers (p : PageRecord) : List LayerRecord := p.layers.filter (fun l => l.state == .damaged)

/-- An entry of the damaged-layer list: the size of the missing set, or length unknown (R8, R65). A DAMAGED layer whose
missing segments have all been received while its parity write is pending has a missing set of size 0, for which R19 and
R65 give no count; the model's choice is that its count is 0 (log entry 38). -/
def LayerRecord.damagedEntry (l : LayerRecord) : DamagedEntry := ⟨l.id, l.length.map fun _ => l.missing.length⟩

/-- The damaged-layer list: the first 40 damaged layers (R65). -/
def PageRecord.damagedList (p : PageRecord) : List DamagedEntry :=
  (p.damagedLayers.take Config.damagedListLimit).map LayerRecord.damagedEntry

/-- More than 40 layers are damaged (R65). -/
def PageRecord.moreDamaged (p : PageRecord) : Bool := decide (Config.damagedListLimit < p.damagedLayers.length)

/-- The PAGE report of a record (R65). -/
def PageRecord.report (p : PageRecord) (r : Nat) : Report :=
  .page {
    pageId := p.pageId, version := p.version, record := r, state := p.state
    repaired := p.countState .repaired, damaged := p.countState .damaged
    more := p.moreDamaged, entries := p.damagedList }

/-! ## The state of a closed page (R64 to R66) -/

/-- The state a derivation gives a closed page (R64). -/
def PageRecord.derived (p : PageRecord) : PageState :=
  if 0 < p.pendingWrites || p.layers.any (fun l => l.state == .repairing) then .evaluating
  else if p.layers.all (fun l => l.state == .whole || l.state == .repaired) then .complete
  else .damaged

/-- PAGE_DAMAGED is latched at the first derivation that makes the record DAMAGED (R65). -/
def State.noteDamage (s : State) (r : Nat) (p : PageRecord) : State :=
  if p.state == .damaged && !p.damageNoted then
    (s.setPage r (some { p with damageNoted := true })).latch .pageDamaged
  else s

/-- What follows a derivation that has changed the state of record `r` to that of `p`: the PAGE report, the first
damage, and the arming of the tickets that name the record (R65, R66). -/
def State.pageChanged (s : State) (r : Nat) (p : PageRecord) : State :=
  let s1 := s.setPage r (some p)
  let s2 := if p.state = .complete ∨ p.state = .damaged then (s1.report (p.report r)).noteDamage r p else s1
  s2.rearm fun t => t.resolvedTo r

/-- Derive the state of a closed page record (R64). -/
def State.derivePage (s : State) (r : Nat) : State :=
  match s.page? r with
  | none => s
  | some p =>
    if !p.closed || p.derived == p.state then s
    else s.pageChanged r { p with state := p.derived }

/-! ## The repair queue and abandonment (R67, R73) -/

/-- The layer being reconstructed (R68). -/
def RepairEngine.target? : RepairEngine → Option LayerRef
  | .reading t _ _ _ => some t
  | .writing t _ => some t
  | .idle => none
  | .draining => none

/-- A reconstruction is abandoned: its one request is still outstanding, so Repair drains it (R73). -/
def State.abandonRepair (s : State) : State := { s with repair := { s.repair with engine := .draining } }

/-- A layer has become REPAIRING: it joins the tail of the repair queue unless it waits there or is being
reconstructed (R62, R71). -/
def State.joinRepair (s : State) (t : LayerRef) : State :=
  if s.repair.queue.contains t || s.repair.engine.target? == some t then s
  else { s with repair := { s.repair with queue := s.repair.queue ++ [t] } }

/-- A layer is no longer REPAIRING: its entry leaves the queue, and its reconstruction in READING is abandoned
(R62, R73). -/
def State.leaveRepair (s : State) (t : LayerRef) : State :=
  let s1 := { s with repair := { s.repair with queue := s.repair.queue.filter fun x => !(x == t) } }
  match s.repair.engine with
  | .reading t' _ _ _ => if t' = t then s1.abandonRepair else s1
  | .writing _ _ => s1
  | .idle => s1
  | .draining => s1

/-! ## Evaluation (R61 to R63) -/

/-- The state an evaluation gives a layer (R62). -/
def LayerRecord.evaluated (l : LayerRecord) : LayerState :=
  match l.length with
  | none => .damaged
  | some _ =>
    if l.missing.length = 0 then (if l.state = .repaired then .repaired else .whole)
    else if l.missing.length = 1 ∧ l.parityHeld then .repairing
    else .damaged

/-- A layer has no write in flight (R61). -/
def LayerRecord.settled (l : LayerRecord) : Bool := l.pending.isEmpty && !l.parityPending

/-- Set the state of a layer and let it join or leave the repair queue (R62). -/
def State.setLayerState (s : State) (t : LayerRef) (old new : LayerState) : State :=
  let s1 := s.modifyPage t.record fun p => p.modifyLayer t.layer fun l => { l with state := new }
  if new = .repairing then s1.joinRepair t
  else if old = .repairing then s1.leaveRepair t
  else s1

/-- Evaluate a layer, where R61 allows it: its page is closed and it has no write in flight. -/
def State.evaluateLayer (s : State) (t : LayerRef) : State :=
  match s.page? t.record with
  | none => s
  | some p =>
    match p.layer? t.layer with
    | none => s
    | some l => if p.closed && l.settled then s.setLayerState t l.state l.evaluated else s

/-- An event of evaluation of a layer: the evaluation, made or deferred, and the derivation of the page's state
(R61, R64). -/
def State.evaluationEvent (s : State) (t : LayerRef) : State := (s.evaluateLayer t).derivePage t.record

/-! ## A write is issued (R10) -/

/-- The layer record after the issue of a write into it (R10). -/
def LayerRecord.issued (l : LayerRecord) (item : Item) (tile length : Nat) (pageOpen : Bool) : LayerRecord :=
  { l with
    length := some (l.length.getD length)
    tileMap := match l.tileAt item.mapSlot with
      | some _ => l.tileMap
      | none => l.tileMap.set item.mapSlot (some tile)
    pending := match item with
      | .segment i => insertRising i l.pending
      | .parity => l.pending
    parityPending := match item with
      | .segment _ => l.parityPending
      | .parity => true
    state := if pageOpen && l.state == .empty then .filling else l.state }

/-- The Page table's update at the issue of a write (R10), and the derivation of a closed page's state (R64). -/
def State.noteIssue (s : State) (w : StoreWrite) (length : Nat) : State :=
  (s.modifyPage w.target.record fun p =>
    { (p.modifyLayer w.target.layer fun l => l.issued w.item w.tile length (p.state == .opened)) with
      pendingWrites := p.pendingWrites + 1 }).derivePage w.target.record

/-! ## A write completes (R11, R54) -/

/-- The layer record after the completion of a write; the item joins what the layer holds unless its record is
RELEASING or its tile was retired while the write was in flight (R11, R12, R54). -/
def LayerRecord.completed (l : LayerRecord) (item : Item) (releasing retired : Bool) : LayerRecord :=
  match item with
  | .segment i =>
    { l with
      pending := dropValue i l.pending
      received := if releasing || retired then l.received else insertRising i l.received }
  | .parity =>
    { l with
      parityPending := false
      parityHeld := if releasing then l.parityHeld else !retired }

/-- The page record after the completion of a write into one of its layers: the layer updated and the pending-write
count one lower (R11). -/
def PageRecord.completed (p : PageRecord) (w : StoreWrite) (retired : Bool) : PageRecord :=
  { (p.modifyLayer w.target.layer fun l => l.completed w.item (p.state == .releasing) retired) with
    pendingWrites := p.pendingWrites - 1 }

/-- A record is freed: its tiles join the free pool, its layer records are erased and it becomes EMPTY (R11, R17). -/
def State.freeRecord (s : State) (r : Nat) (p : PageRecord) : State := (s.giveToPool p.tiles).setPage r none

/-- Repair's part of the completion of its reconstruction write (R71): Repair returns to IDLE, and the layer becomes
REPAIRED or is evaluated. -/
def State.reconstructionWritten (s : State) (t : LayerRef) : State :=
  let s1 := { s with repair := { s.repair with engine := .idle } }
  match (s1.page? t.record).bind (fun p => p.layer? t.layer) with
  | none => s1
  | some l =>
    if l.missing.length = 0 then
      ((s1.modifyPage t.record fun p => p.modifyLayer t.layer fun l => { l with state := .repaired }).count
        .layersRepaired).derivePage t.record
    else s1.evaluationEvent t

/-- The Page table's part of the completion of a write (R11, R37, R71). -/
def State.noteCompletion (s : State) (w : StoreWrite) (byRepair : Bool) : State :=
  match s.page? w.target.record with
  | none => s
  | some p =>
    let p1 := p.completed w (s.store.retired.contains w.tile)
    let s1 := s.setPage w.target.record (some p1)
    if p.state = .releasing then
      if p1.pendingWrites = 0 then ((s1.freeRecord w.target.record p1).reresolve p1.pageId).evalFlag else s1
    else if p.state = .opened then s1
    else if byRepair then
      match s.repair.engine with
      | .writing _ _ => s1.reconstructionWritten w.target
      | .reading _ _ _ _ => s1.evaluationEvent w.target
      | .draining => s1.evaluationEvent w.target
      | .idle => s1.evaluationEvent w.target
    else s1.evaluationEvent w.target

/-! ## The retirement of a tile (R12, R51) -/

/-- The layer record after the retirement of the tile in tile-map slot `k` (R12). -/
def LayerRecord.afterRetirement (l : LayerRecord) (k : Nat) : LayerRecord :=
  { l with
    tileMap := l.tileMap.set k none
    received := if k = 16 then l.received else l.received.filter fun i => !(i / 16 == k)
    parityHeld := if k = 16 then false else l.parityHeld }

/-- The layer and tile-map slot a tile stands in, if it is mapped (R44). -/
def State.placeOf (s : State) (tile : Nat) : Option (LayerRef × Nat) :=
  s.liveRecords.findSome? fun (r, p) =>
    p.layers.findSome? fun l => (l.tileMap.findIdx? fun t => t == some tile).map fun k => (⟨r, l.id⟩, k)

/-- The tile leaves the place it stood in (R51, step 2): the layer record that mapped it is updated and, unless its
record is RELEASING, evaluated; or the tile leaves the free pool. -/
def State.leavePlace (s : State) (tile : Nat) : State :=
  match s.placeOf tile with
  | some (t, k) =>
    (s.modifyPage t.record fun p => p.modifyLayer t.layer fun l => l.afterRetirement k).evaluationEvent t
  | none => s.evalFlag

/-- A read's check has failed: the tile is retired (R51, steps 1 to 3; R53). A tile that is mapped is out of the pool
already, so it leaves the pool only where it stood there. -/
def State.retireTile (s : State) (tile : Nat) : State :=
  let s1 := { s with store := { s.store with
    retired := insertRising tile s.store.retired
    poolOut := insertRising tile s.store.poolOut } }
  let s2 := (s1.leavePlace tile).latch .tileRetired
  if s2.degradedThreshold ≤ s2.retiredCount then s2.latch .storeDegraded else s2

end Sys2Proof.Machine
end

