-- ==== Sys2Proof/Machine/StoreOps.lean ====
section
/-! DEFINITION. The store arbiter (R50, R55), the completion of its requests (R47, R49, R51), and Repair's
reconstruction (R68 to R72). -/

namespace Sys2Proof.Machine

open Sys2Proof (Byte DramFault)

/-! ## Results to the requesters -/

/-- The bytes a passed read returns for each named slot (R49). -/
def State.readData (s : State) (r : StoreRead) (faults : List DramFault) : List (List Byte) :=
  r.slots.map fun k => (s.store.dram.readSlot r.tile k faults).bytes

/-- Some named slot, as the DRAM gives it, fails its check (R48, R49; log entry 7). -/
def State.readFails (s : State) (r : StoreRead) (faults : List DramFault) : Bool :=
  r.slots.any fun k => !(s.store.dram.slotPasses r.tile k faults)

/-- The stream position of the first byte of the first slot a read named (R92). -/
def StoreRead.position (r : StoreRead) : Nat := 256 * (16 * r.mapSlot + r.slots.headD 0)

/-- Repair receives a failed result: the attempt, or the draining, ends and Repair returns to IDLE (R72, R73). -/
def State.repairFailed (s : State) : State := { s with repair := { s.repair with engine := .idle } }

/-- A failed result reaches its requester (R51, step 4; R50). -/
def State.deliverFailure (s : State) (r : StoreRead) : State :=
  match r.requester with
  | .repair => s.repairFailed
  | .prefetch side kind serial => s.prefetchFailed side kind serial r.position

/-! ## The arbiter (R55) -/

/-- The side served next (R55): the one that waits, or the one not served last where both wait. -/
def nextSide (last : ArbiterSide) (writeWaits readWaits : Bool) : Option ArbiterSide :=
  match writeWaits, readWaits with
  | false, false => none
  | true, false => some .write
  | false, true => some .read
  | true, true => some (match last with | .write => .read | .read => .write)

/-- Serve the next request, when none is in service: a read whose tile is retired completes at once as failed and the
arbiter chooses again (R50, R55). -/
def State.serve : Nat → State → State
  | 0, s => s
  | n + 1, s =>
    match nextSide s.store.lastSide (!s.store.writeSide.isEmpty) (!s.store.readSide.isEmpty) with
    | none => s
    | some .write =>
      match s.store.writeSide with
      | [] => s
      | w :: rest =>
        { s with store := { s.store with writeSide := rest, inService := some (.write w), lastSide := .write } }
    | some .read =>
      match s.store.readSide with
      | [] => s
      | r :: rest =>
        if s.store.retired.contains r.tile then
          State.serve n
            (State.deliverFailure { s with store := { s.store with readSide := rest, lastSide := .read } } r)
        else { s with store := { s.store with readSide := rest, inService := some (.read r), lastSide := .read } }

/-- The arbiter chooses, if no request is in service (R55). -/
def State.arbitrate (s : State) : State :=
  if s.store.inService.isSome then s else State.serve (s.store.readSide.length + 1) s

/-- A write joins the write side (R55). -/
def State.queueWrite (s : State) (w : WriteRef) : State :=
  { s with store := { s.store with writeSide := s.store.writeSide ++ [w] } }

/-- A read joins the read side (R55). -/
def State.queueRead (s : State) (r : StoreRead) : State :=
  { s with store := { s.store with readSide := s.store.readSide ++ [r] } }

/-! ## Reconstruction (R68 to R71) -/

/-- The tile slots of the received segments in data tile-map slot `k` (R69). -/
def LayerRecord.receivedIn (l : LayerRecord) (k : Nat) : List Nat :=
  (l.received.filter fun i => i / 16 == k).map (· % 16)

/-- The first data tile-map slot from `k` on that holds a received segment; 16, the parity, when there is none
(R69). -/
def LayerRecord.nextReadSlot (l : LayerRecord) (k : Nat) : Nat :=
  (((List.range 16).filter fun i => decide (k ≤ i) && !(l.receivedIn i).isEmpty).head?).getD 16

/-- The read of a tile-map slot: the received segments of a data slot, or the parity (R69). -/
def LayerRecord.repairRead (l : LayerRecord) (k : Nat) : StoreRead :=
  ⟨.repair, (l.tileAt k).getD 0, k, if k = 16 then [0] else l.receivedIn k⟩

/-- The layer record of a reference. -/
def State.layer? (s : State) (t : LayerRef) : Option LayerRecord := (s.page? t.record).bind fun p => p.layer? t.layer

/-- The bytewise XOR of the slots a read returned into the accumulator (R69). -/
def xorSlots (acc : List Byte) (data : List (List Byte)) : List Byte :=
  data.foldl (fun a d => List.zipWith (· ^^^ ·) a d) acc

/-- Repair takes the head entry, clears its accumulator and issues the first read (R68, R69). -/
def State.beginRepair (s : State) : State :=
  match s.repair.queue with
  | [] => s
  | t :: rest =>
    let s1 := { s with repair := { s.repair with queue := rest } }
    match s.layer? t with
    | none => s1
    | some l =>
      let k := l.nextReadSlot 0
      State.queueRead
        { s1 with repair := { s1.repair with engine := .reading t (l.missing.headD 0) k (List.replicate 256 0) } }
        (l.repairRead k)

/-- The reconstruction write of a rebuilt segment is issued (R70, step 4; R10). -/
def State.issueReconstruction (s : State) (t : LayerRef) (l : LayerRecord) (index tile : Nat) (acc : List Byte) : State :=
  let w : StoreWrite := ⟨t, .segment index, tile, index % 16, acc.take (segmentLength (l.length.getD 0) index)⟩
  State.queueWrite
    (State.noteIssue { s with repair := { s.repair with engine := .writing t index, write := some w } } w
      (l.length.getD 0))
    .repair

/-- A reconstruction fails for want of a tile (R70, step 3): its layer, a layer of a closed page, becomes DAMAGED. -/
def State.reconstructionFails (s : State) (t : LayerRef) : State :=
  let s1 := (s.latch .storeFull).count .storeFullLosses
  let s2 := s1.modifyPage t.record fun p =>
    if p.closed then p.modifyLayer t.layer fun l => { l with state := .damaged } else p
  State.derivePage { s2 with repair := { s2.repair with engine := .idle } } t.record

/-- The parity read has passed: the rebuilt segment is written into its tile, into a newly allocated one, or the
reconstruction fails (R70). -/
def State.finishReconstruction (s : State) (t : LayerRef) (l : LayerRecord) (index : Nat) (acc : List Byte) : State :=
  match l.tileAt (index / 16) with
  | some tile => s.issueReconstruction t l index tile acc
  | none =>
    match s.lowestFree with
    | none => s.reconstructionFails t
    | some tile => ((s.takeFromPool tile).issueReconstruction t l index tile acc).evalFlag

/-- Repair receives a passed result (R69, R70); while it drains, the result is discarded and Repair returns to IDLE
(R73). -/
def State.repairPassed (s : State) (data : List (List Byte)) : State :=
  match s.repair.engine with
  | .reading t index k acc =>
    match s.layer? t with
    | none => s.repairFailed
    | some l =>
      if k = 16 then s.finishReconstruction t l index (xorSlots acc data)
      else
        let k' := l.nextReadSlot (k + 1)
        State.queueRead { s with repair := { s.repair with engine := .reading t index k' (xorSlots acc data) } }
          (l.repairRead k')
  | .draining => s.repairFailed
  | .writing _ _ => s
  | .idle => s

/-- A passed result reaches its requester (R49). -/
def State.deliverData (s : State) (r : StoreRead) (data : List (List Byte)) : State :=
  match r.requester with
  | .repair => s.repairPassed data
  | .prefetch side kind serial => s.prefetchPassed side kind serial data

/-! ## Completions -/

/-- The completion of a read (R49, R51): the check, the retirement of a tile that fails it, and the result; then the arbiter
chooses. A read that the requester issues in its own effects has joined by then; the first read of Repair's next entry has
not, where the completion returns Repair to IDLE: the spec gives no order, and this one is the model's (log entry 12). -/
def State.completeRead (s : State) (r : StoreRead) (faults : List DramFault) : State :=
  let s1 := { s with store := { s.store with inService := none } }
  if s.readFails r faults then ((s1.retireTile r.tile).deliverFailure r).arbitrate
  else (s1.deliverData r (s.readData r faults)).arbitrate

/-- The requester's part of the completion of a write: the write slot is free, or Repair's write is over, and a
reconstruction that was abandoned is drained (R37, R68, R73). -/
def State.releaseWriter (s : State) : WriteRef → State
  | .intake i => { s with intake := { s.intake with slots := s.intake.slots.set i none } }
  | .repair =>
    { s with repair := { s.repair with
        write := none
        engine := match s.repair.engine with
          | .draining => .idle
          | .writing t i => .writing t i
          | .reading t i k a => .reading t i k a
          | .idle => .idle } }

/-- The completion of a write (R11, R37, R47): the slot and its check code are written, the writer is released, the
Page table acts, and the arbiter chooses. Where the completion returns Repair to IDLE (R71, R73), the arbiter chooses before
the first read of Repair's next entry joins, since REPAIR_BEGIN is a later step: the spec gives no order, and this one is
the model's (log entry 12). -/
def State.completeWrite (s : State) (ref : WriteRef) (w : StoreWrite) : State :=
  let s1 := ({ s with store := { s.store with inService := none } }.dramWrite w).releaseWriter ref
  (s1.noteCompletion w (ref == .repair)).arbitrate

end Sys2Proof.Machine
end

