-- ==== Sys2Proof/Machine/Operands.lean ====
section
/-! DEFINITION. What a parcel carries: the parcel frame as the Framer reads it (R22, R23, table 10-1), the directive
codes and payloads (table 10-3) with the tests of R166, and the argument fields of each directive. -/

namespace Sys2Proof.Machine

open Sys2Proof (Byte Instr CrcInit)

/-! ## The parcel frame (table 10-1) -/

/-- The bytes of the kind header of a forward kind; an unknown kind has none (R23). -/
def kindHeaderSize : Nat → Option Nat
  | 1 => some 9
  | 2 => some 9
  | 3 => some 3
  | _ => none

/-- What the Framer makes of the assembly buffer after a byte (R22, R23). -/
inductive Framing where
  | more
  | malformed
  | complete
  deriving DecidableEq, Repr

/-- Judge the assembly buffer: the kind as soon as it has arrived, the payload length as soon as both its bytes have,
and the stated size (R22, R23; log entry 4). -/
def judgeBuffer (buffer : List Byte) : Framing :=
  match kindHeaderSize (u8 buffer 0) with
  | none => .malformed
  | some header =>
    if buffer.length < 4 then .more
    else if Config.maxPayload < u16 buffer 2 then .malformed
    else if 4 + header + u16 buffer 2 + 2 ≤ buffer.length then .complete
    else .more

/-- The bytes the CRC covers: all but the two trailer bytes (R26). -/
def coveredBytes (buffer : List Byte) : List Byte := buffer.take (buffer.length - 2)

/-- The parcel passes the check (R26). -/
def crcPasses (c : CrcInit) (buffer : List Byte) : Bool :=
  buffer.drop (buffer.length - 2) == crcTrailer c (coveredBytes buffer)

/-- The kind header of a SEGMENT or PARITY parcel. -/
def parseSegHeader (buffer : List Byte) : SegHeader :=
  ⟨u16 buffer 4, u8 buffer 6, u8 buffer 7, u8 buffer 8, u8 buffer 9, u8 buffer 10, u16 buffer 11⟩

/-- The parcel a complete buffer holds. -/
def parseParcel (buffer : List Byte) : Parcel :=
  if u8 buffer 0 = 3 then
    .directive (buffer.getD 1 0) (u8 buffer 4) (u16 buffer 5) ((coveredBytes buffer).drop 7)
  else .data (decide (u8 buffer 0 = 2)) (buffer.getD 1 0) (parseSegHeader buffer) ((coveredBytes buffer).drop 13)

/-! ## Segment and parity parcels (R31 to R36) -/

/-- The length the parcel's layer-length field stands for. -/
def SegHeader.length (h : SegHeader) : Nat := h.lengthField + 1

/-- The item a parcel carries. -/
def SegHeader.item (h : SegHeader) (parity : Bool) : Item := if parity then .parity else .segment h.index

/-- The layer a parcel names, where its ink and layer fields hold codes of table 10-2. -/
def SegHeader.layerId? (h : SegHeader) : Option LayerId :=
  match inkOf h.ink, layerKindOf h.layer with
  | some i, some k => some ⟨i, h.band, k⟩
  | some _, none => none
  | none, some _ => none
  | none, none => none

/-- The payload length the parcel's own fields call for (R32). -/
def SegHeader.payloadLength (h : SegHeader) (parity : Bool) : Nat :=
  if parity then 256 else segmentLength h.length h.index

/-! ## Directive parcels -/

/-- A directive parcel as the Directive unit has it. -/
structure Directive where
  flags : Byte
  code : Nat
  tag : Nat
  payload : List Byte
  deriving DecidableEq, Repr

/-- The QUIET flag (R166). -/
def Directive.quiet (d : Directive) : Bool := d.flags.getLsbD 0

/-- The directive a parcel carries. -/
def Parcel.directive? : Parcel → Option Directive
  | .directive flags code tag payload => some ⟨flags, code, tag, payload⟩
  | .data _ _ _ _ => none

/-- The row of the table a QUERY belongs to, by its kind and option (log entry 6). -/
def queryRow (kind option : Nat) : Instr :=
  match kind with
  | 2 => .queryPages
  | 3 => .querySchedule
  | 4 => .queryStore
  | 5 => .queryInks
  | 6 => .queryHead
  | 7 => if option = 1 then .queryCountersClear else .queryCounters
  | _ => .queryPage

/-- The row of the table a directive parcel belongs to, by its code, and by its form, kind and option where the table
splits a code (table 10-3; log entry 6). -/
def Directive.row (d : Directive) : Instr :=
  match d.code with
  | 0x01 => .openPage
  | 0x02 => .closePage
  | 0x03 => .releasePage
  | 0x10 => .postTicket
  | 0x11 => .withdrawTicket
  | 0x20 => if u8 d.payload 1 = 1 then .setInkUnbind else .setInkBind
  | 0x21 => .screenBegin
  | 0x22 => .screenData
  | 0x23 => .screenEnd
  | 0x24 => .curveLoad
  | 0x30 => .setFlow
  | 0x31 => .setHead
  | 0x32 => .resumeHead
  | 0x40 => .setAlarmMask
  | 0x41 => .clearAlarms
  | 0x50 => queryRow (u8 d.payload 0) (u8 d.payload 1)
  | 0x51 => .identify
  | 0x5F => .restart
  | _ => .unknownDirective

/-- The payload lengths table 10-3 gives for a code; `none` for a code it does not list (R166, tests 1 and 2). -/
def payloadLengthOk (code length : Nat) : Option Bool :=
  match code with
  | 0x01 => some (length == 8)
  | 0x02 => some (length == 3)
  | 0x03 => some (length == 3)
  | 0x10 => some (length == 15)
  | 0x11 => some (length == 2)
  | 0x20 => some (length == 6)
  | 0x21 => some (length == 6)
  | 0x22 => some (decide (2 ≤ length) && decide (length ≤ 258))
  | 0x23 => some (length == 0)
  | 0x24 => some (length == 257)
  | 0x30 => some (length == 11)
  | 0x31 => some (length == 5)
  | 0x32 => some (length == 0)
  | 0x40 => some (length == 2)
  | 0x41 => some (length == 2)
  | 0x50 => some (length == 5)
  | 0x51 => some (length == 0)
  | 0x5F => some true
  | _ => none

/-- Every field coded from a list of table 10-2 holds a code of its list, and an ink set has none of bits 4..7 set
(R166, test 3). -/
def codesOk (code : Nat) (p : List Byte) : Bool :=
  match code with
  | 0x01 => decide (u8 p 7 < 16)
  | 0x10 => decide (u8 p 2 < 4) && decide (u8 p 13 < 2) && decide (u8 p 14 < 2)
  | 0x20 => decide (u8 p 0 < 4) && decide (u8 p 1 < 2)
  | 0x31 => decide (u8 p 4 < 2)
  | 0x50 => decide (1 ≤ u8 p 0) && decide (u8 p 0 ≤ 7) && decide (u8 p 1 < 2)
  | _ => true

/-- The refusal the three tests of R166 give, in their order; RESTART is never refused. -/
def Directive.refusal (d : Directive) : Option Reason :=
  match payloadLengthOk d.code d.payload.length with
  | none => some .unknownDirective
  | some false => some .badArgument
  | some true => if codesOk d.code d.payload then none else some .badArgument

/-! ## The argument fields (table 10-3) -/

/-- An alarm set; bits 14 and 15 are ignored (R179). -/
def alarmSetAt (p : List Byte) (i : Nat) : BitVec 14 := BitVec.ofNat 14 (u16 p i)

/-- The version of a binding: 0 is LATEST. -/
def bindingVersion (v : Nat) : Option Nat := if v = 0 then none else some v

/-- The arguments of OPEN_PAGE. -/
structure OpenArgs where
  pageId : Nat
  version : Nat
  width : Nat
  height : Nat
  inkSet : BitVec 4
  deriving DecidableEq, Repr

/-- Read them. -/
def openArgs (p : List Byte) : OpenArgs := ⟨u16 p 0, u8 p 2, u16 p 3, u16 p 5, BitVec.ofNat 4 (u8 p 7)⟩

/-- They lie in the ranges of R13. -/
def OpenArgs.ok (a : OpenArgs) : Bool :=
  decide (1 ≤ a.pageId ∧ a.pageId ≤ 4095 ∧ 1 ≤ a.version ∧ a.version ≤ 255 ∧ 64 ≤ a.width ∧ a.width ≤ 16384
    ∧ 1 ≤ a.height ∧ a.height ≤ 24576) && !(a.inkSet == 0)

/-- The arguments of POST_TICKET. A right page id of 0 is an absent binding (table 10-3). -/
structure TicketArgs where
  tag : Nat
  ink : Nat
  margin : Nat
  gutter : Nat
  left : Binding
  right : Option Binding
  policy : Policy
  front : Bool
  deriving DecidableEq, Repr

/-- Read them. -/
def ticketArgs (p : List Byte) : TicketArgs where
  tag := u16 p 0
  ink := u8 p 2
  margin := u16 p 3
  gutter := u16 p 5
  left := ⟨u16 p 7, bindingVersion (u8 p 9)⟩
  right := if u16 p 10 = 0 then none else some ⟨u16 p 10, bindingVersion (u8 p 12)⟩
  policy := if u8 p 13 = 0 then .holdForRepair else .imageMarked
  front := decide (u8 p 14 = 1)

/-- A binding names a page id in 1..4095. -/
def Binding.ok (b : Binding) : Bool := decide (1 ≤ b.pageId) && decide (b.pageId ≤ 4095)

/-- They lie in the ranges of R131. -/
def TicketArgs.ok (a : TicketArgs) : Bool :=
  decide (1 ≤ a.tag) && decide (a.margin ≤ 4095) && decide (a.gutter ≤ 2048) && a.left.ok
    && (match a.right with | none => true | some b => b.ok)

/-- The arguments of SET_INK, form BIND. -/
def bindArgs (p : List Byte) : InkBinding := ⟨u8 p 2, u8 p 3, u8 p 4, u8 p 5⟩

/-- They lie in the ranges of R122. -/
def InkBinding.ok (b : InkBinding) : Bool :=
  decide (b.screen ≤ 5 ∧ b.curve ≤ 7 ∧ b.floor ≤ 254 ∧ 1 ≤ b.ceiling ∧ b.ceiling ≤ 255 ∧ b.floor ≤ b.ceiling)

/-- The arguments of SCREEN_BEGIN. -/
structure BeginArgs where
  slot : Nat
  w : Nat
  h : Nat
  sh : Nat
  deriving DecidableEq, Repr

/-- Read them. -/
def beginArgs (p : List Byte) : BeginArgs := ⟨u8 p 0, u16 p 1, u16 p 3, u8 p 5⟩

/-- They lie in the ranges of R116. -/
def BeginArgs.ok (a : BeginArgs) : Bool :=
  decide (a.slot ≤ 5 ∧ 1 ≤ a.w ∧ a.w ≤ 256 ∧ 1 ≤ a.h ∧ a.h ≤ 256 ∧ a.sh < a.w)

/-- The arguments of SET_FLOW. -/
def flowArgs (p : List Byte) : FlowSettings := ⟨u8 p 0, u8 p 1, u32 p 2, u32 p 6, u8 p 10⟩

/-- They lie in the ranges of R41. -/
def FlowSettings.ok (f : FlowSettings) (tileCount : Nat) : Bool :=
  decide (f.resume < f.hold ∧ f.hold ≤ 96 ∧ f.low < f.high ∧ f.high ≤ tileCount ∧ 1 ≤ f.timeoutMs ∧ f.timeoutMs ≤ 255)

/-- The arguments of SET_HEAD. -/
def headArgs (p : List Byte) : HeadSettings := ⟨u16 p 0, u8 p 2, u8 p 3, if u8 p 4 = 0 then .inOrder else .firstArmed⟩

/-- They lie in the ranges of R162. -/
def HeadSettings.ok (h : HeadSettings) : Bool :=
  decide (1024 ≤ h.width ∧ h.width ≤ 32768 ∧ 1 ≤ h.prime ∧ h.prime ≤ 64 ∧ 1 ≤ h.stallMs ∧ h.stallMs ≤ 255)

end Sys2Proof.Machine
end

