-- ==== Sys2Proof/Machine/Framing.lean ====
section
/-! DEFINITION. The Framer's steps: START_MARKER, the arrival of a data byte and what it brings about, and the expiry
of the assembly timer (R22 to R29). -/

namespace Sys2Proof.Machine

open Sys2Proof (Byte)

/-- The Framer OUTSIDE, its buffer empty and its timer stopped. -/
def Framer.outside : Framer := ⟨false, [], none⟩

/-- A malformed drop by the Framer (R23, R24): counted and latched. -/
def State.countMalformed (s : State) : State := (s.count .malformed).latch .parcelMalformed

/-- A start marker (R22, R24): a parcel being assembled ends as malformed; a new parcel begins. -/
def State.startMarker (s : State) : State :=
  let s1 := if s.framer.assembling then s.countMalformed else s
  { s1 with framer := ⟨true, [], some s1.intake.flow.timeoutMs⟩ }

/-- A parcel has completed (R27): the CRC, then the inlet queue. -/
def State.offerParcel (s : State) (buffer : List Byte) : State :=
  if !crcPasses s.straps.crcInit buffer then (s.count .checkFail).latch .parcelCheck
  else if Config.inletCapacity ≤ s.intake.queue.length then (s.count .discardedFull).latch .inletOverflow
  else State.evalFlag { s with intake := { s.intake with queue := s.intake.queue ++ [parseParcel buffer] } }

/-- A data byte arrives (R22, R23, R25, R27): ignored OUTSIDE; in ASSEMBLING it joins the buffer, and the buffer is
judged. -/
def State.framerByte (s : State) (b : Byte) : State :=
  if s.framer.assembling then
    match judgeBuffer (s.framer.buffer ++ [b]) with
    | .more => { s with framer := ⟨true, s.framer.buffer ++ [b], some s.intake.flow.timeoutMs⟩ }
    | .malformed => State.countMalformed { s with framer := Framer.outside }
    | .complete => State.offerParcel { s with framer := Framer.outside } (s.framer.buffer ++ [b])
  else s

/-- The assembly timer expires (R25); it runs in ASSEMBLING only. -/
def State.assemblyTimeout (s : State) : State :=
  if s.framer.assembling && s.framer.timer.isSome then
    (State.count { s with framer := Framer.outside } .assemblyTimeouts).latch .assemblyTimeout
  else s

/-- START_MARKER (R24). -/
def execStartMarker (s : State) : Host.Outcome State Fault Refusal := .next (s.event State.startMarker)

/-- DATA_BYTE_ARRIVAL (R22). -/
def execDataByteArrival (b : Byte) (s : State) : Host.Outcome State Fault Refusal := .next (s.event fun s => s.framerByte b)

/-- HEADER_MALFORMED_DROP (R23): the byte that arrives shows the parcel malformed (log entry 4). -/
def execHeaderMalformedDrop (b : Byte) (s : State) : Host.Outcome State Fault Refusal :=
  .next (s.event fun s => s.framerByte b)

/-- PARCEL_COMPLETE (R27): the byte that arrives is the last of its parcel (log entry 4). -/
def execParcelComplete (b : Byte) (s : State) : Host.Outcome State Fault Refusal := .next (s.event fun s => s.framerByte b)

/-- ASSEMBLY_TIMEOUT (R25). -/
def execAssemblyTimeout (s : State) : Host.Outcome State Fault Refusal := .next (s.event State.assemblyTimeout)

end Sys2Proof.Machine
end

