-- ==== Sys2Proof/Machine/Intaking.lean ====
section
/-! DEFINITION. Intake: when it takes the head parcel (R30), and TAKE_SEGMENT_PARCEL with its judging (R31 to R36). -/

namespace Sys2Proof.Machine

open Sys2Proof (Byte)

/-- Intake is taking: no sweep runs and no directive is in hand (R30). -/
def State.intakeTaking (s : State) : Bool := s.store.sweep.isNone && s.restart.isNone

/-- The head parcel leaves the inlet queue (R29). -/
def State.popInlet (s : State) : State := { s with intake := { s.intake with queue := s.intake.queue.tail } }

/-- The verdict on a segment or parity parcel (R31 to R36). An accepted one names its record, its layer, its tile and
whether that tile is allocated from the free pool. -/
inductive Judged where
  | unknownPage
  | malformed
  | duplicate
  | late
  | noTile
  | accepted (record : Nat) (layer : LayerId) (tile : Nat) (allocated : Bool)
  deriving DecidableEq, Repr

/-- The parcel's fields contradict the page, the layer record or each other (R32). -/
def malformedFor (p : PageRecord) (l : LayerRecord) (h : SegHeader) (parity : Bool) (payload : List Byte) : Bool :=
  !hasInk p.inkSet l.id.ink || decide (p.bandCount ≤ h.band)
    || (match l.length with | none => false | some n => n != h.length)
    || (!parity && decide (segmentCount h.length ≤ h.index))
    || payload.length != h.payloadLength parity

/-- The layer holds the item already (R33). -/
def LayerRecord.holds (l : LayerRecord) : Item → Bool
  | .segment i => l.received.contains i || l.pending.contains i
  | .parity => l.parityHeld || l.parityPending

/-- The item is a repair segment of the layer (R34). -/
def LayerRecord.wants (l : LayerRecord) (item : Item) : Bool :=
  l.state == .damaged &&
    (match item with
     | .segment i => l.length.isNone || l.missing.contains i
     | .parity => !l.parityHeld)

/-- The tile an item goes into: the tile of its tile-map slot, or the lowest-numbered free one (R35, R45). -/
def State.placeItem (s : State) (record : Nat) (l : LayerRecord) (item : Item) : Judged :=
  match l.tileAt item.mapSlot with
  | some t => .accepted record l.id t false
  | none =>
    match s.lowestFree with
    | none => .noTile
    | some t => .accepted record l.id t true

/-- The tests R33 to R35 on a layer record. -/
def State.judgeLayer (s : State) (record : Nat) (p : PageRecord) (l : LayerRecord) (h : SegHeader) (parity : Bool)
    (payload : List Byte) : Judged :=
  if malformedFor p l h parity payload then .malformed
  else if l.holds (h.item parity) then .duplicate
  else if p.state != .opened && !l.wants (h.item parity) then .late
  else s.placeItem record l (h.item parity)

/-- Judge a segment or parity parcel (R31 to R35). -/
def State.judge (s : State) (parity : Bool) (h : SegHeader) (payload : List Byte) : Judged :=
  match s.findPage h.pageId h.version with
  | none => .unknownPage
  | some (r, p) =>
    match h.layerId?.bind p.layer? with
    | none => .malformed
    | some l => s.judgeLayer r p l h parity payload

/-- An accepted parcel fills a write slot and its store write is issued (R36, R10, R55). -/
def State.issueSegment (s : State) (slot : Nat) (w : StoreWrite) (length : Nat) (allocated : Bool) : State :=
  let s1 := if allocated then s.takeFromPool w.tile else s
  let s2 := { s1 with intake := { s1.intake with slots := s1.intake.slots.set slot (some w) } }
  ((s2.noteIssue w length).queueWrite (.intake slot)).arbitrate

/-- Act on the verdict (R31 to R36). -/
def State.actOnJudged (s : State) (slot : Nat) (h : SegHeader) (parity : Bool) (payload : List Byte) : Judged → State
  | .unknownPage => s.count .unknownPage
  | .malformed => s.countMalformed
  | .duplicate => s.count .duplicate
  | .late => s.count .late
  | .noTile => (s.count .storeFullLosses).latch .storeFull
  | .accepted record layer tile allocated =>
    s.issueSegment slot
      ⟨⟨record, layer⟩, h.item parity, tile, (h.item parity).tileSlot, payload⟩ h.length allocated

/-- Intake takes the SEGMENT or PARITY parcel at the head, if it can (R30), and judges it as the page table stands;
the holding flag is evaluated once, after all of it (R38; log entry 13). -/
def State.takeSegmentParcel (s : State) : State :=
  match s.intake.queue.head?, s.freeSlot with
  | some (.data parity _ h payload), some slot =>
    if s.intakeTaking then
      (s.popInlet.actOnJudged slot h parity payload (s.judge parity h payload)).evalFlag
    else s
  | some (.data _ _ _ _), none => s
  | some (.directive _ _ _ _), _ => s
  | none, _ => s

/-- TAKE_SEGMENT_PARCEL (R30). -/
def execTakeSegmentParcel (s : State) : Host.Outcome State Fault Refusal := .next (s.event State.takeSegmentParcel)

end Sys2Proof.Machine
end

