-- ==== Sys2Proof/Machine/Finish.lean ====
section
/-! DEFINITION. The finish of a RESTART (R171), which is part of the taking of one that finds no store write in flight
and of the completion of the last write in flight, and the STARTED report (R174). -/

namespace Sys2Proof.Machine

/-- A STARTED report (R174). -/
def State.startedReport (s : State) (cause : StartCause) (aborted : Option Nat) : Report :=
  .started ⟨cause, s.straps.size, s.tileCount, s.retiredCount, aborted⟩

/-- The report unit at the finish: the queue emptied, the latches and the counters cleared, nothing owed; a report
being sent goes on, and the mask is kept (R171, steps 2 and 3; R178). -/
def Reports.afterRestart (rp : Reports) : Reports :=
  { rp with queue := [], latches := 0, owed := false, counters := Counters.zero }

/-- The page table and the repair queue are emptied, and the free pool becomes every tile that is not retired (R21,
R46; R171, step 1). -/
def State.emptyTables (s : State) : State :=
  { s with
    pages := List.replicate Config.pageRecords none
    store := { s.store with poolOut := s.store.retired }
    repair := { s.repair with queue := [] }
    reports := s.reports.afterRestart }

/-- The reply to a RESTART, unless it carried the QUIET flag (R171, step 5). -/
def State.replyRestart (s : State) (h : RestartHold) : State :=
  if h.quiet then s else s.report (.reply h.tag 0x5F none [])

/-- The RESTART in hand finishes, in the order of R171. -/
def State.finishRestart (s : State) (h : RestartHold) : State :=
  let s1 := s.emptyTables.evalFlag.replyRestart h
  { s1.report (s1.startedReport .restart h.aborted) with restart := none }

/-- The RESTART in hand can finish: no store write is in flight (R171). -/
def State.restartDue (s : State) : Option RestartHold := if s.writesInFlight then none else s.restart

/-- The RESTART in hand finishes at this event, where no store write is in flight (R171). -/
def State.finishIfDue (s : State) : State :=
  match s.restartDue with
  | none => s
  | some h => s.finishRestart h

end Sys2Proof.Machine
end

