-- ==== Sys2Proof/Machine/BandStore.lean ====
section
/-! DEFINITION. The band store's steps: the completion of a write (R11) and of a read (R49), the beginning of a
reconstruction (R68), and the power-on sweep (R57, R58). -/

namespace Sys2Proof.Machine

open Sys2Proof (Byte DramFault SweepFaults)

/-! ## Completions -/

/-- A request may go to a tile only below the tile count (R43); beyond it the model stops (log entry 27). -/
def State.guardTile (s : State) (tile : Nat) (next : State) : Host.Outcome State Fault Refusal :=
  if tile < s.tileCount then .next next else .fault (.noSuchTile tile)

/-- STORE_WRITE_COMPLETION (R11): the write in service completes, and a RESTART in hand finishes at this event where that
was the last write in flight (R171). What the completion itself does comes first, the arbiter's choice with it, which is
the model's choice (log entry 29). -/
def execStoreWriteCompletion (s : State) : Host.Outcome State Fault Refusal :=
  match s.store.inService with
  | some (.write ref) =>
    match s.writeOf ref with
    | some w => s.guardTile w.tile (s.event fun s => (s.completeWrite ref w).finishIfDue)
    | none => .next s.beginStep
  | some (.read _) => .next s.beginStep
  | none => .next s.beginStep

/-- STORE_READ_COMPLETION (R49): the read in service completes, over a DRAM with the given faults (log entry 7). -/
def execStoreReadCompletion (faults : List DramFault) (s : State) : Host.Outcome State Fault Refusal :=
  match s.store.inService with
  | some (.read r) => s.guardTile r.tile (s.event fun s => s.completeRead r faults)
  | some (.write _) => .next s.beginStep
  | none => .next s.beginStep

/-! ## Repair begins (R68) -/

/-- Repair can begin: it is IDLE, its queue holds an entry and no RESTART is held (R68). -/
def State.canBeginRepair (s : State) : Bool :=
  s.repair.engine == .idle && !s.repair.queue.isEmpty && s.restart.isNone

/-- REPAIR_BEGIN (R68). -/
def execRepairBegin (s : State) : Host.Outcome State Fault Refusal :=
  if s.canBeginRepair then .next (s.event fun s => s.beginRepair.arbitrate) else .next s.beginStep

/-! ## The sweep (R57, R58) -/

/-- The STARTED report of a power-on or pin reset is queued; from then on latchings report again. On an idle lane its
sending begins at once, behind the flow symbol, and frees the place that an ALARM report owed from before takes, ahead of
the reports of the latchings that follow (R58, R174, R177, R178). -/
def State.announceStart (s : State) (cause : StartCause) : State :=
  let s1 := s.report (s.startedReport cause none)
  let s2 := { s1 with reports := { s1.reports with awaitStarted := false } }
  if s2.reports.sending.isNone then s2.boundary else s2

/-- The sweep ends (R58). -/
def State.endSweep (s : State) : State :=
  let s1 := (State.evalFlag { s with store := { s.store with sweep := none } }).announceStart .powerOn
  let s2 := if 0 < s1.retiredCount then s1.latch .tileRetired else s1
  if s2.degradedThreshold ≤ s2.retiredCount then s2.latch .storeDegraded else s2

/-- The four passes over tile `t` (R57): the test pattern is written and read back, then its complement; the tile
passes when both read passes do. -/
def State.tilePasses (s : State) (t : Nat) (first second : List DramFault) : Bool :=
  (s.store.dram.writeTile t testPattern).tilePasses t testPattern first
    && (s.store.dram.sweepTile t).tilePasses t sweptBytes second

/-- The test of tile `t` completes (R57): its slots have been written, and a failing tile leaves the free pool and
joins the retired set. -/
def State.testTile (s : State) (t : Nat) (passed : Bool) : State :=
  let dram := s.store.dram.sweepTile t
  if passed then { s with store := { s.store with dram } }
  else { s with store := { s.store with
      dram, retired := insertRising t s.store.retired, poolOut := insertRising t s.store.poolOut } }

/-- The test of the sweep's tile completes; after the last tile the sweep ends (R57, R58). -/
def State.sweepTileTest (s : State) (first second : List DramFault) : State :=
  match s.store.sweep with
  | none => s
  | some t =>
    let s1 := s.testTile t (s.tilePasses t first second)
    if t + 1 < s.tileCount then { s1 with store := { s1.store with sweep := some (t + 1) } } else s1.endSweep

/-- SWEEP_TILE_TEST (R57). -/
def execSweepTileTest (faults : SweepFaults) (s : State) : Host.Outcome State Fault Refusal :=
  .next (s.event fun s => s.sweepTileTest faults.first faults.second)

end Sys2Proof.Machine
end

