-- ==== Sys2Proof/Machine/Resets.lean ====
section
/-! DEFINITION. The resets from the pins: PORn (R57, R59, R60) and RESETn (R59, R60), with the reset columns of R20,
R28, R37, R42, R75, R96, R110, R126, R146, R164, R175 and R181. -/

namespace Sys2Proof.Machine

open Sys2Proof (Byte StoreSize CrcInit)

/-- The drive after a power-on or pin reset (R164): the level is taken from the line, and the drive is UNLOADING, or
IDLE where the level is low. -/
def Drive.afterReset (plateReady : Bool) : Drive :=
  { State.reset.drive with state := if plateReady then .unloading else .idle, plateReady }

/-- The bytes of a partly written slot: written ones and those that stood there before, as free values choose (R56). -/
def tornBytes (draw : Nat) (old new : List Byte) : List Byte :=
  (List.range 256).map fun o => if Config.tornByte draw o then new.getD o 0 else old.getD o 0

/-- A partly written slot: its check code is a free value that does not agree with it, so that a later read fails
(R56). -/
def tornCell (draw n : Nat) (old new : List Byte) : SlotCell :=
  let bytes := tornBytes draw old new
  ⟨bytes, if Config.tornCode draw = checkCodeAt n bytes then checkCodeAt n bytes + 1 else Config.tornCode draw⟩

/-- The write in service, if one is. -/
def State.writeInService (s : State) : Option StoreWrite :=
  match s.store.inService with
  | some (.write ref) => s.writeOf ref
  | some (.read _) => none
  | none => none

/-- The DRAM after the write in service has been cut short (R56): its slot is written, or not, or partly. -/
def State.cutWrite (s : State) (w : StoreWrite) : Dram :=
  match Config.tornWhole s.freeIndex with
  | some true => (s.dramWrite w).store.dram
  | some false => s.store.dram
  | none =>
    s.store.dram.write (slotNumber w.tile w.slot)
      (tornCell s.freeIndex (slotNumber w.tile w.slot) (s.store.dram.bytesAt (slotNumber w.tile w.slot))
        (paddedSlot w.payload))

/-- The DRAM as a power-on or pin reset leaves it: kept, but for the slot of a write in service, which is cut short
(R46, R56, R60). -/
def State.tornDram (s : State) : Dram :=
  match s.writeInService with
  | none => s.store.dram
  | some w => s.cutWrite w

/-- POWER_ON_RESET (R57): every block at its reset value, the straps sampled, the sweep at tile 0, and HOLD sent at
once. The DRAM stands as it is until the sweep writes it (R46). The queue of waiting commands and the count of free
values are the model's own. -/
def execPowerOnReset (size : StoreSize) (crc : CrcInit) (plateReady : Bool) (s : State) :
    Host.Outcome State Fault Refusal :=
  .next { State.reset with
    pending := s.pending
    straps := ⟨size, crc⟩
    store := { State.reset.store with dram := s.tornDram }
    drive := Drive.afterReset plateReady
    freeIndex := s.freeIndex + 1 }

/-- What a pin reset keeps: the straps, the DRAM, and the retired set unless a sweep runs, which starts again
(R59, R60). Everything else takes its reset value. -/
def State.afterPin (s : State) (plateReady : Bool) : State :=
  { State.reset with
    pending := s.pending
    straps := s.straps
    store := { State.reset.store with
      sweep := s.store.sweep.map fun _ => 0
      retired := if s.store.sweep.isSome then [] else s.store.retired
      poolOut := if s.store.sweep.isSome then [] else s.store.retired
      dram := s.tornDram }
    drive := Drive.afterReset plateReady
    reports := { State.reset.reports with lastSymbol := none, sent := [] }
    freeIndex := s.freeIndex + 1 }

/-- The pin reset (R59, R60): with the sweep running, the sweep restarts and HOLD is sent; otherwise the holding flag
is evaluated at once and STARTED is queued with the cause PIN. The lane is idle after the reset, so the first boundary is
at once: the symbol goes out, and then STARTED (R42, R174). -/
def State.pinReset (s : State) (plateReady : Bool) : State :=
  if s.store.sweep.isSome then (s.afterPin plateReady).boundary
  else (s.afterPin plateReady).evalFlag.announceStart .pin

/-- PIN_RESET (R60). -/
def execPinReset (plateReady : Bool) (s : State) : Host.Outcome State Fault Refusal := .next (s.pinReset plateReady)

end Sys2Proof.Machine
end

