-- ==== Sys2Proof/Machine/Directives.lean ====
section
/-! DEFINITION. The Directive unit: how a directive at the queue head is taken, judged by R166 and answered (R165 to
R167), and UNKNOWN_DIRECTIVE. -/

namespace Sys2Proof.Machine

open Sys2Proof (Byte Instr)

/-- The directive is answered REFUSED with a reason, whatever its flags (R167). -/
def State.refuse (s : State) (d : Directive) (reason : Reason) (body : List Byte := []) : State :=
  s.report (.reply d.tag d.code (some reason) body)

/-- The directive is answered ACCEPTED, unless its QUIET flag is set (R167). -/
def State.accept (s : State) (d : Directive) (body : List Byte := []) : State :=
  if d.quiet then s else s.report (.reply d.tag d.code none body)

/-- The directive at the head of the inlet queue, if Intake takes it now (R30, R165). -/
def State.directiveDue (s : State) : Option Directive :=
  if s.intakeTaking then s.intake.queue.head?.bind Parcel.directive? else none

/-- The directive at the queue head, where it belongs to the given row of the table (log entry 6). -/
def State.directiveOf (s : State) (row : Instr) : Option Directive := s.directiveDue.filter fun d => d.row == row

/-- Judge a directive by R166, then by its own rule. -/
def State.judgeDirective (s : State) (d : Directive) (act : Directive → State → State) : State :=
  match d.refusal with
  | some reason => s.refuse d reason
  | none => act d s

/-- Take the directive of a row from the queue head and carry it out (R165); the holding flag is evaluated once, after
all of it, for the occupancy and whatever else has changed (R38; log entry 13). -/
def State.takeDirective (s : State) (row : Instr) (act : Directive → State → State) : State :=
  match s.directiveOf row with
  | none => s
  | some d => (s.popInlet.judgeDirective d act).evalFlag

/-- UNKNOWN_DIRECTIVE (R166): test 1 refuses it. -/
def execUnknownDirective (s : State) : Host.Outcome State Fault Refusal :=
  .next (s.event fun s => s.takeDirective .unknownDirective fun d s => s.refuse d .unknownDirective)

end Sys2Proof.Machine
end

