-- ==== Sys2Proof/Machine/PageDirectives.lean ====
section
/-! DEFINITION. OPEN_PAGE (R13, R14), CLOSE_PAGE (R15) and RELEASE_PAGE (R16 to R18). -/

namespace Sys2Proof.Machine

open Sys2Proof (Byte)

/-! ## OPEN_PAGE -/

/-- The record OPEN_PAGE fills (R14, steps 1 and 2): OPEN, with the geometry of R6 and fresh layer records. -/
def OpenArgs.record (a : OpenArgs) : PageRecord where
  pageId := a.pageId
  version := a.version
  state := .opened
  width := a.width
  height := a.height
  inkSet := a.inkSet
  bandCount := bandCountOf a.height
  pendingWrites := 0
  useCount := 0
  superseded := false
  damageNoted := false
  layers := (layerIds a.inkSet (bandCountOf a.height)).map LayerRecord.fresh

/-- A current record of the id has an equal or higher version (R13). -/
def State.staleVersion (s : State) (a : OpenArgs) : Bool :=
  s.liveRecords.any fun (_, p) => p.current && p.pageId == a.pageId && decide (a.version ≤ p.version)

/-- The effect of an accepted OPEN_PAGE into record `r`, up to its reply (R14, steps 1 to 4). -/
def State.fillRecord (s : State) (r : Nat) (a : OpenArgs) : State :=
  ((s.setPage r (some a.record)).resupersede a.pageId).reresolve a.pageId

/-- OPEN_PAGE's own rule (R13, R14). -/
def State.openPage (s : State) (d : Directive) : State :=
  let a := openArgs d.payload
  if !a.ok then s.refuse d .badArgument
  else if s.staleVersion a then s.refuse d .staleVersion
  else
    match s.emptyRecord with
    | none => s.refuse d .tableFull
    | some r => (s.fillRecord r a).accept d [byteOf r, byteOf (bandCountOf a.height)]

/-- OPEN_PAGE (R14). -/
def execOpenPage (s : State) : Host.Outcome State Fault Refusal :=
  .next (s.event fun s => s.takeDirective .openPage fun d s => s.openPage d)

/-! ## CLOSE_PAGE -/

/-- Evaluate every layer of a record that R61 allows, in layer order (R15, step 3; R63). -/
def State.evaluateAll (s : State) (r : Nat) (layers : List LayerRecord) : State :=
  layers.foldl (fun acc l => acc.evaluateLayer ⟨r, l.id⟩) s

/-- CLOSE_PAGE's own rule (R15). -/
def State.closePage (s : State) (d : Directive) : State :=
  match s.findPage (u16 d.payload 0) (u8 d.payload 2) with
  | none => s.refuse d .unknownPage
  | some (r, p) =>
    if p.state = .opened then
      (State.evaluateAll ((s.setPage r (some { p with state := .evaluating })).accept d) r p.layers).derivePage r
    else s.refuse d .wrongState

/-- CLOSE_PAGE (R15). -/
def execClosePage (s : State) : Host.Outcome State Fault Refusal :=
  .next (s.event fun s => s.takeDirective .closePage fun d s => s.closePage d)

/-! ## RELEASE_PAGE -/

/-- A record is withdrawn from repair (R16, R74): its entries leave the repair queue, and a reconstruction of one of
its layers is abandoned, which leaves its one request to be drained (R73). -/
def State.withdrawFromRepair (s : State) (r : Nat) : State :=
  let s1 := { s with repair := { s.repair with queue := s.repair.queue.filter fun t => !(t.record == r) } }
  match s.repair.engine.target? with
  | none => s1
  | some t => if t.record = r then s1.abandonRepair else s1

/-- A withdrawn record is freed, or held until its last pending write completes (R17), with the reply body: the
resulting state and the tiles returned. -/
def State.releaseRecord (s : State) (r : Nat) (p : PageRecord) : State × List Byte :=
  if p.pendingWrites = 0 then (s.freeRecord r p, [byteOf 0] ++ be16 p.tiles.length)
  else (s.setPage r (some { p with state := .releasing }), [byteOf PageState.releasing.code] ++ be16 0)

/-- RELEASE_PAGE's own rule (R16 to R18). -/
def State.releasePage (s : State) (d : Directive) : State :=
  match s.findPage (u16 d.payload 0) (u8 d.payload 2) with
  | none => s.refuse d .unknownPage
  | some (r, p) =>
    if 0 < p.useCount then s.refuse d .pageInUse
    else
      let released := (s.withdrawFromRepair r).releaseRecord r p
      ((released.1.resupersede p.pageId).reresolve p.pageId).accept d released.2

/-- RELEASE_PAGE (R16). -/
def execReleasePage (s : State) : Host.Outcome State Fault Refusal :=
  .next (s.event fun s => s.takeDirective .releasePage fun d s => s.releasePage d)

end Sys2Proof.Machine
end

