-- ==== Sys2Proof/Machine/TicketDirectives.lean ====
section
/-! DEFINITION. POST_TICKET (R131, R132) and WITHDRAW_TICKET (R139, R140). -/

namespace Sys2Proof.Machine

open Sys2Proof (Byte)

/-! ## POST_TICKET -/

/-- The ticket POST_TICKET carries, POSTED and not yet resolved (R127). -/
def TicketArgs.ticket (a : TicketArgs) (ink : Ink) : Ticket :=
  ⟨a.tag, ink, a.margin, a.gutter, a.left, a.right, a.policy, .posted, none, none⟩

/-- Place a ticket (R132, step 1): at the tail, or immediately before the first ticket that is not IMAGING. -/
def insertTicket (front : Bool) (t : Ticket) : List Ticket → List Ticket
  | [] => [t]
  | x :: xs => if front && !(x.state == .imaging) then t :: x :: xs else x :: insertTicket front t xs

/-- A ticket's position in a schedule, counted from 1 (R132). -/
def positionOf (tag : Nat) (schedule : List Ticket) : Nat := schedule.findIdx (fun t => t.tag == tag) + 1

/-- The effect of an accepted POST_TICKET (R132, steps 1 to 4), for a ticket whose bindings are resolved and whose
arming has been evaluated. -/
def State.enterTicket (s : State) (front : Bool) (t : Ticket) : State :=
  State.offer { (s.addUse t.leftRes true).addUse t.rightRes true with schedule := insertTicket front t s.schedule }

/-- The ticket as it stands after its resolution and its first arming evaluation (R132, steps 2 and 3). -/
def State.readyTicket (s : State) (t : Ticket) : Ticket :=
  { s.resolveTicket t with state := s.armedState (s.resolveTicket t) }

/-- POST_TICKET's own rule (R131, R132). -/
def State.postTicket (s : State) (d : Directive) : State :=
  let a := ticketArgs d.payload
  match inkOf a.ink with
  | none => s.refuse d .badArgument
  | some ink =>
    if !a.ok then s.refuse d .badArgument
    else if (s.ticket? a.tag).isSome then s.refuse d .duplicateTag
    else if Config.scheduleCapacity ≤ s.schedule.length then s.refuse d .scheduleFull
    else
      let t := s.readyTicket (a.ticket ink)
      (s.enterTicket a.front t).accept d
        [byteOf (positionOf a.tag (insertTicket a.front t s.schedule)), byteOf t.state.code]

/-- POST_TICKET (R132). -/
def execPostTicket (s : State) : Host.Outcome State Fault Refusal :=
  .next (s.event fun s => s.takeDirective .postTicket fun d s => s.postTicket d)

/-! ## WITHDRAW_TICKET -/

/-- The reply body of a WITHDRAW_TICKET: the tag and the state the ticket had (R139). -/
def Ticket.withdrawnBody (t : Ticket) : List Byte := be16 t.tag ++ [byteOf t.state.code]

/-- WITHDRAW_TICKET's own rule (R139, R140). An IMAGING ticket's plate ends at once; its PLATE report stands behind
the reply. -/
def State.withdrawTicket (s : State) (d : Directive) : State :=
  match s.ticket? (u16 d.payload 0) with
  | none => s.refuse d .unknownTicket
  | some t =>
    if t.state = .imaging then (s.accept d t.withdrawnBody).endShort .withdrawn
    else
      ((s.removeTicket t).offer.accept d t.withdrawnBody).report (t.plateReport .withdrawn 0 ⟨0, 0, 0, 0, false⟩)

/-- WITHDRAW_TICKET (R139). -/
def execWithdrawTicket (s : State) : Host.Outcome State Fault Refusal :=
  .next (s.event fun s => s.takeDirective .withdrawTicket fun d s => s.withdrawTicket d)

end Sys2Proof.Machine
end

