-- ==== Sys2Proof/Machine/TableDirectives.lean ====
section
/-! DEFINITION. The Screener's directives: SCREEN_BEGIN (R116, R117), SCREEN_DATA (R118, R119), SCREEN_END (R120),
CURVE_LOAD (R121) and SET_INK (R122). -/

namespace Sys2Proof.Machine

open Sys2Proof (Byte)

/-- The ink record the plate in context was captured with (R123). -/
def Drive.capturedSettings (dr : Drive) : Option InkBinding :=
  if dr.state.inContext then dr.plate.map (·.settings) else none

/-- A screen slot is captured by the plate in context (R123). -/
def State.screenCaptured (s : State) (n : Nat) : Bool :=
  match s.drive.capturedSettings with
  | none => false
  | some b => b.screen == n

/-- A curve slot is captured by the plate in context (R123). -/
def State.curveCaptured (s : State) (n : Nat) : Bool :=
  match s.drive.capturedSettings with
  | none => false
  | some b => b.curve == n

/-- Replace the Screener's tables, and evaluate the arming of the tickets of every ink whose readiness has changed
(R114). -/
def State.setScreener (s : State) (sc : Screener) : State := State.rearmInks { s with screener := sc } s.screener

/-! ## SCREEN_BEGIN -/

/-- The tables after an accepted SCREEN_BEGIN (R117, steps 1 and 2). -/
def Screener.beginLoad (sc : Screener) (a : BeginArgs) : Screener :=
  { sc with screens := sc.screens.set a.slot (.loading ⟨a.w, a.h, a.sh, []⟩), load := some ⟨a.slot, 0⟩ }

/-- The screen-load context names another slot (R116). -/
def Screener.loadingOther (sc : Screener) (slot : Nat) : Bool :=
  match sc.load with
  | none => false
  | some l => l.slot != slot

/-- SCREEN_BEGIN's own rule (R116, R117). -/
def State.screenBegin (s : State) (d : Directive) : State :=
  let a := beginArgs d.payload
  if !a.ok then s.refuse d .badArgument
  else if s.screenCaptured a.slot then s.refuse d .slotBusy
  else if s.screener.loadingOther a.slot then s.refuse d .loadInProgress
  else (s.setScreener (s.screener.beginLoad a)).accept d ([byteOf a.slot] ++ be32 (a.w * a.h))

/-- SCREEN_BEGIN (R117). -/
def execScreenBegin (s : State) : Host.Outcome State Fault Refusal :=
  .next (s.event fun s => s.takeDirective .screenBegin fun d s => s.screenBegin d)

/-! ## SCREEN_DATA -/

/-- A threshold byte of 0 is stored as 1 (R119). -/
def raiseByte (b : Byte) : Byte := if b = 0 then 1 else b

/-- How many bytes of a run are raised (R119). -/
def raisedCount (run : List Byte) : Nat := (run.filter fun b => b == 0).length

/-- The slot the screen-load context names, with the table being loaded (R115). -/
def Screener.openLoad (sc : Screener) : Option (ScreenLoad × ScreenTable) :=
  match sc.load with
  | none => none
  | some l =>
    match sc.screen l.slot with
    | .loading t => some (l, t)
    | .empty => none
    | .ready _ => none

/-- The tables after an accepted SCREEN_DATA (R118, R119). -/
def Screener.storeRun (sc : Screener) (l : ScreenLoad) (t : ScreenTable) (run : List Byte) : Screener :=
  { sc with
    screens := sc.screens.set l.slot (.loading { t with entries := t.entries ++ run.map raiseByte })
    load := some { l with fillPoint := l.fillPoint + run.length } }

/-- SCREEN_DATA's own rule (R118, R119). -/
def State.screenData (s : State) (d : Directive) : State :=
  match s.screener.openLoad with
  | none => s.refuse d .notLoading
  | some (l, t) =>
    let run := d.payload.drop 2
    if u16 d.payload 0 ≠ l.fillPoint then s.refuse d .outOfOrder (be32 l.fillPoint)
    else if run.length = 0 ∨ t.w * t.h < l.fillPoint + run.length then s.refuse d .badArgument
    else
      (State.count { s with screener := s.screener.storeRun l t run } .thresholdsRaised (raisedCount run)).accept d
        (be32 (l.fillPoint + run.length) ++ be16 (raisedCount run))

/-- SCREEN_DATA (R118). -/
def execScreenData (s : State) : Host.Outcome State Fault Refusal :=
  .next (s.event fun s => s.takeDirective .screenData fun d s => s.screenData d)

/-! ## SCREEN_END -/

/-- The tables after an accepted SCREEN_END (R120, steps 1 and 2). -/
def Screener.endLoad (sc : Screener) (l : ScreenLoad) (t : ScreenTable) : Screener :=
  { sc with screens := sc.screens.set l.slot (.ready t), load := none }

/-- SCREEN_END's own rule (R120). -/
def State.screenEnd (s : State) (d : Directive) : State :=
  match s.screener.openLoad with
  | none => s.refuse d .notLoading
  | some (l, t) =>
    if l.fillPoint < t.w * t.h then s.refuse d .incomplete (be32 l.fillPoint)
    else (s.setScreener (s.screener.endLoad l t)).accept d [byteOf l.slot]

/-- SCREEN_END (R120). -/
def execScreenEnd (s : State) : Host.Outcome State Fault Refusal :=
  .next (s.event fun s => s.takeDirective .screenEnd fun d s => s.screenEnd d)

/-! ## CURVE_LOAD -/

/-- The tables after an accepted CURVE_LOAD (R121). -/
def Screener.loadCurve (sc : Screener) (slot : Nat) (entries : List Byte) : Screener :=
  { sc with curves := sc.curves.set slot (some entries) }

/-- CURVE_LOAD's own rule (R121). -/
def State.curveLoad (s : State) (d : Directive) : State :=
  if 7 < u8 d.payload 0 ∨ (d.payload.drop 1).length ≠ 256 then s.refuse d .badArgument
  else if s.curveCaptured (u8 d.payload 0) then s.refuse d .slotBusy
  else (s.setScreener (s.screener.loadCurve (u8 d.payload 0) (d.payload.drop 1))).accept d

/-- CURVE_LOAD (R121). -/
def execCurveLoad (s : State) : Host.Outcome State Fault Refusal :=
  .next (s.event fun s => s.takeDirective .curveLoad fun d s => s.curveLoad d)

/-! ## SET_INK -/

/-- The tables with an ink record replaced, or unbound (R122, step 1). -/
def Screener.setInk (sc : Screener) (i : Ink) (b : Option InkBinding) : Screener := { sc with inks := sc.inks.set i b }

/-- An accepted SET_INK (R122, steps 1 to 3): the reply carries the ink's readiness after the change. -/
def State.setInk (s : State) (d : Directive) (i : Ink) (b : Option InkBinding) : State :=
  (s.setScreener (s.screener.setInk i b)).accept d [boolByte ((s.screener.setInk i b).inkReady i)]

/-- SET_INK's own rule, form BIND (R122). -/
def State.bindInk (s : State) (d : Directive) : State :=
  match inkOf (u8 d.payload 0) with
  | none => s.refuse d .badArgument
  | some i => if (bindArgs d.payload).ok then s.setInk d i (some (bindArgs d.payload)) else s.refuse d .badArgument

/-- SET_INK's own rule, form UNBIND (R122). -/
def State.unbindInk (s : State) (d : Directive) : State :=
  match inkOf (u8 d.payload 0) with
  | none => s.refuse d .badArgument
  | some i => s.setInk d i none

/-- SET_INK_BIND (R122). -/
def execSetInkBind (s : State) : Host.Outcome State Fault Refusal :=
  .next (s.event fun s => s.takeDirective .setInkBind fun d s => s.bindInk d)

/-- SET_INK_UNBIND (R122). -/
def execSetInkUnbind (s : State) : Host.Outcome State Fault Refusal :=
  .next (s.event fun s => s.takeDirective .setInkUnbind fun d s => s.unbindInk d)

end Sys2Proof.Machine
end

