-- ==== Sys2Proof/Machine/SettingDirectives.lean ====
section
/-! DEFINITION. SET_FLOW (R41), SET_HEAD (R162), RESUME_HEAD (R161), SET_ALARM_MASK and CLEAR_ALARMS (R179). -/

namespace Sys2Proof.Machine

open Sys2Proof (Byte)

/-- SET_FLOW's own rule (R41); the holding flag is evaluated with the new marks as the directive ends. -/
def State.setFlow (s : State) (d : Directive) : State :=
  if (flowArgs d.payload).ok s.tileCount then
    State.accept { s with intake := { s.intake with flow := flowArgs d.payload } } d
  else s.refuse d .badArgument

/-- SET_FLOW (R41). -/
def execSetFlow (s : State) : Host.Outcome State Fault Refusal :=
  .next (s.event fun s => s.takeDirective .setFlow fun d s => s.setFlow d)

/-- SET_HEAD's own rule (R162); a changed order mode is an event of eligibility (R135). -/
def State.setHead (s : State) (d : Directive) : State :=
  let h := headArgs d.payload
  if !h.ok then s.refuse d .badArgument
  else if s.drive.state.inContext then s.refuse d .wrongState
  else
    let s1 := State.accept { s with drive := { s.drive with settings := h } } d
    if h.mode = s.drive.settings.mode then s1 else s1.offer

/-- SET_HEAD (R162). -/
def execSetHead (s : State) : Host.Outcome State Fault Refusal :=
  .next (s.event fun s => s.takeDirective .setHead fun d s => s.setHead d)

/-- RESUME_HEAD's own rule (R161). -/
def State.resumeHead (s : State) (d : Directive) : State :=
  if s.drive.state = .halted ∧ s.drive.stuck = false then
    s.enterUnloading.accept d [byteOf s.enterUnloading.drive.state.code]
  else s.refuse d .wrongState

/-- RESUME_HEAD (R161). -/
def execResumeHead (s : State) : Host.Outcome State Fault Refusal :=
  .next (s.event fun s => s.takeDirective .resumeHead fun d s => s.resumeHead d)

/-- The latched set and the mask, as a reply body gives them (R179). -/
def Reports.alarmBody (rp : Reports) : List Byte := be16 rp.latches.toNat ++ be16 rp.mask.toNat

/-- SET_ALARM_MASK's own rule (R179). -/
def State.setAlarmMask (s : State) (d : Directive) : State :=
  let s1 := { s with reports := { s.reports with mask := alarmSetAt d.payload 0 } }
  s1.accept d s1.reports.alarmBody

/-- SET_ALARM_MASK (R179). -/
def execSetAlarmMask (s : State) : Host.Outcome State Fault Refusal :=
  .next (s.event fun s => s.takeDirective .setAlarmMask fun d s => s.setAlarmMask d)

/-- CLEAR_ALARMS's own rule (R179). -/
def State.clearAlarms (s : State) (d : Directive) : State :=
  let s1 := { s with reports := { s.reports with latches := s.reports.latches &&& ~~~alarmSetAt d.payload 0 } }
  s1.accept d s1.reports.alarmBody

/-- CLEAR_ALARMS (R179). -/
def execClearAlarms (s : State) : Host.Outcome State Fault Refusal :=
  .next (s.event fun s => s.takeDirective .clearAlarms fun d s => s.clearAlarms d)

end Sys2Proof.Machine
end

