-- ==== Sys2Proof/Machine/Queries.lean ====
section
/-! DEFINITION. The seven kinds of QUERY (R19, R44, R125, R145, R163, R168) and IDENTIFY (R169), with the reply bodies
of table 10-5. -/

namespace Sys2Proof.Machine

open Sys2Proof (Byte)

/-! ## Reply bodies (table 10-5) -/

/-- The six layer states in the order of their codes (table 10-2). -/
def layerStates : List LayerState := [.empty, .filling, .whole, .repairing, .repaired, .damaged]

/-- The body of a QUERY PAGE reply (R19). -/
def PageRecord.queryBody (p : PageRecord) (r : Nat) : List Byte :=
  [byteOf r] ++ be16 p.pageId ++ [byteOf p.version, byteOf p.state.code] ++ be16 p.width ++ be16 p.height
    ++ [byteOf p.inkSet.toNat, byteOf p.bandCount, byteOf p.pendingWrites, byteOf p.useCount, boolByte p.superseded]
    ++ layerStates.flatMap (fun st => be16 (p.countState st))
    ++ damagedListBytes (p.countState .damaged) p.moreDamaged p.damagedList

/-- The body of a QUERY PAGES reply (R19): every live record in record-number order. -/
def State.pagesBody (s : State) : List Byte :=
  [byteOf s.liveRecords.length] ++ s.liveRecords.flatMap fun (r, p) =>
    [byteOf r] ++ be16 p.pageId ++ [byteOf p.version, byteOf p.state.code, byteOf p.useCount]

/-- A binding with its resolution in a QUERY SCHEDULE reply; an absent record number is 0xFF (R176). -/
def bindingBytes (b : Option Binding) (r : Option Resolution) : List Byte :=
  match b with
  | none => be16 0 ++ [byteOf 0, byteOf 0xFF, byteOf 0]
  | some b => be16 b.pageId ++ [byteOf (b.version.getD 0), byteOf ((r.map (·.record)).getD 0xFF),
      byteOf ((r.map (·.version)).getD 0)]

/-- The failing condition a QUERY SCHEDULE reply gives for a ticket: for a POSTED ticket only (R145). -/
def State.failingByte (s : State) (t : Ticket) : Byte :=
  match t.state with
  | .posted => byteOf (((s.armingFailure t).map FailCond.code).getD 0)
  | .armed => 0
  | .imaging => 0

/-- A ticket in a QUERY SCHEDULE reply (R145). -/
def State.ticketBytes (s : State) (t : Ticket) : List Byte :=
  be16 t.tag ++ [byteOf t.state.code, byteOf t.ink.code] ++ be16 t.margin ++ be16 t.gutter ++ [byteOf t.policy.code]
    ++ bindingBytes (some t.left) t.leftRes ++ bindingBytes t.right t.rightRes ++ [s.failingByte t]

/-- The body of a QUERY SCHEDULE reply (R145). -/
def State.scheduleBody (s : State) : List Byte :=
  [byteOf s.drive.settings.mode.code, byteOf s.schedule.length]
    ++ be16 ((s.eligible.map (·.tag)).getD 0) ++ be16 ((s.imagingTicket.map (·.tag)).getD 0)
    ++ s.schedule.flatMap s.ticketBytes

/-- The body of a QUERY STORE reply (R44, R168). -/
def State.storeBody (s : State) : List Byte :=
  be32 s.freeCount ++ be32 s.retiredCount ++ be32 s.mappedCount
    ++ [boolByte s.intake.holding, byteOf s.intake.queue.length, byteOf s.busySlots]

/-- A screen slot in a QUERY INKS reply: state, W, H, Sh, and the fill point when LOADING (R125). -/
def ScreenSlot.bytes (slot : ScreenSlot) (fillPoint : Nat) : List Byte :=
  match slot with
  | .empty => [byteOf 0] ++ be16 0 ++ be16 0 ++ [byteOf 0] ++ be32 0
  | .loading t => [byteOf 1] ++ be16 t.w ++ be16 t.h ++ [byteOf t.sh] ++ be32 fillPoint
  | .ready t => [byteOf 2] ++ be16 t.w ++ be16 t.h ++ [byteOf t.sh] ++ be32 0

/-- An ink record in a QUERY INKS reply (R125); an unbound ink names no slots, 0xFF (R176). -/
def inkBytes (b : Option InkBinding) (ready : Bool) : List Byte :=
  match b with
  | none => [byteOf 0, byteOf 0xFF, byteOf 0xFF, byteOf 0, byteOf 0, boolByte ready]
  | some b => [byteOf 1, byteOf b.screen, byteOf b.curve, byteOf b.floor, byteOf b.ceiling, boolByte ready]

/-- The body of a QUERY INKS reply (R125). -/
def State.inksBody (s : State) : List Byte :=
  (List.range Config.screenSlots).flatMap (fun n =>
      (s.screener.screen n).bytes ((s.screener.load.map (·.fillPoint)).getD 0) ++ [boolByte (s.screenCaptured n)])
    ++ (List.range Config.curveSlots).flatMap (fun n =>
      [byteOf (if (s.screener.curve n).isSome then 2 else 0), boolByte (s.curveCaptured n)])
    ++ allInks.flatMap (fun i => inkBytes (s.screener.inks.get i) (s.screener.inkReady i))
    ++ [byteOf ((s.screener.load.map (·.slot)).getD 0xFF)]

/-- The plate fields of a QUERY HEAD reply: L, next plate line, lines requested, lines sent, transfer in progress; zeros
outside PRIMING and IMAGING (R163, table 10-5). -/
def State.plateBytes (s : State) : List Byte :=
  match s.drive.plate with
  | none => be16 0 ++ be16 0 ++ be16 0 ++ be16 0 ++ [byteOf 0]
  | some pl => be16 pl.lineCount ++ be16 ((s.prefetch.job.map (·.nextLine)).getD 0) ++ be16 pl.requested
      ++ be16 pl.sent ++ [boolByte pl.transfer.isSome]

/-- The tag of a QUERY HEAD reply: that of the selected ticket, of the plate in context, or none (R163). -/
def Drive.tag (dr : Drive) : Nat :=
  match dr.plate with
  | some pl => pl.tag
  | none => dr.selected.getD 0

/-- The body of a QUERY HEAD reply (R163). -/
def State.headBody (s : State) : List Byte :=
  [byteOf s.drive.state.code] ++ be16 s.drive.tag ++ s.plateBytes
    ++ [byteOf s.drive.pool.length, boolByte s.drive.plateReady, boolByte s.drive.lastSample, byteOf s.drive.haltRun,
        boolByte s.drive.stuck]
    ++ be16 s.drive.settings.width
    ++ [byteOf s.drive.settings.prime, byteOf s.drive.settings.stallMs, byteOf s.drive.settings.mode.code]

/-- The body of a QUERY COUNTERS reply (R168). -/
def Counters.body (c : Counters) : List Byte := c.toList.flatMap be16

/-- The body of an IDENTIFY reply (R169). -/
def State.identity (s : State) : List Byte :=
  be16 0x4B43 ++ be16 0x6240 ++ [byteOf 1, byteOf (storeSizeCode s.straps.size)] ++ be32 s.tileCount
    ++ be32 s.retiredCount
    ++ [byteOf Config.pageRecords, byteOf Config.scheduleCapacity, byteOf Config.screenSlots, byteOf Config.curveSlots]
    ++ be16 (crcInitValue s.straps.crcInit).toNat

/-! ## The directives -/

/-- QUERY of kind PAGE (R19); a QUERY that R166 refuses for its kind belongs here too (log entry 6). -/
def State.queryPage (s : State) (d : Directive) : State :=
  match s.findPage (u16 d.payload 2) (u8 d.payload 4) with
  | none => s.refuse d .unknownPage
  | some (r, p) => s.accept d (p.queryBody r)

/-- QUERY of kind COUNTERS with the option CLEAR (R168): the counters are copied, then set to 0, then the reply is
queued. -/
def State.clearCounters (s : State) (d : Directive) : State :=
  State.accept { s with reports := { s.reports with counters := Counters.zero } } d s.reports.counters.body

/-- QUERY_PAGE (R19). -/
def execQueryPage (s : State) : Host.Outcome State Fault Refusal :=
  .next (s.event fun s => s.takeDirective .queryPage fun d s => s.queryPage d)

/-- QUERY_PAGES (R19). -/
def execQueryPages (s : State) : Host.Outcome State Fault Refusal :=
  .next (s.event fun s => s.takeDirective .queryPages fun d s => s.accept d s.pagesBody)

/-- QUERY_SCHEDULE (R145). -/
def execQuerySchedule (s : State) : Host.Outcome State Fault Refusal :=
  .next (s.event fun s => s.takeDirective .querySchedule fun d s => s.accept d s.scheduleBody)

/-- QUERY_STORE (R44). -/
def execQueryStore (s : State) : Host.Outcome State Fault Refusal :=
  .next (s.event fun s => s.takeDirective .queryStore fun d s => s.accept d s.storeBody)

/-- QUERY_INKS (R125). -/
def execQueryInks (s : State) : Host.Outcome State Fault Refusal :=
  .next (s.event fun s => s.takeDirective .queryInks fun d s => s.accept d s.inksBody)

/-- QUERY_HEAD (R163). -/
def execQueryHead (s : State) : Host.Outcome State Fault Refusal :=
  .next (s.event fun s => s.takeDirective .queryHead fun d s => s.accept d s.headBody)

/-- QUERY_COUNTERS (R168). -/
def execQueryCounters (s : State) : Host.Outcome State Fault Refusal :=
  .next (s.event fun s => s.takeDirective .queryCounters fun d s => s.accept d s.reports.counters.body)

/-- QUERY_COUNTERS_CLEAR (R168). -/
def execQueryCountersClear (s : State) : Host.Outcome State Fault Refusal :=
  .next (s.event fun s => s.takeDirective .queryCountersClear fun d s => s.clearCounters d)

/-- IDENTIFY (R169). -/
def execIdentify (s : State) : Host.Outcome State Fault Refusal :=
  .next (s.event fun s => s.takeDirective .identify fun d s => s.accept d s.identity)

end Sys2Proof.Machine
end

