-- ==== Sys2Proof/Machine/Restart.lean ====
section
/-! DEFINITION. RESTART: the taking (R170), and RESTART_FINISH (R171). -/

namespace Sys2Proof.Machine

open Sys2Proof (Byte)

/-- The tag of the plate a RESTART aborts: that of a plate in PRIMING or IMAGING (R170, step 1). -/
def Drive.abortedTag (dr : Drive) : Option Nat := if dr.state.inContext then dr.plate.map (·.tag) else none

/-- The plate is aborted and every ticket leaves the schedule; the use counts fall to zero, and the drive enters
UNLOADING, or IDLE at once (R146, R157, R164; R170, steps 1 and 2). -/
def State.abortSchedule (s : State) : State :=
  State.enterUnloading { s.dropPlate with
    schedule := []
    pages := s.pages.map fun p => p.map fun p => { p with useCount := 0 } }

/-- The repair queue is emptied and a reconstruction in READING is abandoned (R75; R170, step 3). -/
def Repair.afterRestart (rp : Repair) : Repair :=
  { rp with
    queue := []
    engine := match rp.engine with
      | .reading _ _ _ _ => .draining
      | .writing t i => .writing t i
      | .draining => .draining
      | .idle => .idle }

/-- A screen slot after a RESTART: a LOADING slot becomes EMPTY (R126). -/
def ScreenSlot.afterRestart : ScreenSlot → ScreenSlot
  | .loading _ => .empty
  | .empty => .empty
  | .ready t => .ready t

/-- The screen-load context is emptied, and a LOADING slot becomes EMPTY (R126; R170, step 4). -/
def Screener.afterRestart (sc : Screener) : Screener :=
  { sc with screens := sc.screens.map ScreenSlot.afterRestart, load := none }

/-- RESTART is taken (R170, steps 1 to 4): it is never refused (R166), and the Directive unit has it in hand. -/
def State.takeRestart (s : State) (d : Directive) : State :=
  let s1 := s.abortSchedule
  { s1 with
    repair := s1.repair.afterRestart
    screener := s1.screener.afterRestart
    restart := some ⟨d.tag, d.quiet, s.drive.abortedTag⟩ }

/-- The last step of the taking (R170, step 5): the RESTART finishes at this event, where no store write is in flight, and
is held otherwise. The holding flag is evaluated once, at the finish or, while the RESTART is held, for the parcel that
has left the inlet queue (R38; log entry 13). -/
def State.finishOrHold (s : State) : State :=
  match s.restartDue with
  | none => s.evalFlag
  | some h => s.finishRestart h

/-- The RESTART at the head of the inlet queue, if Intake takes it now, is carried out (R165, R166, R170). -/
def State.restartDirective (s : State) : State :=
  match s.directiveOf .restart with
  | none => s
  | some d => (s.popInlet.takeRestart d).finishOrHold

/-- RESTART (R170). -/
def execRestart (s : State) : Host.Outcome State Fault Refusal := .next (s.event State.restartDirective)

/-- RESTART_FINISH (R171). The finish is part of the event that makes it due, so that this command of the table finds a
RESTART to finish only in a state that no event has left so (log entry 29). -/
def execRestartFinish (s : State) : Host.Outcome State Fault Refusal := .next (s.event State.finishIfDue)

end Sys2Proof.Machine
end

