-- ==== Sys2Proof/Machine/Head.lean ====
section
/-! DEFINITION. The head drive's steps (R149 to R160) and Prefetch's own (R86, R90). -/

namespace Sys2Proof.Machine

/-! ## Prefetch -/

/-- MAKE_LINE (R86): one line that can be made, and the prime test. The events that let lines be made make them all
already (log entry 18). -/
def execMakeLine (s : State) : Host.Outcome State Fault Refusal :=
  if s.canMakeLine then .next (s.event fun s => s.makeLine.primeTest) else .next s.beginStep

/-- PREFETCH_READ_ISSUE (R90): the first stream that may issues its next read, and the arbiter serves it if it can
(R55; log entry 14). -/
def execPrefetchReadIssue (s : State) : Host.Outcome State Fault Refusal :=
  match s.issuingStream with
  | none => .next s.beginStep
  | some (side, kind) => .next (s.event fun s => (s.issueRead side kind).arbitrate)

/-! ## PLATE_READY -/

/-- PLATE_READY rises (R147): in WAIT_PLATE the plate context is captured (R150). -/
def State.plateReadyRise (s : State) : State :=
  if s.drive.plateReady then s
  else
    let s1 := { s with drive := { s.drive with plateReady := true } }
    if s.drive.state = .waitPlate then s1.capturePlate else s1

/-- PLATE_READY falls (R147): a plate in context is lost (R156), and UNLOADING ends (R149). -/
def State.plateReadyFall (s : State) : State :=
  if s.drive.plateReady then
    let s1 := { s with drive := { s.drive with plateReady := false } }
    match s.drive.state with
    | .priming => s1.endShort (.spoiled .plateLost)
    | .imaging => s1.endShort (.spoiled .plateLost)
    | .unloading => s1.enterIdle
    | .idle => s1
    | .waitPlate => s1
    | .halted => s1
  else s

/-- PLATE_READY_RISE (R150). -/
def execPlateReadyRise (s : State) : Host.Outcome State Fault Refusal := .next (s.event State.plateReadyRise)

/-- PLATE_READY_FALL (R156). -/
def execPlateReadyFall (s : State) : Host.Outcome State Fault Refusal := .next (s.event State.plateReadyFall)

/-! ## Line requests and transfers -/

/-- A transfer starts with the head line of the pool (R153); the stall timer restarts, or stops at the last line
(R155). -/
def State.startTransfer (s : State) (pl : Plate) (line : Line) (rest : List Line) : State :=
  { s with drive := { s.drive with
      pool := rest
      plate := some { pl with transfer := some line, requested := pl.requested + 1 }
      stall := if pl.requested + 1 < pl.lineCount then some s.drive.settings.stallMs else none } }

/-- A line request in IMAGING (R153). The line that leaves the pool is an event of Prefetch, which makes the lines it can
(R86, R151). -/
def State.requestLine (s : State) (pl : Plate) : State :=
  if pl.transfer.isSome then s.endShort (.spoiled .headProtocol)
  else
    match s.drive.pool with
    | line :: rest => (s.startTransfer pl line rest).prefetchEvent
    | [] => s.endShort (.spoiled .underrun)

/-- A line request (R147, R152, R153). -/
def State.lineReq (s : State) : State :=
  match s.drive.state with
  | .priming => s.count .earlyLineRequests
  | .imaging =>
    match s.drive.plate with
    | none => s
    | some pl => s.requestLine pl
  | .idle => s
  | .waitPlate => s
  | .unloading => s
  | .halted => s

/-- LINE_REQ (R153). -/
def execLineReq (s : State) : Host.Outcome State Fault Refusal := .next (s.event State.lineReq)

/-- The plate context after the completion of a transfer (R154). -/
def Plate.lineSent (pl : Plate) : Plate := { pl with transfer := none, sent := pl.sent + 1 }

/-- The plate whose transfer is in progress. -/
def Drive.transferring (dr : Drive) : Option Plate :=
  if dr.state = .imaging then dr.plate.filter fun pl => pl.transfer.isSome else none

/-- The transfer of a line completes (R154); after the last line the plate is DONE. -/
def State.completeTransfer (s : State) : State :=
  match s.drive.transferring with
  | none => s
  | some pl =>
    if pl.sent + 1 < pl.lineCount then { s with drive := { s.drive with plate := some pl.lineSent } }
    else s.endDone pl.lineSent

/-- LINE_TRANSFER_COMPLETION (R154). -/
def execLineTransferCompletion (s : State) : Host.Outcome State Fault Refusal := .next (s.event State.completeTransfer)

/-- The stall timer expires while running in IMAGING (R155). -/
def State.stallExpiry (s : State) : State :=
  if s.drive.state = .imaging ∧ s.drive.stall.isSome then s.endShort (.spoiled .headStall) else s

/-- STALL_TIMER_EXPIRY (R155). -/
def execStallTimerExpiry (s : State) : Host.Outcome State Fault Refusal := .next (s.event State.stallExpiry)

/-! ## HALT -/

/-- HALT_REQUEST (R160): the low sample that ends a pulse (log entry 5). -/
def execHaltRequest (s : State) : Host.Outcome State Fault Refusal := .next (s.event fun s => s.haltSample false)

/-- HALT_LINE_STUCK (R159): the high sample that is the seventh of its run (log entry 5). -/
def execHaltLineStuck (s : State) : Host.Outcome State Fault Refusal := .next (s.event fun s => s.haltSample true)

/-- HALT_LINE_SAMPLE (R159). -/
def execHaltLineSample (high : Bool) (s : State) : Host.Outcome State Fault Refusal :=
  .next (s.event fun s => s.haltSample high)

end Sys2Proof.Machine
end

