-- ==== Sys2Proof/Machine/ReturnLane.lean ====
section
/-! DEFINITION. The return lane's steps: the end of a report parcel (R173) and the owed ALARM report (R178). -/

namespace Sys2Proof.Machine

/-- The report being sent ends (R173): a parcel boundary. A cause may latch at the same event as the freeing of the place,
and be taken first or second (R178). Taken second, the owed ALARM report joins here. Taken first, the freed place is left to
the cause's own report, that of the next command, and the indicator stays yes. DESIGN CHOICE (log entry 19): the flow symbol
of the boundary goes out by the flag as it stands ahead of such a cause, so that a cause that turns the flag too, as the
latching of STORE_LOW may, has its symbol sent at the next boundary. -/
def State.parcelEnd (s : State) (causeFirst : Bool) : State :=
  match s.reports.sending with
  | none => s
  | some _ =>
    let s1 := { s with reports := { s.reports with sending := none } }
    if causeFirst then s1.sendNext else s1.boundary

/-- REPORT_PARCEL_END (R173). -/
def execReportParcelEnd (s : State) (causeFirst : Bool := false) : Host.Outcome State Fault Refusal :=
  .next (s.beginStep.parcelEnd causeFirst)

/-- The owed ALARM report can join the queue: a place is free, and no STARTED report is awaited (R177, R178). That is so
where a report parcel ended with a cause to be taken first and no report has taken the freed place; every other event that
frees a place takes the owed report in itself (log entry 19). -/
def State.owedDue (s : State) : Bool :=
  s.reports.owed && decide (s.reports.queue.length < Config.reportCapacity) && !s.reports.awaitStarted

/-- OWED_ALARM_REPORT (R178), as a command of its own. -/
def execOwedAlarmReport (s : State) : Host.Outcome State Fault Refusal :=
  if s.owedDue then .next (s.event State.queueOwed) else .next s.beginStep

end Sys2Proof.Machine
end

