-- ==== Sys2Proof/Machine/Due.lean ====
section
/-! DEFINITION. The block's own steps: the row of the table that the block takes next by itself, when no command
waits (log entry 2). -/

namespace Sys2Proof.Machine

open Sys2Proof (Instr)

/-- The row of the parcel at the head of the inlet queue, if Intake can take it now (R30, R165). -/
def State.takingDue (s : State) : Option Instr :=
  if s.intakeTaking then
    match s.intake.queue.head? with
    | none => none
    | some (.data _ _ _ _) => if s.freeSlot.isSome then some .takeSegmentParcel else none
    | some (.directive flags code tag payload) => some (Directive.row ⟨flags, code, tag, payload⟩)
  else none

/-- The first of a list of optional rows that is present. -/
def firstDue : List (Option Instr) → Option Instr
  | [] => none
  | some i :: _ => some i
  | none :: rest => firstDue rest

/-- The row the block takes next by itself: the finish of a RESTART in hand (R171), an owed ALARM report (R178), the
beginning of a reconstruction (R68), a line that can be made (R86), a read that can be issued (R90), and the parcel at
the queue head (R30, R165). -/
def State.dueStep (s : State) : Option Instr :=
  firstDue
    [ s.restartDue.map fun _ => .restartFinish
    , if s.owedDue then some .owedAlarmReport else none
    , if s.canBeginRepair then some .repairBegin else none
    , if s.canMakeLine then some .makeLine else none
    , s.issuingStream.map fun _ => .prefetchReadIssue
    , s.takingDue ]

end Sys2Proof.Machine
end

