-- ==== Sys2Proof/Machine/Dispatch.lean ====
section
/-! DEFINITION. The dispatch of a command to its meaning, one arm for each row of spec/opcode_table.json. -/

namespace Sys2Proof.Machine

open Sys2Proof

def exec (i : Instr) (s : State) : Host.Outcome State Fault Refusal :=
  match i with
  | .startMarker => Sys2Proof.Machine.execStartMarker s
  | .headerMalformedDrop b => Sys2Proof.Machine.execHeaderMalformedDrop b s
  | .parcelComplete b => Sys2Proof.Machine.execParcelComplete b s
  | .assemblyTimeout => Sys2Proof.Machine.execAssemblyTimeout s
  | .takeSegmentParcel => Sys2Proof.Machine.execTakeSegmentParcel s
  | .storeWriteCompletion => Sys2Proof.Machine.execStoreWriteCompletion s
  | .storeReadCompletion faults => Sys2Proof.Machine.execStoreReadCompletion faults s
  | .repairBegin => Sys2Proof.Machine.execRepairBegin s
  | .sweepTileTest faults => Sys2Proof.Machine.execSweepTileTest faults s
  | .powerOnReset size crc plateReady => Sys2Proof.Machine.execPowerOnReset size crc plateReady s
  | .pinReset plateReady => Sys2Proof.Machine.execPinReset plateReady s
  | .unknownDirective => Sys2Proof.Machine.execUnknownDirective s
  | .openPage => Sys2Proof.Machine.execOpenPage s
  | .closePage => Sys2Proof.Machine.execClosePage s
  | .releasePage => Sys2Proof.Machine.execReleasePage s
  | .postTicket => Sys2Proof.Machine.execPostTicket s
  | .withdrawTicket => Sys2Proof.Machine.execWithdrawTicket s
  | .setInkBind => Sys2Proof.Machine.execSetInkBind s
  | .setInkUnbind => Sys2Proof.Machine.execSetInkUnbind s
  | .screenBegin => Sys2Proof.Machine.execScreenBegin s
  | .screenData => Sys2Proof.Machine.execScreenData s
  | .screenEnd => Sys2Proof.Machine.execScreenEnd s
  | .curveLoad => Sys2Proof.Machine.execCurveLoad s
  | .setFlow => Sys2Proof.Machine.execSetFlow s
  | .setHead => Sys2Proof.Machine.execSetHead s
  | .resumeHead => Sys2Proof.Machine.execResumeHead s
  | .setAlarmMask => Sys2Proof.Machine.execSetAlarmMask s
  | .clearAlarms => Sys2Proof.Machine.execClearAlarms s
  | .queryPage => Sys2Proof.Machine.execQueryPage s
  | .queryPages => Sys2Proof.Machine.execQueryPages s
  | .querySchedule => Sys2Proof.Machine.execQuerySchedule s
  | .queryStore => Sys2Proof.Machine.execQueryStore s
  | .queryInks => Sys2Proof.Machine.execQueryInks s
  | .queryHead => Sys2Proof.Machine.execQueryHead s
  | .queryCounters => Sys2Proof.Machine.execQueryCounters s
  | .queryCountersClear => Sys2Proof.Machine.execQueryCountersClear s
  | .identify => Sys2Proof.Machine.execIdentify s
  | .restart => Sys2Proof.Machine.execRestart s
  | .restartFinish => Sys2Proof.Machine.execRestartFinish s
  | .makeLine => Sys2Proof.Machine.execMakeLine s
  | .prefetchReadIssue => Sys2Proof.Machine.execPrefetchReadIssue s
  | .plateReadyRise => Sys2Proof.Machine.execPlateReadyRise s
  | .plateReadyFall => Sys2Proof.Machine.execPlateReadyFall s
  | .lineReq => Sys2Proof.Machine.execLineReq s
  | .lineTransferCompletion => Sys2Proof.Machine.execLineTransferCompletion s
  | .stallTimerExpiry => Sys2Proof.Machine.execStallTimerExpiry s
  | .haltRequest => Sys2Proof.Machine.execHaltRequest s
  | .haltLineStuck => Sys2Proof.Machine.execHaltLineStuck s
  | .reportParcelEnd causeFirst => Sys2Proof.Machine.execReportParcelEnd s causeFirst
  | .owedAlarmReport => Sys2Proof.Machine.execOwedAlarmReport s
  | .dataByteArrival b => Sys2Proof.Machine.execDataByteArrival b s
  | .haltLineSample high => Sys2Proof.Machine.execHaltLineSample high s

end Sys2Proof.Machine
end

