-- ==== Sys2Proof/Machine/Step.lean ====
section
/-! DEFINITION. One step of the block. -/

namespace Sys2Proof.Machine

open Sys2Proof (Instr)

/-- One step: the command at the front of the queue, carried out with the queue's rest; with no command waiting, the
step the block takes by itself, and otherwise the block idles (log entry 2). -/
def step (s : State) : Host.Outcome State Fault Refusal :=
  match s.pending with
  | i :: rest => exec i { s with pending := rest }
  | [] =>
    match s.dueStep with
    | some i => exec i s
    | none => .next s

/-- The state with the command that a word spells at the front of its queue; the table gives no row bits, so no word
spells one (log entry 31). -/
def State.withFetchWord (s : State) (nbits w : Nat) : State :=
  match Sys2Proof.decodeTableWord nbits w with
  | some i => { s with pending := i :: s.pending }
  | none => s

end Sys2Proof.Machine
end

