-- ==== Sys2Proof/Safety.lean ====
section
/-! DEFINITION. What a safe run is, and the invariants of the block that the statements use. -/

namespace Sys2Proof.Machine

open Sys2Proof (Byte Instr)

/-- A command completes: it answers a next state. -/
def completes (o : Host.Outcome State Fault Refusal) : Prop := ∃ t, o = .next t

/-- What holds of the next state of a command that completes. -/
def gives (o : Host.Outcome State Fault Refusal) (post : State → Prop) : Prop := ∃ t, o = .next t ∧ post t

/-- An invariant that every step keeps: from every state that has it, a step that answers a next state gives one that
has it. -/
def StepKeeps (inv : State → Prop) : Prop := ∀ s t, inv s → step s = .next t → inv t

/-! ## Capacities -/

/-- The value of a counter. -/
def Counters.read (c : Counters) : Counter → Nat
  | .discardedFull => c.discardedFull
  | .checkFail => c.checkFail
  | .malformed => c.malformed
  | .assemblyTimeouts => c.assemblyTimeouts
  | .unknownPage => c.unknownPage
  | .duplicate => c.duplicate
  | .late => c.late
  | .storeFullLosses => c.storeFullLosses
  | .layersRepaired => c.layersRepaired
  | .thresholdsRaised => c.thresholdsRaised
  | .unpackFaults => c.unpackFaults
  | .platesDone => c.platesDone
  | .platesSpoiled => c.platesSpoiled
  | .reportsLost => c.reportsLost
  | .earlyLineRequests => c.earlyLineRequests

/-- Every counter lies within 0..65535 (R181). -/
def Counters.inRange (c : Counters) : Prop := ∀ k, c.read k ≤ Config.counterMax

/-- Every queue, list and table stays within the room the part has for it (00_scope.md, 2.3; R1, R29, R36, R111,
R112, R127, R151, R159, R172), and every counter within 0..65535 (R181). -/
structure State.Bounded (s : State) : Prop where
  inlet : s.intake.queue.length ≤ Config.inletCapacity
  slots : s.intake.slots.length = Config.writeSlots
  pages : s.pages.length = Config.pageRecords
  screens : s.screener.screens.length = Config.screenSlots
  curves : s.screener.curves.length = Config.curveSlots
  schedule : s.schedule.length ≤ Config.scheduleCapacity
  pool : s.drive.pool.length ≤ Config.poolCapacity
  run : s.drive.haltRun ≤ 7
  reports : s.reports.queue.length ≤ Config.reportCapacity
  counters : s.reports.counters.inRange

/-! ## The store -/

/-- A list of tile numbers rises strictly, so it holds no number twice. -/
def rises : List Nat → Bool
  | [] => true
  | [_] => true
  | x :: y :: rest => decide (x < y) && rises (y :: rest)

/-- The tiles in the tile-map slots of every layer record of every page record, slot by slot (R44). -/
def State.mapped (s : State) : List Nat := s.liveRecords.flatMap fun (_, p) => p.tiles

/-- The places a tile stands in: the free pool, the retired set, and each tile-map slot that holds it. -/
def State.places (s : State) (t : Nat) : Nat :=
  (if s.inPool t then 1 else 0) + s.store.retired.count t + s.mapped.count t

/-- A page record's layer records are those of distinct layers, each with 17 tile-map slots (R7, R8) and, where its length
is known, at most 65,536 bytes; and while the page is OPEN they are EMPTY or FILLING (R9, R61). -/
structure PageRecord.Wf (p : PageRecord) : Prop where
  ids : (p.layers.map (·.id)).Nodup
  maps : ∀ l ∈ p.layers, l.tileMap.length = 17
  lengths : ∀ l ∈ p.layers, l.length.getD 0 ≤ 65536
  opened : p.state = .opened → ∀ l ∈ p.layers, l.state = .empty ∨ l.state = .filling

/-- The length field of a segment or parity parcel is one of two bytes. -/
def Parcel.lengthOk : Parcel → Bool
  | .data _ _ h _ => decide (h.lengthField < 65536)
  | .directive _ _ _ _ => true

/-- The store's data are well formed. The free pool and the retired set hold no duplicates (R45, R52), since the list of the
tiles that are not in the pool and that of the retired tiles rise strictly; the DRAM is in its canonical form; and every
tile of the store is in exactly one place (R44), with no other tile in any. The last five fields carry the last two from
step to step. -/
structure State.StoreWf (s : State) : Prop where
  pool : rises s.store.poolOut = true
  retired : rises s.store.retired = true
  dram : s.store.dram.wf = true
  onePlace : ∀ t, t < s.tileCount → s.places t = 1
  noPlace : ∀ t, s.tileCount ≤ t → t ∉ s.store.poolOut ∧ t ∉ s.store.retired ∧ t ∉ s.mapped
  pages : ∀ r p, s.page? r = some p → p.Wf
  inlet : ∀ x ∈ s.intake.queue, x.lengthOk = true
  sweep : ∀ n, s.store.sweep = some n → n < s.tileCount ∧ s.liveRecords = []
  segment : ∀ t i k acc, s.repair.engine = .reading t i k acc → i < 256

/-! ## The plate in context -/

/-- What the drive holds in each of its states (R137, R147, R148, R151, R153, R155): a plate context and Prefetch's
work for it in PRIMING and IMAGING and at no other time, lines in the pool only then, a transfer and a running stall
timer in IMAGING only, and a selected ticket in WAIT_PLATE only. -/
structure State.ContextWf (s : State) : Prop where
  plate : s.drive.plate.isSome = s.drive.state.inContext
  job : s.prefetch.job.isSome = s.drive.state.inContext
  pool : s.drive.state.inContext = false → s.drive.pool = []
  transfer : ∀ pl, s.drive.plate = some pl → pl.transfer.isSome = true → s.drive.state = .imaging
  stall : s.drive.stall.isSome = true → s.drive.state = .imaging
  selected : s.drive.selected.isSome = decide (s.drive.state = .waitPlate)

/-! ## Tickets -/

/-- The tags of live tickets are distinct (R127). -/
def State.TagsDistinct (s : State) : Prop := (s.schedule.map (·.tag)).Nodup

/-- The IMAGING tickets are those of the plate in context: there is one while the drive is in PRIMING or IMAGING, and
none at any other time (R137). -/
structure State.ImagingWf (s : State) : Prop where
  inContext : ∀ t ∈ s.schedule, t.state = .imaging → ∃ pl, s.drive.plate = some pl ∧ pl.tag = t.tag
  imaging : ∀ pl, s.drive.plate = some pl → ∃ t ∈ s.schedule, t.tag = pl.tag ∧ t.state = .imaging

/-- The resolved slot bindings of live tickets that name a record. -/
def State.uses (s : State) (r : Nat) : Nat := ((s.schedule.flatMap Ticket.resolutions).filter fun x => x.record == r).length

/-- The law of R4: every use count is the number of resolved slot bindings that name the record, and a record that one
names is neither EMPTY nor RELEASING. -/
structure State.UsesWf (s : State) : Prop where
  counts : ∀ r p, s.page? r = some p → p.useCount = s.uses r
  live : ∀ t ∈ s.schedule, ∀ x ∈ t.resolutions, ∃ p, s.page? x.record = some p ∧ p.current = true

/-- The schedule agrees with the drive and with the page table, and it is empty while a RESTART is held (R170). -/
structure State.ScheduleWf (s : State) : Prop where
  context : s.ContextWf
  tags : s.TagsDistinct
  imaging : s.ImagingWf
  uses : s.UsesWf
  held : s.restart.isSome = true → s.schedule = []

/-! ## The finish of a RESTART -/

/-- The write a reference names is the only store write in flight. -/
def State.OnlyWrite (s : State) (ref : WriteRef) : Prop := ∀ r, (s.writeOf r).isSome = true → r = ref

/-- The reports of the finish of a RESTART, in their order: the reply, unless it was QUIET, and STARTED (R171). -/
def RestartHold.reports (h : RestartHold) (s : State) : List Report :=
  (if h.quiet then [] else [.reply h.tag 0x5F none []])
    ++ [.started ⟨.restart, s.straps.size, s.tileCount, s.retiredCount, h.aborted⟩]

/-- The RESTART `h` has finished at an event (R171). The queue and the latches are stated where the evaluation of its step
4 finds the reserve cause, at which STORE_LOW would latch anew, absent or present already, as `low` says of the evaluation
before (R39). A report that is being sent goes on; on an idle lane, whose queue is empty, the first of the reports is sent. -/
structure State.RestartFinished (s t : State) (h : RestartHold) (low : Bool) : Prop where
  records : t.liveRecords = []
  repair : t.repair.queue = []
  retired : t.store.retired = s.store.retired
  pool : t.store.poolOut = s.store.retired
  counters : t.reports.counters = Counters.zero
  mask : t.reports.mask = s.reports.mask
  released : t.restart = none ∧ t.intakeTaking = true
  reports : (reservePresent s.intake.flow (s.tileCount - s.retiredCount) = true → low = true) →
    t.reports.latches = 0 ∧ t.reports.owed = false ∧
    (s.reports.sending.isSome = true → t.reports.sending = s.reports.sending ∧ t.reports.queue = h.reports s) ∧
    (s.reports.sending = none → s.reports.queue = [] →
      t.reports.sending = (h.reports s).head? ∧ t.reports.queue = (h.reports s).tail)

/-! ## Rows that a held-up line needs -/

/-- The bytes at hand complete the row under construction, and `rest` is left of them: by its last code (R80, R81), or where
the stream ends within the operand bytes of an overrun literal, with the row placed in full (log entry 16). -/
def Stream.Completes (u : Stream) (row : List Byte) (overrun : Bool) (rest : List Byte) : Prop :=
  eatBytes u.rowWidth u.previous ⟨u.placed, u.op⟩ u.buffer = .complete row overrun rest ∨
    (rest = [] ∧ overrun = true ∧ u.slotCount ≤ u.arrived ∧ ∃ op, op.skips = true ∧
      eatBytes u.rowWidth u.previous ⟨u.placed, u.op⟩ u.buffer = .starved ⟨row, op⟩)

/-- There is nothing to go on with in a stream (R91): its row has been completed ahead of the line; or it waits with no
byte left to take; or it needs no byte, the stream having ended or been cut. -/
def Stream.GoneOn (u : Stream) : Prop :=
  u.ahead.isSome = true ∨ u.verdict = .waiting u ∨ u.verdict = .ended ∨ u.verdict = .cut

/-- Where a row of a slot holds up page line `j`, unpacking has gone on with every row that the line needs of the slot
(R86, R91). -/
def PageSlot.GoneOn (ps : PageSlot) (j : Nat) : Prop :=
  ps.ready j = false →
    (∀ u, ps.line.stream? = some u → u.GoneOn) ∧
    (∀ u, ps.picture.stream? = some u → u.rows ≤ j % 256 / 4 → u.GoneOn)

/-! ## The rows of a line, and band captures -/

/-- The stream of a capture that is read goes on with a row that a held-up line needs (R86, R91): it stays as it is; or the
row under construction takes every byte at hand; or the row is completed ahead of its line. -/
def Stream.GoesOn (u v : Stream) : Prop :=
  v = u ∨
  v = { u with buffer := [], position := u.position + u.buffer.length, placed := v.placed, op := v.op } ∨
  (u.ahead = none ∧ ∃ row overrun rest, u.Completes row overrun rest ∧
    v = { u.afterRow row rest with ahead := some overrun })

/-- A capture goes on: nothing of a fill capture changes, and of a read capture only its stream (R88, R91). -/
def Capture.GoesOn (c d : Capture) : Prop :=
  d = { c with kind := d.kind } ∧ (c.isFill = true → d = c) ∧
    ∀ u, c.kind = .read u → ∃ v, d.kind = .read v ∧ u.GoesOn v

/-- A slot goes on: its cursor and its held contone row stand. -/
def PageSlot.GoesOn (a b : PageSlot) : Prop :=
  b = { a with line := b.line, picture := b.picture } ∧ a.line.GoesOn b.line ∧ a.picture.GoesOn b.picture

/-- The bytes at hand do not complete the row under construction. -/
def Stream.Starves (u : Stream) : Prop :=
  ∃ r, eatBytes u.rowWidth u.previous ⟨u.placed, u.op⟩ u.buffer = .starved r ∧ r.op.skips = false

/-- The row that a line needs of a stream lies at or after the stream's end (R82): the end was met before, or the row needs
a byte at or beyond the layer length, every slot of the layer having arrived. -/
def Stream.AtEnd (u : Stream) : Prop :=
  u.ahead = none ∧
    (u.mode = .ended ∨ u.mode = .finished ∨ (u.mode = .reading ∧ u.Starves ∧ u.slotCount ≤ u.arrived))

/-- The row that a line needs of a stream lies at or after the cut (R92): the cut was met before, or the bytes before it do
not complete the row. -/
def Stream.AtCut (u : Stream) : Prop :=
  u.ahead = none ∧
    (u.mode = .lost ∨
      (u.mode = .reading ∧ (∃ r, eatBytes u.rowWidth u.previous ⟨u.placed, u.op⟩ u.buffer = .starved r) ∧
        u.arrived < u.slotCount ∧ u.cut.isSome = true))

/-- A stream has produced a row from the bytes at hand (R80, R83, R91): the row is the previous row of the next one, the
bytes it took are consumed, and the next row begins at fill point 0 with a code byte. After the band's last row the bytes
left in the buffer are dropped. -/
structure Stream.Produces (u v : Stream) (row rest : List Byte) : Prop where
  same : v = { u with
    buffer := v.buffer, position := v.position, rows := v.rows, previous := v.previous, placed := v.placed, op := v.op,
    mode := v.mode, ahead := v.ahead }
  previous : v.previous = row
  rows : v.rows = u.rows + 1
  position : v.position = u.position + (u.buffer.length - rest.length)
  next : v.placed = [] ∧ v.op = .code ∧ v.ahead = none
  buffer : v.buffer = if u.rows + 1 = u.rowCount then [] else rest
  mode : v.mode = if u.rows + 1 = u.rowCount then .finished else .reading

/-- The LINE row that a line needs of a capture, the capture's kind after it, and the unpack faults met (R80 to R84, R88,
R92): a marked row of a fill capture, and at or after a cut or a stream's end; the row's bytes where it has been completed,
ahead of the line or now. An overrun is one fault, leftover bytes after the band's last row are one, and the stream's end,
where it is met first, is one. -/
def Capture.MakesLineRow (c c' : Capture) (row : LineRow) (faults : Nat) : Prop :=
  (∀ st, c.kind = .fill st → row = .marked ∧ c'.kind = c.kind ∧ faults = 0) ∧
  ∀ u, c.kind = .read u →
    (∀ overrun, u.ahead = some overrun → row = .bytes u.previous ∧ c'.kind = .read { u with ahead := none } ∧
      faults = (if overrun then 1 else 0) + (if u.mode = .finished ∧ u.position < u.length then 1 else 0)) ∧
    (∀ b overrun rest, u.ahead = none → u.mode = .reading → u.Completes b overrun rest →
      ∃ v, row = .bytes b ∧ c'.kind = .read v ∧ u.Produces v b rest ∧
        faults = (if overrun then 1 else 0)
          + (if u.rows + 1 = u.rowCount ∧ u.position + (u.buffer.length - rest.length) < u.length then 1 else 0)) ∧
    (u.AtEnd → row = .marked ∧ c'.kind = .read { u with mode := .ended } ∧
      faults = if u.mode = .ended then 0 else 1) ∧
    (u.AtCut → row = .marked ∧ c'.kind = .read { u with mode := .lost } ∧ faults = 0)

/-- PICTURE row `p`, which a line needs of a capture, with the slot's held contone row before and after it, the capture's
kind after it, and the unpack faults met (R80 to R84, R88, R92, R93). The held row is copied for a fill capture, and at or
after a cut; a row at or after the stream's end is a copy of the last row that the stream produced, or zeros; a row that
serves more lines than one has been produced before; and a row that is produced replaces the held row. -/
def Capture.MakesPictureRow (c c' : Capture) (p : Nat) (held row held' : List Byte) (faults : Nat) : Prop :=
  (∀ st, c.kind = .fill st → row = held ∧ held' = held ∧ c'.kind = c.kind ∧ faults = 0) ∧
  ∀ u, c.kind = .read u →
    (p < u.rows → u.ahead = none → row = u.previous ∧ held' = held ∧ c'.kind = c.kind ∧ faults = 0) ∧
    (∀ overrun, u.ahead = some overrun → row = u.previous ∧ held' = u.previous ∧
      c'.kind = .read { u with ahead := none } ∧
      faults = (if overrun then 1 else 0) + (if u.mode = .finished ∧ u.position < u.length then 1 else 0)) ∧
    (∀ b overrun rest, u.rows ≤ p → u.ahead = none → u.mode = .reading → u.Completes b overrun rest →
      ∃ v, row = b ∧ held' = b ∧ c'.kind = .read v ∧ u.Produces v b rest ∧
        faults = (if overrun then 1 else 0)
          + (if u.rows + 1 = u.rowCount ∧ u.position + (u.buffer.length - rest.length) < u.length then 1 else 0)) ∧
    (u.rows ≤ p → u.AtEnd → row = u.previous ∧ held' = held ∧ c'.kind = .read { u with mode := .ended } ∧
      faults = if u.mode = .ended then 0 else 1) ∧
    (u.rows ≤ p → u.AtCut → row = held ∧ held' = held ∧ c'.kind = .read { u with mode := .lost } ∧ faults = 0)

/-- What a capture of a layer keeps (R87). A WHOLE or REPAIRED layer is captured to be read: its length, the tiles in its
data tile-map slots 0..(n − 1) div 16, and a stream with an empty buffer, no reads issued, position 0 and row 0, whose
previous row is zeros (R79). Any other is captured as a fill capture with its state, which has counted in the plate summary
(R94). -/
def State.Captures (s : State) (record width height : Nat) (id : LayerId) (c : Capture) : Prop :=
  c.faulted = false ∧ c.marked = c.isFill ∧
  ∀ p l, s.page? record = some p → p.layer? id = some l →
    (∀ n, (l.state = .whole ∨ l.state = .repaired) → l.length = some n → 0 < n →
      let lines := min 256 (height - 256 * id.band)
      let rowWidth := match id.kind with | .line => (width + 7) / 8 | .picture => (width + 3) / 4
      let rowCount := match id.kind with | .line => lines | .picture => (lines + 3) / 4
      c.kind = .read
        { length := n, tiles := (List.range (((n + 255) / 256 + 15) / 16)).map fun k => (l.tileAt k).getD 0
          rowWidth, rowCount, issued := 0, arrived := 0, buffer := [], position := 0, rows := 0
          previous := List.replicate rowWidth 0, placed := [], op := .code, mode := .reading, cut := none
          ahead := none }) ∧
    (l.state ≠ .whole → l.state ≠ .repaired → c.kind = .fill l.state)

/-- Both layers of band `b` of an ink are captured for a slot, as they stand (R87). -/
def State.CapturesBand (s : State) (ps : PageSlot) (ink : Ink) (b : Nat) : Prop :=
  s.Captures ps.record ps.width ps.height ⟨ink, b, .line⟩ ps.line ∧
  s.Captures ps.record ps.width ps.height ⟨ink, b, .picture⟩ ps.picture

/-- What Prefetch's start leaves of the slot of a page, past `n` page lines (R85, R87): its cursor, 0 at the start, past the
lines made at once, a held contone row of zeros, and band 0 captured. -/
def State.StartsSlot (s : State) (ink : Ink) (n : Nat) (p : PlatePage) (ps : PageSlot) : Prop :=
  ps.record = p.record ∧ ps.width = p.width ∧ ps.height = p.height ∧ ps.cursor = min p.height n ∧
  ps.held = List.replicate ((p.width + 3) / 4) 0 ∧ s.CapturesBand ps ink 0

/-- The rows that page line `n` is made of where both layers are fill captures (R88): a marked LINE row and the held contone
row, while the page's height exceeds `n`. -/
def fillRows (height : Nat) (held : List Byte) (n : Nat) : Option SlotRows :=
  if height ≤ n then none else some ⟨.marked, held⟩

/-- The plate context that a capture fills for ticket `x` (R97, R100, R137, R150): the ticket's tag, ink, margin and gutter,
the pages its resolutions name with the widths and heights of their records, the ink record and the head line width in
force; L, the margin and the greater of the heights; CLIPPED where the content is wider than the head; and nothing requested,
sent or in transfer. -/
structure State.ContextOf (t : State) (x : Ticket) (q : Plate) : Prop where
  ticket : q.tag = x.tag ∧ q.ink = x.ink ∧ q.margin = x.margin ∧ q.gutter = x.gutter
  settings : t.screener.inks.get x.ink = some q.settings
  head : q.headWidth = t.drive.settings.width
  left : ∃ a l, x.leftRes = some a ∧ t.page? a.record = some l ∧ q.left = ⟨a.record, a.version, l.width, l.height⟩
  alone : x.right = none → q.right = none
  right : x.right.isSome = true → ∃ c r, x.rightRes = some c ∧ t.page? c.record = some r ∧
    q.right = some ⟨c.record, c.version, r.width, r.height⟩
  onePage : q.right = none → q.lineCount = x.margin + q.left.height ∧
    (q.summary.clipped = true ↔ t.drive.settings.width < q.left.width)
  twoPages : ∀ r, q.right = some r → q.lineCount = x.margin + max q.left.height r.height ∧
    (q.summary.clipped = true ↔ t.drive.settings.width < q.left.width + x.gutter + r.width)
  unsent : q.requested = 0 ∧ q.sent = 0 ∧ q.transfer = none

/-- What the capture of a plate context for ticket `x` leaves (R150). The context is filled, and no ticket is selected.
Prefetch has started: cursors at 0, held contone rows of zeros, band 0 of each slot captured as its layers stand, and the fill
captures, and nothing else, counted in the plate summary (R85, R87, R94). It has made the lines it can at the event, which
need no read: a margin line has every dot off, and an image line is made of marked LINE rows and held contone rows of zeros
(R86, R88). With as many lines as the prime level, or all of them, the drive is IMAGING, EXPOSE is high and the stall timer
runs; otherwise it is PRIMING (R147, R152). -/
def State.PlateCaptured (t : State) (x : Ticket) : Prop :=
  ∃ (q : Plate) (j : PrefetchJob),
    let made := t.drive.pool.length
    let zeros (p : PlatePage) : List Byte := List.replicate ((p.width + 3) / 4) 0
    let lineFill (ps : PageSlot) : Nat := if ps.line.isFill then 1 else 0
    let pictureFill (ps : PageSlot) : Nat := if ps.picture.isFill then 1 else 0
    let primed := t.drive.settings.prime ≤ made ∨ q.lineCount ≤ made
    t.drive.plate = some q ∧ t.ContextOf x q ∧ t.drive.selected = none ∧
    t.prefetch.job = some j ∧ j.nextLine = made ∧ j.storeFaulted = [] ∧
    t.StartsSlot x.ink (made - x.margin) q.left j.left ∧ (q.right = none → j.right = none) ∧
    (∀ r, q.right = some r → ∃ ps, j.right = some ps ∧ t.StartsSlot x.ink (made - x.margin) r ps) ∧
    q.summary.lineMarked = lineFill j.left + j.right.elim 0 lineFill ∧
    q.summary.pictureHeld = pictureFill j.left + j.right.elim 0 pictureFill ∧
    q.summary.unpackFaults = 0 ∧ q.summary.storeFaults = 0 ∧
    (∀ (y : Nat) (line : Line), t.drive.pool[y]? = some line →
      line.length = q.headWidth ∧ (y < x.margin → ∀ n, line.getD n false = false) ∧
      (x.margin ≤ y →
        line = imageLine q (t.screener.screenTable q.settings.screen) (t.screener.curveTable q.settings.curve)
          (fillRows q.left.height (zeros q.left) (y - x.margin))
          (q.right.bind fun r => fillRows r.height (zeros r) (y - x.margin)) y)) ∧
    made ≤ 64 ∧ made ≤ q.lineCount ∧ t.canMakeLine = false ∧
    (primed → t.drive.state = .imaging ∧ t.drive.exposeHigh = true ∧ t.drive.stall = some t.drive.settings.stallMs) ∧
    (¬ primed → t.drive.state = .priming ∧ t.drive.exposeHigh = false ∧ t.drive.stall = none)

/-- What the making of one page line gives of a slot: its rows, if the line needs any, the unpack faults met, and what it
adds to the plate summary (R94). -/
structure SlotGives where
  rows : Option SlotRows
  faults : Nat
  lineMarked : Nat
  pictureHeld : Nat
  newlyFaulted : Nat

/-- What the making of page line `n` does to a slot (R86). A slot whose height is `n` or less gives nothing and stays as it
is. Any other makes its two rows; its cursor stands past the line; a capture that meets its first fault is faulted and counts
once (R84), and a LINE capture counts once at its first marked row (R94). Where the cursor enters a band, the band is
captured, and its fill captures count (R87, R94); otherwise the slot may go on with its next rows. -/
def State.MakesRows (s : State) (ink : Ink) (n : Nat) (ps ps' : PageSlot) (g : SlotGives) : Prop :=
  (ps.height ≤ n → ps' = ps ∧ g = ⟨none, 0, 0, 0, 0⟩) ∧
  (n < ps.height → ∃ (m : PageSlot) (row : SlotRows) (fl fp : Nat),
    let marks := if row.line = .marked ∧ ps.line.marked = false then 1 else 0
    let enters := (n + 1) % 256 = 0 ∧ n + 1 < ps.height
    ps.line.MakesLineRow m.line row.line fl ∧
    ps.picture.MakesPictureRow m.picture (n % 256 / 4) ps.held row.picture m.held fp ∧
    m = { ps with cursor := n + 1, line := m.line, picture := m.picture, held := m.held } ∧
    m.line = { ps.line with
      kind := m.line.kind, faulted := ps.line.faulted || decide (0 < fl)
      marked := ps.line.marked || decide (row.line = .marked) } ∧
    m.picture = { ps.picture with kind := m.picture.kind, faulted := ps.picture.faulted || decide (0 < fp) } ∧
    g.rows = some row ∧ g.faults = fl + fp ∧
    g.newlyFaulted = (if ps.line.faulted = false ∧ 0 < fl then 1 else 0)
      + (if ps.picture.faulted = false ∧ 0 < fp then 1 else 0) ∧
    (¬ enters → m.GoesOn ps' ∧ g.lineMarked = marks ∧ g.pictureHeld = 0) ∧
    (enters → ps' = { m with line := ps'.line, picture := ps'.picture } ∧ s.CapturesBand ps' ink ((n + 1) / 256) ∧
      g.lineMarked = marks + (if ps'.line.isFill then 1 else 0) ∧
      g.pictureHeld = if ps'.picture.isFill then 1 else 0))

/-! ## The tables of the spec that statements spell out -/

/-- The table of R62: the state an evaluation gives a layer. -/
def LayerRecord.EvaluatesTo (l : LayerRecord) (new : LayerState) : Prop :=
  (l.length = none → new = .damaged) ∧
  (l.length.isSome = true → l.missing = [] → l.state = .repaired → new = .repaired) ∧
  (l.length.isSome = true → l.missing = [] → l.state ≠ .repaired → new = .whole) ∧
  (l.length.isSome = true → l.missing.length = 1 → l.parityHeld = true → new = .repairing) ∧
  (l.length.isSome = true → 2 ≤ l.missing.length ∨ (l.missing.length = 1 ∧ l.parityHeld = false) → new = .damaged)

/-- What an event of evaluation makes of a layer record of a closed page (R61): with no write in flight it takes the state
of R62, and otherwise it keeps its state; nothing else of it changes. -/
def LayerRecord.EvaluatedAs (l m : LayerRecord) : Prop :=
  m = { l with state := m.state } ∧
  (l.pending = [] ∧ l.parityPending = false → l.EvaluatesTo m.state) ∧
  (¬ (l.pending = [] ∧ l.parityPending = false) → m.state = l.state)

/-- The table of R64: the state of a closed page. -/
def PageRecord.DerivesTo (p : PageRecord) (new : PageState) : Prop :=
  (0 < p.pendingWrites ∨ (∃ l ∈ p.layers, l.state = .repairing) → new = .evaluating) ∧
  (p.pendingWrites = 0 → (∀ l ∈ p.layers, l.state = .whole ∨ l.state = .repaired) → new = .complete) ∧
  (p.pendingWrites = 0 → (∀ l ∈ p.layers, l.state ≠ .repairing) →
    (∃ l ∈ p.layers, l.state ≠ .whole ∧ l.state ≠ .repaired) → new = .damaged)

/-- The holding flag follows R38, with the inlet queue occupancy and the free tile count as the event leaves them. -/
structure State.FlagFollows (s t : State) (occupancy free : Nat) : Prop where
  raised : s.intake.holding = false →
    (t.intake.holding = true ↔ s.intake.flow.hold ≤ occupancy ∨ free ≤ s.intake.flow.low)
  lowered : s.intake.holding = true →
    (t.intake.holding = false ↔ occupancy ≤ s.intake.flow.resume ∧ s.intake.flow.high ≤ free)

/-- The evaluation of the holding flag that an event makes, with the marks, the inlet queue occupancy and the free tile
count as the event leaves them: the flag by R38, the reserve cause, and STORE_LOW latched exactly where that cause is
present and was not at the evaluation before (R39). -/
structure State.FlagEvaluated (s t : State) (f : FlowSettings) (occupancy free : Nat) : Prop where
  raised : s.intake.holding = false → (t.intake.holding = true ↔ f.hold ≤ occupancy ∨ free ≤ f.low)
  lowered : s.intake.holding = true → (t.intake.holding = false ↔ occupancy ≤ f.resume ∧ f.high ≤ free)
  cause : t.intake.reserveCause = true ↔ free ≤ f.low
  low : free ≤ f.low → s.intake.reserveCause = false → t.reports.latched .storeLow = true
  steady : ¬ (free ≤ f.low ∧ s.intake.reserveCause = false) →
    t.reports.latched .storeLow = s.reports.latched .storeLow

/-- The four conditions of R133. -/
def State.MeetsArming (s : State) (t : Ticket) : Prop :=
  t.leftRes.isSome = true ∧ (t.right.isSome = true → t.rightRes.isSome = true) ∧
  (∀ x ∈ t.resolutions, ∃ p, s.page? x.record = some p ∧ hasInk p.inkSet t.ink = true ∧
    (p.state = .complete ∨ (t.policy = .imageMarked ∧ p.state = .damaged))) ∧
  s.screener.inkReady t.ink = true

/-- The eligible ticket of a schedule under an order mode (R135): ARMED, and in IN_ORDER the first ticket that is not
IMAGING, in FIRST_ARMED the first that is ARMED. -/
def IsEligible (mode : OrderMode) (l : List Ticket) (x : Ticket) : Prop :=
  x.state = .armed ∧ ∃ before after, l = before ++ x :: after ∧
    ∀ y ∈ before, (mode = .inOrder → y.state = .imaging) ∧ (mode = .firstArmed → y.state ≠ .armed)

/-- The drive could take up an offered ticket at an event (R148): it stood in IDLE or WAIT_PLATE. -/
def State.Open (s : State) : Prop := s.drive.state = .idle ∨ s.drive.state = .waitPlate

/-- With no plate mounted, the drive has taken what it was offered (R148): WAIT_PLATE with the eligible ticket selected, and
IDLE where there is none. -/
def State.Selects (t : State) : Prop :=
  (∀ x, IsEligible t.drive.settings.mode t.schedule x → t.drive.state = .waitPlate ∧ t.drive.selected = some x.tag) ∧
  ((∀ x, ¬ IsEligible t.drive.settings.mode t.schedule x) → t.drive.state = .idle)

/-- What an event makes of the schedule at which it evaluates the arming of the tickets that `hit` picks (R133, R134). Every
ticket keeps its place and all but its state, and an IMAGING one is unchanged. One that is picked is ARMED exactly where the
four conditions hold, and one that is not keeps its state, but for a ticket that the drive takes up at the event: that one
was ARMED, or is picked and meets the conditions, and the drive stood in IDLE or WAIT_PLATE with PLATE_READY high (R137,
R148). The drive takes up at the event, with a plate mounted, a ticket that arms with none ahead of it, or with POSTED ones
only under FIRST_ARMED (R135, R150); with no plate mounted, an event that changes a ticket's state leaves the eligible ticket
selected (R148). -/
structure State.Rearms (s t : State) (hit : Ticket → Prop) : Prop where
  length : t.schedule.length = s.schedule.length
  each : ∀ (n : Nat) (x : Ticket), s.schedule[n]? = some x → ∃ y, t.schedule[n]? = some y ∧
    y = { x with state := y.state } ∧ (x.state = .imaging → y = x) ∧
    (y.state ≠ .imaging → (hit x → (y.state = .armed ↔ t.MeetsArming y)) ∧ (¬ hit x → y.state = x.state))
  taken : ∀ (n : Nat) (x y : Ticket), s.schedule[n]? = some x → t.schedule[n]? = some y → x.state ≠ .imaging →
    y.state = .imaging → s.drive.plateReady = true ∧ (s.drive.state = .idle ∨ s.drive.state = .waitPlate) ∧
      (s.TagsDistinct → (hit x → t.MeetsArming y) ∧ (¬ hit x → x.state = .armed))
  captures : s.Open → s.drive.plateReady = true → ∀ (n : Nat) (x : Ticket), s.schedule[n]? = some x → hit x →
    x.state = .posted → t.MeetsArming x →
    (∀ (m : Nat) (y : Ticket), m < n → t.schedule[m]? = some y →
      y.state = .posted ∧ s.drive.settings.mode = .firstArmed) →
    t.drive.state.inContext = true ∧ t.schedule[n]? = some { x with state := .imaging }
  selects : s.Open → s.drive.plateReady = false →
    t.schedule.map (·.state) ≠ s.schedule.map (·.state) → t.Selects

/-- A record that a binding may resolve to (R129): current, of the binding's id, and of its version where it is fixed. -/
def Binding.fits (b : Binding) (p : PageRecord) : Prop :=
  p.current = true ∧ p.pageId = b.pageId ∧ ∀ v, b.version = some v → p.version = v

/-- The resolution of a binding (R129): absent where no record fits, and otherwise a record that fits, of the highest
version of those that do. -/
def State.ResolvesTo (s : State) (b : Binding) (o : Option Resolution) : Prop :=
  (o = none → ∀ r p, s.page? r = some p → ¬ b.fits p) ∧
  ∀ x, o = some x → ∃ p, s.page? x.record = some p ∧ b.fits p ∧ x.version = p.version ∧
    ∀ r q, s.page? r = some q → b.fits q → q.version ≤ p.version

/-- A binding at an event of a page id: computed again where it names the id, and otherwise as it was (R130). -/
def State.MovesTo (t : State) (pageId : Nat) (b : Binding) (old new : Option Resolution) : Prop :=
  (b.pageId = pageId → t.ResolvesTo b new) ∧ (b.pageId ≠ pageId → new = old)

/-- What an event makes of the schedule at which the resolutions of the bindings that name a page id are computed (R130).
Every ticket keeps its place, and all but its state and its resolutions; an IMAGING one is unchanged. A ticket of which a
resolution changes is ARMED exactly where the four conditions hold (R133, R134), and any other keeps its state, but for one
that the drive takes up. The use counts are those of R4 again. -/
structure State.Reresolves (s t : State) (pageId : Nat) : Prop where
  length : t.schedule.length = s.schedule.length
  each : s.TagsDistinct → ∀ (i : Nat) (x : Ticket), s.schedule[i]? = some x → ∃ y, t.schedule[i]? = some y ∧
    y = { x with state := y.state, leftRes := y.leftRes, rightRes := y.rightRes } ∧ (x.state = .imaging → y = x) ∧
    (x.state ≠ .imaging → t.MovesTo pageId x.left x.leftRes y.leftRes ∧
      (∀ b, x.right = some b → t.MovesTo pageId b x.rightRes y.rightRes) ∧ (x.right = none → y.rightRes = x.rightRes) ∧
      (y.leftRes = x.leftRes → y.rightRes = x.rightRes → y.state = x.state ∨ y.state = .imaging) ∧
      (¬ (y.leftRes = x.leftRes ∧ y.rightRes = x.rightRes) → y.state ≠ .imaging → (y.state = .armed ↔ t.MeetsArming y)))
  counts : s.UsesWf → ∀ r p, t.page? r = some p → p.useCount = t.uses r

/-! ## The return lane -/

/-- Of the counters and the alarm latches, only the given ones change, and those of a report dropped at a full queue;
the mask does not change. -/
def Reports.touches (a b : Reports) (counters : List Counter) (alarms : List Alarm) : Prop :=
  (∀ k, k ∉ counters → k ≠ .reportsLost → b.counters.read k = a.counters.read k) ∧
    (∀ x, x ∉ alarms → x ≠ .reportsLost → b.latched x = a.latched x) ∧ b.mask = a.mask

/-- A counter counts once: one more, or the value at which it stays (R181). -/
def Reports.countsOnce (a b : Reports) (k : Counter) : Prop :=
  b.counters.read k = min Config.counterMax (a.counters.read k + 1)

/-- A report that an event queues first (R172, R173). On a busy lane with a free place it stands behind every report that
waited, ahead of all that the event queues after it, and the lane goes on as it was. On an idle lane with an empty queue
its sending begins at the event, behind the symbol that the flag then calls for. -/
def State.reportsFirst (s t : State) (r : Report) : Prop :=
  (s.reports.sending.isSome = true → s.reports.queue.length < Config.reportCapacity →
    t.reports.sending = s.reports.sending ∧ t.reports.sent = [] ∧
      ∃ more, t.reports.queue = s.reports.queue ++ r :: more) ∧
  (s.reports.sending = none → s.reports.queue = [] →
    t.reports.sending = some r ∧
      t.reports.sent = (if s.reports.lastSymbol = some (symbolFor t.intake.holding) then []
        else [.symbol (symbolFor t.intake.holding)]) ++ [.parcel (r.parcel s.straps.crcInit)])

/-- The event queues this report and no other (R172, R173). On an idle lane its sending frees a place, which an ALARM
report owed from before takes, with the latches and the mask as the event leaves them (R178). -/
def State.reportsOnly (s t : State) (r : Report) : Prop :=
  s.reportsFirst t r ∧
  (s.reports.sending.isSome = true → s.reports.queue.length < Config.reportCapacity →
    t.reports.queue = s.reports.queue ++ [r]) ∧
  (s.reports.sending = none → s.reports.queue = [] → t.reports.owed = false ∧
    t.reports.queue = if s.reports.owed = true ∧ t.reports.alertLow = true
      then [.alarm t.reports.latches t.reports.mask] else [])

/-- The two reports an event queues first, in their order (R167, R172). -/
def State.reportsTwo (s t : State) (r q : Report) : Prop :=
  s.reportsFirst t r ∧
  (s.reports.sending.isSome = true → s.reports.queue.length + 1 < Config.reportCapacity →
    ∃ more, t.reports.queue = s.reports.queue ++ r :: q :: more) ∧
  (s.reports.sending = none → s.reports.queue = [] → ∃ more, t.reports.queue = q :: more)

/-- The reply to a directive. -/
def Directive.reply (d : Directive) (reason : Option Reason) (body : List Byte) : Report :=
  .reply d.tag d.code reason body

/-- A directive is answered: its reply is the first report of its event (R167). -/
def answered (s t : State) (d : Directive) (reason : Option Reason) (body : List Byte) : Prop :=
  s.reportsFirst t (d.reply reason body)

/-- An accepted directive is answered so unless it is QUIET (R167). -/
def acceptedWith (s t : State) (d : Directive) (body : List Byte) : Prop :=
  d.quiet = false → answered s t d none body

/-! ## Directives -/

/-- Intake takes the directive `d` of a row now, and it passes the tests of R166. -/
def State.Takes (s : State) (row : Instr) (d : Directive) : Prop := s.directiveOf row = some d ∧ d.refusal = none

end Sys2Proof.Machine
end

