-- ==== Sys2Proof/Certificates/Slice0/Obligations.lean ====
section
/-! DEFINITION. The statements about the block, for the provers. Throughout, `s.beginStep` is `s` with the record of
what the last step put out cleared; a frame written `t = { s.beginStep with … }` says that every field it does not
name is unchanged. -/

open Sys2Proof Sys2Proof.Machine

/-! ## The step -/

/-- The step runs the command at the front of the queue, on the state with the queue's rest. -/
def Obligations.StepRunsFrontCommand : Prop :=
  ∀ (c : Instr) (rest : List Instr) (s : State),
    step { s with pending := c :: rest } = exec c { s with pending := rest }

/-- Every command completes in every state, with the queue of waiting commands as it was, but for the completion of a
store request whose tile lies beyond the store (R43), at which the model stops (log entry 27). -/
def Obligations.EveryCommandCompletes : Prop :=
  ∀ (c : Instr) (s : State), (gives (exec c s) fun t => t.pending = s.pending) ∨
    ∃ n, exec c s = .fault (.noSuchTile n) ∧ s.tileCount ≤ n ∧
      (c = .storeWriteCompletion ∨ ∃ faults, c = .storeReadCompletion faults)

/-! ## The forward lane (R22 to R28) -/

/-- A start marker begins a new parcel, and ends one being assembled as malformed (R22, R24, R25). -/
def Obligations.StartMarkerBeginsParcel : Prop :=
  ∀ s : State, gives (exec .startMarker s) fun t =>
    t = { s.beginStep with framer := ⟨true, [], some s.intake.flow.timeoutMs⟩, reports := t.reports } ∧
    (s.framer.assembling = false → t.reports = s.beginStep.reports) ∧
    (s.framer.assembling = true →
      t.reports.latched .parcelMalformed = true ∧ s.reports.countsOnce t.reports .malformed ∧
      s.reports.touches t.reports [.malformed] [.parcelMalformed])

/-- A data byte is ignored OUTSIDE. In ASSEMBLING, a byte that leaves the parcel well formed and short of its stated
size joins the buffer, and the timer restarts (R22, R25). -/
def Obligations.DataByteJoinsParcel : Prop :=
  ∀ (b : Byte) (s : State),
    (s.framer.assembling = false → exec (.dataByteArrival b) s = .next s.beginStep) ∧
    (s.framer.assembling = true → ∀ buffer header, buffer = s.framer.buffer ++ [b] →
      kindHeaderSize (u8 buffer 0) = some header →
      (buffer.length < 4 ∨ (u16 buffer 2 ≤ 272 ∧ buffer.length < 4 + header + u16 buffer 2 + 2)) →
      exec (.dataByteArrival b) s
        = .next { s.beginStep with framer := ⟨true, buffer, some s.intake.flow.timeoutMs⟩ })

/-- The byte that shows an unknown kind, or a payload length over 272, drops the parcel as malformed (R23). That the byte
rows share one judge is the model's choice (log entry 4). -/
def Obligations.HeaderMalformedDropsParcel : Prop :=
  ∀ (b : Byte) (s : State) (buffer : List Byte), s.framer.assembling = true → buffer = s.framer.buffer ++ [b] →
    (kindHeaderSize (u8 buffer 0) = none ∨ (4 ≤ buffer.length ∧ 272 < u16 buffer 2)) →
    gives (exec (.headerMalformedDrop b) s) fun t =>
      t = { s.beginStep with framer := ⟨false, [], none⟩, reports := t.reports } ∧
      t.reports.latched .parcelMalformed = true ∧ s.reports.countsOnce t.reports .malformed ∧
      s.reports.touches t.reports [.malformed] [.parcelMalformed]

/-- The last byte of a parcel: with the CRC wrong it is dropped, with the inlet queue full it is discarded, and
otherwise it joins the tail of the queue; the Framer is OUTSIDE in every case (R22, R26, R27). Its joining is an event of
the holding flag, evaluated with the occupancy after it, unless the sweep runs, while which the flag stands (R38, R39). -/
def Obligations.CompleteParcelJoinsQueue : Prop :=
  ∀ (b : Byte) (s : State) (buffer : List Byte) (header : Nat), s.framer.assembling = true →
    buffer = s.framer.buffer ++ [b] → kindHeaderSize (u8 buffer 0) = some header → u16 buffer 2 ≤ 272 →
    buffer.length = 4 + header + u16 buffer 2 + 2 →
    let passes := buffer.drop (buffer.length - 2)
      = be16 (crc16 (crcInitValue s.straps.crcInit) (buffer.take (buffer.length - 2))).toNat
    gives (exec (.parcelComplete b) s) fun t =>
      t = { s.beginStep with framer := ⟨false, [], none⟩, intake := t.intake, reports := t.reports } ∧
      (¬ passes → t.intake = s.intake ∧ t.reports.latched .parcelCheck = true ∧
        s.reports.countsOnce t.reports .checkFail ∧ s.reports.touches t.reports [.checkFail] [.parcelCheck]) ∧
      (passes → 96 ≤ s.intake.queue.length → t.intake = s.intake ∧ t.reports.latched .inletOverflow = true ∧
        s.reports.countsOnce t.reports .discardedFull ∧
        s.reports.touches t.reports [.discardedFull] [.inletOverflow]) ∧
      (passes → s.intake.queue.length < 96 → t.intake.queue = s.intake.queue ++ [parseParcel buffer] ∧
        t.intake.slots = s.intake.slots ∧ t.intake.flow = s.intake.flow ∧ s.reports.touches t.reports [] [.storeLow] ∧
        (s.store.sweep = none → s.FlagEvaluated t s.intake.flow (s.intake.queue.length + 1) s.freeCount) ∧
        (s.store.sweep.isSome = true → t.intake.holding = s.intake.holding ∧
          t.intake.reserveCause = s.intake.reserveCause ∧
          t.reports.latched .storeLow = s.reports.latched .storeLow))

/-- The expiry of the assembly timer drops the parcel in the buffer (R25). -/
def Obligations.AssemblyTimeoutDropsParcel : Prop :=
  ∀ s : State, s.framer.assembling = true → s.framer.timer.isSome = true →
    gives (exec .assemblyTimeout s) fun t =>
      t = { s.beginStep with framer := ⟨false, [], none⟩, reports := t.reports } ∧
      t.reports.latched .assemblyTimeout = true ∧ s.reports.countsOnce t.reports .assemblyTimeouts ∧
      s.reports.touches t.reports [.assemblyTimeouts] [.assemblyTimeout]

/-! ## Intake (R30 to R36) -/

/-- The parcel's fields contradict the page, the layer record or each other (R32). -/
def fieldsContradict (p : PageRecord) (parity : Bool) (h : SegHeader) (payload : List Byte) : Prop :=
  inkOf h.ink = none ∨ (∃ i, inkOf h.ink = some i ∧ hasInk p.inkSet i = false) ∨ p.bandCount ≤ h.band ∨
  layerKindOf h.layer = none ∨
  (∃ l n, h.layerId?.bind p.layer? = some l ∧ l.length = some n ∧ n ≠ h.length) ∨
  (parity = false ∧ segmentCount h.length ≤ h.index) ∨
  payload.length ≠ (if parity = true ∨ h.index + 1 < segmentCount h.length then 256
    else h.length - 256 * (segmentCount h.length - 1))

/-- The layer holds the parcel already (R33). -/
def holdsParcel (l : LayerRecord) (parity : Bool) (h : SegHeader) : Prop :=
  (parity = false ∧ (h.index ∈ l.received ∨ h.index ∈ l.pending)) ∨
  (parity = true ∧ (l.parityHeld = true ∨ l.parityPending = true))

/-- The parcel is a repair segment of the layer (R34). -/
def repairSegment (l : LayerRecord) (parity : Bool) (h : SegHeader) : Prop :=
  l.state = .damaged ∧
    ((parity = false ∧ (h.index ∈ l.missing ∨ l.length = none)) ∨ (parity = true ∧ l.parityHeld = false))

/-- The parcel passes the tests of R31 to R34 against layer `id` of record `r`. -/
def passesTests (s : State) (parity : Bool) (h : SegHeader) (payload : List Byte) (r : Nat) (id : LayerId)
    (p : PageRecord) (l : LayerRecord) : Prop :=
  s.findPage h.pageId h.version = some (r, p) ∧ h.layerId? = some id ∧ p.layer? id = some l ∧
  ¬ fieldsContradict p parity h payload ∧ ¬ holdsParcel l parity h ∧ (p.state = .opened ∨ repairSegment l parity h)

/-- The tile-map slot of the parcel's item (R35). -/
def slotOf (parity : Bool) (h : SegHeader) : Nat := if parity then 16 else h.index / 16

/-- A parcel that passes the judging of R31 to R35 leaves the queue, fills the free write slot (the lowest-numbered one,
the model's choice of log entry 26), and its store write is issued: the length is set if it was absent, the tile stands in
its tile-map slot, the item is pending, the record's pending-write count rises by one, an EMPTY layer of an OPEN page
becomes FILLING, a closed page becomes EVALUATING, and the write waits or is in service. An absent slot takes the
lowest-numbered tile of the free pool. No byte of the DRAM changes (R10, R35, R36, R45, R55, R64). Where the page's state
changes, the arming of the tickets that name the record is evaluated, and no other ticket's (R66, R133, R134). -/
def Obligations.AcceptedSegmentIsIssued : Prop :=
  ∀ (s : State) (parity : Bool) (flags : Byte) (h : SegHeader) (payload : List Byte) (rest : List Parcel)
    (k r : Nat) (id : LayerId) (p : PageRecord) (l : LayerRecord) (tile : Nat),
    s.intakeTaking = true → s.intake.queue = .data parity flags h payload :: rest → s.freeSlot = some k →
    rises s.store.poolOut = true → passesTests s parity h payload r id p l →
    (l.tileAt (slotOf parity h) = some tile ∨
      (l.tileAt (slotOf parity h) = none ∧ s.inPool tile = true ∧ ∀ u, u < tile → s.inPool u = false)) →
    gives (exec .takeSegmentParcel s) fun t =>
      t.intake.queue = rest ∧ t.intake.flow = s.intake.flow ∧
      t.intake.slots = s.intake.slots.set k
        (some ⟨⟨r, id⟩, if parity then .parity else .segment h.index, tile, if parity then 0 else h.index % 16, payload⟩) ∧
      t.store.poolOut =
        (if l.tileAt (slotOf parity h) = none then insertRising tile s.store.poolOut else s.store.poolOut) ∧
      t.store.dram = s.store.dram ∧ t.store.retired = s.store.retired ∧
      (.intake k ∈ t.store.writeSide ∨ t.store.inService = some (.write (.intake k))) ∧
      (∃ q m, t.page? r = some q ∧ q.pendingWrites = p.pendingWrites + 1 ∧
        q.useCount = p.useCount ∧ q.pageId = p.pageId ∧ q.version = p.version ∧
        q.state = (if p.state = .opened then .opened else .evaluating) ∧
        q.layer? id = some m ∧ m.length = some (l.length.getD h.length) ∧ m.received = l.received ∧
        m.parityHeld = l.parityHeld ∧
        (∀ i, i ∈ m.pending ↔ i ∈ l.pending ∨ (parity = false ∧ i = h.index)) ∧
        (m.parityPending = true ↔ l.parityPending = true ∨ parity = true) ∧
        m.state = (if p.state = .opened ∧ l.state = .empty then .filling else l.state) ∧
        m.tileMap = (if l.tileAt (slotOf parity h) = none then l.tileMap.set (slotOf parity h) (some tile)
          else l.tileMap) ∧
        s.Rearms t (fun x => q.state ≠ p.state ∧ ∃ z ∈ x.resolutions, z.record = r)) ∧
      (∀ r', r' ≠ r → t.page? r' = s.page? r') ∧
      t.framer = s.framer ∧ t.straps = s.straps ∧ t.screener = s.screener ∧ t.restart = s.restart

/-- The first test of R31 to R35 that a parcel fails, by its counter and its alarm. -/
def discards (s : State) (parity : Bool) (h : SegHeader) (payload : List Byte) (c : Counter)
    (alarm : Option Alarm) : Prop :=
  (s.findPage h.pageId h.version = none ∧ c = .unknownPage ∧ alarm = none) ∨
  ∃ r p, s.findPage h.pageId h.version = some (r, p) ∧
    ((fieldsContradict p parity h payload ∧ c = .malformed ∧ alarm = some .parcelMalformed) ∨
    ∃ id l, h.layerId? = some id ∧ p.layer? id = some l ∧ ¬ fieldsContradict p parity h payload ∧
      ((holdsParcel l parity h ∧ c = .duplicate ∧ alarm = none) ∨
      (¬ holdsParcel l parity h ∧ p.state ≠ .opened ∧ ¬ repairSegment l parity h ∧ c = .late ∧ alarm = none) ∨
      (passesTests s parity h payload r id p l ∧ l.tileAt (slotOf parity h) = none ∧
        (∀ u, s.inPool u = false) ∧ c = .storeFullLosses ∧ alarm = some .storeFull)))

/-- A segment or parity parcel that fails a test of the judging leaves the queue and counts once in the counter of the
first test it fails: unknown page, malformed, duplicate, late, or no tile. A malformed one latches PARCEL_MALFORMED, one
without a tile STORE_FULL, and the others latch nothing. No page record, no write slot and nothing of the store changes
(R31 to R35). The evaluation of the holding flag at the taking may latch STORE_LOW (R39). -/
def Obligations.DiscardCountsOnce : Prop :=
  ∀ (s : State) (parity : Bool) (flags : Byte) (h : SegHeader) (payload : List Byte) (rest : List Parcel) (c : Counter)
    (alarm : Option Alarm),
    s.intakeTaking = true → s.intake.queue = .data parity flags h payload :: rest → s.freeSlot.isSome = true →
    rises s.store.poolOut = true → discards s parity h payload c alarm →
    gives (exec .takeSegmentParcel s) fun t =>
      t = { s.beginStep with intake := t.intake, reports := t.reports } ∧
      t.intake.queue = rest ∧ t.intake.slots = s.intake.slots ∧ t.intake.flow = s.intake.flow ∧
      s.reports.countsOnce t.reports c ∧ (∀ a, alarm = some a → t.reports.latched a = true) ∧
      s.reports.touches t.reports [c] (alarm.toList ++ [.storeLow]) ∧
      (alarm = none → s.intake.reserveCause = reservePresent s.intake.flow s.freeCount →
        t.reports.latches = s.reports.latches)

/-- A segment or parity parcel whose name has no current record counts in unknown_page, and no alarm of the judging is
latched (R2, R31). -/
def Obligations.UnknownPageDiscarded : Prop :=
  ∀ (s : State) (parity : Bool) (flags : Byte) (h : SegHeader) (payload : List Byte) (rest : List Parcel),
    s.intakeTaking = true → s.intake.queue = .data parity flags h payload :: rest → s.freeSlot.isSome = true →
    (∀ r p, s.page? r = some p → p.current = true → ¬ (p.pageId = h.pageId ∧ p.version = h.version)) →
    s.intake.reserveCause = reservePresent s.intake.flow s.freeCount →
    gives (exec .takeSegmentParcel s) fun t =>
      t = { s.beginStep with intake := t.intake, reports := t.reports } ∧
      t.intake.queue = rest ∧ t.intake.slots = s.intake.slots ∧ s.reports.countsOnce t.reports .unknownPage ∧
      s.reports.touches t.reports [.unknownPage] [] ∧ t.reports.latched .reportsLost = s.reports.latched .reportsLost

/-- An allocation takes the lowest-numbered tile of the free pool and no other (R45), given that the list behind the pool
rises. -/
def Obligations.AllocationTakesLowestTile : Prop :=
  ∀ (s : State) (t : Nat), rises s.store.poolOut = true → s.lowestFree = some t →
    s.inPool t = true ∧ (∀ u, u < t → s.inPool u = false) ∧
    ∀ u, (s.takeFromPool t).inPool u = (s.inPool u && u != t)

/-! ## The band store (R11, R43 to R60) -/

/-- The completion of a store write (R10, R11, R37, R47, R48, R54). The writer is free; the slot of 256 bytes holds the
payload and zeros with its check code, and every other byte of the DRAM reads as before. The pending-write count falls by
one. The item is no longer pending; it is received, or the parity held, unless the tile has been retired or the record is
RELEASING. An OPEN and a RELEASING record keep their states and their layers'. The layer of a closed page is evaluated and
the page's state derived (R61, R62, R64), but that the write of a reconstruction in progress leaves the layer REPAIRED
where nothing is missing; Repair is then IDLE (R71, R73). Where a RESTART is held and this was the last write in flight,
the RESTART finishes at this event, and the records and the reports are then as its finish leaves them (R171); that the
effects of the completion itself come first, its reports too, is the model's choice (log entry 29). A closed page that so
becomes COMPLETE or DAMAGED queues its PAGE report first (R65). Where the page's state changes, the arming of the tickets
that name the record is evaluated, and no other ticket's (R66, R133, R134). -/
def Obligations.WriteCompletionReceivesSegment : Prop :=
  ∀ (s : State) (ref : WriteRef) (w : StoreWrite) (p : PageRecord) (l : LayerRecord),
    s.store.inService = some (.write ref) → s.writeOf ref = some w → w.tile < s.tileCount →
    w.payload.length ≤ 256 → s.page? w.target.record = some p → p.layer? w.target.layer = some l →
    let lands := p.state ≠ .releasing ∧ w.tile ∉ s.store.retired
    let rebuilt := ref = .repair ∧ ∃ x i, s.repair.engine = .writing x i
    let finishes := s.restart.isSome = true ∧ s.OnlyWrite ref
    gives (exec .storeWriteCompletion s) fun t =>
      (∀ k, ref = .intake k → t.intake.slots = s.intake.slots.set k none ∧ t.repair.write = s.repair.write) ∧
      (ref = .repair → t.intake.slots = s.intake.slots ∧ t.repair.write = none) ∧
      (∀ o, o < 256 → t.store.dram.readByte (slotNumber w.tile w.slot * 256 + o) = w.payload.getD o 0) ∧
      t.store.dram.agrees (slotNumber w.tile w.slot) = true ∧
      (∀ a, a / 256 ≠ slotNumber w.tile w.slot → t.store.dram.readByte a = s.store.dram.readByte a) ∧
      (¬ finishes → t.restart = s.restart) ∧
      (¬ finishes → ¬ (p.state = .releasing ∧ p.pendingWrites ≤ 1) → ∃ q m, t.page? w.target.record = some q ∧
        q.layer? w.target.layer = some m ∧ q.pendingWrites = p.pendingWrites - 1 ∧ q.useCount = p.useCount ∧
        m.length = l.length ∧ m.tileMap = l.tileMap ∧
        (∀ i, w.item = .segment i → (∀ j, j ∈ m.pending ↔ j ∈ l.pending ∧ j ≠ i) ∧
          (∀ j, j ∈ m.received ↔ j ∈ l.received ∨ (j = i ∧ lands)) ∧
          m.parityPending = l.parityPending ∧ m.parityHeld = l.parityHeld) ∧
        (w.item = .parity → m.parityPending = false ∧ m.pending = l.pending ∧ m.received = l.received ∧
          (lands → m.parityHeld = true) ∧
          (¬ lands → m.parityHeld = (if p.state = .releasing then l.parityHeld else false))) ∧
        (p.closed = false → q.state = p.state ∧ m.state = l.state) ∧
        (p.closed = true → q.DerivesTo q.state ∧
          (rebuilt → m.missing = [] → m.state = .repaired ∧ s.reports.countsOnce t.reports .layersRepaired) ∧
          (¬ (rebuilt ∧ m.missing = []) → LayerRecord.EvaluatedAs { m with state := l.state } m)) ∧
        (q.state ≠ p.state → q.state = .complete ∨ q.state = .damaged →
          s.reportsFirst t (q.report w.target.record)) ∧
        s.Rearms t (fun x => q.state ≠ p.state ∧ ∃ z ∈ x.resolutions, z.record = w.target.record) ∧
        (∀ r, r ≠ w.target.record → t.page? r = s.page? r) ∧ t.store.poolOut = s.store.poolOut) ∧
      (∀ h, s.restart = some h → s.OnlyWrite ref → s.store.sweep = none →
        ¬ (p.state = .releasing ∧ p.pendingWrites ≤ 1) → s.RestartFinished t h s.intake.reserveCause) ∧
      (ref = .repair → s.repair.engine = .draining ∨ (p.closed = true ∧ rebuilt) → t.repair.engine = .idle) ∧
      (p.state = .opened → t.schedule = s.schedule ∧
        (¬ finishes → (∀ r ∈ s.store.readSide, r.tile ∉ s.store.retired) → t.reports = s.beginStep.reports)) ∧
      t.store.retired = s.store.retired ∧ t.intake.queue = s.intake.queue ∧ t.screener = s.screener ∧
      t.framer = s.framer

/-- The last pending write of a RELEASING record, Intake's or a reconstruction of Repair's that was abandoned and is drained
(R16, R73, R74), frees it: its tiles join the free pool and it becomes EMPTY (R11, R17, R46). The writer is free, and Repair,
where it was draining, is IDLE (R37, R73). Where a RESTART is held and this was the last write in flight, the RESTART finishes
at this event (R171), after the effects of the completion itself, which is the model's choice (log entry 29). Where none
finishes, the bindings that name the record's id are resolved anew (R129, R130), and of every other record only the use count
may change: no superseded indicator is worked out again (R3). -/
def Obligations.LastWriteFreesReleasingRecord : Prop :=
  ∀ (s : State) (ref : WriteRef) (w : StoreWrite) (p : PageRecord),
    s.store.inService = some (.write ref) → s.writeOf ref = some w → w.tile < s.tileCount →
    s.page? w.target.record = some p → p.state = .releasing → p.pendingWrites = 1 →
    let finishes := s.restart.isSome = true ∧ s.OnlyWrite ref
    gives (exec .storeWriteCompletion s) fun t =>
      t.page? w.target.record = none ∧
      (¬ finishes → t.restart = s.restart ∧
        t.store.poolOut = (s.store.poolOut.filter fun n => !(p.tiles.contains n)) ∧ s.Reresolves t p.pageId ∧
        ∀ r q, r ≠ w.target.record → s.page? r = some q → ∃ n, t.page? r = some { q with useCount := n }) ∧
      (∀ h, s.restart = some h → s.OnlyWrite ref → s.store.sweep = none → s.RestartFinished t h false) ∧
      (∀ k, ref = .intake k → t.intake.slots = s.intake.slots.set k none ∧ t.repair.write = s.repair.write) ∧
      (ref = .repair → t.intake.slots = s.intake.slots ∧ t.repair.write = none ∧
        (s.repair.engine = .draining → t.repair.engine = .idle)) ∧
      t.store.retired = s.store.retired ∧ t.intake.queue = s.intake.queue

/-- A slot read from the wrong place, or whose bytes have changed, fails its check (R48; the code is a free value, log
entry 8). A read of which a slot fails its check, in the bytes and the code the DRAM gives (the faults the world decides,
log entry 7), retires its tile: the tile joins the retired set and leaves the free pool, TILE_RETIRED is latched,
STORE_DEGRADED at the threshold, and no byte of the DRAM changes (R48, R49, R51, R52, R53). The layer that mapped the tile loses it: its
tile-map slot is absent, the slot's received segments are missing or the parity is not held, what is pending stays pending
(R12), and in a closed page the layer is evaluated and the page derived (R61, R62, R64), at which the arming of the tickets
that name the record is evaluated where its state changes (R66, R133, R134). Repair, where the read was its own, is IDLE
(R72). A read of a current capture of the plate cuts the stream at the read's first byte, at the first such read only, and
with no line to make the capture counts once in the plate's store faults (R92, R94); that this count goes on past 192 is the
model's choice (log entry 39). A PICTURE capture that the cut leaves with a row still to be made counts at the cut in the
PICTURE layers held (R94); which captures those are, one that is being read and not yet cut, with fewer rows produced than
the band has, is the model's reading (log entry 34). -/
def Obligations.FailedReadRetiresTile : Prop :=
  (∀ (m n : Nat) (written bytes : List Byte), written.length = 256 → bytes.length = 256 →
    (⟨bytes, checkCodeAt m written⟩ : SlotCell).passes n = true → m = n ∧ bytes = written) ∧
  ∀ (s : State) (r : StoreRead) (faults : List DramFault) (k : Nat), s.StoreWf →
    s.store.inService = some (.read r) → r.tile < s.tileCount → k ∈ r.slots →
    s.store.dram.slotPasses r.tile k faults = false →
    gives (exec (.storeReadCompletion faults) s) fun t =>
      t.store.retired = insertRising r.tile s.store.retired ∧
      t.store.poolOut = insertRising r.tile s.store.poolOut ∧
      t.store.dram = s.store.dram ∧ t.reports.latched .tileRetired = true ∧
      (s.degradedThreshold ≤ (insertRising r.tile s.store.retired).length →
        t.reports.latched .storeDegraded = true) ∧
      (∀ (ref : LayerRef) (p : PageRecord) (l : LayerRecord) (n : Nat),
        s.page? ref.record = some p → p.layer? ref.layer = some l → l.tileAt n = some r.tile →
        (∃ q m, t.page? ref.record = some q ∧ q.layer? ref.layer = some m ∧ m.tileMap = l.tileMap.set n none ∧
          m.length = l.length ∧ m.pending = l.pending ∧ m.parityPending = l.parityPending ∧
          (n ≠ 16 → (∀ i, i ∈ m.received ↔ i ∈ l.received ∧ i / 16 ≠ n) ∧ m.parityHeld = l.parityHeld) ∧
          (n = 16 → m.received = l.received ∧ m.parityHeld = false) ∧
          (p.closed = false → q.state = p.state ∧ m.state = l.state) ∧
          (p.closed = true → q.DerivesTo q.state ∧ LayerRecord.EvaluatedAs { m with state := l.state } m) ∧
          s.Rearms t (fun x => q.state ≠ p.state ∧ ∃ z ∈ x.resolutions, z.record = ref.record)) ∧
        ∀ r', r' ≠ ref.record → t.page? r' = s.page? r') ∧
      (r.tile ∉ s.mapped → t.schedule = s.schedule ∧ ∀ r', t.page? r' = s.page? r') ∧
      (r.requester = .repair → t.repair.engine = .idle) ∧
      (∀ (side : Side) (kind : LayerKind) (serial : Nat) (c : Capture) (u : Stream) (pl : Plate)
        (j : PrefetchJob), r.requester = .prefetch side kind serial → s.captureOf side kind = some c →
        c.serial = serial → c.stream? = some u → s.drive.state.inContext = true → s.drive.plate = some pl →
        s.prefetch.job = some j → s.store.readSide = [] → 64 ≤ s.drive.pool.length →
        t.captureOf side kind
          = some (c.withStream { u with cut := some (u.cut.getD (256 * (16 * r.mapSlot + r.slots.headD 0))) }) ∧
        t.drive.pool = s.drive.pool ∧
        t.drive.plate = some { pl with summary := { pl.summary with
          storeFaults := pl.summary.storeFaults
            + (if j.firstSerial ≤ serial ∧ serial ∉ j.storeFaulted then 1 else 0)
          pictureHeld := pl.summary.pictureHeld
            + (if kind = .picture ∧ u.cut = none ∧ u.mode = .reading ∧ u.rows < u.rowCount then 1 else 0) } }) ∧
      t.intake.queue = s.intake.queue ∧ t.intake.slots = s.intake.slots ∧ t.framer = s.framer ∧
      t.screener = s.screener

/-- The completion of a passed read (R49), for its requester. Repair: a data read of a reconstruction is XORed into the
accumulator and the next read issued (R69); at the parity read the rebuilt segment, cut to its length, is written into the
tile of its tile-map slot, or of the lowest-numbered free tile, with the update of R10; with no free tile the reconstruction
fails, STORE_FULL is latched and counted, and the layer is DAMAGED (R70). Prefetch: the bytes of the read's segments,
without padding, join the buffer of a current capture that is not cut, and the unpacker goes on: the row under construction
takes the bytes at hand, or is completed ahead of its line with the bytes after it left; with the pool full no line is made,
and a row that the stream is building is left with nothing to go on with, and so is every row that the next line needs of a
slot of which a row holds it up (R86, R91). It is the model's reading (log entry 15) that a row is being built once a byte
of it has been taken, and goes on while the other slot holds up its line, that a stream which is building none, in a slot
whose rows are all ready, keeps its bytes, and that each slot goes on where rows of both hold up the line. So is it that a
row that waits takes every byte at hand, where 5.9 leaves a tail of segment 15 in the buffer (log entry 40), and that a row
is complete where the stream ends within an overrun literal (log entry 16). The data of a read of a replaced or cut capture
is discarded (R91). -/
def Obligations.RepairAccumulatesReads : Prop :=
  ∀ (s : State) (r : StoreRead), s.store.inService = some (.read r) → r.tile < s.tileCount →
    (∀ n ∈ r.slots, s.store.dram.agrees (slotNumber r.tile n) = true) → s.store.readSide = [] →
    (∀ (t : LayerRef) (l : LayerRecord) (index k : Nat) (acc : List Byte),
      r.requester = .repair → s.repair.engine = .reading t index k acc → s.layer? t = some l →
      s.store.writeSide = [] →
      let sum := xorSlots acc (r.slots.map fun n => s.store.dram.bytesAt (slotNumber r.tile n))
      let next := l.nextReadSlot (k + 1)
      let payload := sum.take
        (if index + 1 < l.segments then 256 else l.length.getD 0 - 256 * (l.segments - 1))
      (k ≠ 16 → (l.repairRead next).tile ∉ s.store.retired →
        gives (exec (.storeReadCompletion []) s) fun u =>
          u.repair.engine = .reading t index next sum ∧
          u.store.inService = some (.read (l.repairRead next)) ∧ u.repair.queue = s.repair.queue ∧
          u.pages = s.pages ∧ u.store.dram = s.store.dram ∧ u.store.poolOut = s.store.poolOut ∧
          u.schedule = s.schedule ∧ u.reports = s.beginStep.reports) ∧
      (∀ tile, k = 16 → rises s.store.poolOut = true → l.length.isSome = true →
        (l.tileAt (index / 16) = some tile ∨
          (l.tileAt (index / 16) = none ∧ s.inPool tile = true ∧ ∀ v, v < tile → s.inPool v = false)) →
        gives (exec (.storeReadCompletion []) s) fun u =>
          u.repair.engine = .writing t index ∧ u.store.inService = some (.write .repair) ∧
          u.repair.write = some ⟨t, .segment index, tile, index % 16, payload⟩ ∧
          u.store.poolOut = (if l.tileAt (index / 16) = none then insertRising tile s.store.poolOut
            else s.store.poolOut) ∧
          (∀ p, s.page? t.record = some p → ∃ q m, u.page? t.record = some q ∧
            q.pendingWrites = p.pendingWrites + 1 ∧ (p.closed = true → q.state = .evaluating) ∧
            q.layer? t.layer = some m ∧ (∀ i, i ∈ m.pending ↔ i ∈ l.pending ∨ i = index) ∧
            m.received = l.received ∧
            m.tileMap = (if l.tileAt (index / 16) = none then l.tileMap.set (index / 16) (some tile)
              else l.tileMap)) ∧
          u.repair.queue = s.repair.queue ∧ u.store.dram = s.store.dram) ∧
      (k = 16 → rises s.store.poolOut = true → l.tileAt (index / 16) = none → (∀ v, s.inPool v = false) →
        gives (exec (.storeReadCompletion []) s) fun u =>
          u.repair = { s.repair with engine := .idle } ∧ u.store.inService = none ∧
          u.store.poolOut = s.store.poolOut ∧ u.reports.latched .storeFull = true ∧
          s.reports.countsOnce u.reports .storeFullLosses ∧
          (∀ p, s.page? t.record = some p → p.closed = true → ∃ q, u.page? t.record = some q ∧
            q.layer? t.layer = some { l with state := .damaged } ∧ q.DerivesTo q.state))) ∧
    (∀ side kind serial c u, r.requester = .prefetch side kind serial → s.captureOf side kind = some c →
      c.stream? = some u → 64 ≤ s.drive.pool.length →
      let bytes := r.slots.zipIdx.flatMap fun (n, i) =>
        (s.store.dram.bytesAt (slotNumber r.tile n)).take (segmentLength u.length (u.arrived + i))
      let filled := { u with arrived := u.arrived + r.slots.length, buffer := u.buffer ++ bytes }
      gives (exec (.storeReadCompletion []) s) fun t =>
        (c.serial ≠ serial → t.prefetch = s.prefetch) ∧
        (c.serial = serial → u.cut.isSome = true → t.captureOf side kind = some c) ∧
        (c.serial = serial → u.cut = none → ∃ v, t.captureOf side kind = some (c.withStream v) ∧
          v.arrived = u.arrived + r.slots.length ∧ v.issued = u.issued ∧ v.cut = none ∧
          (u.building = true → v.GoneOn) ∧
          (u.building = false → u.mode ≠ .finished → ∀ pl j ps, s.drive.plate = some pl → s.prefetch.job = some j →
            j.slot side = some ps →
            (ps.setCapture kind (c.withStream filled)).ready (j.nextLine - pl.margin) = true → v = filled) ∧
          (u.mode = .finished → v.rows = u.rows ∧ v.position = u.position ∧ v.buffer = []) ∧
          (u.mode ≠ .finished →
            (v.rows = u.rows ∧ v.ahead = u.ahead ∧ v.position = u.position ∧ v.buffer = u.buffer ++ bytes) ∨
            (v.rows = u.rows ∧ v.ahead = u.ahead ∧ v.position = u.position + (u.buffer ++ bytes).length ∧
              v.buffer = []) ∨
            (u.ahead = none ∧ ∃ row overrun rest, filled.Completes row overrun rest ∧
              v = { filled.afterRow row rest with ahead := some overrun }))) ∧
        (c.serial = serial → u.cut = none → ∀ pl j sd ps, t.drive.plate = some pl → t.prefetch.job = some j →
          pl.margin ≤ j.nextLine → j.nextLine < pl.lineCount → j.slot sd = some ps →
          ps.GoneOn (j.nextLine - pl.margin)) ∧
        t.drive.pool = s.drive.pool ∧ t.pages = s.pages ∧ t.store.dram = s.store.dram ∧
        t.store.retired = s.store.retired ∧ t.store.poolOut = s.store.poolOut ∧ t.schedule = s.schedule ∧
        t.reports = s.beginStep.reports)

/-- Repair begins with the head entry of its queue: the accumulator is cleared and the first read is issued, and an
idle store serves it (R55, R68, R69). -/
def Obligations.RepairBeginIssuesFirstRead : Prop :=
  ∀ (s : State) (t : LayerRef) (rest : List LayerRef) (l : LayerRecord),
    s.repair.engine = .idle → s.repair.queue = t :: rest → s.restart = none → s.layer? t = some l →
    s.store.inService = none → s.store.readSide = [] → s.store.writeSide = [] →
    let first := l.repairRead (l.nextReadSlot 0)
    first.tile ∉ s.store.retired →
    gives (exec .repairBegin s) fun u =>
      u = { s.beginStep with
        repair := { s.repair with
          queue := rest
          engine := .reading t (l.missing.headD 0) (l.nextReadSlot 0) (List.replicate 256 0) }
        store := { s.store with inService := some (.read first), lastSide := .read } }

/-- While both sides wait, the arbiter serves the side it did not serve last; while one waits, that one (R55). A read whose
tile is retired when it is served completes at once as failed: no tile, no record and no latch changes but by what the
requester does (R50). -/
def Obligations.ArbiterAlternates : Prop :=
  ∀ (s : State) (w : WriteRef) (r : StoreRead) (ws : List WriteRef) (rs : List StoreRead),
    s.store.inService = none →
    (r.tile ∉ s.store.retired →
      (s.store.writeSide = w :: ws → s.store.readSide = r :: rs →
        (s.store.lastSide = .write → s.arbitrate.store.inService = some (.read r) ∧
          s.arbitrate.store.lastSide = .read ∧ s.arbitrate.store.writeSide = w :: ws ∧
          s.arbitrate.store.readSide = rs) ∧
        (s.store.lastSide = .read → s.arbitrate.store.inService = some (.write w) ∧
          s.arbitrate.store.lastSide = .write ∧ s.arbitrate.store.writeSide = ws ∧
          s.arbitrate.store.readSide = r :: rs)) ∧
      (s.store.writeSide = w :: ws → s.store.readSide = [] → s.arbitrate.store.inService = some (.write w)) ∧
      (s.store.writeSide = [] → s.store.readSide = r :: rs → s.arbitrate.store.inService = some (.read r))) ∧
    (s.store.writeSide = [] → s.store.readSide = [] → s.arbitrate = s) ∧
    (r.tile ∈ s.store.retired → s.store.writeSide = [] → s.store.readSide = [r] →
      s.arbitrate.store = { s.store with readSide := [], lastSide := .read } ∧ s.arbitrate.pages = s.pages ∧
      s.arbitrate.reports.latched .tileRetired = s.reports.latched .tileRetired ∧
      s.arbitrate.reports.latched .storeDegraded = s.reports.latched .storeDegraded ∧
      (r.requester = .repair → s.arbitrate.repair = { s.repair with engine := .idle } ∧
        s.arbitrate.reports = s.reports ∧ s.arbitrate.prefetch = s.prefetch) ∧
      (∀ side kind serial c u, r.requester = .prefetch side kind serial → s.captureOf side kind = some c →
        c.serial = serial → c.stream? = some u → 64 ≤ s.drive.pool.length →
        s.arbitrate.captureOf side kind
          = some (c.withStream { u with cut := some (u.cut.getD (256 * (16 * r.mapSlot + r.slots.headD 0))) }) ∧
        s.arbitrate.reports = s.reports))

/-- A read pass of the sweep over a tile: every slot passes its check and holds the pattern, byte for byte. -/
def readPass (d : Dram) (n : Nat) (pattern : Nat → List Byte) (faults : List DramFault) : Prop :=
  ∀ k, k < 16 → d.slotPasses n k faults = true ∧ (d.readSlot n k faults).bytes = pattern (slotNumber n k)

/-- The sweep tests a tile by writing a pattern into its slots, reading them back, and the same with the pattern's
complement (R57; the faults the world decides, log entry 7; the pattern is free but differs from slot to slot, log entry 9).
A tile that passes both read passes stays in the free pool, and each of its slots holds the complement with a valid check
code; one that fails leaves the pool and joins the retired set. Without a fault it passes. The other tiles' bytes stand as
they were; no alarm is latched and no report is queued. -/
def Obligations.SweepTestsOneTile : Prop :=
  ∀ (s : State) (first second : List DramFault) (n : Nat), s.store.sweep = some n → n + 1 < s.tileCount →
    let passes := readPass (s.store.dram.writeTile n testPattern) n testPattern first ∧
      readPass (s.store.dram.sweepTile n) n (fun m => (testPattern m).map fun b => ~~~b) second
    (∀ i j, i < 1048576 → j < 1048576 → testPattern i = testPattern j → i = j) ∧
    (first = [] → second = [] → passes) ∧
    gives (exec (.sweepTileTest ⟨first, second⟩) s) fun t =>
      t = { s.beginStep with store := { s.store with
        sweep := some (n + 1), dram := t.store.dram, retired := t.store.retired, poolOut := t.store.poolOut } } ∧
      (passes → t.store.retired = s.store.retired ∧ t.store.poolOut = s.store.poolOut ∧
        ∀ k, k < 16 → t.store.dram.agrees (slotNumber n k) = true ∧
          ∀ o, o < 256 → t.store.dram.readByte (slotNumber n k * 256 + o)
            = ~~~ (testPattern (slotNumber n k)).getD o 0) ∧
      (¬ passes → t.store.retired = insertRising n s.store.retired ∧
        t.store.poolOut = insertRising n s.store.poolOut) ∧
      ∀ a, a / 4096 ≠ n → t.store.dram.readByte a = s.store.dram.readByte a

/-- The test of the last tile ends the sweep (R58). With no tile retired, an inlet queue at or below the resume mark and the
store above both marks the flag becomes false, RESUME goes out, the STARTED report follows it, and Intake takes parcels.
In general the flag is evaluated by R38 and R39 and may stay true, and no symbol then goes out; TILE_RETIRED is latched
where a tile is retired, STORE_DEGRADED where their count is at or above the tile count divided by 32 (R53), and no other
alarm but STORE_LOW. On the idle lane of a sweep STARTED, with the retired count, is the first report; behind it stand the
ALARM report owed from before, and those of TILE_RETIRED and STORE_DEGRADED, each with the latches set by then (R40, R173,
R174, R177, R178). -/
def Obligations.CleanSweepEndStarts : Prop :=
  (∀ (s : State) (n : Nat), s.store.sweep = some n → s.tileCount ≤ n + 1 → s.store.retired = [] →
    s.store.poolOut = [] → s.restart = none → s.intake.holding = true →
    s.intake.queue.length ≤ s.intake.flow.resume → s.intake.flow.high ≤ s.tileCount →
    s.intake.flow.low < s.tileCount → s.reports.queue = [] → s.reports.sending = none →
    s.reports.lastSymbol = some .hold → s.reports.owed = false →
    let started := Report.started ⟨.powerOn, s.straps.size, s.tileCount, 0, none⟩
    gives (exec (.sweepTileTest ⟨[], []⟩) s) fun t =>
      t.store.sweep = none ∧ t.intake.holding = false ∧ t.intakeTaking = true ∧
      t.reports.sending = some started ∧
      t.reports.sent = [.symbol .resume, .parcel (started.parcel s.straps.crcInit)] ∧
      t.reports.queue = [] ∧ t.reports.latches = s.reports.latches ∧ t.pages = s.pages ∧
      t.intake.queue = s.intake.queue) ∧
  ∀ (s : State) (first second : List DramFault) (n : Nat), s.store.sweep = some n → s.tileCount ≤ n + 1 →
    let passes := readPass (s.store.dram.writeTile n testPattern) n testPattern first ∧
      readPass (s.store.dram.sweepTile n) n (fun m => (testPattern m).map fun b => ~~~b) second
    gives (exec (.sweepTileTest ⟨first, second⟩) s) fun t =>
      let started := Report.started ⟨.powerOn, s.straps.size, s.tileCount, t.store.retired.length, none⟩
      let beforeDegraded := t.reports.latches &&& ~~~Alarm.storeDegraded.bit
      let beforeRetired := beforeDegraded &&& ~~~Alarm.tileRetired.bit
      let lowLatched := t.freeCount ≤ s.intake.flow.low ∧ s.intake.reserveCause = false ∧
        s.reports.latched .storeLow = false
      t.store.sweep = none ∧
      (passes → t.store.retired = s.store.retired ∧ t.store.poolOut = s.store.poolOut) ∧
      (¬ passes → t.store.retired = insertRising n s.store.retired ∧
        t.store.poolOut = insertRising n s.store.poolOut) ∧
      s.FlagEvaluated t s.intake.flow s.intake.queue.length t.freeCount ∧
      (0 < t.store.retired.length → t.reports.latched .tileRetired = true) ∧
      (s.tileCount / 32 ≤ t.store.retired.length → t.reports.latched .storeDegraded = true) ∧
      (t.store.retired = [] → t.reports.latched .tileRetired = s.reports.latched .tileRetired) ∧
      (t.store.retired.length < s.tileCount / 32 →
        t.reports.latched .storeDegraded = s.reports.latched .storeDegraded) ∧
      s.reports.touches t.reports [] [.storeLow, .tileRetired, .storeDegraded] ∧
      (s.reports.queue = [] → s.reports.sending = none → s.reports.lastSymbol = some .hold →
        s.reports.awaitStarted = true → s.reports.mask = 0 → s.reports.latched .tileRetired = false →
        s.reports.latched .storeDegraded = false →
        t.reports.sending = some started ∧ t.reports.owed = false ∧
        t.reports.sent = (if t.intake.holding then [] else [.symbol .resume])
          ++ [.parcel (started.parcel s.straps.crcInit)] ∧
        t.reports.queue =
          (if (s.reports.owed = true ∨ lowLatched) ∧ beforeRetired ≠ 0 then [.alarm beforeRetired 0] else [])
          ++ (if 0 < t.store.retired.length then [.alarm beforeDegraded 0] else [])
          ++ (if s.tileCount / 32 ≤ t.store.retired.length then [.alarm t.reports.latches 0] else [])) ∧
      (t.intakeTaking = true ↔ s.restart = none) ∧
      t.intake.queue = s.intake.queue ∧ t.intake.slots = s.intake.slots ∧ t.intake.flow = s.intake.flow ∧
      t.pages = s.pages ∧ t.schedule = s.schedule ∧ t.screener = s.screener ∧ t.drive = s.beginStep.drive

/-- A power-on reset leaves every block at its reset value with the straps sampled, starts the sweep at tile 0 and
sends HOLD; the drive is IDLE, or UNLOADING with a plate on the drum, EXPOSE is low and the stall timer stopped; every
screen and curve slot is EMPTY and every ink record unbound. The tiles keep their bytes until the sweep rewrites them, but
for the slot of a write in service (R20, R28, R42, R46, R57, R60, R126, R147, R164, R175, R181). -/
def Obligations.PowerOnResetsEveryBlock : Prop :=
  ∀ (size : StoreSize) (crc : CrcInit) (ready : Bool) (s : State),
    gives (exec (.powerOnReset size crc ready) s) fun t =>
      t.straps = ⟨size, crc⟩ ∧ t.framer = ⟨false, [], none⟩ ∧ t.intake.queue = [] ∧ t.busySlots = 0 ∧
      t.intake.holding = true ∧ t.intake.reserveCause = false ∧ t.intake.flow = ⟨64, 32, 256, 512, 4⟩ ∧
      t.liveRecords = [] ∧
      t.store.sweep = some 0 ∧ t.retiredCount = 0 ∧ t.freeCount = t.tileCount ∧ t.mappedCount = 0 ∧
      t.store.inService = none ∧ t.store.writeSide = [] ∧ t.store.readSide = [] ∧ t.store.lastSide = .write ∧
      (∀ a, (∀ w, s.writeInService = some w → a / 256 ≠ slotNumber w.tile w.slot) →
        t.store.dram.readByte a = s.store.dram.readByte a) ∧
      t.repair = ⟨[], .idle, none⟩ ∧ t.prefetch.job = none ∧ t.schedule = [] ∧ t.restart = none ∧
      t.screener.screens = List.replicate 6 .empty ∧ t.screener.curves = List.replicate 8 none ∧
      (∀ i, t.screener.inks.get i = none) ∧ (∀ i, t.screener.inkReady i = false) ∧ t.screener.load = none ∧
      t.drive.state = (if ready then .unloading else .idle) ∧ t.drive.plateReady = ready ∧ t.drive.plate = none ∧
      t.drive.selected = none ∧ t.drive.exposeHigh = false ∧ t.drive.plateEnd = false ∧ t.drive.dotLanes = none ∧
      t.drive.stall = none ∧ t.drive.pool = [] ∧ t.drive.settings = ⟨16384, 48, 40, .inOrder⟩ ∧
      t.drive.haltRun = 0 ∧ t.drive.stuck = false ∧ t.reports.queue = [] ∧ t.reports.sending = none ∧
      t.reports.latches = 0 ∧ t.reports.mask = 0 ∧ t.reports.owed = false ∧ t.reports.counters = Counters.zero ∧
      t.reports.lastSymbol = some .hold ∧ t.reports.sent = [.symbol .hold]

/-- A pin reset with no sweep running keeps the straps and the retired set, returns every tile that is not retired to
the free pool, empties the page table and the schedule, and queues STARTED with the cause PIN behind the symbol that
matches the flag; no byte of the DRAM changes but those of a slot whose write was in service, and that slot is written
whole, or stands as it was, or fails its check. With the sweep running, the sweep starts again from tile 0 with an empty
retired set, HOLD goes out and no STARTED report is queued (R20, R42, R46, R56, R59, R60, R174). That HOLD goes out at the
reset is the model's choice (log entry 28), and which of the three the slot does is free (log entry 10). -/
def Obligations.PinResetKeepsRetiredSet : Prop :=
  ∀ (ready : Bool) (s : State),
    let started := Report.started ⟨.pin, s.straps.size, s.tileCount, s.retiredCount, none⟩
    (s.store.sweep = none → gives (exec (.pinReset ready) s) fun t =>
      t.straps = s.straps ∧ t.store.sweep = none ∧ t.store.retired = s.store.retired ∧
      t.store.poolOut = s.store.retired ∧ t.liveRecords = [] ∧ t.schedule = [] ∧ t.intake.queue = [] ∧
      t.busySlots = 0 ∧ t.store.inService = none ∧ t.drive.plate = none ∧
      t.reports.sending = some started ∧ t.reports.counters = Counters.zero ∧
      t.reports.sent = [.symbol (symbolFor t.intake.holding), .parcel (started.parcel s.straps.crcInit)] ∧
      (t.intake.holding = false ↔ 512 ≤ s.tileCount - s.retiredCount) ∧
      (∀ a, (∀ w, s.writeInService = some w → a / 256 ≠ slotNumber w.tile w.slot) →
        t.store.dram.readByte a = s.store.dram.readByte a) ∧
      (∀ w, s.writeInService = some w →
        let n := slotNumber w.tile w.slot
        (t.store.dram.bytesAt n = paddedSlot w.payload ∧ t.store.dram.agrees n = true) ∨
        t.store.dram.slotAt n = s.store.dram.slotAt n ∨ t.store.dram.agrees n = false)) ∧
    (∀ n, s.store.sweep = some n → gives (exec (.pinReset ready) s) fun t =>
      t.straps = s.straps ∧ t.store.sweep = some 0 ∧ t.store.retired = [] ∧ t.freeCount = t.tileCount ∧
      t.intake.holding = true ∧ t.reports.sent = [.symbol .hold] ∧ t.reports.queue = [] ∧
      t.reports.sending = none ∧ t.intakeTaking = false ∧ t.schedule = [] ∧ t.liveRecords = [])

/-! ## Directives: refusal and the page table (R13 to R19, R166, R167) -/

/-- Table 10-3 but for RESTART: each directive code with the least and the greatest payload length. -/
def directiveLengths : List (Nat × Nat × Nat) :=
  [(0x01, 8, 8), (0x02, 3, 3), (0x03, 3, 3), (0x10, 15, 15), (0x11, 2, 2), (0x20, 6, 6), (0x21, 6, 6), (0x22, 2, 258),
    (0x23, 0, 0), (0x24, 257, 257), (0x30, 11, 11), (0x31, 5, 5), (0x32, 0, 0), (0x40, 2, 2), (0x41, 2, 2), (0x50, 5, 5),
    (0x51, 0, 0)]

/-- The payload length is one that table 10-3 gives for the code of a directive other than RESTART (R166, test 2). -/
def lengthFits (d : Directive) : Prop :=
  ∃ e ∈ directiveLengths, e.1 = d.code ∧ e.2.1 ≤ d.payload.length ∧ d.payload.length ≤ e.2.2

/-- A field coded from a list of table 10-2 holds a code that the list does not contain, or an ink set has one of bits 4..7
set (R166, test 3): the ink set of OPEN_PAGE; the ink, the damage policy and the insertion of POST_TICKET; the ink and the
form of SET_INK; the order mode of SET_HEAD; and the kind and the option of QUERY. -/
def codeOutside (d : Directive) : Prop :=
  (d.code = 0x01 ∧ 16 ≤ u8 d.payload 7) ∨
  (d.code = 0x10 ∧ (4 ≤ u8 d.payload 2 ∨ 2 ≤ u8 d.payload 13 ∨ 2 ≤ u8 d.payload 14)) ∨
  (d.code = 0x20 ∧ (4 ≤ u8 d.payload 0 ∨ 2 ≤ u8 d.payload 1)) ∨
  (d.code = 0x31 ∧ 2 ≤ u8 d.payload 4) ∨
  (d.code = 0x50 ∧ (u8 d.payload 0 = 0 ∨ 8 ≤ u8 d.payload 0 ∨ 2 ≤ u8 d.payload 1))

/-- The three tests of R166, in their order. A code that table 10-3 does not list is refused with UNKNOWN_DIRECTIVE; one that
it lists, with a payload length that it does not give for the code, with BAD_ARGUMENT; and one of a length it gives, with a
field that holds no code of its list, with BAD_ARGUMENT. The refusal is answered whatever the flags, and changes nothing else
but that the directive has left the inlet queue. RESTART is never refused, and any directive that passes the tests, and no
other, is judged by its own rule. -/
def Obligations.RefusedDirectiveChangesNothing : Prop :=
  ∀ (row : Instr) (s : State) (d : Directive), s.directiveOf row = some d →
    let listed := ∃ e ∈ directiveLengths, e.1 = d.code
    let refusedWith := fun reason => gives (exec row s) fun t =>
      t = { s.beginStep with intake := t.intake, reports := t.reports } ∧
      t.intake.queue = s.intake.queue.tail ∧ t.intake.slots = s.intake.slots ∧ t.intake.flow = s.intake.flow ∧
      s.reports.touches t.reports [] [.storeLow] ∧ answered s t d (some reason) []
    (d.code ≠ 0x5F → ¬ listed → refusedWith .unknownDirective) ∧
    (listed → ¬ lengthFits d → refusedWith .badArgument) ∧
    (lengthFits d → codeOutside d → refusedWith .badArgument) ∧
    (s.Takes row d ↔ d.code = 0x5F ∨ (lengthFits d ∧ ¬ codeOutside d))

/-- An OPEN_PAGE with a page id in 1..4095, a version in 1..255, a width in 64..16384, a height in 1..24576 and an ink set
that is not empty, of a version above that of every current record of its id, fills the lowest EMPTY record with the page,
its geometry and its layer records, all EMPTY; every other current record of the id becomes superseded; the reply carries the
record and the band count. With the tags distinct (R127), every binding of a POSTED or ARMED ticket that names the id is
resolved anew over the records as they now stand, and no other moves; a ticket of which one moved is armed exactly where the
four conditions hold, unless the drive captures it at this event; no ticket that is IMAGING changes; and the use counts, where they have been those of the
bindings, still are (R3, R4, R6, R7, R13, R14, R129, R130, R133, R137). -/
def Obligations.OpenPageFillsRecord : Prop :=
  ∀ (s : State) (d : Directive) (r : Nat), s.Takes .openPage d →
    let a := openArgs d.payload
    1 ≤ a.pageId ∧ a.pageId ≤ 4095 → 1 ≤ a.version ∧ a.version ≤ 255 → 64 ≤ a.width ∧ a.width ≤ 16384 →
    1 ≤ a.height ∧ a.height ≤ 24576 → a.inkSet ≠ 0 →
    (∀ r' p, s.page? r' = some p → p.current = true → p.pageId = a.pageId → p.version < a.version) →
    r < s.pages.length → s.page? r = none → (∀ r' < r, s.page? r' ≠ none) →
    gives (exec .openPage s) fun t =>
      (∃ p, t.page? r = some p ∧ p.pageId = a.pageId ∧ p.version = a.version ∧ p.state = .opened ∧
        p.width = a.width ∧ p.height = a.height ∧ p.inkSet = a.inkSet ∧ p.bandCount = (a.height + 255) / 256 ∧
        p.pendingWrites = 0 ∧ p.superseded = false ∧ p.damageNoted = false ∧
        p.layers.map (·.id) = layerIds a.inkSet p.bandCount ∧ ∀ l ∈ p.layers, l = LayerRecord.fresh l.id) ∧
      (∀ r' p, r' ≠ r → s.page? r' = some p → ∃ u b, t.page? r' = some { p with useCount := u, superseded := b } ∧
        (p.current = true ∧ p.pageId = a.pageId → b = true) ∧
        (¬ (p.current = true ∧ p.pageId = a.pageId) → b = p.superseded)) ∧
      s.Reresolves t a.pageId ∧
      acceptedWith s t d [byteOf r, byteOf ((a.height + 255) / 256)] ∧
      t.store = s.store ∧ t.repair = s.repair ∧ t.screener = s.screener ∧ t.framer = s.framer ∧
      t.intake.queue = s.intake.queue.tail ∧ s.reports.touches t.reports [] [.storeLow]

/-- An accepted CLOSE_PAGE evaluates every layer of the page that has no write in flight, by the table of R62, and derives
the page's state by that of R64. The layers that become REPAIRING join the tail of the repair queue in layer order, unless
they stand there. A COMPLETE or DAMAGED page queues its PAGE report behind the reply, and a first damage latches
PAGE_DAMAGED (R15, R61 to R65, R67). At the derivation of such a state the arming of the tickets that name the record is
evaluated, and no other ticket's (R66, R133, R134). That the layers of an OPEN page are distinct, and EMPTY or FILLING, is
part of the invariant StepsKeepStore. -/
def Obligations.ClosePageEvaluatesLayers : Prop :=
  ∀ (s : State) (d : Directive) (r : Nat) (p : PageRecord), s.Takes .closePage d →
    s.findPage (u16 d.payload 0) (u8 d.payload 2) = some (r, p) → p.state = .opened → p.Wf →
    gives (exec .closePage s) fun t =>
      (∃ q, t.page? r = some q ∧ q.pageId = p.pageId ∧ q.version = p.version ∧ q.pendingWrites = p.pendingWrites ∧
        q.useCount = p.useCount ∧
        q.layers.map (·.id) = p.layers.map (·.id) ∧
        (∀ l ∈ p.layers, ∃ m, q.layer? l.id = some m ∧ l.EvaluatedAs m) ∧ q.DerivesTo q.state ∧
        (∃ joined, t.repair.queue = s.repair.queue ++ joined ∧
          joined.Sublist (q.layers.map fun m => ⟨r, m.id⟩) ∧
          (∀ m ∈ q.layers, ⟨r, m.id⟩ ∈ joined ↔ m.state = .repairing ∧ ⟨r, m.id⟩ ∉ s.repair.queue ∧
            s.repair.engine.target? ≠ some ⟨r, m.id⟩)) ∧
        (q.state ≠ .evaluating → (d.quiet = false → s.reportsTwo t (d.reply none []) (q.report r)) ∧
          (d.quiet = true → s.reportsFirst t (q.report r))) ∧
        (q.state = .damaged → p.damageNoted = false → t.reports.latched .pageDamaged = true) ∧
        s.Rearms t (fun x => q.state ≠ .evaluating ∧ ∃ z ∈ x.resolutions, z.record = r)) ∧
      (∀ r', r' ≠ r → t.page? r' = s.page? r') ∧
      acceptedWith s t d [] ∧ t.store = s.store ∧ t.screener = s.screener ∧ t.intake.queue = s.intake.queue.tail

/-- The refusals of the page directives, in the order of their rules: OPEN_PAGE with BAD_ARGUMENT, where the page id lies
outside 1..4095, the version outside 1..255, the width outside 64..16384, the height outside 1..24576 or the ink set is empty,
with STALE_VERSION or with TABLE_FULL; CLOSE_PAGE and RELEASE_PAGE of a name with no current record with UNKNOWN_PAGE;
CLOSE_PAGE of a closed page with WRONG_STATE; RELEASE_PAGE of a page in use with PAGE_IN_USE. No record changes (R13, R15, R16). -/
def Obligations.PageDirectiveRefusals : Prop :=
  ∀ (s : State) (d : Directive) (row : Instr) (reason : Reason), s.Takes row d →
    let a := openArgs d.payload
    let legal := (1 ≤ a.pageId ∧ a.pageId ≤ 4095) ∧ (1 ≤ a.version ∧ a.version ≤ 255) ∧
      (64 ≤ a.width ∧ a.width ≤ 16384) ∧ (1 ≤ a.height ∧ a.height ≤ 24576) ∧ a.inkSet ≠ 0
    let found := s.findPage (u16 d.payload 0) (u8 d.payload 2)
    ((row = .openPage ∧ ¬ legal ∧ reason = .badArgument) ∨
      (row = .openPage ∧ legal ∧
        (∃ r p, s.page? r = some p ∧ p.current = true ∧ p.pageId = a.pageId ∧ a.version ≤ p.version) ∧
        reason = .staleVersion) ∨
      (row = .openPage ∧ legal ∧
        (∀ r p, s.page? r = some p → p.current = true → p.pageId = a.pageId → p.version < a.version) ∧
        (∀ r < s.pages.length, s.page? r ≠ none) ∧ reason = .tableFull) ∨
      ((row = .closePage ∨ row = .releasePage) ∧ found = none ∧ reason = .unknownPage) ∨
      (row = .closePage ∧ (∃ r p, found = some (r, p) ∧ p.state ≠ .opened) ∧ reason = .wrongState) ∨
      (row = .releasePage ∧ (∃ r p, found = some (r, p) ∧ 0 < p.useCount) ∧ reason = .pageInUse)) →
    gives (exec row s) fun t =>
      t = { s.beginStep with intake := t.intake, reports := t.reports } ∧ answered s t d (some reason) [] ∧
      t.intake.queue = s.intake.queue.tail

/-- An accepted RELEASE_PAGE leaves no repair entry of the record. With no pending write the record becomes EMPTY and
its tiles join the free pool; with one it becomes RELEASING and no tile moves (R16, R17, R74). The superseded indicator of
every remaining current record of the id is worked out again: a record is superseded exactly where another of the id with a
higher version is current, so that the one of highest version is not (R3); the indicators of other records stand, and of no
other record does anything but the indicator and the use count change. The bindings that name the id are resolved anew
(R18, R129, R130). -/
def Obligations.ReleasePageFreesOrHolds : Prop :=
  ∀ (s : State) (d : Directive) (r : Nat) (p : PageRecord), s.Takes .releasePage d →
    s.findPage (u16 d.payload 0) (u8 d.payload 2) = some (r, p) → p.useCount = 0 →
    gives (exec .releasePage s) fun t =>
      (∀ x ∈ t.repair.queue, x.record ≠ r) ∧
      (∀ x, t.repair.engine.target? = some x → x.record ≠ r) ∧
      (p.pendingWrites = 0 → t.page? r = none ∧
        t.store.poolOut = (s.store.poolOut.filter fun n => !(p.tiles.contains n)) ∧
        acceptedWith s t d ([0] ++ be16 p.tiles.length)) ∧
      (0 < p.pendingWrites → (∃ q, t.page? r = some q ∧ q.state = .releasing ∧ q.layers = p.layers ∧
          q.pendingWrites = p.pendingWrites ∧ q.superseded = p.superseded) ∧
        t.store.poolOut = s.store.poolOut ∧ acceptedWith s t d ([5] ++ be16 0)) ∧
      (∀ r' q, r' ≠ r → s.page? r' = some q → ∃ n b, t.page? r' = some { q with useCount := n, superseded := b } ∧
        (q.current = true ∧ q.pageId = p.pageId → (b = true ↔ ∃ x z, x ≠ r ∧ s.page? x = some z ∧
          z.current = true ∧ z.pageId = p.pageId ∧ q.version < z.version)) ∧
        (¬ (q.current = true ∧ q.pageId = p.pageId) → b = q.superseded)) ∧
      (∀ r', r' ≠ r → s.page? r' = none → t.page? r' = none) ∧
      s.Reresolves t p.pageId ∧
      t.store.retired = s.store.retired ∧ t.store.dram = s.store.dram ∧ t.screener = s.screener ∧
      t.intake.queue = s.intake.queue.tail

/-! ## The schedule (R127 to R142) -/

/-- POST_TICKET is refused with BAD_ARGUMENT, DUPLICATE_TAG or SCHEDULE_FULL in that order, and nothing changes (R131).
Otherwise the ticket is placed at the tail, or immediately before the first ticket that is not IMAGING; its bindings are
resolved and the use counts of the records they name rise; its first arming evaluation makes it ARMED exactly where the
four conditions hold, and POSTED otherwise, before the drive takes up an eligible ticket; the reply carries its position
and that state (R4, R129, R130, R132, R133, R135). The drive in IDLE or WAIT_PLATE takes up the eligible ticket of the schedule
as it then stands: with a plate mounted, the posted ticket, where it is that one, becomes IMAGING and its plate context is
captured at this event; and with none mounted the eligible ticket is selected (R137, R148, R150). -/
def Obligations.PostTicketEntersSchedule : Prop :=
  ∀ (s : State) (d : Directive), s.Takes .postTicket d →
    let a := ticketArgs d.payload
    let named := fun b : Binding => 1 ≤ b.pageId ∧ b.pageId ≤ 4095
    let legal := 1 ≤ a.tag ∧ a.ink < 4 ∧ a.margin ≤ 4095 ∧ a.gutter ≤ 2048 ∧ named a.left ∧ ∀ b, a.right = some b → named b
    let refusedWith := fun reason => gives (exec .postTicket s) fun t =>
      t = { s.beginStep with intake := t.intake, reports := t.reports } ∧ t.intake.queue = s.intake.queue.tail ∧
      answered s t d (some reason) []
    (¬ legal → refusedWith .badArgument) ∧
    (legal → (∃ x ∈ s.schedule, x.tag = a.tag) → refusedWith .duplicateTag) ∧
    (legal → (∀ x ∈ s.schedule, x.tag ≠ a.tag) → 16 ≤ s.schedule.length → refusedWith .scheduleFull) ∧
    (legal → (∀ x ∈ s.schedule, x.tag ≠ a.tag) → s.schedule.length < 16 →
      gives (exec .postTicket s) fun t =>
        ∃ before after, s.schedule = before ++ after ∧
          (a.front = false → after = []) ∧
          (a.front = true → (∀ x ∈ before, x.state = .imaging) ∧ ∀ x, after.head? = some x → x.state ≠ .imaging) ∧
          t.schedule.map (·.tag) = before.map (·.tag) ++ a.tag :: after.map (·.tag) ∧
          (∃ x ∈ t.schedule, x.tag = a.tag ∧ inkOf a.ink = some x.ink ∧ x.margin = a.margin ∧ x.gutter = a.gutter ∧
            x.left = a.left ∧ x.right = a.right ∧ x.policy = a.policy ∧ t.ResolvesTo a.left x.leftRes ∧
            (∀ b, a.right = some b → t.ResolvesTo b x.rightRes) ∧ (a.right = none → x.rightRes = none) ∧
            (∀ r, t.page? r = (s.page? r).map fun p =>
              { p with useCount := p.useCount + (x.resolutions.filter fun z => z.record == r).length }) ∧
            ∃ first : TicketState, (first = .armed ↔ t.MeetsArming x) ∧ (first = .armed ∨ first = .posted) ∧
              (x.state = first ∨ (x.state = .imaging ∧ first = .armed)) ∧
              (s.Open → s.drive.plateReady = true →
                IsEligible s.drive.settings.mode (before ++ { x with state := first } :: after) { x with state := first } →
                x.state = .imaging ∧ t.PlateCaptured x) ∧
              acceptedWith s t d [byteOf (before.length + 1), byteOf first.code]) ∧
          (s.Open → s.drive.plateReady = false → t.Selects) ∧
          t.store = s.store ∧ t.repair = s.repair ∧ t.screener = s.screener ∧ t.intake.queue = s.intake.queue.tail)

/-- A ticket's first arming evaluation arms it exactly when the four conditions of R133 hold. The ticket that the drive is
offered is the first one that is not IMAGING, if it is ARMED, under IN_ORDER, and the first ARMED one under FIRST_ARMED; where
there is no such ticket, none is offered (R135). -/
def Obligations.ArmedExactlyWhenReady : Prop :=
  (∀ (s : State) (x : Ticket), s.eligible = some x ↔ x.state = .armed ∧ ∃ before after,
    s.schedule = before ++ x :: after ∧
      ∀ y ∈ before, (s.drive.settings.mode = .inOrder → y.state = .imaging) ∧
        (s.drive.settings.mode = .firstArmed → y.state ≠ .armed)) ∧
  ∀ (s : State) (t : Ticket), t.state ≠ .imaging →
    (s.armedState t = .armed ↔
      t.leftRes.isSome = true ∧ (t.right.isSome = true → t.rightRes.isSome = true) ∧
      (∀ x ∈ t.resolutions, ∃ p, s.page? x.record = some p ∧ hasInk p.inkSet t.ink = true ∧
        (p.state = .complete ∨ (t.policy = .imageMarked ∧ p.state = .damaged))) ∧
      s.screener.inkReady t.ink = true) ∧
    (s.armedState t ≠ .armed → s.armedState t = .posted)

/-- An accepted WITHDRAW_TICKET takes the ticket out of the schedule, lowers the use count of each record by the slots of
the ticket that name it, and queues its PLATE report, with the outcome WITHDRAWN and the state the ticket had, behind the
reply (first where the reply is suppressed by QUIET). Of an IMAGING ticket it ends the plate, with the lines sent and the
damage summary of its context and no PLATE_END. No counter and no alarm acts for it. A tag that no live ticket has is
refused with UNKNOWN_TICKET, and nothing changes (R4, R139, R140, R142 to R144, R157). -/
def Obligations.WithdrawEndsTicket : Prop :=
  ∀ (s : State) (d : Directive), s.Takes .withdrawTicket d →
    (s.ticket? (u16 d.payload 0) = none → gives (exec .withdrawTicket s) fun t =>
      t = { s.beginStep with intake := t.intake, reports := t.reports } ∧
      answered s t d (some .unknownTicket) []) ∧
    ∀ (x : Ticket) (sent : Nat) (sm : Summary), s.ticket? (u16 d.payload 0) = some x →
    ((x.state ≠ .imaging ∧ sent = 0 ∧ sm = ⟨0, 0, 0, 0, false⟩) ∨
      (x.state = .imaging ∧ ∃ pl, s.drive.plate = some pl ∧ pl.tag = x.tag ∧ sent = pl.sent ∧ sm = pl.summary)) →
    gives (exec .withdrawTicket s) fun t =>
      (∀ y ∈ t.schedule, y.tag ≠ x.tag) ∧
      t.schedule.map (·.tag) = (s.schedule.map (·.tag)).filter (· != x.tag) ∧
      (∀ r, t.page? r = (s.page? r).map fun p =>
        { p with useCount := p.useCount - (x.resolutions.filter fun z => z.record == r).length }) ∧
      acceptedWith s t d (be16 x.tag ++ [byteOf x.state.code]) ∧
      (d.quiet = false → s.reportsTwo t (d.reply none (be16 x.tag ++ [byteOf x.state.code]))
        (x.plateReport .withdrawn sent sm)) ∧
      (d.quiet = true → s.reportsFirst t (x.plateReport .withdrawn sent sm)) ∧
      s.reports.touches t.reports [] [.storeLow] ∧
      (x.state = .imaging → t.drive.plate = none ∧ t.drive.pool = [] ∧ t.prefetch.job = none ∧
        t.drive.state.inContext = false ∧ t.drive.plateEnd = false) ∧
      t.store = s.store ∧ t.repair = s.repair ∧ t.screener = s.screener ∧ t.intake.queue = s.intake.queue.tail

/-! ## The Screener's tables (R111 to R123) -/

/-- SCREEN_BEGIN is refused with BAD_ARGUMENT, SLOT_BUSY or LOAD_IN_PROGRESS in that order, and nothing changes (R116).
Otherwise its slot becomes LOADING with the new parameters and no entries, and the screen-load context names it with fill
point 0 (R115, R117); the arming of the tickets of every ink whose readiness changes is evaluated, and no other
ticket's (R114, R133, R134). -/
def Obligations.ScreenBeginOpensLoad : Prop :=
  ∀ (s : State) (d : Directive), s.Takes .screenBegin d →
    let a := beginArgs d.payload
    let legal := a.slot ≤ 5 ∧ 1 ≤ a.w ∧ a.w ≤ 256 ∧ 1 ≤ a.h ∧ a.h ≤ 256 ∧ a.sh < a.w
    let other := ∃ l, s.screener.load = some l ∧ l.slot ≠ a.slot
    let refusedWith := fun reason => gives (exec .screenBegin s) fun t =>
      t = { s.beginStep with intake := t.intake, reports := t.reports } ∧ t.intake.queue = s.intake.queue.tail ∧
      answered s t d (some reason) []
    (¬ legal → refusedWith .badArgument) ∧
    (legal → s.screenCaptured a.slot = true → refusedWith .slotBusy) ∧
    (legal → s.screenCaptured a.slot = false → other → refusedWith .loadInProgress) ∧
    (legal → s.screenCaptured a.slot = false → ¬ other →
      gives (exec .screenBegin s) fun t =>
        t.screener = { s.screener with
          screens := s.screener.screens.set a.slot (.loading ⟨a.w, a.h, a.sh, []⟩), load := some ⟨a.slot, 0⟩ } ∧
        acceptedWith s t d ([byteOf a.slot] ++ be32 (a.w * a.h)) ∧
        (∀ x ∈ t.schedule, x.state = .armed → t.screener.inkReady x.ink = true ∨ s.screener.inkReady x.ink = false) ∧
        s.Rearms t (fun x => t.screener.inkReady x.ink ≠ s.screener.inkReady x.ink) ∧
        t.pages = s.pages ∧ t.store = s.store ∧ t.repair = s.repair ∧ t.intake.queue = s.intake.queue.tail)

/-- An accepted SCREEN_DATA stores its run at the fill point with every 0 raised to 1, and the fill point advances;
each raised byte counts in thresholds_raised and no alarm is latched for it (R118, R119). -/
def Obligations.ScreenDataStoresRun : Prop :=
  ∀ (s : State) (d : Directive) (l : ScreenLoad) (tb : ScreenTable), s.Takes .screenData d →
    s.screener.load = some l → s.screener.screens.getD l.slot .empty = .loading tb →
    l.slot < s.screener.screens.length →
    let run := d.payload.drop 2
    u16 d.payload 0 = l.fillPoint → run ≠ [] → l.fillPoint + run.length ≤ tb.w * tb.h →
    gives (exec .screenData s) fun t =>
      t.screener.load = some ⟨l.slot, l.fillPoint + run.length⟩ ∧
      (∃ entries, t.screener.screen l.slot = .loading { tb with entries } ∧
        entries.length = tb.entries.length + run.length ∧
        (∀ i, i < tb.entries.length → entries.getD i 0 = tb.entries.getD i 0) ∧
        (∀ i, i < run.length → entries.getD (tb.entries.length + i) 0
          = if run.getD i 0 = 0 then 1 else run.getD i 0)) ∧
      t.reports.counters.thresholdsRaised
        = min 65535 (s.reports.counters.thresholdsRaised + run.count 0) ∧
      s.reports.touches t.reports [.thresholdsRaised] [.storeLow] ∧
      acceptedWith s t d (be32 (l.fillPoint + run.length) ++ be16 (run.count 0)) ∧
      (∀ n, n ≠ l.slot → t.screener.screen n = s.screener.screen n) ∧ t.screener.curves = s.screener.curves ∧
      t.screener.inks = s.screener.inks ∧ t.pages = s.pages ∧ t.store = s.store ∧ t.schedule = s.schedule

/-- SCREEN_DATA is refused with NOT_LOADING, OUT_OF_ORDER or BAD_ARGUMENT in the order of R118, and SCREEN_END with
NOT_LOADING or INCOMPLETE (R120); nothing is stored, and the fill point stays. -/
def Obligations.ScreenLoadRefusals : Prop :=
  ∀ (s : State) (d : Directive) (row : Instr) (reason : Reason) (body : List Byte), s.Takes row d →
    (((row = .screenData ∨ row = .screenEnd) ∧ s.screener.load = none ∧ reason = .notLoading ∧ body = []) ∨
      (∃ l tb, s.screener.openLoad = some (l, tb) ∧
        ((row = .screenData ∧ u16 d.payload 0 ≠ l.fillPoint ∧ reason = .outOfOrder ∧ body = be32 l.fillPoint) ∨
          (row = .screenData ∧ u16 d.payload 0 = l.fillPoint ∧
            (d.payload.length = 2 ∨ tb.w * tb.h < l.fillPoint + (d.payload.length - 2)) ∧
            reason = .badArgument ∧ body = []) ∨
          (row = .screenEnd ∧ l.fillPoint < tb.w * tb.h ∧ reason = .incomplete ∧ body = be32 l.fillPoint)))) →
    gives (exec row s) fun t =>
      t = { s.beginStep with intake := t.intake, reports := t.reports } ∧ answered s t d (some reason) body

/-- SCREEN_END of a full load makes the slot READY with the entries of the load and empties the context (R120). The arming
of the tickets of every ink whose readiness changes is evaluated, and no other ticket's (R114, R133, R134). -/
def Obligations.ScreenEndCompletesLoad : Prop :=
  ∀ (s : State) (d : Directive) (l : ScreenLoad) (tb : ScreenTable), s.Takes .screenEnd d →
    s.screener.openLoad = some (l, tb) → tb.w * tb.h ≤ l.fillPoint → gives (exec .screenEnd s) fun t =>
      t.screener = { s.screener with screens := s.screener.screens.set l.slot (.ready tb), load := none } ∧
      acceptedWith s t d [byteOf l.slot] ∧
      s.Rearms t (fun x => t.screener.inkReady x.ink ≠ s.screener.inkReady x.ink) ∧
      t.pages = s.pages ∧ t.store = s.store ∧ t.repair = s.repair ∧
      t.intake.queue = s.intake.queue.tail

/-- CURVE_LOAD of a slot outside 0..7 is refused with BAD_ARGUMENT, and of a slot that the plate in context has captured
with SLOT_BUSY; nothing changes. Otherwise it replaces the 256 entries of its slot (R121, R123). The arming of the tickets
of every ink whose readiness changes is evaluated, and no other ticket's (R114, R133, R134). -/
def Obligations.CurveLoadReplacesCurve : Prop :=
  ∀ (s : State) (d : Directive), s.Takes .curveLoad d →
    let refusedWith := fun reason => gives (exec .curveLoad s) fun t =>
      t = { s.beginStep with intake := t.intake, reports := t.reports } ∧ t.intake.queue = s.intake.queue.tail ∧
      answered s t d (some reason) []
    (8 ≤ u8 d.payload 0 → refusedWith .badArgument) ∧
    (u8 d.payload 0 ≤ 7 → s.curveCaptured (u8 d.payload 0) = true → refusedWith .slotBusy) ∧
    (u8 d.payload 0 ≤ 7 → s.curveCaptured (u8 d.payload 0) = false → gives (exec .curveLoad s) fun t =>
      t.screener = { s.screener with
        curves := s.screener.curves.set (u8 d.payload 0) (some (d.payload.drop 1)) } ∧
      (d.payload.drop 1).length = 256 ∧ acceptedWith s t d [] ∧
      s.Rearms t (fun x => t.screener.inkReady x.ink ≠ s.screener.inkReady x.ink) ∧
      t.pages = s.pages ∧ t.store = s.store ∧ t.repair = s.repair ∧ t.intake.queue = s.intake.queue.tail)

/-- SET_INK of the form BIND replaces the ink record, and of the form UNBIND unbinds it; arguments of BIND outside their
ranges are refused with BAD_ARGUMENT, and nothing changes. No other ink record and no slot changes, and the reply carries
the ink's readiness. A plate in context keeps the copy it took. Where the readiness changes, the arming of the ink's
tickets is evaluated by R133, and no other ticket's; where it does not, the schedule and the drive stand as they were (R113, R114, R122, R133, R134). -/
def Obligations.SetInkReplacesRecord : Prop :=
  ∀ (s : State) (d : Directive) (i : Ink), inkOf (u8 d.payload 0) = some i →
    let b := bindArgs d.payload
    let legal := b.screen ≤ 5 ∧ b.curve ≤ 7 ∧ b.floor ≤ 254 ∧ 1 ≤ b.ceiling ∧ b.ceiling ≤ 255 ∧ b.floor ≤ b.ceiling
    let set := fun (t : State) (new : Option InkBinding) =>
      t.screener.inks.get i = new ∧ (∀ j, j ≠ i → t.screener.inks.get j = s.screener.inks.get j) ∧
      t.screener.screens = s.screener.screens ∧ t.screener.curves = s.screener.curves ∧
      t.screener.load = s.screener.load ∧
      (s.drive.state.inContext = true → t.drive = s.beginStep.drive) ∧
      (t.screener.inkReady i = s.screener.inkReady i → t.schedule = s.schedule ∧ t.drive = s.beginStep.drive) ∧
      s.Rearms t (fun x => x.ink = i ∧ t.screener.inkReady i ≠ s.screener.inkReady i) ∧
      t.pages = s.pages ∧ t.store = s.store ∧ t.repair = s.repair ∧ t.intake.queue = s.intake.queue.tail
    (s.Takes .setInkBind d → ¬ legal → gives (exec .setInkBind s) fun t =>
      t = { s.beginStep with intake := t.intake, reports := t.reports } ∧ answered s t d (some .badArgument) []) ∧
    (s.Takes .setInkBind d → legal → gives (exec .setInkBind s) fun t =>
      set t (some b) ∧ acceptedWith s t d [boolByte (t.screener.inkReady i)]) ∧
    (s.Takes .setInkUnbind d → gives (exec .setInkUnbind s) fun t => set t none ∧ acceptedWith s t d [0])

/-! ## Settings, queries, RESTART -/

/-- SET_FLOW replaces the five settings together, or, with any of them out of its range, none (R41). The holding flag is
evaluated with the marks as they then stand and the directive out of the inlet queue; STORE_LOW is latched where the
reserve cause becomes present (R38, R39). -/
def Obligations.SetFlowReplacesSettings : Prop :=
  ∀ (s : State) (d : Directive), s.Takes .setFlow d →
    let f := flowArgs d.payload
    let legal := f.resume < f.hold ∧ f.hold ≤ 96 ∧ f.low < f.high ∧ f.high ≤ s.tileCount ∧ 1 ≤ f.timeoutMs
    gives (exec .setFlow s) fun t =>
      t = { s.beginStep with intake := t.intake, reports := t.reports } ∧
      t.intake.queue = s.intake.queue.tail ∧ t.intake.slots = s.intake.slots ∧
      (legal → t.intake.flow = f ∧ acceptedWith s t d []) ∧
      (¬ legal → t.intake.flow = s.intake.flow ∧ answered s t d (some .badArgument) []) ∧
      s.FlagEvaluated t t.intake.flow s.intake.queue.tail.length s.freeCount ∧
      s.reports.touches t.reports [] [.storeLow]

/-- SET_HEAD with a head line width, a prime level or a stall limit out of its range is refused with BAD_ARGUMENT, and in
PRIMING and IMAGING with WRONG_STATE, in that order; nothing changes. Otherwise it replaces the four settings together
(R162). Where it changes the order mode, the drive in IDLE or WAIT_PLATE takes up the eligible ticket of the new mode: with a
plate mounted its plate context is captured at this event, and with none mounted it is selected (R135, R148, R150). -/
def Obligations.SetHeadReplacesSettings : Prop :=
  ∀ (s : State) (d : Directive), s.Takes .setHead d →
    let h := headArgs d.payload
    let legal := 1024 ≤ h.width ∧ h.width ≤ 32768 ∧ 1 ≤ h.prime ∧ h.prime ≤ 64 ∧ 1 ≤ h.stallMs ∧ h.stallMs ≤ 255
    let refusedWith := fun reason => gives (exec .setHead s) fun t =>
      t = { s.beginStep with intake := t.intake, reports := t.reports } ∧ t.intake.queue = s.intake.queue.tail ∧
      answered s t d (some reason) []
    (¬ legal → refusedWith .badArgument) ∧
    (legal → s.drive.state.inContext = true → refusedWith .wrongState) ∧
    (legal → s.drive.state.inContext = false → gives (exec .setHead s) fun t =>
      t.drive.settings = h ∧ acceptedWith s t d [] ∧
      (h.mode ≠ s.drive.settings.mode → s.Open →
        (s.drive.plateReady = false → t.Selects) ∧
        (s.drive.plateReady = true → ∀ x, IsEligible h.mode s.schedule x → s.MeetsArming x →
          t.drive.state.inContext = true ∧ t.PlateCaptured x ∧ { x with state := .imaging } ∈ t.schedule)) ∧
      t.pages = s.pages ∧ t.store = s.store ∧
      t.screener = s.screener ∧ t.schedule.map (·.tag) = s.schedule.map (·.tag) ∧
      t.intake.queue = s.intake.queue.tail)

/-- RESUME_HEAD takes the drive out of HALTED, into UNLOADING while a plate is mounted; it is refused with WRONG_STATE
outside HALTED and while the halt line is stuck (R161). -/
def Obligations.ResumeHeadLeavesHalted : Prop :=
  ∀ (s : State) (d : Directive), s.Takes .resumeHead d →
    (s.drive.state = .halted → s.drive.stuck = false → gives (exec .resumeHead s) fun t =>
      (s.drive.plateReady = true → t.drive.state = .unloading) ∧
      (s.drive.plateReady = false → t.drive.state = if s.eligible.isSome then .waitPlate else .idle) ∧
      t.drive.plate = s.drive.plate ∧ acceptedWith s t d [byteOf t.drive.state.code] ∧
      t.schedule = s.schedule ∧ t.pages = s.pages ∧ t.store = s.store) ∧
    (s.drive.state ≠ .halted ∨ s.drive.stuck = true → gives (exec .resumeHead s) fun t =>
      t = { s.beginStep with intake := t.intake, reports := t.reports } ∧ answered s t d (some .wrongState) [])

/-- SET_ALARM_MASK replaces the whole mask and CLEAR_ALARMS clears every named latch and no other; ALERT is then low exactly
where some latched alarm is not masked (R179, R180). The reply, unless QUIET suppresses it, is the only report queued: no
ALARM report is queued for a latch that is already set, and one owed from before joins only where the sending of the reply
frees a place (R167, R178). The reserve cause stands as at its last evaluation, since the taking of the directive is an
event of the holding flag. -/
def Obligations.AlarmDirectives : Prop :=
  ∀ (s : State) (d : Directive),
    s.intake.reserveCause = reservePresent s.intake.flow s.freeCount → s.reports.queue.length < 32 →
    let only := fun (t : State) (body : List Byte) =>
      (d.quiet = false → s.reportsOnly t (d.reply none body)) ∧
      (d.quiet = true → s.reports.sending.isSome = true → t.reports.queue = s.reports.queue) ∧
      (d.quiet = true → s.reports.queue = [] → t.reports.queue = [] ∧ t.reports.owed = s.reports.owed) ∧
      (s.reports.sending.isSome = true → t.reports.owed = s.reports.owed) ∧
      (s.reports.owed = false → t.reports.owed = false)
    let alert := fun t : State =>
      t.reports.alertLow = true ↔ ∃ x : Alarm, t.reports.latched x = true ∧ t.reports.masked x = false
    (s.Takes .setAlarmMask d → gives (exec .setAlarmMask s) fun t =>
      t = { s.beginStep with intake := t.intake, reports := t.reports } ∧ t.intake.queue = s.intake.queue.tail ∧
      t.reports.mask = alarmSetAt d.payload 0 ∧ t.reports.latches = s.reports.latches ∧
      t.reports.counters = s.reports.counters ∧ alert t ∧
      only t (be16 s.reports.latches.toNat ++ be16 (alarmSetAt d.payload 0).toNat)) ∧
    (s.Takes .clearAlarms d → gives (exec .clearAlarms s) fun t =>
      t = { s.beginStep with intake := t.intake, reports := t.reports } ∧ t.intake.queue = s.intake.queue.tail ∧
      (∀ x, t.reports.latched x = (s.reports.latched x && !(alarmSetAt d.payload 0).getLsbD x.index)) ∧
      t.reports.mask = s.reports.mask ∧ t.reports.counters = s.reports.counters ∧ alert t ∧
      only t (be16 t.reports.latches.toNat ++ be16 s.reports.mask.toNat))

/-- The body with which a query, or IDENTIFY, is answered from the state at its taking (R19, R44, R125, R145, R163,
R168, R169). -/
def queryBodyOf (s : State) : Instr → Option (List Byte)
  | .queryPages => some s.pagesBody
  | .querySchedule => some s.scheduleBody
  | .queryStore => some s.storeBody
  | .queryInks => some s.inksBody
  | .queryHead => some s.headBody
  | .queryCounters => some s.reports.counters.body
  | .identify => some s.identity
  | _ => none

/-- A query without CLEAR, and IDENTIFY, is answered from the state as it stands with the directive out of the inlet
queue, and changes nothing else; QUERY PAGE of a name with no current record is refused with UNKNOWN_PAGE (R19, R29,
R168, R169). That the flag is evaluated after the reply is the model's choice (log entry 13). -/
def Obligations.QueriesChangeNothing : Prop :=
  ∀ (s : State) (d : Directive) (row : Instr), s.Takes row d →
    (row = .queryPage ∨ (queryBodyOf s.beginStep.popInlet row).isSome = true) →
    gives (exec row s) fun t =>
      t = { s.beginStep with intake := t.intake, reports := t.reports } ∧
      t.intake.queue = s.intake.queue.tail ∧ t.intake.slots = s.intake.slots ∧ t.intake.flow = s.intake.flow ∧
      s.reports.touches t.reports [] [.storeLow] ∧
      (∀ body, queryBodyOf s.beginStep.popInlet row = some body → acceptedWith s t d body) ∧
      (row = .queryPage →
        (∀ r p, s.findPage (u16 d.payload 2) (u8 d.payload 4) = some (r, p) → acceptedWith s t d (p.queryBody r)) ∧
        (s.findPage (u16 d.payload 2) (u8 d.payload 4) = none → answered s t d (some .unknownPage) []))

/-- QUERY COUNTERS with CLEAR copies the 15 counters into the reply and sets them to 0; a reply then dropped for a full
queue counts in reports_lost after the zeroing (R168, R172). -/
def Obligations.CountersCopiedThenCleared : Prop :=
  ∀ (s : State) (d : Directive), s.Takes .queryCountersClear d →
    s.intake.reserveCause = reservePresent s.intake.flow s.freeCount →
    gives (exec .queryCountersClear s) fun t =>
      t = { s.beginStep with intake := t.intake, reports := t.reports } ∧
      acceptedWith s t d s.reports.counters.body ∧
      (s.reports.queue.length < 32 → t.reports.counters = Counters.zero) ∧
      (32 ≤ s.reports.queue.length → d.quiet = false → t.reports.counters = { Counters.zero with reportsLost := 1 })

/-- A RESTART that is taken aborts the plate, empties the schedule and the repair queue, and closes the screen load. A
LOADING screen slot becomes EMPTY; the READY screens, the curves, the ink records, the settings and the retired set are
kept (R126, R164, R170). With a store write in flight it is held, and no PLATE report is queued for a ticket, and no counter
and no alarm acts for one: all the event can queue are ALARM reports, owed or of STORE_LOW, which the taking's evaluation of
the holding flag may latch (R39, R146). With none in flight it finishes at this event (R170, R171), with the one evaluation
of the holding flag that R171 names (R38). -/
def Obligations.RestartAbortsPlate : Prop :=
  ∀ (s : State) (d : Directive), s.Takes .restart d →
    let hold : RestartHold := ⟨d.tag, d.quiet, if s.drive.state.inContext then s.drive.plate.map (·.tag) else none⟩
    gives (exec .restart s) fun t =>
      t.drive.plate = none ∧ t.drive.pool = [] ∧ t.prefetch.job = none ∧ t.drive.plateEnd = false ∧
      t.drive.state = (if s.drive.plateReady then .unloading else .idle) ∧
      t.schedule = [] ∧ t.repair.queue = [] ∧ t.screener.load = none ∧
      (∀ r p, t.page? r = some p → p.useCount = 0) ∧ t.screener.curves = s.screener.curves ∧
      t.screener.inks = s.screener.inks ∧ (∀ n tb, s.screener.screen n = .ready tb → t.screener.screen n = .ready tb) ∧
      (∀ n tb, s.screener.screen n = .loading tb → t.screener.screen n = .empty) ∧
      (∀ n, s.screener.screen n = .empty → t.screener.screen n = .empty) ∧
      t.drive.settings = s.drive.settings ∧ t.intake.flow = s.intake.flow ∧ t.intake.queue = s.intake.queue.tail ∧
      t.intake.slots = s.intake.slots ∧
      (s.writesInFlight = true → t.restart = some hold ∧ t.intakeTaking = false ∧ t.store = s.store ∧
        t.reports.counters.platesSpoiled = s.reports.counters.platesSpoiled ∧
        s.reports.touches t.reports [] [.storeLow] ∧
        ∃ more, (∀ r ∈ more, r.isAlarm = true) ∧
          ((t.reports.sending = s.reports.sending ∧ t.reports.queue = s.reports.queue ++ more) ∨
            (s.reports.sending = none ∧ ∃ r, t.reports.sending = some r ∧
              r :: t.reports.queue = s.reports.queue ++ more))) ∧
      (s.writesInFlight = false → s.RestartFinished t hold s.intake.reserveCause ∧
        t.store = { s.store with poolOut := s.store.retired } ∧
        s.FlagFollows t t.intake.queue.length (s.tileCount - s.retiredCount))

/-- A RESTART in hand with no store write in flight is finished by RESTART_FINISH: the page table, the report queue, the
latches and the counters are emptied, every tile that is not retired is in the free pool, the reply, unless the RESTART was
QUIET, and then STARTED are queued, and Intake takes parcels again (R21, R171). With a write in flight, or with no RESTART
in hand, nothing happens. The finish is part of the event that makes it due, so that this command of the table finds a
RESTART to finish only in a state that no event has left so: what it does there is the model's choice (log entry 29). -/
def Obligations.RestartFinishEmptiesTables : Prop :=
  (∀ s : State, s.writesInFlight = true ∨ s.restart = none → exec .restartFinish s = .next s.beginStep) ∧
  ∀ (s : State) (h : RestartHold), s.restart = some h → s.store.sweep = none → s.writesInFlight = false →
    gives (exec .restartFinish s) fun t =>
      s.RestartFinished t h s.intake.reserveCause ∧ t.store = { s.store with poolOut := s.store.retired } ∧
      s.FlagFollows t s.intake.queue.length (s.tileCount - s.retiredCount) ∧
      t.repair = { s.repair with queue := [] } ∧ t.screener = s.screener ∧ t.drive = s.beginStep.drive ∧
      t.prefetch = s.prefetch ∧ t.schedule = s.schedule ∧ t.intake.queue = s.intake.queue ∧
      t.intake.slots = s.intake.slots ∧ t.intake.flow = s.intake.flow ∧ t.framer = s.framer

/-! ## Prefetch and the Screener (R79 to R108) -/

/-- A line that can be made joins the tail of the pool, and the next plate line is one on. Of a margin line every dot is off,
no row is made and no count moves. An image line is that of the rows of the slots whose height exceeds its page line j: in
the LINE row a marked row of a fill capture, and at or beyond a cut or a stream's end, and otherwise the row's bytes; in the
PICTURE row the held contone row of a fill capture and at or beyond a cut, a copy of the last row the stream produced at or
after its end, and otherwise the row's bytes, which are then the held row; such a slot's cursor is past j, and where it
enters a band the band is captured as its layers stand. An unpack fault counts and latches UNPACK_FAULT, a capture's first
one makes it faulted, and the plate summary takes the captures that become faulted or marked and the fill captures (R80 to
R88, R92 to R94). Every dot of the gutter and beyond the content is off; the prime test follows (R98 to R100, R152). Page
records, tiles and the DRAM do not change. The model's choices: the events of Prefetch make
every line they can themselves, so that this command finds one only in a state that they have not left so (log entry 18); a
row that holds up the next line is completed ahead of it (log entry 15), and one that waits takes every byte at hand (log
entry 40); a stream that ends within an overrun literal has
ended after its row (log entry 16); and the counts of the summary go on past 192 (log entry 39). -/
def Obligations.MakeLineFillsPool : Prop :=
  ∀ (s : State) (pl : Plate) (j : PrefetchJob), s.drive.plate = some pl → s.prefetch.job = some j →
    s.canMakeLine = true →
    gives (exec .makeLine s) fun t =>
      ∃ (line : Line) (j' : PrefetchJob) (sm : Summary),
        t.drive.pool = s.drive.pool ++ [line] ∧ line.length = pl.headWidth ∧
        t.drive.plate = some { pl with summary := sm } ∧ t.prefetch.job = some j' ∧
        j' = { j with nextLine := j.nextLine + 1, left := j'.left, right := j'.right } ∧
        (j.nextLine < pl.margin → (∀ x, line.getD x false = false) ∧ sm = pl.summary ∧
          t.reports = s.beginStep.reports ∧ j.left.GoesOn j'.left ∧ (j.right = none → j'.right = none) ∧
          ∀ ps, j.right = some ps → ∃ ps', j'.right = some ps' ∧ ps.GoesOn ps') ∧
        (pl.margin ≤ j.nextLine → ∃ gl gr : SlotGives,
          s.MakesRows pl.ink (j.nextLine - pl.margin) j.left j'.left gl ∧
          (j.right = none → j'.right = none ∧ gr = ⟨none, 0, 0, 0, 0⟩) ∧
          (∀ ps, j.right = some ps → ∃ ps', j'.right = some ps' ∧
            s.MakesRows pl.ink (j.nextLine - pl.margin) ps ps' gr) ∧
          line = imageLine pl (s.screener.screenTable pl.settings.screen) (s.screener.curveTable pl.settings.curve)
            gl.rows gr.rows j.nextLine ∧
          sm = { pl.summary with
            lineMarked := pl.summary.lineMarked + gl.lineMarked + gr.lineMarked
            pictureHeld := pl.summary.pictureHeld + gl.pictureHeld + gr.pictureHeld
            unpackFaults := pl.summary.unpackFaults + gl.newlyFaulted + gr.newlyFaulted } ∧
          (gl.faults + gr.faults = 0 → t.reports = s.beginStep.reports) ∧
          (0 < gl.faults + gr.faults → t.reports.latched .unpackFault = true ∧
            t.reports.counters.unpackFaults
              = min 65535 (s.reports.counters.unpackFaults + (gl.faults + gr.faults)))) ∧
        s.reports.touches t.reports [.unpackFaults] [.unpackFault] ∧
        (∀ x, pl.left.width ≤ x → x < pl.left.width + pl.gutter → line.getD x false = false) ∧
        (∀ x, contentWidth pl.left.width pl.gutter (pl.right.map (·.width)) ≤ x → line.getD x false = false) ∧
        t.drive.state = (if s.drive.state = .priming ∧
            (s.drive.settings.prime ≤ t.drive.pool.length ∨ pl.lineCount ≤ j.nextLine + 1) then .imaging
          else s.drive.state) ∧
        t.pages = s.pages ∧ t.store = s.store ∧ t.schedule = s.schedule ∧ t.screener = s.screener ∧
        t.intake = s.intake

/-- The first stream that may issues its next read: of the tile at hand, the consecutive slots that follow the last one
issued, as many as the least of the slots left in the tile, those left in the stream and the free room of its buffer; an
idle store serves it (R55, R90). That a step issues one read is the model's choice (log entry 14), and so is the room that a
row that waits leaves (log entry 40). -/
def Obligations.PrefetchIssuesRead : Prop :=
  ∀ (s : State) (side : Side) (kind : LayerKind) (c : Capture) (u : Stream),
    s.issuingStream = some (side, kind) → s.captureOf side kind = some c → c.stream? = some u →
    s.store.inService = none → s.store.readSide = [] → s.store.writeSide = [] →
    let r := u.nextRead side kind c.serial
    let count := min (min (16 - u.issued % 16) ((u.length + 255) / 256 - u.issued)) u.room
    r.tile ∉ s.store.retired →
    gives (exec .prefetchReadIssue s) fun t =>
      t.store = { s.store with inService := some (.read r), lastSide := .read } ∧
      r.requester = .prefetch side kind c.serial ∧ r.mapSlot = u.issued / 16 ∧
      r.tile = u.tiles.getD (u.issued / 16) 0 ∧
      r.slots = (List.range count).map (fun i => u.issued % 16 + i) ∧ r.slots.length = count ∧
      0 < r.slots.length ∧ r.slots.length ≤ u.room ∧ (∀ k ∈ r.slots, k < 16) ∧
      u.issued + r.slots.length ≤ u.slotCount ∧
      t.captureOf side kind = some (c.withStream { u with issued := u.issued + r.slots.length }) ∧
      t.drive = s.beginStep.drive ∧ t.pages = s.pages ∧ t.schedule = s.schedule ∧ t.reports = s.beginStep.reports

/-- A code byte `c` with its operand bytes `args`, and what it places in the row (R80): a literal its `c + 1` bytes as they
stand, a run its byte `c − 125` times, a vertical copy the bytes of the previous row at the positions they are placed at, and
a row fill its byte in every position up to the row end. `size` is the output's size, counted past the row end. -/
def codeOutput (width : Nat) (previous placed : List Byte) (c : Byte) (args : List Byte) (size : Nat)
    (chunk : List Byte) : Prop :=
  (c.toNat < 128 ∧ args.length = c.toNat + 1 ∧ size = c.toNat + 1 ∧ chunk = args) ∨
  (∃ v, 128 ≤ c.toNat ∧ c.toNat < 254 ∧ args = [v] ∧ size = c.toNat - 125 ∧ chunk = List.replicate size v) ∨
  (∃ n, c.toNat = 254 ∧ args = [n] ∧ size = n.toNat + 1 ∧ chunk = (previous.drop placed.length).take size) ∨
  (∃ v, c.toNat = 255 ∧ args = [v] ∧ size = width - placed.length ∧ chunk = List.replicate size v)

/-- A row that the unpacker completes has exactly the row width, whatever the codes, and the bytes it has taken are the
first of those it was given. It goes on from a row not yet full, or from a full one whose overrun literal has operand bytes
left to consume. A code places its output at the fill point of a row; the row goes on where that stays short of the row
end, and is complete otherwise, cut at the row end, with an overrun where the output reaches past it; all operand bytes of
the code are consumed either way (R80, R81). -/
def Obligations.CompleteRowHasRowWidth : Prop :=
  (∀ (width : Nat) (previous bytes row rest : List Byte) (r : RowState) (overrun : Bool),
    previous.length = width →
    (r.placed.length < width ∧ ∀ k, r.op ≠ .skip k) ∨ (r.placed.length = width ∧ ∃ k, r.op = .skip k) →
    eatBytes width previous r bytes = .complete row overrun rest →
    row.length = width ∧ rest.length < bytes.length ∧ ∃ used, bytes = used ++ rest) ∧
  ∀ (width : Nat) (previous placed args chunk rest : List Byte) (c : Byte) (size : Nat),
    previous.length = width → placed.length < width → codeOutput width previous placed c args size chunk →
    (placed.length + size < width →
      eatBytes width previous ⟨placed, .code⟩ (c :: args ++ rest)
        = eatBytes width previous ⟨placed ++ chunk, .code⟩ rest) ∧
    (width ≤ placed.length + size →
      eatBytes width previous ⟨placed, .code⟩ (c :: args ++ rest)
        = .complete ((placed ++ chunk).take width) (decide (width < placed.length + size)) rest)

/-- The value of one dot. Its contone value picks an entry of the curve; a tone of 0 and of 255 stands, and any other is held
within the floor and the ceiling; the screened dot is on where that toned value is at or above the threshold, the entry at
row y mod H and column (x + (y div H) × Sh) mod W of the screen (R101 to R105). So 0 screens off and 255 on at every position
of a screen whose entries lie in 1..255. The output dot is on where its line-work bit or its screened dot is: the bit of the
LINE row, its byte's most significant bit first, or on a marked row the stripe (x + y) mod 64 < 8 (R106, R107). A dot of the
left page takes the page column x, and one of the right page the column behind the left page and the gutter (R98, R99). -/
def Obligations.ExtremeTonesIgnoreScreen : Prop :=
  ∀ (t : ScreenTable) (curve : List Byte) (floor ceiling : Nat) (rows : SlotRows) (px x y : Nat),
    let v := (curve.getD (rows.picture.getD (px / 4) 0).toNat 0).toNat
    let entry := (t.entries.getD (y % t.h * t.w + (x + y / t.h * t.sh) % t.w) 0).toNat
    let screened := screenedDot t curve floor ceiling rows.picture px x y
    let dot := pageDot t curve floor ceiling rows px x y
    (0 < t.w → 0 < t.h → t.entries.length = t.w * t.h → (∀ b ∈ t.entries, b ≠ 0) →
      (v = 0 → screened = false) ∧ (v = 255 → screened = true)) ∧
    (v = 0 ∨ v = 255 → (screened = true ↔ entry ≤ v)) ∧
    (1 ≤ v → v ≤ 254 → v < floor → (screened = true ↔ entry ≤ floor)) ∧
    (1 ≤ v → v ≤ 254 → floor ≤ v → ceiling < v → (screened = true ↔ entry ≤ ceiling)) ∧
    (1 ≤ v → v ≤ 254 → floor ≤ v → v ≤ ceiling → (screened = true ↔ entry ≤ v)) ∧
    (∀ b, rows.line = .bytes b →
      (dot = true ↔ (b.getD (px / 8) 0).getLsbD (7 - px % 8) = true ∨ screened = true)) ∧
    (rows.line = .marked → (dot = true ↔ (x + y) % 64 < 8 ∨ screened = true)) ∧
    ∀ (pl : Plate) (other : Option SlotRows), x < pl.headWidth → pl.settings.floor = floor →
      pl.settings.ceiling = ceiling →
      (x < pl.left.width → px = x → (imageLine pl t curve (some rows) other y).getD x false = dot) ∧
      (∀ page, pl.right = some page → x = pl.left.width + pl.gutter + px → px < page.width →
        (imageLine pl t curve other (some rows) y).getD x false = dot)

/-! ## The head drive (R147 to R161) -/

/-- A rise of PLATE_READY in WAIT_PLATE captures the plate context of the eligible ticket: the ticket becomes IMAGING, the
context takes the ticket's fields, its pages as their records stand, the ink record and the head line width; L is the margin
and the greater of the heights; CLIPPED is set where the content is wider than the head (R97, R98, R100, R137, R150).
Nothing is requested or sent. Prefetch starts: cursors at 0, held contone rows of zeros, band 0 of each slot captured as its
layers stand, a WHOLE or REPAIRED layer with its length and its tiles, to be read, and any other as a fill capture, which
counts in the plate summary (R85, R87, R94). Prefetch makes the lines it can at the same event. They need no read: a margin
line has every dot off, and an image line is made of marked LINE rows and held contone rows of zeros (R86, R88). With as
many lines as the prime level, or all of them, the drive enters IMAGING, EXPOSE rises and the stall timer starts; otherwise
it is PRIMING (R147, R152). The capture is the same at an event of another command that offers the drive, in IDLE or
WAIT_PLATE with PLATE_READY high, an eligible ticket of which the conditions of R133 hold (R148, R150): the offer is so stated
of the state that the event has reached. Whatever the command, a plate that comes into context at its event is that of an
IMAGING ticket of the schedule, with PLATE_READY high and the context that R150 gives, no RESTART being held. -/
def Obligations.PlateReadyRiseCapturesPlate : Prop :=
  (∀ (s : State) (x : Ticket) (b : InkBinding) (a : Resolution) (l : PageRecord), s.drive.state = .waitPlate →
    s.drive.plateReady = false → s.eligible = some x → s.screener.inks.get x.ink = some b → x.leftRes = some a →
    s.page? a.record = some l →
    (x.right.isSome = true → ∃ c r, x.rightRes = some c ∧ s.page? c.record = some r) →
    gives (exec .plateReadyRise s) fun t =>
      t.PlateCaptured x ∧ t.drive.plateReady = true ∧ t.drive.settings = s.drive.settings ∧
      t.schedule = (s.schedule.map fun y => if y.tag == x.tag then { y with state := .imaging } else y) ∧
      t.pages = s.pages ∧ t.store = s.store ∧ t.screener = s.screener ∧ t.reports = s.beginStep.reports) ∧
  (∀ (s : State) (x : Ticket), s.Open → s.drive.plateReady = true →
    IsEligible s.drive.settings.mode s.schedule x → s.MeetsArming x →
      s.offer.PlateCaptured x ∧ s.offer.drive.plateReady = true ∧ s.offer.drive.settings = s.drive.settings ∧
      s.offer.schedule = (s.schedule.map fun y => if y.tag == x.tag then { y with state := .imaging } else y) ∧
      s.offer.pages = s.pages ∧ s.offer.store = s.store ∧ s.offer.screener = s.screener ∧
      s.offer.reports = s.reports) ∧
  ∀ (c : Instr) (s t : State), s.restart = none → s.drive.state.inContext = false → exec c s = .next t →
    t.drive.state.inContext = true → t.drive.plateReady = true ∧
      ∃ x q, x ∈ t.schedule ∧ x.state = .imaging ∧ t.drive.plate = some q ∧ t.ContextOf x q

/-- A fall of PLATE_READY spoils a plate in context with the reason PLATE_LOST: the ticket leaves the schedule with its
PLATE report, PLATE_SPOILED is latched, plates_spoiled counts once, no PLATE_END is strobed and no plate is left; the drive
is IDLE, or WAIT_PLATE with an eligible ticket. In UNLOADING it leads to IDLE or WAIT_PLATE; in IDLE, WAIT_PLATE and
HALTED only the level changes (R142 to R144, R149, R156, R157). -/
def Obligations.PlateReadyFallEndsPlate : Prop :=
  ∀ s : State, s.drive.plateReady = true →
    gives (exec .plateReadyFall s) fun t =>
      t.drive.plateReady = false ∧
      (s.drive.state.inContext = true → t.drive.plate = none ∧ t.drive.pool = [] ∧ t.drive.stall = none ∧
        t.prefetch.job = none ∧ t.drive.state = (if t.eligible.isSome then .waitPlate else .idle) ∧
        (∀ pl x, s.drive.plate = some pl → s.ticket? pl.tag = some x →
          t.schedule = (s.schedule.filter fun y => !(y.tag == pl.tag)) ∧
          s.reportsFirst t (x.plateReport (.spoiled .plateLost) pl.sent pl.summary) ∧
          t.reports.latched .plateSpoiled = true ∧ s.reports.countsOnce t.reports .platesSpoiled ∧
          s.reports.touches t.reports [.platesSpoiled] [.plateSpoiled])) ∧
      (s.drive.state = .unloading → t.drive.state = (if s.eligible.isSome then .waitPlate else .idle) ∧
        t.schedule = s.schedule ∧ t.pages = s.pages ∧ t.reports = s.beginStep.reports) ∧
      (s.drive.state = .idle ∨ s.drive.state = .waitPlate ∨ s.drive.state = .halted →
        t = { s.beginStep with drive := { s.beginStep.drive with plateReady := false } }) ∧
      t.drive.plateEnd = false ∧ t.store = s.store ∧ t.screener = s.screener

/-- A line request in IMAGING with no transfer and a line in the pool starts its transfer: the dot lanes carry the line,
the stall timer restarts or, at the last line, stops, and Prefetch makes the lines it can into the room. In PRIMING it
counts in early_line_requests and is ignored; in any state without a plate it is ignored (R86, R147, R152, R153, R155). -/
def Obligations.LineRequestStartsTransfer : Prop :=
  ∀ s : State,
    (∀ pl j line rest, s.drive.state = .imaging → s.drive.plate = some pl → s.prefetch.job = some j →
      pl.transfer = none → s.drive.pool = line :: rest → rest.length < 64 →
      gives (exec .lineReq s) fun t => ∃ lines sm,
        t.drive = { s.beginStep.drive with
          pool := rest ++ lines
          plate := some { pl with transfer := some line, requested := pl.requested + 1, summary := sm }
          stall := if pl.requested + 1 < pl.lineCount then some s.drive.settings.stallMs else none } ∧
        t.drive.dotLanes = some line ∧ rest.length + lines.length ≤ 64 ∧
        (∀ l ∈ lines, l.length = pl.headWidth) ∧
        (∃ j', t.prefetch.job = some j' ∧ j'.nextLine = j.nextLine + lines.length) ∧ t.canMakeLine = false ∧
        s.reports.touches t.reports [.unpackFaults] [.unpackFault] ∧
        t.pages = s.pages ∧ t.store = s.store ∧ t.schedule = s.schedule ∧ t.screener = s.screener ∧
        t.intake = s.intake) ∧
    (s.drive.state = .priming → gives (exec .lineReq s) fun t =>
      t = { s.beginStep with reports := t.reports } ∧ s.reports.countsOnce t.reports .earlyLineRequests ∧
      s.reports.touches t.reports [.earlyLineRequests] []) ∧
    (s.drive.state.inContext = false → exec .lineReq s = .next s.beginStep)

/-- A line request in IMAGING during a transfer spoils the plate with HEAD_PROTOCOL, one at an empty pool with UNDERRUN,
and the expiry of the running stall timer with HEAD_STALL: the ticket leaves the schedule with its PLATE report,
PLATE_SPOILED is latched, plates_spoiled counts once, and no PLATE_END is strobed (R142 to R144, R153, R155, R157). -/
def Obligations.SpoilingEventsEndPlate : Prop :=
  ∀ (s : State) (c : Instr) (pl : Plate) (x : Ticket) (reason : SpoilReason), s.drive.state = .imaging →
    s.drive.plate = some pl → s.ticket? pl.tag = some x → s.drive.plateReady = true →
    ((c = .lineReq ∧ pl.transfer.isSome = true ∧ reason = .headProtocol) ∨
      (c = .lineReq ∧ pl.transfer = none ∧ s.drive.pool = [] ∧ reason = .underrun) ∨
      (c = .stallTimerExpiry ∧ s.drive.stall.isSome = true ∧ reason = .headStall)) →
    gives (exec c s) fun t =>
      t.drive.state = .unloading ∧ t.drive.plate = none ∧ t.drive.pool = [] ∧ t.drive.stall = none ∧
      t.drive.plateEnd = false ∧ t.prefetch.job = none ∧
      t.schedule = (s.schedule.filter fun y => !(y.tag == pl.tag)) ∧
      s.reportsFirst t (x.plateReport (.spoiled reason) pl.sent pl.summary) ∧
      t.reports.latched .plateSpoiled = true ∧ s.reports.countsOnce t.reports .platesSpoiled ∧
      s.reports.touches t.reports [.platesSpoiled] [.plateSpoiled] ∧
      t.store = s.store ∧ t.screener = s.screener ∧ t.intake = s.intake

/-- The completion of a transfer counts a line sent; after the last line the plate is DONE: PLATE_END is strobed, the
ticket leaves with its PLATE report, plates_done counts once, and the drive is UNLOADING while the plate is mounted
(R142 to R144, R154). -/
def Obligations.TransferCompletionEndsPlate : Prop :=
  ∀ (s : State) (pl : Plate), s.drive.state = .imaging → s.drive.plate = some pl → pl.transfer.isSome = true →
    (pl.sent + 1 < pl.lineCount → exec .lineTransferCompletion s
      = .next { s.beginStep with drive := { s.beginStep.drive with
          plate := some { pl with transfer := none, sent := pl.sent + 1 } } }) ∧
    (∀ x, pl.lineCount ≤ pl.sent + 1 → s.ticket? pl.tag = some x → s.drive.plateReady = true →
      gives (exec .lineTransferCompletion s) fun t =>
        t.drive.plateEnd = true ∧ t.drive.state = .unloading ∧ t.drive.plate = none ∧ t.prefetch.job = none ∧
        t.schedule = (s.schedule.filter fun y => !(y.tag == pl.tag)) ∧
        s.reports.countsOnce t.reports .platesDone ∧ s.reports.touches t.reports [.platesDone] [] ∧
        s.reportsOnly t (x.plateReport .done (pl.sent + 1) pl.summary) ∧
        t.store = s.store ∧ t.screener = s.screener ∧ t.intake = s.intake)

/-- The halt-line discriminator, sample by sample: a low sample after four to six high ones, and the seventh high one, are
each a halt request, which latches HEAD_HALT and leaves the drive HALTED with no plate; the seventh also latches
HALT_LINE_STUCK. A plate that was in context is spoiled with the reason HALTED: its ticket leaves the schedule with its
PLATE report, behind the ALARM reports of the latchings, PLATE_SPOILED is latched and plates_spoiled counts once. Every
other sample only moves the run count and the stuck indicator (R142 to R144, R157, R159, R160). Which row is which sample
is the model's choice (log entry 5). -/
def Obligations.HaltSamples : Prop :=
  ∀ (s : State), s.drive.haltRun ≤ 7 →
    let halted := fun t : State =>
      t.drive.state = .halted ∧ t.drive.selected = none ∧ t.reports.latched .headHalt = true ∧
      (s.drive.state.inContext = true → t.drive.plate = none ∧ t.drive.pool = [] ∧ t.drive.stall = none ∧
        t.prefetch.job = none ∧ t.drive.plateEnd = false ∧
        ∀ pl x, s.drive.plate = some pl → s.ticket? pl.tag = some x →
          t.schedule = (s.schedule.filter fun y => !(y.tag == pl.tag)) ∧
          t.reports.latched .plateSpoiled = true ∧ s.reports.countsOnce t.reports .platesSpoiled ∧
          (s.reports.sending.isSome = true → s.reports.queue.length + 2 < 32 → ∃ before after,
            t.reports.queue
              = s.reports.queue ++ before ++ x.plateReport (.spoiled .halted) pl.sent pl.summary :: after ∧
            before.length ≤ 2 ∧ ∀ r ∈ before, r.isAlarm = true)) ∧
      (s.drive.state.inContext = false → t.schedule = s.schedule ∧ t.pages = s.pages) ∧
      t.store = s.store ∧ t.screener = s.screener ∧ t.intake = s.intake
    (4 ≤ s.drive.haltRun → s.drive.haltRun ≤ 6 → gives (exec .haltRequest s) fun t =>
      t.drive.haltRun = 0 ∧ t.drive.stuck = s.drive.stuck ∧ halted t) ∧
    (s.drive.haltRun = 6 → gives (exec .haltLineStuck s) fun t =>
      t.drive.haltRun = 7 ∧ t.drive.stuck = true ∧ t.reports.latched .haltLineStuck = true ∧ halted t) ∧
    (s.drive.haltRun ≠ 6 → exec (.haltLineSample true) s = .next { s.beginStep with
      drive := { s.beginStep.drive with haltRun := min 7 (s.drive.haltRun + 1), lastSample := true } }) ∧
    (s.drive.haltRun < 4 ∨ s.drive.haltRun = 7 → exec (.haltLineSample false) s = .next { s.beginStep with
      drive := { s.beginStep.drive with
        haltRun := 0, lastSample := false, stuck := (if s.drive.haltRun = 7 then false else s.drive.stuck) } })

/-! ## The return lane and the alarms (R172 to R180) -/

/-- The end of a report parcel: the flow symbol goes out if the flag differs from the last one sent, and then the head
report leaves the queue and its sending begins (R40, R173). A cause may latch at the same event as that freeing of a place.
Where no cause is taken first, the place is taken, at the same event, by an ALARM report that is owed, with the latches and
the mask as they stand, if any unmasked latch is set, and the indicator becomes no either way. Where a cause is taken first,
its own ALARM report takes the freed place and the indicator stays yes until the next place frees. With no report waiting no
place frees, and the indicator stays (R178). That the cause is the next command, so that the symbol goes by the flag as it
stands ahead of the cause, is the model's choice (log entry 19). -/
def Obligations.ParcelEndBeginsNext : Prop :=
  ∀ (s : State) (x : Report) (causeFirst : Bool), s.reports.sending = some x →
    gives (exec (.reportParcelEnd causeFirst) s) fun t =>
      t = { s.beginStep with reports := t.reports } ∧
      t.reports.lastSymbol = some (if s.intake.holding then .hold else .resume) ∧
      t.reports.sending = s.reports.queue.head? ∧
      t.reports.sent =
        (if s.reports.lastSymbol = t.reports.lastSymbol then []
          else [.symbol (if s.intake.holding then .hold else .resume)])
        ++ (s.reports.queue.head?.map fun r => LaneItem.parcel (r.parcel s.straps.crcInit)).toList ∧
      t.reports.latches = s.reports.latches ∧ t.reports.mask = s.reports.mask ∧
      t.reports.counters = s.reports.counters ∧
      (s.reports.queue = [] → t.reports.queue = [] ∧ t.reports.owed = s.reports.owed) ∧
      (∀ r rest, s.reports.queue = r :: rest →
        (causeFirst = false → t.reports.owed = false ∧
          (s.reports.owed = false → t.reports.queue = rest) ∧
          ((∀ a : Alarm, s.reports.latched a = true → s.reports.masked a = true) → t.reports.queue = rest) ∧
          (s.reports.owed = true → (∃ a : Alarm, s.reports.latched a = true ∧ s.reports.masked a = false) →
            t.reports.queue = rest ++ [.alarm s.reports.latches s.reports.mask])) ∧
        (causeFirst = true → t.reports.owed = s.reports.owed ∧ t.reports.queue = rest ∧
          ∀ a : Alarm, s.reports.latched a = false → s.reports.masked a = false → s.reports.awaitStarted = false →
            s.reports.queue.length ≤ 32 →
            (t.latch a).reports.queue = rest ++ [.alarm (t.latch a).reports.latches s.reports.mask] ∧
            (t.latch a).reports.latched a = true ∧ (t.latch a).reports.owed = s.reports.owed))

/-- As a command of its own, the owed ALARM report joins the tail where a place is free and an unmasked latch is set, with
the latches and the mask as they stand; with no unmasked latch set nothing is queued; the indicator becomes no either way.
Where nothing is owed, no place is free or a STARTED report is awaited, nothing changes (R177, R178). The command finds a
report owed and a place free where a parcel's end has left the place to a cause and no report has taken it, as
ParcelEndBeginsNext says, which is the model's choice (log entry 19). -/
def Obligations.OwedAlarmReportJoins : Prop :=
  ∀ s : State,
    (s.reports.owed = false ∨ 32 ≤ s.reports.queue.length ∨ s.reports.awaitStarted = true →
      exec .owedAlarmReport s = .next s.beginStep) ∧
    (s.reports.owed = true → s.reports.queue.length < 32 → s.reports.awaitStarted = false →
      s.reports.sending.isSome = true →
      ((∃ a : Alarm, s.reports.latched a = true ∧ s.reports.masked a = false) →
        exec .owedAlarmReport s = .next { s.beginStep with reports := { s.beginStep.reports with
          owed := false, queue := s.reports.queue ++ [.alarm s.reports.latches s.reports.mask] } }) ∧
      ((∀ a : Alarm, s.reports.latched a = true → s.reports.masked a = true) →
        exec .owedAlarmReport s = .next { s.beginStep with reports := { s.beginStep.reports with owed := false } }))

/-- A report queued at a full queue is dropped: the queue stays as it is, reports_lost counts once and REPORTS_LOST is
latched. An ALARM report is then owed; a report of another kind makes one owed where REPORTS_LOST was neither set nor
masked, and otherwise leaves the indicator as it was (R172, R178). A latching of an alarm whose latch is set does nothing;
of a masked one with its latch clear it sets the latch and queues nothing; of an unmasked one it also queues one ALARM
report, with the latched set after it and the mask, which is dropped and owed where the queue is full. Until the STARTED
report of a power-on or pin reset has been queued it is owed instead (R177). -/
def Obligations.FullQueueDropsReport : Prop :=
  (∀ (s : State) (r : Report), 32 ≤ s.reports.queue.length →
    (s.report r).reports.queue = s.reports.queue ∧ (s.report r).reports.sending = s.reports.sending ∧
    s.reports.countsOnce (s.report r).reports .reportsLost ∧ (s.report r).reports.latched .reportsLost = true ∧
    s.reports.touches (s.report r).reports [] [] ∧
    ((s.report r).reports.owed = true ↔ s.reports.owed = true ∨ r.isAlarm = true ∨
      (s.reports.latched .reportsLost = false ∧ s.reports.masked .reportsLost = false))) ∧
  ∀ (s : State) (a : Alarm),
    (s.reports.latched a = true → s.latch a = s) ∧
    (s.reports.latched a = false → ∀ set : BitVec 14,
      (∀ b : Alarm, set.getLsbD b.index = true ↔ s.reports.latched b = true ∨ b = a) →
      (s.reports.masked a = true → s.latch a = { s with reports := { s.reports with latches := set } }) ∧
      (s.reports.masked a = false → s.reports.awaitStarted = true →
        s.latch a = { s with reports := { s.reports with latches := set, owed := true } }) ∧
      (s.reports.masked a = false → s.reports.awaitStarted = false → s.reports.queue.length < 32 →
        s.latch a = { s with reports := { s.reports with
          latches := set, queue := s.reports.queue ++ [.alarm set s.reports.mask] } }) ∧
      (s.reports.masked a = false → s.reports.awaitStarted = false → 32 ≤ s.reports.queue.length →
        s.latch a = { s with reports := (s.latch a).reports } ∧
        (s.latch a).reports.queue = s.reports.queue ∧ (s.latch a).reports.latched a = true ∧
        (s.latch a).reports.latched .reportsLost = true ∧ (s.latch a).reports.owed = true ∧
        s.reports.countsOnce (s.latch a).reports .reportsLost ∧ s.reports.touches (s.latch a).reports [] [a]))

/-! ## Invariants that every step keeps -/

/-- Every step keeps every queue, list and table within its room, and every counter within 0..65535. -/
def Obligations.StepsKeepCapacities : Prop := StepKeeps State.Bounded

/-- Every step keeps the store's data well formed: every tile stands in exactly one of the free pool, the retired set and
one tile-map slot of one layer record (R44); the pool and the retired set hold no duplicates, and the DRAM is in its
canonical form (R45, R52); a page's layer records are those of distinct layers, and EMPTY or FILLING while it is OPEN (R7,
R8, R9). -/
def Obligations.StepsKeepStore : Prop := StepKeeps State.StoreWf

/-- Every step keeps the schedule, the drive and the page table in agreement: the plate context, Prefetch's work, the pool,
the transfer, the stall timer and the selection stand as the drive state has them; tags are distinct; the one IMAGING
ticket is that of the plate in context; every use count is the number of bindings that name the record, which is then
neither EMPTY nor RELEASING; and the schedule is empty while a RESTART is held (R4, R127, R137, R147, R148, R151, R170). -/
def Obligations.StepsKeepSchedule : Prop := StepKeeps State.ScheduleWf

/-- The state right after reset has the three invariants (R57, R164, R181). The straps and the level of PLATE_READY in it
are the model's choice (log entry 1). -/
def Obligations.ResetHasInvariants : Prop :=
  State.reset.Bounded ∧ State.reset.StoreWf ∧ State.reset.ScheduleWf
end

