-- ==== Sys2Proof/Laws/State.lean ====
section
/-! SUPPORT. What the plain updates of the state leave as it was: one lemma for each update, true by `rfl`. -/

namespace Sys2Proof.Machine

open Sys2Proof (Byte)

/-- The beginning of a step clears only the record of what the outputs did. -/
@[simp] theorem State.beginStep_same (s : State) :
    (s.beginStep).pending = s.pending ∧ (s.beginStep).straps = s.straps ∧ (s.beginStep).framer = s.framer ∧
    (s.beginStep).intake = s.intake ∧ (s.beginStep).pages = s.pages ∧ (s.beginStep).store = s.store ∧
    (s.beginStep).repair = s.repair ∧ (s.beginStep).prefetch = s.prefetch ∧ (s.beginStep).screener = s.screener ∧
    (s.beginStep).schedule = s.schedule ∧ (s.beginStep).restart = s.restart ∧ (s.beginStep).freeIndex = s.freeIndex :=
  ⟨rfl, rfl, rfl, rfl, rfl, rfl, rfl, rfl, rfl, rfl, rfl, rfl⟩

/-- Queuing a report changes the report unit only. -/
@[simp] theorem State.report_same (s : State) (x : Report) :
    (s.report x).pending = s.pending ∧ (s.report x).straps = s.straps ∧ (s.report x).framer = s.framer ∧
    (s.report x).intake = s.intake ∧ (s.report x).pages = s.pages ∧ (s.report x).store = s.store ∧
    (s.report x).repair = s.repair ∧ (s.report x).prefetch = s.prefetch ∧ (s.report x).screener = s.screener ∧
    (s.report x).schedule = s.schedule ∧ (s.report x).drive = s.drive ∧ (s.report x).restart = s.restart ∧
    (s.report x).freeIndex = s.freeIndex :=
  ⟨rfl, rfl, rfl, rfl, rfl, rfl, rfl, rfl, rfl, rfl, rfl, rfl, rfl⟩

/-- Latching an alarm changes the report unit only. -/
@[simp] theorem State.latch_same (s : State) (a : Alarm) :
    (s.latch a).pending = s.pending ∧ (s.latch a).straps = s.straps ∧ (s.latch a).framer = s.framer ∧
    (s.latch a).intake = s.intake ∧ (s.latch a).pages = s.pages ∧ (s.latch a).store = s.store ∧
    (s.latch a).repair = s.repair ∧ (s.latch a).prefetch = s.prefetch ∧ (s.latch a).screener = s.screener ∧
    (s.latch a).schedule = s.schedule ∧ (s.latch a).drive = s.drive ∧ (s.latch a).restart = s.restart ∧
    (s.latch a).freeIndex = s.freeIndex :=
  ⟨rfl, rfl, rfl, rfl, rfl, rfl, rfl, rfl, rfl, rfl, rfl, rfl, rfl⟩

/-- A count changes the report unit only. -/
@[simp] theorem State.count_same (s : State) (c : Counter) (n : Nat) :
    (s.count c n).pending = s.pending ∧ (s.count c n).straps = s.straps ∧ (s.count c n).framer = s.framer ∧
    (s.count c n).intake = s.intake ∧ (s.count c n).pages = s.pages ∧ (s.count c n).store = s.store ∧
    (s.count c n).repair = s.repair ∧ (s.count c n).prefetch = s.prefetch ∧ (s.count c n).screener = s.screener ∧
    (s.count c n).schedule = s.schedule ∧ (s.count c n).drive = s.drive ∧ (s.count c n).restart = s.restart ∧
    (s.count c n).freeIndex = s.freeIndex :=
  ⟨rfl, rfl, rfl, rfl, rfl, rfl, rfl, rfl, rfl, rfl, rfl, rfl, rfl⟩

/-- The owed ALARM report changes the report unit only. -/
@[simp] theorem State.queueOwed_same (s : State) :
    (s.queueOwed).pending = s.pending ∧ (s.queueOwed).straps = s.straps ∧ (s.queueOwed).framer = s.framer ∧
    (s.queueOwed).intake = s.intake ∧ (s.queueOwed).pages = s.pages ∧ (s.queueOwed).store = s.store ∧
    (s.queueOwed).repair = s.repair ∧ (s.queueOwed).prefetch = s.prefetch ∧ (s.queueOwed).screener = s.screener ∧
    (s.queueOwed).schedule = s.schedule ∧ (s.queueOwed).drive = s.drive ∧ (s.queueOwed).restart = s.restart ∧
    (s.queueOwed).freeIndex = s.freeIndex :=
  ⟨rfl, rfl, rfl, rfl, rfl, rfl, rfl, rfl, rfl, rfl, rfl, rfl, rfl⟩

/-- The next report of the return lane changes the report unit only. -/
@[simp] theorem State.sendNext_same (s : State) :
    (s.sendNext).pending = s.pending ∧ (s.sendNext).straps = s.straps ∧ (s.sendNext).framer = s.framer ∧
    (s.sendNext).intake = s.intake ∧ (s.sendNext).pages = s.pages ∧ (s.sendNext).store = s.store ∧
    (s.sendNext).repair = s.repair ∧ (s.sendNext).prefetch = s.prefetch ∧ (s.sendNext).screener = s.screener ∧
    (s.sendNext).schedule = s.schedule ∧ (s.sendNext).drive = s.drive ∧ (s.sendNext).restart = s.restart ∧
    (s.sendNext).freeIndex = s.freeIndex :=
  ⟨rfl, rfl, rfl, rfl, rfl, rfl, rfl, rfl, rfl, rfl, rfl, rfl, rfl⟩

/-- A boundary of the return lane changes the report unit only. -/
@[simp] theorem State.boundary_same (s : State) :
    (s.boundary).pending = s.pending ∧ (s.boundary).straps = s.straps ∧ (s.boundary).framer = s.framer ∧
    (s.boundary).intake = s.intake ∧ (s.boundary).pages = s.pages ∧ (s.boundary).store = s.store ∧
    (s.boundary).repair = s.repair ∧ (s.boundary).prefetch = s.prefetch ∧ (s.boundary).screener = s.screener ∧
    (s.boundary).schedule = s.schedule ∧ (s.boundary).drive = s.drive ∧ (s.boundary).restart = s.restart ∧
    (s.boundary).freeIndex = s.freeIndex :=
  ⟨rfl, rfl, rfl, rfl, rfl, rfl, rfl, rfl, rfl, rfl, rfl, rfl, rfl⟩

/-- Replacing a record changes the page table only. -/
@[simp] theorem State.setPage_same (s : State) (r : Nat) (p : Option PageRecord) :
    (s.setPage r p).pending = s.pending ∧ (s.setPage r p).straps = s.straps ∧ (s.setPage r p).framer = s.framer ∧
    (s.setPage r p).intake = s.intake ∧ (s.setPage r p).store = s.store ∧ (s.setPage r p).repair = s.repair ∧
    (s.setPage r p).prefetch = s.prefetch ∧ (s.setPage r p).screener = s.screener ∧
    (s.setPage r p).schedule = s.schedule ∧ (s.setPage r p).drive = s.drive ∧ (s.setPage r p).restart = s.restart ∧
    (s.setPage r p).reports = s.reports ∧ (s.setPage r p).freeIndex = s.freeIndex :=
  ⟨rfl, rfl, rfl, rfl, rfl, rfl, rfl, rfl, rfl, rfl, rfl, rfl, rfl⟩

/-- The superseded indicators stand in the page table. -/
@[simp] theorem State.resupersede_same (s : State) (n : Nat) :
    (s.resupersede n).pending = s.pending ∧ (s.resupersede n).straps = s.straps ∧
    (s.resupersede n).framer = s.framer ∧ (s.resupersede n).intake = s.intake ∧ (s.resupersede n).store = s.store ∧
    (s.resupersede n).repair = s.repair ∧ (s.resupersede n).prefetch = s.prefetch ∧
    (s.resupersede n).screener = s.screener ∧ (s.resupersede n).schedule = s.schedule ∧
    (s.resupersede n).drive = s.drive ∧ (s.resupersede n).restart = s.restart ∧
    (s.resupersede n).reports = s.reports ∧ (s.resupersede n).freeIndex = s.freeIndex :=
  ⟨rfl, rfl, rfl, rfl, rfl, rfl, rfl, rfl, rfl, rfl, rfl, rfl, rfl⟩

/-- An allocation changes the store only. -/
@[simp] theorem State.takeFromPool_same (s : State) (t : Nat) :
    (s.takeFromPool t).pending = s.pending ∧ (s.takeFromPool t).straps = s.straps ∧
    (s.takeFromPool t).framer = s.framer ∧ (s.takeFromPool t).intake = s.intake ∧
    (s.takeFromPool t).pages = s.pages ∧ (s.takeFromPool t).repair = s.repair ∧
    (s.takeFromPool t).prefetch = s.prefetch ∧ (s.takeFromPool t).screener = s.screener ∧
    (s.takeFromPool t).schedule = s.schedule ∧ (s.takeFromPool t).drive = s.drive ∧
    (s.takeFromPool t).restart = s.restart ∧ (s.takeFromPool t).reports = s.reports ∧
    (s.takeFromPool t).freeIndex = s.freeIndex :=
  ⟨rfl, rfl, rfl, rfl, rfl, rfl, rfl, rfl, rfl, rfl, rfl, rfl, rfl⟩

/-- A return of tiles changes the store only. -/
@[simp] theorem State.giveToPool_same (s : State) (l : List Nat) :
    (s.giveToPool l).pending = s.pending ∧ (s.giveToPool l).straps = s.straps ∧ (s.giveToPool l).framer = s.framer ∧
    (s.giveToPool l).intake = s.intake ∧ (s.giveToPool l).pages = s.pages ∧ (s.giveToPool l).repair = s.repair ∧
    (s.giveToPool l).prefetch = s.prefetch ∧ (s.giveToPool l).screener = s.screener ∧
    (s.giveToPool l).schedule = s.schedule ∧ (s.giveToPool l).drive = s.drive ∧
    (s.giveToPool l).restart = s.restart ∧ (s.giveToPool l).reports = s.reports ∧
    (s.giveToPool l).freeIndex = s.freeIndex :=
  ⟨rfl, rfl, rfl, rfl, rfl, rfl, rfl, rfl, rfl, rfl, rfl, rfl, rfl⟩

/-- A write that is served changes the store only. -/
@[simp] theorem State.dramWrite_same (s : State) (w : StoreWrite) :
    (s.dramWrite w).pending = s.pending ∧ (s.dramWrite w).straps = s.straps ∧ (s.dramWrite w).framer = s.framer ∧
    (s.dramWrite w).intake = s.intake ∧ (s.dramWrite w).pages = s.pages ∧ (s.dramWrite w).repair = s.repair ∧
    (s.dramWrite w).prefetch = s.prefetch ∧ (s.dramWrite w).screener = s.screener ∧
    (s.dramWrite w).schedule = s.schedule ∧ (s.dramWrite w).drive = s.drive ∧ (s.dramWrite w).restart = s.restart ∧
    (s.dramWrite w).reports = s.reports ∧ (s.dramWrite w).freeIndex = s.freeIndex :=
  ⟨rfl, rfl, rfl, rfl, rfl, rfl, rfl, rfl, rfl, rfl, rfl, rfl, rfl⟩

/-- A write that joins the write side changes the store only. -/
@[simp] theorem State.queueWrite_same (s : State) (w : WriteRef) :
    (s.queueWrite w).pending = s.pending ∧ (s.queueWrite w).straps = s.straps ∧ (s.queueWrite w).framer = s.framer ∧
    (s.queueWrite w).intake = s.intake ∧ (s.queueWrite w).pages = s.pages ∧ (s.queueWrite w).repair = s.repair ∧
    (s.queueWrite w).prefetch = s.prefetch ∧ (s.queueWrite w).screener = s.screener ∧
    (s.queueWrite w).schedule = s.schedule ∧ (s.queueWrite w).drive = s.drive ∧
    (s.queueWrite w).restart = s.restart ∧ (s.queueWrite w).reports = s.reports ∧
    (s.queueWrite w).freeIndex = s.freeIndex :=
  ⟨rfl, rfl, rfl, rfl, rfl, rfl, rfl, rfl, rfl, rfl, rfl, rfl, rfl⟩

/-- A read that joins the read side changes the store only. -/
@[simp] theorem State.queueRead_same (s : State) (x : StoreRead) :
    (s.queueRead x).pending = s.pending ∧ (s.queueRead x).straps = s.straps ∧ (s.queueRead x).framer = s.framer ∧
    (s.queueRead x).intake = s.intake ∧ (s.queueRead x).pages = s.pages ∧ (s.queueRead x).repair = s.repair ∧
    (s.queueRead x).prefetch = s.prefetch ∧ (s.queueRead x).screener = s.screener ∧
    (s.queueRead x).schedule = s.schedule ∧ (s.queueRead x).drive = s.drive ∧ (s.queueRead x).restart = s.restart ∧
    (s.queueRead x).reports = s.reports ∧ (s.queueRead x).freeIndex = s.freeIndex :=
  ⟨rfl, rfl, rfl, rfl, rfl, rfl, rfl, rfl, rfl, rfl, rfl, rfl, rfl⟩

/-- A change of a ticket changes the schedule only. -/
@[simp] theorem State.modifyTicket_same (s : State) (n : Nat) (f : Ticket → Ticket) :
    (s.modifyTicket n f).pending = s.pending ∧ (s.modifyTicket n f).straps = s.straps ∧
    (s.modifyTicket n f).framer = s.framer ∧ (s.modifyTicket n f).intake = s.intake ∧
    (s.modifyTicket n f).pages = s.pages ∧ (s.modifyTicket n f).store = s.store ∧
    (s.modifyTicket n f).repair = s.repair ∧ (s.modifyTicket n f).prefetch = s.prefetch ∧
    (s.modifyTicket n f).screener = s.screener ∧ (s.modifyTicket n f).drive = s.drive ∧
    (s.modifyTicket n f).restart = s.restart ∧ (s.modifyTicket n f).reports = s.reports ∧
    (s.modifyTicket n f).freeIndex = s.freeIndex :=
  ⟨rfl, rfl, rfl, rfl, rfl, rfl, rfl, rfl, rfl, rfl, rfl, rfl, rfl⟩

/-- Taking a parcel changes Intake only. -/
@[simp] theorem State.popInlet_same (s : State) :
    (s.popInlet).pending = s.pending ∧ (s.popInlet).straps = s.straps ∧ (s.popInlet).framer = s.framer ∧
    (s.popInlet).pages = s.pages ∧ (s.popInlet).store = s.store ∧ (s.popInlet).repair = s.repair ∧
    (s.popInlet).prefetch = s.prefetch ∧ (s.popInlet).screener = s.screener ∧ (s.popInlet).schedule = s.schedule ∧
    (s.popInlet).drive = s.drive ∧ (s.popInlet).restart = s.restart ∧ (s.popInlet).reports = s.reports ∧
    (s.popInlet).freeIndex = s.freeIndex :=
  ⟨rfl, rfl, rfl, rfl, rfl, rfl, rfl, rfl, rfl, rfl, rfl, rfl, rfl⟩

/-- An abandonment changes Repair only. -/
@[simp] theorem State.abandonRepair_same (s : State) :
    (s.abandonRepair).pending = s.pending ∧ (s.abandonRepair).straps = s.straps ∧
    (s.abandonRepair).framer = s.framer ∧ (s.abandonRepair).intake = s.intake ∧ (s.abandonRepair).pages = s.pages ∧
    (s.abandonRepair).store = s.store ∧ (s.abandonRepair).prefetch = s.prefetch ∧
    (s.abandonRepair).screener = s.screener ∧ (s.abandonRepair).schedule = s.schedule ∧
    (s.abandonRepair).drive = s.drive ∧ (s.abandonRepair).restart = s.restart ∧
    (s.abandonRepair).reports = s.reports ∧ (s.abandonRepair).freeIndex = s.freeIndex :=
  ⟨rfl, rfl, rfl, rfl, rfl, rfl, rfl, rfl, rfl, rfl, rfl, rfl, rfl⟩

/-- A failed attempt changes Repair only. -/
@[simp] theorem State.repairFailed_same (s : State) :
    (s.repairFailed).pending = s.pending ∧ (s.repairFailed).straps = s.straps ∧ (s.repairFailed).framer = s.framer ∧
    (s.repairFailed).intake = s.intake ∧ (s.repairFailed).pages = s.pages ∧ (s.repairFailed).store = s.store ∧
    (s.repairFailed).prefetch = s.prefetch ∧ (s.repairFailed).screener = s.screener ∧
    (s.repairFailed).schedule = s.schedule ∧ (s.repairFailed).drive = s.drive ∧
    (s.repairFailed).restart = s.restart ∧ (s.repairFailed).reports = s.reports ∧
    (s.repairFailed).freeIndex = s.freeIndex :=
  ⟨rfl, rfl, rfl, rfl, rfl, rfl, rfl, rfl, rfl, rfl, rfl, rfl, rfl⟩

/-- The start of Prefetch changes Prefetch and the plate context only. -/
@[simp] theorem State.startPrefetch_same (s : State) (pl : Plate) :
    (s.startPrefetch pl).pending = s.pending ∧ (s.startPrefetch pl).straps = s.straps ∧
    (s.startPrefetch pl).framer = s.framer ∧ (s.startPrefetch pl).intake = s.intake ∧
    (s.startPrefetch pl).pages = s.pages ∧ (s.startPrefetch pl).store = s.store ∧
    (s.startPrefetch pl).repair = s.repair ∧ (s.startPrefetch pl).screener = s.screener ∧
    (s.startPrefetch pl).schedule = s.schedule ∧ (s.startPrefetch pl).restart = s.restart ∧
    (s.startPrefetch pl).reports = s.reports ∧ (s.startPrefetch pl).freeIndex = s.freeIndex :=
  ⟨rfl, rfl, rfl, rfl, rfl, rfl, rfl, rfl, rfl, rfl, rfl, rfl⟩

/-- A placed line changes the pool, the context and Prefetch only. -/
@[simp] theorem State.placeLine_same (s : State) (pl : Plate) (j : PrefetchJob) (sm : Summary) (l : Line) :
    (s.placeLine pl j sm l).pending = s.pending ∧ (s.placeLine pl j sm l).straps = s.straps ∧
    (s.placeLine pl j sm l).framer = s.framer ∧ (s.placeLine pl j sm l).intake = s.intake ∧
    (s.placeLine pl j sm l).pages = s.pages ∧ (s.placeLine pl j sm l).store = s.store ∧
    (s.placeLine pl j sm l).repair = s.repair ∧ (s.placeLine pl j sm l).screener = s.screener ∧
    (s.placeLine pl j sm l).schedule = s.schedule ∧ (s.placeLine pl j sm l).restart = s.restart ∧
    (s.placeLine pl j sm l).reports = s.reports ∧ (s.placeLine pl j sm l).freeIndex = s.freeIndex :=
  ⟨rfl, rfl, rfl, rfl, rfl, rfl, rfl, rfl, rfl, rfl, rfl, rfl⟩

/-- A plate that leaves the context changes the drive and Prefetch only. -/
@[simp] theorem State.dropPlate_same (s : State) :
    (s.dropPlate).pending = s.pending ∧ (s.dropPlate).straps = s.straps ∧ (s.dropPlate).framer = s.framer ∧
    (s.dropPlate).intake = s.intake ∧ (s.dropPlate).pages = s.pages ∧ (s.dropPlate).store = s.store ∧
    (s.dropPlate).repair = s.repair ∧ (s.dropPlate).screener = s.screener ∧ (s.dropPlate).schedule = s.schedule ∧
    (s.dropPlate).restart = s.restart ∧ (s.dropPlate).reports = s.reports ∧ (s.dropPlate).freeIndex = s.freeIndex :=
  ⟨rfl, rfl, rfl, rfl, rfl, rfl, rfl, rfl, rfl, rfl, rfl, rfl⟩

/-- The start of a transfer changes the drive only. -/
@[simp] theorem State.startTransfer_same (s : State) (pl : Plate) (l : Line) (rest : List Line) :
    (s.startTransfer pl l rest).pending = s.pending ∧ (s.startTransfer pl l rest).straps = s.straps ∧
    (s.startTransfer pl l rest).framer = s.framer ∧ (s.startTransfer pl l rest).intake = s.intake ∧
    (s.startTransfer pl l rest).pages = s.pages ∧ (s.startTransfer pl l rest).store = s.store ∧
    (s.startTransfer pl l rest).repair = s.repair ∧ (s.startTransfer pl l rest).prefetch = s.prefetch ∧
    (s.startTransfer pl l rest).screener = s.screener ∧ (s.startTransfer pl l rest).schedule = s.schedule ∧
    (s.startTransfer pl l rest).restart = s.restart ∧ (s.startTransfer pl l rest).reports = s.reports ∧
    (s.startTransfer pl l rest).freeIndex = s.freeIndex :=
  ⟨rfl, rfl, rfl, rfl, rfl, rfl, rfl, rfl, rfl, rfl, rfl, rfl, rfl⟩

/-- What the finish of a RESTART empties. -/
@[simp] theorem State.emptyTables_same (s : State) :
    (s.emptyTables).pending = s.pending ∧ (s.emptyTables).straps = s.straps ∧ (s.emptyTables).framer = s.framer ∧
    (s.emptyTables).intake = s.intake ∧ (s.emptyTables).prefetch = s.prefetch ∧
    (s.emptyTables).screener = s.screener ∧ (s.emptyTables).schedule = s.schedule ∧
    (s.emptyTables).drive = s.drive ∧ (s.emptyTables).restart = s.restart ∧ (s.emptyTables).freeIndex = s.freeIndex :=
  ⟨rfl, rfl, rfl, rfl, rfl, rfl, rfl, rfl, rfl, rfl⟩

/-! ## The updated fields -/

/-- A queued report, in the report unit. -/
@[simp] theorem State.report_reports (s : State) (x : Report) :
    (s.report x).reports = s.reports.enqueue x := rfl

/-- A latched alarm, in the report unit. -/
@[simp] theorem State.latch_reports (s : State) (a : Alarm) :
    (s.latch a).reports = s.reports.latch a := rfl

/-- A count, in the report unit. -/
@[simp] theorem State.count_reports (s : State) (c : Counter) (n : Nat) :
    (s.count c n).reports = { s.reports with counters := s.reports.counters.add n c } := rfl

/-- The owed report, in the report unit. -/
@[simp] theorem State.queueOwed_reports (s : State) :
    s.queueOwed.reports = s.reports.queueOwed := rfl

/-- What the lane does at a boundary, in the report unit. -/
@[simp] theorem State.sendNext_reports (s : State) :
    s.sendNext.reports = s.reports.sendNext s.intake.holding s.straps.crcInit := rfl

/-- A boundary, in the report unit. -/
@[simp] theorem State.boundary_reports (s : State) :
    s.boundary.reports = s.reports.boundary s.intake.holding s.straps.crcInit := rfl

/-- The drive as a step begins: PLATE_END is over. -/
@[simp] theorem State.beginStep_drive (s : State) : s.beginStep.drive = { s.drive with plateEnd := false } := rfl

/-- The report unit as a step begins. -/
@[simp] theorem State.beginStep_reports (s : State) : s.beginStep.reports = { s.reports with sent := [] } := rfl

/-- The page table after a record is replaced. -/
@[simp] theorem State.setPage_pages (s : State) (r : Nat) (p : Option PageRecord) :
    (s.setPage r p).pages = s.pages.set r p := rfl

/-- The inlet queue after its head has been taken; the write slots and the flow settings stay. -/
@[simp] theorem State.popInlet_intake (s : State) :
    s.popInlet.intake = { s.intake with queue := s.intake.queue.tail } := rfl

/-- The store after an allocation. -/
@[simp] theorem State.takeFromPool_store (s : State) (t : Nat) :
    (s.takeFromPool t).store = { s.store with poolOut := insertRising t s.store.poolOut } := rfl

/-- The store after a return of tiles. -/
@[simp] theorem State.giveToPool_store (s : State) (l : List Nat) :
    (s.giveToPool l).store = { s.store with poolOut := s.store.poolOut.filter fun t => !(l.contains t) } := rfl

/-- The store after a write has been served. -/
@[simp] theorem State.dramWrite_store (s : State) (w : StoreWrite) :
    (s.dramWrite w).store = { s.store with
      dram := s.store.dram.write (slotNumber w.tile w.slot)
        (codedCell (slotNumber w.tile w.slot) (paddedSlot w.payload)) } := rfl

/-- The store after a write has joined the write side. -/
@[simp] theorem State.queueWrite_store (s : State) (w : WriteRef) :
    (s.queueWrite w).store = { s.store with writeSide := s.store.writeSide ++ [w] } := rfl

/-- The store after a read has joined the read side. -/
@[simp] theorem State.queueRead_store (s : State) (r : StoreRead) :
    (s.queueRead r).store = { s.store with readSide := s.store.readSide ++ [r] } := rfl

/-- The schedule after a ticket has been changed. -/
@[simp] theorem State.modifyTicket_schedule (s : State) (n : Nat) (f : Ticket → Ticket) :
    (s.modifyTicket n f).schedule = s.schedule.map fun t => if t.tag == n then f t else t := rfl

/-- The drive after its plate has left the context. -/
@[simp] theorem State.dropPlate_drive (s : State) :
    s.dropPlate.drive = { s.drive with plate := none, pool := [], stall := none } := rfl

/-- Prefetch after its plate has left the context. -/
@[simp] theorem State.dropPlate_prefetch (s : State) : s.dropPlate.prefetch = { s.prefetch with job := none } := rfl

end Sys2Proof.Machine
end

