-- ==== Sys2Proof/Laws/Capture.lean ====
section
/-! SUPPORT. The lines made at the capture of a plate context (R85, R150): no byte of a stream has arrived, so every row
they need is that of a fill capture, and no unpack fault is met. -/

namespace Sys2Proof.Machine

open Sys2Proof (Byte)

/-- Nothing of the stream has arrived, and there is something to read. -/
structure Stream.Unread (u : Stream) : Prop where
  buffer : u.buffer = []
  arrived : u.arrived = 0
  length : 0 < u.length
  mode : u.mode = .reading
  cut : u.cut = none
  rows : u.rows = 0
  ahead : u.ahead = none

/-- A capture that is read has an unread stream. -/
def Capture.Unread (c : Capture) : Prop := ∀ u, c.kind = .read u → u.Unread

/-- Both captures of a slot are unread. -/
def PageSlot.Unread (ps : PageSlot) : Prop := ps.line.Unread ∧ ps.picture.Unread

/-- All captures of the plate are unread. -/
def PrefetchJob.Unread (j : PrefetchJob) : Prop := j.left.Unread ∧ ∀ ps, j.right = some ps → ps.Unread

/-- A filled capture is unread. -/
theorem Capture.unread_of_fill {c : Capture} (h : c.isFill = true) : c.Unread := by
  intro u hu
  simp [Capture.isFill, hu] at h

/-- The next row of an unread stream waits, and the stream stays unread. -/
theorem Stream.verdict_unread {u : Stream} (h : u.Unread) : ∃ v, u.verdict = .waiting v ∧ v.Unread := by
  have hs : ¬ u.slotCount ≤ u.arrived := by
    have := h.length
    simp only [Stream.slotCount, segmentCount, ceilDiv, h.arrived]
    omega
  unfold Stream.verdict Stream.judge
  rw [h.ahead, h.mode]
  simp only [h.buffer, eatBytes, hs, if_false, h.cut, Option.isSome_none, Bool.false_eq_true]
  exact ⟨_, rfl, rfl, h.arrived, h.length, rfl, rfl, h.rows, rfl⟩

/-- The stream of a capture that has gone on. -/
theorem Capture.goOn_stream {c : Capture} {u : Stream} (h : c.goOn.stream? = some u) :
    ∃ v, c.stream? = some v ∧ u = v.goOn := by
  unfold Capture.goOn at h
  unfold Capture.stream? at h ⊢
  cases hk : c.kind with
  | fill l => simp [hk] at h
  | read v => rw [hk] at h; cases h; exact ⟨v, rfl, rfl⟩

/-- A row that waits has taken every byte at hand, of a stream that is being read and is not cut (R91). -/
theorem Stream.judge_waiting {u v : Stream} (h : u.judge = .waiting v) :
    u.mode = .reading ∧ u.cut = none ∧ ¬ u.slotCount ≤ u.arrived ∧
      v = { u with buffer := [], position := u.position + u.buffer.length, placed := v.placed, op := v.op } := by
  unfold Stream.judge at h
  split at h <;> try exact absurd h (by simp)
  rename_i hm
  split at h <;> try exact absurd h (by simp)
  split at h
  · split at h <;> exact absurd h (by simp)
  · rename_i ha
    split at h
    · exact absurd h (by simp)
    · rename_i hc
      simp only [Verdict.waiting.injEq] at h
      subst h
      exact ⟨hm, by simpa using hc, ha, rfl⟩

/-- A row that is produced from the bytes at hand leaves the stream as R83 and R91 say. -/
theorem Stream.judge_produced {u v : Stream} {row : List Byte} {overrun : Bool} (h : u.judge = .produced row overrun v) :
    u.mode = .reading ∧ ∃ rest, v = u.afterRow row rest ∧ u.Completes row overrun rest := by
  unfold Stream.judge at h
  split at h <;> try exact absurd h (by simp)
  rename_i hm
  split at h
  · rename_i r o rest he
    simp only [Verdict.produced.injEq] at h
    obtain ⟨rfl, rfl, rfl⟩ := h
    exact ⟨hm, rest, rfl, .inl he⟩
  · rename_i r he
    split at h
    · rename_i ha
      split at h
      · rename_i hs
        simp only [Verdict.produced.injEq] at h
        obtain ⟨rfl, rfl, rfl⟩ := h
        exact ⟨hm, [], rfl, .inr ⟨rfl, rfl, ha, r.op, hs, he⟩⟩
      · exact absurd h (by simp)
    · split at h <;> exact absurd h (by simp)

/-- What going on with a stream can do (R91): nothing; the row under construction takes every byte at hand; or the row is
completed ahead of its line. -/
theorem Stream.goOn_cases (u : Stream) :
    u.goOn = u ∨
      (u.mode = .reading ∧ u.cut = none ∧ u.goOn
        = { u with
            buffer := [], position := u.position + u.buffer.length, placed := u.goOn.placed, op := u.goOn.op }) ∨
      (u.mode = .reading ∧ u.ahead = none ∧ ∃ row overrun rest, u.Completes row overrun rest ∧
        u.goOn = { u.afterRow row rest with ahead := some overrun }) := by
  unfold Stream.goOn Stream.verdict
  cases ha : u.ahead with
  | some overrun => left; dsimp only; rw [← ha]
  | none =>
    dsimp only
    cases hj : u.judge with
    | waiting v =>
      obtain ⟨hm, hc, -, hv⟩ := Stream.judge_waiting hj
      dsimp only
      exact .inr (.inl ⟨hm, hc, ha ▸ hv⟩)
    | produced row overrun v =>
      obtain ⟨hm, rest, rfl, hc⟩ := Stream.judge_produced hj
      exact .inr (.inr ⟨hm, rfl, row, overrun, rest, hc, rfl⟩)
    | ended => exact .inl rfl
    | cut => exact .inl rfl

/-- After going on with a stream, there is nothing left to go on with (R91). -/
theorem Stream.goOn_goneOn (u : Stream) : u.goOn.GoneOn := by
  unfold Stream.goOn
  cases hv : u.verdict with
  | produced row overrun w => exact .inl rfl
  | ended => exact .inr (.inr (.inl hv))
  | cut => exact .inr (.inr (.inr hv))
  | waiting w =>
    right; left
    unfold Stream.verdict at hv
    cases ha : u.ahead with
    | some o => rw [ha] at hv; cases hv
    | none =>
      rw [ha] at hv
      obtain ⟨hm, hc, hs, hw⟩ := Stream.judge_waiting hv
      dsimp only
      rw [hw]
      unfold Stream.verdict Stream.judge
      simp only [ha, hm, eatBytes, Stream.slotCount, hc, Option.isSome_none, Bool.false_eq_true, if_false]
      rw [if_neg (by exact hs)]
      rfl

/-- Going on where there is nothing to go on with changes nothing. -/
theorem Stream.GoneOn.goOn {u : Stream} (h : u.GoneOn) : u.goOn = u := by
  unfold Stream.goOn
  rcases h with h | h | h | h
  · obtain ⟨o, ho⟩ := Option.isSome_iff_exists.mp h
    unfold Stream.verdict
    rw [ho]
    dsimp only
    rw [← ho]
  all_goals rw [h]

/-- Going on with the row under construction, and then with the row that a held-up line needs, is going on once (R91). -/
@[simp] theorem Stream.goOnBuilding_goOn (u : Stream) : u.goOnBuilding.goOn = u.goOn := by
  unfold Stream.goOnBuilding
  split
  · exact u.goOn_goneOn.goOn
  · rfl

/-- A stream that is building a row has, after it, nothing left to go on with (R91). -/
theorem Stream.goOnBuilding_goneOn {u : Stream} (h : u.building = true) : u.goOnBuilding.GoneOn := by
  unfold Stream.goOnBuilding
  rw [if_pos h]
  exact u.goOn_goneOn

/-- A stream that is building no row is left as it is. -/
theorem Stream.goOnBuilding_of_not {u : Stream} (h : u.building = false) : u.goOnBuilding = u := by
  unfold Stream.goOnBuilding
  rw [if_neg (by simp [h])]

/-- The bytes of a passed read change nothing of the row under construction. -/
@[simp] theorem Stream.receive_building (u : Stream) (data : List (List Byte)) : (u.receive data).building = u.building := by
  unfold Stream.receive
  split <;> rfl

/-- After going on with a slot, no row of it that a held-up line needs is left to go on with (R86, R91). -/
theorem PageSlot.goOn_goneOn (ps : PageSlot) (j : Nat) : (ps.goOn j).GoneOn j := by
  intro hr
  unfold PageSlot.goOn at hr ⊢
  by_cases h : ps.ready j = true
  · rw [if_pos h, h] at hr; cases hr
  · rw [if_neg h]
    refine ⟨fun u hu => ?_, fun u hu hp => ?_⟩
    · obtain ⟨v, -, rfl⟩ := Capture.goOn_stream hu
      exact v.goOn_goneOn
    · cases hs : ps.picture.stream? with
      | none => simp [hs] at hu
      | some w =>
        simp only [hs] at hu
        split at hu
        · rw [hs] at hu; cases hu; omega
        · obtain ⟨v, -, rfl⟩ := Capture.goOn_stream hu
          exact v.goOn_goneOn

/-- Where every slot of a stream has arrived, the next row of it does not wait (R82, R86). -/
theorem Stream.verdict_arrived {u v : Stream} (h : u.slotCount ≤ u.arrived) : u.verdict ≠ .waiting v := by
  unfold Stream.verdict
  cases u.ahead with
  | some o => exact fun hv => by cases hv
  | none => exact fun hv => (Stream.judge_waiting hv).2.2.1 h

/-- Where every slot of a stream has arrived, a LINE row of it is ready (R86). -/
theorem Capture.lineReady_of_arrived {u : Stream} (h : u.slotCount ≤ u.arrived) (n : Nat) (f m : Bool) :
    (⟨n, .read u, f, m⟩ : Capture).lineReady = true := by
  unfold Capture.lineReady
  dsimp only
  split
  · rename_i hv; exact absurd hv (Stream.verdict_arrived h)
  all_goals rfl

/-- A LINE row of an unread capture is ready only where the capture is filled. -/
theorem Capture.fill_of_lineReady {c : Capture} (h : c.Unread) (hr : c.lineReady = true) : c.isFill = true := by
  unfold Capture.isFill
  unfold Capture.lineReady at hr
  split at hr
  · rename_i hk; simp
  · rename_i u hk
    obtain ⟨v, hv, -⟩ := Stream.verdict_unread (h u hk)
    simp [hv] at hr

/-- A PICTURE row of an unread capture is ready only where the capture is filled. -/
theorem Capture.fill_of_pictureReady {c : Capture} {p : Nat} (h : c.Unread) (hr : c.pictureReady p = true) :
    c.isFill = true := by
  unfold Capture.pictureReady at hr
  split at hr
  · rename_i hk; simp [Capture.isFill, hk]
  · rename_i u hk
    have : decide (p < u.rows) = false := by simp [(h u hk).rows]
    rw [this, Bool.false_or] at hr
    exact Capture.fill_of_lineReady h hr

/-- A filled LINE row meets no fault and leaves the capture. -/
theorem Capture.makeLineRow_fill {c : Capture} (h : c.isFill = true) : c.makeLineRow = ⟨c, .marked, 0⟩ := by
  unfold Capture.makeLineRow
  split
  · rfl
  · rename_i u hk; simp [Capture.isFill, hk] at h

/-- A filled PICTURE row meets no fault and leaves the capture. -/
theorem Capture.makePictureRow_fill {c : Capture} (h : c.isFill = true) (held : List Byte) (p : Nat) :
    c.makePictureRow held p = ⟨c, (held, held), 0⟩ := by
  unfold Capture.makePictureRow
  split
  · rfl
  · rename_i u hk; simp [Capture.isFill, hk] at h

/-- The rows of a ready unread slot meet no fault and leave it unread. -/
theorem PageSlot.makeRows_unread {ps : PageSlot} {j : Nat} (h : ps.Unread) (hj : ¬ ps.height ≤ j)
    (hr : ps.ready j = true) : (ps.makeRows j).faults = 0 ∧ (ps.makeRows j).slot.Unread := by
  simp only [PageSlot.ready, hj, decide_false, Bool.false_or, Bool.and_eq_true] at hr
  have hl := Capture.fill_of_lineReady h.1 hr.1
  have hp := Capture.fill_of_pictureReady h.2 hr.2
  unfold PageSlot.makeRows
  rw [Capture.makeLineRow_fill hl, Capture.makePictureRow_fill hp]
  refine ⟨rfl, Capture.unread_of_fill ?_, Capture.unread_of_fill ?_⟩
  · simpa [Capture.afterFaults, Capture.isFill] using hl
  · simpa [Capture.afterFaults, Capture.isFill] using hp

/-- A capture of a layer as it stands is unread. -/
theorem State.captureLayer_unread (s : State) (r w h : Nat) (id : LayerId) (n : Nat) :
    (s.captureLayer r w h id n).Unread := by
  have key : ∀ (l : LayerRecord) (a b : Nat) (u : Stream), readCaptureOf l a b = .read u → u.Unread := by
    intro l a b u hu
    unfold readCaptureOf at hu
    split at hu
    · rename_i hl
      cases hu
      exact ⟨rfl, rfl, hl, rfl, rfl, rfl, rfl⟩
    · cases hu
  intro u hu
  unfold State.captureLayer at hu
  dsimp only at hu
  split at hu
  · cases hu
  · unfold captureKindOf at hu
    split at hu <;> first | exact key _ _ _ _ hu | cases hu

/-- A captured band is unread. -/
theorem State.captureBand_unread (s : State) (ps : PageSlot) (ink : Ink) (b n : Nat) :
    (s.captureBand ps ink b n).Unread :=
  ⟨s.captureLayer_unread ps.record ps.width ps.height ⟨ink, b, .line⟩ n,
    s.captureLayer_unread ps.record ps.width ps.height ⟨ink, b, .picture⟩ (n + 1)⟩

/-- A slot stays unread where its cursor enters a band. -/
theorem State.enterBand_unread (s : State) {ps : PageSlot} (h : ps.Unread) (ink : Ink) (made : Bool) (n : Nat) :
    (s.enterBand ps ink made n).Unread := by
  unfold State.enterBand
  split
  · exact State.captureBand_unread ..
  · exact h

/-- A capture stays unread where unpacking goes on. -/
theorem Capture.goOn_unread {c : Capture} (h : c.Unread) : c.goOn.Unread := by
  intro u hu
  unfold Capture.goOn at hu
  split at hu
  · rename_i hk; rw [hk] at hu; cases hu
  · rename_i v hk
    cases hu
    obtain ⟨w, hw, hu⟩ := Stream.verdict_unread (h v hk)
    unfold Stream.goOn
    rw [hw]
    exact hu

/-- A slot stays unread where unpacking goes on. -/
theorem PageSlot.goOn_unread {ps : PageSlot} (h : ps.Unread) (j : Nat) : (ps.goOn j).Unread := by
  unfold PageSlot.goOn
  split
  · exact h
  · refine ⟨Capture.goOn_unread h.1, ?_⟩
    dsimp only
    split
    · exact h.2
    · split
      · exact h.2
      · exact Capture.goOn_unread h.2

/-- The plate stays unread where unpacking goes on. -/
theorem PrefetchJob.goOn_unread {j : PrefetchJob} (h : j.Unread) (pl : Plate) : (j.goOn pl).Unread := by
  unfold PrefetchJob.goOn
  split
  · exact h
  · refine ⟨PageSlot.goOn_unread h.1 _, fun ps hp => ?_⟩
    dsimp only at hp
    cases hr : j.right with
    | none => simp [hr] at hp
    | some q =>
      simp only [hr, Option.map_some, Option.some.injEq] at hp
      exact hp ▸ PageSlot.goOn_unread (h.2 q hr) _

/-- What the rows of a page line make of an unread slot that is ready: no fault, and an unread slot. -/
theorem slotMade?_unread {ps : PageSlot} {j : Nat} (h : ps.Unread) (hr : ps.ready j = true) :
    (slotMade? (some ps) j).elim 0 (·.faults) = 0 ∧ ∀ m, slotMade? (some ps) j = some m → m.slot.Unread := by
  unfold slotMade?
  dsimp only
  split
  · exact ⟨rfl, fun m hm => by cases hm⟩
  · rename_i hj
    have := PageSlot.makeRows_unread h hj hr
    exact ⟨this.1, fun m hm => by cases hm; exact this.2⟩

/-- A line of an unread plate that can be made meets no fault, and the plate stays unread. -/
theorem State.makeLine_unread {s : State} {j : PrefetchJob} (hj : s.prefetch.job = some j) (h : j.Unread)
    (hc : s.canMakeLine = true) :
    s.makeLine.reports = s.reports ∧ ∃ j', s.makeLine.prefetch.job = some j' ∧ j'.Unread := by
  unfold State.makeLine
  unfold State.canMakeLine at hc
  cases hp : s.drive.plate with
  | none => simp [hp, hj] at hc
  | some pl =>
    simp only [hp, hj, Bool.and_eq_true, Bool.or_eq_true] at hc ⊢
    split
    · exact ⟨rfl, _, rfl, PrefetchJob.goOn_unread (j := { j with nextLine := j.nextLine + 1 }) h pl⟩
    · rename_i hm
      have hr := hc.2.resolve_left (by simpa using hm)
      obtain ⟨f1, u1⟩ := slotMade?_unread h.1 hr.1
      have right : (slotMade? j.right (j.nextLine - pl.margin)).elim 0 (·.faults) = 0 ∧
          ∀ m, slotMade? j.right (j.nextLine - pl.margin) = some m → m.slot.Unread := by
        cases hrt : j.right with
        | none => exact ⟨rfl, fun m hm => by simp [slotMade?] at hm⟩
        | some q =>
          have := hr.2
          rw [hrt] at this
          exact slotMade?_unread (h.2 q hrt) this
      unfold State.makeImageLine
      dsimp only
      rw [f1, right.1]
      refine ⟨rfl, _, rfl, PrefetchJob.goOn_unread ⟨?_, ?_⟩ pl⟩
      · refine State.enterBand_unread s ?_ _ _ _
        cases hm : slotMade? (some j.left) (j.nextLine - pl.margin) with
        | none => exact h.1
        | some m => exact u1 m hm
      · intro ps hps
        obtain ⟨q, hq, rfl⟩ := Option.map_eq_some_iff.mp hps
        refine State.enterBand_unread s ?_ _ _ _
        cases hm : slotMade? j.right (j.nextLine - pl.margin) with
        | none => exact h.2 q hq
        | some m => exact right.2 m hm

/-- The lines of an unread plate meet no fault. -/
theorem State.makeLines_unread (n : Nat) {s : State} {j : PrefetchJob} (hj : s.prefetch.job = some j) (h : j.Unread) :
    (State.makeLines n s).reports = s.reports := by
  induction n generalizing s j with
  | zero => rfl
  | succ n ih =>
    unfold State.makeLines
    split
    · rename_i hc
      obtain ⟨hr, j', hj', hu⟩ := State.makeLine_unread hj h hc
      rw [ih hj' hu, hr]
    · rfl

/-- The prime test changes the drive only. -/
theorem State.primeTest_reports (s : State) : s.primeTest.reports = s.reports := by
  unfold State.primeTest
  (repeat' split) <;> rfl

/-- Prefetch's start and the lines it makes at that event change nothing in the report unit (R85). -/
@[simp] theorem State.startPrefetch_event_reports (s : State) (pl : Plate) :
    (s.startPrefetch pl).prefetchEvent.reports = s.reports := by
  unfold State.prefetchEvent
  rw [State.primeTest_reports,
    State.makeLines_unread _ (s := s.startPrefetch pl) rfl ⟨State.captureBand_unread .., fun ps hp => ?_⟩]
  · rfl
  · dsimp only at hp
    cases hr : pl.right with
    | none => simp [hr] at hp
    | some q =>
      simp only [hr, Option.map_some, Option.some.injEq] at hp
      exact hp ▸ State.captureBand_unread ..

end Sys2Proof.Machine
end

