-- ==== Sys2Proof/Laws/Frames.lean ====
section
/-! SUPPORT. What the shared operations leave as it was: one lemma for each operation, over the top fields of the
state. -/

namespace Sys2Proof.Machine

open Sys2Proof (Byte DramFault)

/-- A change of a record changes the page table only. -/
@[simp] theorem State.modifyPage_same (s : State) (r : Nat) (f : PageRecord → PageRecord) :
    (s.modifyPage r f).pending = s.pending ∧ (s.modifyPage r f).straps = s.straps ∧
    (s.modifyPage r f).framer = s.framer ∧ (s.modifyPage r f).intake = s.intake ∧
    (s.modifyPage r f).store = s.store ∧ (s.modifyPage r f).repair = s.repair ∧
    (s.modifyPage r f).prefetch = s.prefetch ∧ (s.modifyPage r f).screener = s.screener ∧
    (s.modifyPage r f).schedule = s.schedule ∧ (s.modifyPage r f).drive = s.drive ∧
    (s.modifyPage r f).restart = s.restart ∧ (s.modifyPage r f).reports = s.reports ∧
    (s.modifyPage r f).freeIndex = s.freeIndex := by
  unfold State.modifyPage
  (repeat' split) <;> simp

/-- A use count stands in the page table. -/
@[simp] theorem State.addUse_same (s : State) (r : Option Resolution) (up : Bool) :
    (s.addUse r up).pending = s.pending ∧ (s.addUse r up).straps = s.straps ∧ (s.addUse r up).framer = s.framer ∧
    (s.addUse r up).intake = s.intake ∧ (s.addUse r up).store = s.store ∧ (s.addUse r up).repair = s.repair ∧
    (s.addUse r up).prefetch = s.prefetch ∧ (s.addUse r up).screener = s.screener ∧
    (s.addUse r up).schedule = s.schedule ∧ (s.addUse r up).drive = s.drive ∧ (s.addUse r up).restart = s.restart ∧
    (s.addUse r up).reports = s.reports ∧ (s.addUse r up).freeIndex = s.freeIndex := by
  unfold State.addUse
  (repeat' split) <;> simp

/-- The end of an event changes the report unit only. -/
@[simp] theorem State.settle_same (s t : State) :
    ((s.settle t)).pending = t.pending ∧ ((s.settle t)).straps = t.straps ∧ ((s.settle t)).framer = t.framer ∧
    ((s.settle t)).intake = t.intake ∧ ((s.settle t)).pages = t.pages ∧ ((s.settle t)).store = t.store ∧
    ((s.settle t)).repair = t.repair ∧ ((s.settle t)).prefetch = t.prefetch ∧ ((s.settle t)).screener = t.screener ∧
    ((s.settle t)).schedule = t.schedule ∧ ((s.settle t)).drive = t.drive ∧ ((s.settle t)).restart = t.restart ∧
    ((s.settle t)).freeIndex = t.freeIndex := by
  unfold State.settle
  split <;> simp

/-- An evaluation of the holding flag changes the flag, the reserve cause and the report unit only. -/
@[simp] theorem State.evalFlag_same (s : State) :
    (s.evalFlag).pending = s.pending ∧ (s.evalFlag).straps = s.straps ∧ (s.evalFlag).framer = s.framer ∧
    (s.evalFlag).pages = s.pages ∧ (s.evalFlag).store = s.store ∧ (s.evalFlag).repair = s.repair ∧
    (s.evalFlag).prefetch = s.prefetch ∧ (s.evalFlag).screener = s.screener ∧ (s.evalFlag).schedule = s.schedule ∧
    (s.evalFlag).drive = s.drive ∧ (s.evalFlag).restart = s.restart ∧ (s.evalFlag).freeIndex = s.freeIndex := by
  unfold State.evalFlag
  (repeat' split) <;> simp

/-- The prime test changes the drive only. -/
@[simp] theorem State.primeTest_same (s : State) :
    (s.primeTest).pending = s.pending ∧ (s.primeTest).straps = s.straps ∧ (s.primeTest).framer = s.framer ∧
    (s.primeTest).intake = s.intake ∧ (s.primeTest).pages = s.pages ∧ (s.primeTest).store = s.store ∧
    (s.primeTest).repair = s.repair ∧ (s.primeTest).prefetch = s.prefetch ∧ (s.primeTest).screener = s.screener ∧
    (s.primeTest).schedule = s.schedule ∧ (s.primeTest).restart = s.restart ∧ (s.primeTest).reports = s.reports ∧
    (s.primeTest).freeIndex = s.freeIndex := by
  unfold State.primeTest
  (repeat' split) <;> simp

/-- Unpack faults change the report unit only. -/
@[simp] theorem State.unpackFaults_same (n : Nat) (s : State) :
    (State.unpackFaults n s).pending = s.pending ∧ (State.unpackFaults n s).straps = s.straps ∧
    (State.unpackFaults n s).framer = s.framer ∧ (State.unpackFaults n s).intake = s.intake ∧
    (State.unpackFaults n s).pages = s.pages ∧ (State.unpackFaults n s).store = s.store ∧
    (State.unpackFaults n s).repair = s.repair ∧ (State.unpackFaults n s).prefetch = s.prefetch ∧
    (State.unpackFaults n s).screener = s.screener ∧ (State.unpackFaults n s).schedule = s.schedule ∧
    (State.unpackFaults n s).drive = s.drive ∧ (State.unpackFaults n s).restart = s.restart ∧
    (State.unpackFaults n s).freeIndex = s.freeIndex := by
  induction n generalizing s with
  | zero => simp [State.unpackFaults]
  | succ n ih => simp [State.unpackFaults, ih]

/-- A line is made in the pool, the context, Prefetch and the report unit only. -/
@[simp] theorem State.makeImageLine_same (s : State) (pl : Plate) (j : PrefetchJob) :
    (s.makeImageLine pl j).pending = s.pending ∧ (s.makeImageLine pl j).straps = s.straps ∧
    (s.makeImageLine pl j).framer = s.framer ∧ (s.makeImageLine pl j).intake = s.intake ∧
    (s.makeImageLine pl j).pages = s.pages ∧ (s.makeImageLine pl j).store = s.store ∧
    (s.makeImageLine pl j).repair = s.repair ∧ (s.makeImageLine pl j).screener = s.screener ∧
    (s.makeImageLine pl j).schedule = s.schedule ∧ (s.makeImageLine pl j).restart = s.restart ∧
    (s.makeImageLine pl j).freeIndex = s.freeIndex := by
  simp [State.makeImageLine]

/-- A line is made in the pool, the context, Prefetch and the report unit only. -/
@[simp] theorem State.makeLine_same (s : State) :
    (s.makeLine).pending = s.pending ∧ (s.makeLine).straps = s.straps ∧ (s.makeLine).framer = s.framer ∧
    (s.makeLine).intake = s.intake ∧ (s.makeLine).pages = s.pages ∧ (s.makeLine).store = s.store ∧
    (s.makeLine).repair = s.repair ∧ (s.makeLine).screener = s.screener ∧ (s.makeLine).schedule = s.schedule ∧
    (s.makeLine).restart = s.restart ∧ (s.makeLine).freeIndex = s.freeIndex := by
  unfold State.makeLine
  (repeat' split) <;> simp

/-- Lines are made in the pool, the context, Prefetch and the report unit only. -/
@[simp] theorem State.makeLines_same (n : Nat) (s : State) :
    ((State.makeLines n s)).pending = s.pending ∧ ((State.makeLines n s)).straps = s.straps ∧
    ((State.makeLines n s)).framer = s.framer ∧ ((State.makeLines n s)).intake = s.intake ∧
    ((State.makeLines n s)).pages = s.pages ∧ ((State.makeLines n s)).store = s.store ∧
    ((State.makeLines n s)).repair = s.repair ∧ ((State.makeLines n s)).screener = s.screener ∧
    ((State.makeLines n s)).schedule = s.schedule ∧ ((State.makeLines n s)).restart = s.restart ∧
    ((State.makeLines n s)).freeIndex = s.freeIndex := by
  induction n generalizing s with
  | zero => simp [State.makeLines]
  | succ n ih =>
    unfold State.makeLines
    split <;> simp [ih]

/-- An event of Prefetch changes the drive, Prefetch and the report unit only. -/
@[simp] theorem State.prefetchEvent_same (s : State) :
    (s.prefetchEvent).pending = s.pending ∧ (s.prefetchEvent).straps = s.straps ∧
    (s.prefetchEvent).framer = s.framer ∧ (s.prefetchEvent).intake = s.intake ∧ (s.prefetchEvent).pages = s.pages ∧
    (s.prefetchEvent).store = s.store ∧ (s.prefetchEvent).repair = s.repair ∧
    (s.prefetchEvent).screener = s.screener ∧ (s.prefetchEvent).schedule = s.schedule ∧
    (s.prefetchEvent).restart = s.restart ∧ (s.prefetchEvent).freeIndex = s.freeIndex := by
  simp [State.prefetchEvent]

/-- A capture stands in Prefetch. -/
@[simp] theorem State.setCapture_same (s : State) (side : Side) (kind : LayerKind) (c : Capture) :
    (s.setCapture side kind c).pending = s.pending ∧ (s.setCapture side kind c).straps = s.straps ∧
    (s.setCapture side kind c).framer = s.framer ∧ (s.setCapture side kind c).intake = s.intake ∧
    (s.setCapture side kind c).pages = s.pages ∧ (s.setCapture side kind c).store = s.store ∧
    (s.setCapture side kind c).repair = s.repair ∧ (s.setCapture side kind c).screener = s.screener ∧
    (s.setCapture side kind c).schedule = s.schedule ∧ (s.setCapture side kind c).drive = s.drive ∧
    (s.setCapture side kind c).restart = s.restart ∧ (s.setCapture side kind c).reports = s.reports ∧
    (s.setCapture side kind c).freeIndex = s.freeIndex := by
  unfold State.setCapture
  (repeat' split) <;> simp

/-- A read is issued in Prefetch and the store only. -/
@[simp] theorem State.issueRead_same (s : State) (side : Side) (kind : LayerKind) :
    (s.issueRead side kind).pending = s.pending ∧ (s.issueRead side kind).straps = s.straps ∧
    (s.issueRead side kind).framer = s.framer ∧ (s.issueRead side kind).intake = s.intake ∧
    (s.issueRead side kind).pages = s.pages ∧ (s.issueRead side kind).repair = s.repair ∧
    (s.issueRead side kind).screener = s.screener ∧ (s.issueRead side kind).schedule = s.schedule ∧
    (s.issueRead side kind).drive = s.drive ∧ (s.issueRead side kind).restart = s.restart ∧
    (s.issueRead side kind).reports = s.reports ∧ (s.issueRead side kind).freeIndex = s.freeIndex := by
  unfold State.issueRead
  (repeat' split) <;> simp

/-- The unpacker works in Prefetch only. -/
@[simp] theorem State.prefetchGoOn_same (s : State) :
    (s.prefetchGoOn).pending = s.pending ∧ (s.prefetchGoOn).straps = s.straps ∧ (s.prefetchGoOn).framer = s.framer ∧
    (s.prefetchGoOn).intake = s.intake ∧ (s.prefetchGoOn).pages = s.pages ∧ (s.prefetchGoOn).store = s.store ∧
    (s.prefetchGoOn).repair = s.repair ∧ (s.prefetchGoOn).screener = s.screener ∧
    (s.prefetchGoOn).schedule = s.schedule ∧ (s.prefetchGoOn).drive = s.drive ∧
    (s.prefetchGoOn).restart = s.restart ∧ (s.prefetchGoOn).reports = s.reports ∧
    (s.prefetchGoOn).freeIndex = s.freeIndex := by
  unfold State.prefetchGoOn
  (repeat' split) <;> simp

/-- A passed read changes Prefetch, the drive and the report unit only. -/
@[simp] theorem State.prefetchPassed_same (s : State) (side : Side) (kind : LayerKind) (n : Nat)
    (data : List (List Byte)) :
    (s.prefetchPassed side kind n data).pending = s.pending ∧
    (s.prefetchPassed side kind n data).straps = s.straps ∧ (s.prefetchPassed side kind n data).framer = s.framer ∧
    (s.prefetchPassed side kind n data).intake = s.intake ∧ (s.prefetchPassed side kind n data).pages = s.pages ∧
    (s.prefetchPassed side kind n data).store = s.store ∧ (s.prefetchPassed side kind n data).repair = s.repair ∧
    (s.prefetchPassed side kind n data).screener = s.screener ∧
    (s.prefetchPassed side kind n data).schedule = s.schedule ∧
    (s.prefetchPassed side kind n data).restart = s.restart ∧
    (s.prefetchPassed side kind n data).freeIndex = s.freeIndex := by
  unfold State.prefetchPassed
  (repeat' split) <;> simp

/-- The damage summary stands in the plate context. -/
@[simp] theorem State.modifySummary_same (s : State) (f : Summary → Summary) :
    (s.modifySummary f).pending = s.pending ∧ (s.modifySummary f).straps = s.straps ∧
    (s.modifySummary f).framer = s.framer ∧ (s.modifySummary f).intake = s.intake ∧
    (s.modifySummary f).pages = s.pages ∧ (s.modifySummary f).store = s.store ∧
    (s.modifySummary f).repair = s.repair ∧ (s.modifySummary f).prefetch = s.prefetch ∧
    (s.modifySummary f).screener = s.screener ∧ (s.modifySummary f).schedule = s.schedule ∧
    (s.modifySummary f).restart = s.restart ∧ (s.modifySummary f).reports = s.reports ∧
    (s.modifySummary f).freeIndex = s.freeIndex := by
  unfold State.modifySummary
  (repeat' split) <;> simp

/-- A store fault counts in the plate context. -/
@[simp] theorem State.countStoreFault_same (s : State) (n : Nat) :
    (s.countStoreFault n).pending = s.pending ∧ (s.countStoreFault n).straps = s.straps ∧
    (s.countStoreFault n).framer = s.framer ∧ (s.countStoreFault n).intake = s.intake ∧
    (s.countStoreFault n).pages = s.pages ∧ (s.countStoreFault n).store = s.store ∧
    (s.countStoreFault n).repair = s.repair ∧ (s.countStoreFault n).screener = s.screener ∧
    (s.countStoreFault n).schedule = s.schedule ∧ (s.countStoreFault n).restart = s.restart ∧
    (s.countStoreFault n).reports = s.reports ∧ (s.countStoreFault n).freeIndex = s.freeIndex := by
  unfold State.countStoreFault
  (repeat' split) <;> simp

/-- A failed read changes Prefetch, the drive and the report unit only. -/
@[simp] theorem State.prefetchFailed_same (s : State) (side : Side) (kind : LayerKind) (n : Nat) (pos : Nat) :
    (s.prefetchFailed side kind n pos).pending = s.pending ∧ (s.prefetchFailed side kind n pos).straps = s.straps ∧
    (s.prefetchFailed side kind n pos).framer = s.framer ∧ (s.prefetchFailed side kind n pos).intake = s.intake ∧
    (s.prefetchFailed side kind n pos).pages = s.pages ∧ (s.prefetchFailed side kind n pos).store = s.store ∧
    (s.prefetchFailed side kind n pos).repair = s.repair ∧
    (s.prefetchFailed side kind n pos).screener = s.screener ∧
    (s.prefetchFailed side kind n pos).schedule = s.schedule ∧
    (s.prefetchFailed side kind n pos).restart = s.restart ∧
    (s.prefetchFailed side kind n pos).freeIndex = s.freeIndex := by
  unfold State.prefetchFailed
  dsimp only
  (repeat' split) <;> simp

/-- The capture of a plate context changes the schedule, the drive and Prefetch only. -/
@[simp] theorem State.capturePlate_same (s : State) :
    (s.capturePlate).pending = s.pending ∧ (s.capturePlate).straps = s.straps ∧ (s.capturePlate).framer = s.framer ∧
    (s.capturePlate).intake = s.intake ∧ (s.capturePlate).pages = s.pages ∧ (s.capturePlate).store = s.store ∧
    (s.capturePlate).repair = s.repair ∧ (s.capturePlate).screener = s.screener ∧
    (s.capturePlate).restart = s.restart ∧ (s.capturePlate).reports = s.reports ∧
    (s.capturePlate).freeIndex = s.freeIndex := by
  unfold State.capturePlate
  (repeat' split) <;> simp

/-- A selection changes the schedule, the drive and Prefetch only. -/
@[simp] theorem State.selectTicket_same (s : State) (n : Nat) :
    (s.selectTicket n).pending = s.pending ∧ (s.selectTicket n).straps = s.straps ∧
    (s.selectTicket n).framer = s.framer ∧ (s.selectTicket n).intake = s.intake ∧
    (s.selectTicket n).pages = s.pages ∧ (s.selectTicket n).store = s.store ∧ (s.selectTicket n).repair = s.repair ∧
    (s.selectTicket n).screener = s.screener ∧ (s.selectTicket n).restart = s.restart ∧
    (s.selectTicket n).reports = s.reports ∧ (s.selectTicket n).freeIndex = s.freeIndex := by
  unfold State.selectTicket
  dsimp only
  split <;> simp

/-- An offer changes the schedule, the drive and Prefetch only. -/
@[simp] theorem State.offer_same (s : State) :
    (s.offer).pending = s.pending ∧ (s.offer).straps = s.straps ∧ (s.offer).framer = s.framer ∧
    (s.offer).intake = s.intake ∧ (s.offer).pages = s.pages ∧ (s.offer).store = s.store ∧
    (s.offer).repair = s.repair ∧ (s.offer).screener = s.screener ∧ (s.offer).restart = s.restart ∧
    (s.offer).reports = s.reports ∧ (s.offer).freeIndex = s.freeIndex := by
  unfold State.offer
  (repeat' split) <;> simp

/-- The entry into IDLE changes the schedule, the drive and Prefetch only. -/
@[simp] theorem State.enterIdle_same (s : State) :
    (s.enterIdle).pending = s.pending ∧ (s.enterIdle).straps = s.straps ∧ (s.enterIdle).framer = s.framer ∧
    (s.enterIdle).intake = s.intake ∧ (s.enterIdle).pages = s.pages ∧ (s.enterIdle).store = s.store ∧
    (s.enterIdle).repair = s.repair ∧ (s.enterIdle).screener = s.screener ∧ (s.enterIdle).restart = s.restart ∧
    (s.enterIdle).reports = s.reports ∧ (s.enterIdle).freeIndex = s.freeIndex := by
  simp [State.enterIdle]

/-- The entry into UNLOADING changes the schedule, the drive and Prefetch only. -/
@[simp] theorem State.enterUnloading_same (s : State) :
    (s.enterUnloading).pending = s.pending ∧ (s.enterUnloading).straps = s.straps ∧
    (s.enterUnloading).framer = s.framer ∧ (s.enterUnloading).intake = s.intake ∧
    (s.enterUnloading).pages = s.pages ∧ (s.enterUnloading).store = s.store ∧ (s.enterUnloading).repair = s.repair ∧
    (s.enterUnloading).screener = s.screener ∧ (s.enterUnloading).restart = s.restart ∧
    (s.enterUnloading).reports = s.reports ∧ (s.enterUnloading).freeIndex = s.freeIndex := by
  unfold State.enterUnloading
  (repeat' split) <;> simp

/-- An arming evaluation changes the schedule, the drive and Prefetch only. -/
@[simp] theorem State.rearm_same (s : State) (f : Ticket → Bool) :
    (s.rearm f).pending = s.pending ∧ (s.rearm f).straps = s.straps ∧ (s.rearm f).framer = s.framer ∧
    (s.rearm f).intake = s.intake ∧ (s.rearm f).pages = s.pages ∧ (s.rearm f).store = s.store ∧
    (s.rearm f).repair = s.repair ∧ (s.rearm f).screener = s.screener ∧ (s.rearm f).restart = s.restart ∧
    (s.rearm f).reports = s.reports ∧ (s.rearm f).freeIndex = s.freeIndex := by
  unfold State.rearm
  (repeat' split) <;> simp

/-- An arming evaluation changes the schedule, the drive and Prefetch only. -/
@[simp] theorem State.rearmInks_same (s : State) (b : Screener) :
    (s.rearmInks b).pending = s.pending ∧ (s.rearmInks b).straps = s.straps ∧ (s.rearmInks b).framer = s.framer ∧
    (s.rearmInks b).intake = s.intake ∧ (s.rearmInks b).pages = s.pages ∧ (s.rearmInks b).store = s.store ∧
    (s.rearmInks b).repair = s.repair ∧ (s.rearmInks b).screener = s.screener ∧
    (s.rearmInks b).restart = s.restart ∧ (s.rearmInks b).reports = s.reports ∧
    (s.rearmInks b).freeIndex = s.freeIndex := by
  simp [State.rearmInks]

/-- Use counts stand in the page table. -/
@[simp] theorem State.moveUse_same (s : State) (o : Ticket) (n : Ticket) :
    (s.moveUse o n).pending = s.pending ∧ (s.moveUse o n).straps = s.straps ∧ (s.moveUse o n).framer = s.framer ∧
    (s.moveUse o n).intake = s.intake ∧ (s.moveUse o n).store = s.store ∧ (s.moveUse o n).repair = s.repair ∧
    (s.moveUse o n).prefetch = s.prefetch ∧ (s.moveUse o n).screener = s.screener ∧
    (s.moveUse o n).schedule = s.schedule ∧ (s.moveUse o n).drive = s.drive ∧ (s.moveUse o n).restart = s.restart ∧
    (s.moveUse o n).reports = s.reports ∧ (s.moveUse o n).freeIndex = s.freeIndex := by
  unfold State.moveUse
  dsimp only
  (repeat' split) <;> simp

/-- Use counts stand in the page table. -/
@[simp] theorem foldl_moveUse_same (f : Ticket → Ticket) (l : List Ticket) (s : State) :
    ((l.foldl (fun acc t => acc.moveUse t (f t)) s)).pending = s.pending ∧
    ((l.foldl (fun acc t => acc.moveUse t (f t)) s)).straps = s.straps ∧
    ((l.foldl (fun acc t => acc.moveUse t (f t)) s)).framer = s.framer ∧
    ((l.foldl (fun acc t => acc.moveUse t (f t)) s)).intake = s.intake ∧
    ((l.foldl (fun acc t => acc.moveUse t (f t)) s)).store = s.store ∧
    ((l.foldl (fun acc t => acc.moveUse t (f t)) s)).repair = s.repair ∧
    ((l.foldl (fun acc t => acc.moveUse t (f t)) s)).prefetch = s.prefetch ∧
    ((l.foldl (fun acc t => acc.moveUse t (f t)) s)).screener = s.screener ∧
    ((l.foldl (fun acc t => acc.moveUse t (f t)) s)).schedule = s.schedule ∧
    ((l.foldl (fun acc t => acc.moveUse t (f t)) s)).drive = s.drive ∧
    ((l.foldl (fun acc t => acc.moveUse t (f t)) s)).restart = s.restart ∧
    ((l.foldl (fun acc t => acc.moveUse t (f t)) s)).reports = s.reports ∧
    ((l.foldl (fun acc t => acc.moveUse t (f t)) s)).freeIndex = s.freeIndex := by
  induction l generalizing s with
  | nil => simp
  | cons t l ih => simp [ih]

/-- The computation of bindings changes the page table, the schedule, the drive and Prefetch only. -/
@[simp] theorem State.reresolve_same (s : State) (n : Nat) :
    (s.reresolve n).pending = s.pending ∧ (s.reresolve n).straps = s.straps ∧ (s.reresolve n).framer = s.framer ∧
    (s.reresolve n).intake = s.intake ∧ (s.reresolve n).store = s.store ∧ (s.reresolve n).repair = s.repair ∧
    (s.reresolve n).screener = s.screener ∧ (s.reresolve n).restart = s.restart ∧
    (s.reresolve n).reports = s.reports ∧ (s.reresolve n).freeIndex = s.freeIndex := by
  simp [State.reresolve]

/-- A ticket that leaves changes the schedule and the page table only. -/
@[simp] theorem State.removeTicket_same (s : State) (t : Ticket) :
    (s.removeTicket t).pending = s.pending ∧ (s.removeTicket t).straps = s.straps ∧
    (s.removeTicket t).framer = s.framer ∧ (s.removeTicket t).intake = s.intake ∧
    (s.removeTicket t).store = s.store ∧ (s.removeTicket t).repair = s.repair ∧
    (s.removeTicket t).prefetch = s.prefetch ∧ (s.removeTicket t).screener = s.screener ∧
    (s.removeTicket t).drive = s.drive ∧ (s.removeTicket t).restart = s.restart ∧
    (s.removeTicket t).reports = s.reports ∧ (s.removeTicket t).freeIndex = s.freeIndex := by
  simp [State.removeTicket]

/-- The counter and alarm of an end stand in the report unit. -/
@[simp] theorem State.tallyOutcome_same (s : State) (o : PlateOutcome) :
    (s.tallyOutcome o).pending = s.pending ∧ (s.tallyOutcome o).straps = s.straps ∧
    (s.tallyOutcome o).framer = s.framer ∧ (s.tallyOutcome o).intake = s.intake ∧
    (s.tallyOutcome o).pages = s.pages ∧ (s.tallyOutcome o).store = s.store ∧ (s.tallyOutcome o).repair = s.repair ∧
    (s.tallyOutcome o).prefetch = s.prefetch ∧ (s.tallyOutcome o).screener = s.screener ∧
    (s.tallyOutcome o).schedule = s.schedule ∧ (s.tallyOutcome o).drive = s.drive ∧
    (s.tallyOutcome o).restart = s.restart ∧ (s.tallyOutcome o).freeIndex = s.freeIndex := by
  cases o <;> simp [State.tallyOutcome]

/-- The end of a ticket changes the schedule, the page table and the report unit only. -/
@[simp] theorem State.endTicket_same (s : State) (pl : Plate) (o : PlateOutcome) :
    (s.endTicket pl o).pending = s.pending ∧ (s.endTicket pl o).straps = s.straps ∧
    (s.endTicket pl o).framer = s.framer ∧ (s.endTicket pl o).intake = s.intake ∧
    (s.endTicket pl o).store = s.store ∧ (s.endTicket pl o).repair = s.repair ∧
    (s.endTicket pl o).prefetch = s.prefetch ∧ (s.endTicket pl o).screener = s.screener ∧
    (s.endTicket pl o).drive = s.drive ∧ (s.endTicket pl o).restart = s.restart ∧
    (s.endTicket pl o).freeIndex = s.freeIndex := by
  unfold State.endTicket
  (repeat' split) <;> simp

/-- A short end changes the drive, Prefetch, the schedule, the page table and the report unit only. -/
@[simp] theorem State.endShort_same (s : State) (o : PlateOutcome) :
    (s.endShort o).pending = s.pending ∧ (s.endShort o).straps = s.straps ∧ (s.endShort o).framer = s.framer ∧
    (s.endShort o).intake = s.intake ∧ (s.endShort o).store = s.store ∧ (s.endShort o).repair = s.repair ∧
    (s.endShort o).screener = s.screener ∧ (s.endShort o).restart = s.restart ∧
    (s.endShort o).freeIndex = s.freeIndex := by
  unfold State.endShort
  dsimp only
  (repeat' split) <;> simp

/-- The end of a plate changes the drive, Prefetch, the schedule, the page table and the report unit only. -/
@[simp] theorem State.endDone_same (s : State) (pl : Plate) :
    (s.endDone pl).pending = s.pending ∧ (s.endDone pl).straps = s.straps ∧ (s.endDone pl).framer = s.framer ∧
    (s.endDone pl).intake = s.intake ∧ (s.endDone pl).store = s.store ∧ (s.endDone pl).repair = s.repair ∧
    (s.endDone pl).screener = s.screener ∧ (s.endDone pl).restart = s.restart ∧
    (s.endDone pl).freeIndex = s.freeIndex := by
  simp [State.endDone]

/-- A halt request changes the drive, Prefetch, the schedule, the page table and the report unit only. -/
@[simp] theorem State.haltRequest_same (s : State) :
    (s.haltRequest).pending = s.pending ∧ (s.haltRequest).straps = s.straps ∧ (s.haltRequest).framer = s.framer ∧
    (s.haltRequest).intake = s.intake ∧ (s.haltRequest).store = s.store ∧ (s.haltRequest).repair = s.repair ∧
    (s.haltRequest).screener = s.screener ∧ (s.haltRequest).restart = s.restart ∧
    (s.haltRequest).freeIndex = s.freeIndex := by
  unfold State.haltRequest
  dsimp only
  (repeat' split) <;> simp

/-- A halt sample changes the drive, Prefetch, the schedule, the page table and the report unit only. -/
@[simp] theorem State.haltSample_same (s : State) (h : Bool) :
    (s.haltSample h).pending = s.pending ∧ (s.haltSample h).straps = s.straps ∧ (s.haltSample h).framer = s.framer ∧
    (s.haltSample h).intake = s.intake ∧ (s.haltSample h).store = s.store ∧ (s.haltSample h).repair = s.repair ∧
    (s.haltSample h).screener = s.screener ∧ (s.haltSample h).restart = s.restart ∧
    (s.haltSample h).freeIndex = s.freeIndex := by
  unfold State.haltSample
  dsimp only
  (repeat' split) <;> simp

/-- The first damage stands in the page table and the report unit. -/
@[simp] theorem State.noteDamage_same (s : State) (r : Nat) (p : PageRecord) :
    (s.noteDamage r p).pending = s.pending ∧ (s.noteDamage r p).straps = s.straps ∧
    (s.noteDamage r p).framer = s.framer ∧ (s.noteDamage r p).intake = s.intake ∧
    (s.noteDamage r p).store = s.store ∧ (s.noteDamage r p).repair = s.repair ∧
    (s.noteDamage r p).prefetch = s.prefetch ∧ (s.noteDamage r p).screener = s.screener ∧
    (s.noteDamage r p).schedule = s.schedule ∧ (s.noteDamage r p).drive = s.drive ∧
    (s.noteDamage r p).restart = s.restart ∧ (s.noteDamage r p).freeIndex = s.freeIndex := by
  unfold State.noteDamage
  (repeat' split) <;> simp

/-- A changed page state reaches the page table, the report unit and the schedule. -/
@[simp] theorem State.pageChanged_same (s : State) (r : Nat) (p : PageRecord) :
    (s.pageChanged r p).pending = s.pending ∧ (s.pageChanged r p).straps = s.straps ∧
    (s.pageChanged r p).framer = s.framer ∧ (s.pageChanged r p).intake = s.intake ∧
    (s.pageChanged r p).store = s.store ∧ (s.pageChanged r p).repair = s.repair ∧
    (s.pageChanged r p).screener = s.screener ∧ (s.pageChanged r p).restart = s.restart ∧
    (s.pageChanged r p).freeIndex = s.freeIndex := by
  unfold State.pageChanged
  dsimp only
  (repeat' split) <;> simp

/-- A derivation reaches the page table, the report unit and the schedule. -/
@[simp] theorem State.derivePage_same (s : State) (r : Nat) :
    (s.derivePage r).pending = s.pending ∧ (s.derivePage r).straps = s.straps ∧ (s.derivePage r).framer = s.framer ∧
    (s.derivePage r).intake = s.intake ∧ (s.derivePage r).store = s.store ∧ (s.derivePage r).repair = s.repair ∧
    (s.derivePage r).screener = s.screener ∧ (s.derivePage r).restart = s.restart ∧
    (s.derivePage r).freeIndex = s.freeIndex := by
  unfold State.derivePage
  (repeat' split) <;> simp

/-- The repair queue stands in Repair. -/
@[simp] theorem State.joinRepair_same (s : State) (t : LayerRef) :
    (s.joinRepair t).pending = s.pending ∧ (s.joinRepair t).straps = s.straps ∧ (s.joinRepair t).framer = s.framer ∧
    (s.joinRepair t).intake = s.intake ∧ (s.joinRepair t).pages = s.pages ∧ (s.joinRepair t).store = s.store ∧
    (s.joinRepair t).prefetch = s.prefetch ∧ (s.joinRepair t).screener = s.screener ∧
    (s.joinRepair t).schedule = s.schedule ∧ (s.joinRepair t).drive = s.drive ∧
    (s.joinRepair t).restart = s.restart ∧ (s.joinRepair t).reports = s.reports ∧
    (s.joinRepair t).freeIndex = s.freeIndex := by
  unfold State.joinRepair
  (repeat' split) <;> simp

/-- The repair queue stands in Repair. -/
@[simp] theorem State.leaveRepair_same (s : State) (t : LayerRef) :
    (s.leaveRepair t).pending = s.pending ∧ (s.leaveRepair t).straps = s.straps ∧
    (s.leaveRepair t).framer = s.framer ∧ (s.leaveRepair t).intake = s.intake ∧ (s.leaveRepair t).pages = s.pages ∧
    (s.leaveRepair t).store = s.store ∧ (s.leaveRepair t).prefetch = s.prefetch ∧
    (s.leaveRepair t).screener = s.screener ∧ (s.leaveRepair t).schedule = s.schedule ∧
    (s.leaveRepair t).drive = s.drive ∧ (s.leaveRepair t).restart = s.restart ∧
    (s.leaveRepair t).reports = s.reports ∧ (s.leaveRepair t).freeIndex = s.freeIndex := by
  unfold State.leaveRepair
  dsimp only
  (repeat' split) <;> simp

/-- A layer state stands in the page table; its entry stands in Repair. -/
@[simp] theorem State.setLayerState_same (s : State) (t : LayerRef) (o : LayerState) (n : LayerState) :
    (s.setLayerState t o n).pending = s.pending ∧ (s.setLayerState t o n).straps = s.straps ∧
    (s.setLayerState t o n).framer = s.framer ∧ (s.setLayerState t o n).intake = s.intake ∧
    (s.setLayerState t o n).store = s.store ∧ (s.setLayerState t o n).prefetch = s.prefetch ∧
    (s.setLayerState t o n).screener = s.screener ∧ (s.setLayerState t o n).schedule = s.schedule ∧
    (s.setLayerState t o n).drive = s.drive ∧ (s.setLayerState t o n).restart = s.restart ∧
    (s.setLayerState t o n).reports = s.reports ∧ (s.setLayerState t o n).freeIndex = s.freeIndex := by
  unfold State.setLayerState
  dsimp only
  (repeat' split) <;> simp

/-- An evaluation changes the page table and Repair only. -/
@[simp] theorem State.evaluateLayer_same (s : State) (t : LayerRef) :
    (s.evaluateLayer t).pending = s.pending ∧ (s.evaluateLayer t).straps = s.straps ∧
    (s.evaluateLayer t).framer = s.framer ∧ (s.evaluateLayer t).intake = s.intake ∧
    (s.evaluateLayer t).store = s.store ∧ (s.evaluateLayer t).prefetch = s.prefetch ∧
    (s.evaluateLayer t).screener = s.screener ∧ (s.evaluateLayer t).schedule = s.schedule ∧
    (s.evaluateLayer t).drive = s.drive ∧ (s.evaluateLayer t).restart = s.restart ∧
    (s.evaluateLayer t).reports = s.reports ∧ (s.evaluateLayer t).freeIndex = s.freeIndex := by
  unfold State.evaluateLayer
  (repeat' split) <;> simp

/-- An event of evaluation reaches the page table, Repair, the report unit and the schedule. -/
@[simp] theorem State.evaluationEvent_same (s : State) (t : LayerRef) :
    (s.evaluationEvent t).pending = s.pending ∧ (s.evaluationEvent t).straps = s.straps ∧
    (s.evaluationEvent t).framer = s.framer ∧ (s.evaluationEvent t).intake = s.intake ∧
    (s.evaluationEvent t).store = s.store ∧ (s.evaluationEvent t).screener = s.screener ∧
    (s.evaluationEvent t).restart = s.restart ∧ (s.evaluationEvent t).freeIndex = s.freeIndex := by
  simp [State.evaluationEvent]

/-- The issue of a write reaches the page table, the report unit and the schedule. -/
@[simp] theorem State.noteIssue_same (s : State) (w : StoreWrite) (n : Nat) :
    (s.noteIssue w n).pending = s.pending ∧ (s.noteIssue w n).straps = s.straps ∧
    (s.noteIssue w n).framer = s.framer ∧ (s.noteIssue w n).intake = s.intake ∧ (s.noteIssue w n).store = s.store ∧
    (s.noteIssue w n).repair = s.repair ∧ (s.noteIssue w n).screener = s.screener ∧
    (s.noteIssue w n).restart = s.restart ∧ (s.noteIssue w n).freeIndex = s.freeIndex := by
  simp [State.noteIssue]

/-- A freed record leaves the page table, and its tiles join the pool. -/
@[simp] theorem State.freeRecord_same (s : State) (r : Nat) (p : PageRecord) :
    (s.freeRecord r p).pending = s.pending ∧ (s.freeRecord r p).straps = s.straps ∧
    (s.freeRecord r p).framer = s.framer ∧ (s.freeRecord r p).intake = s.intake ∧
    (s.freeRecord r p).repair = s.repair ∧ (s.freeRecord r p).prefetch = s.prefetch ∧
    (s.freeRecord r p).screener = s.screener ∧ (s.freeRecord r p).schedule = s.schedule ∧
    (s.freeRecord r p).drive = s.drive ∧ (s.freeRecord r p).restart = s.restart ∧
    (s.freeRecord r p).reports = s.reports ∧ (s.freeRecord r p).freeIndex = s.freeIndex := by
  simp [State.freeRecord]

/-- The end of a reconstruction reaches the page table, Repair, the report unit and the schedule. -/
@[simp] theorem State.reconstructionWritten_same (s : State) (t : LayerRef) :
    (s.reconstructionWritten t).pending = s.pending ∧ (s.reconstructionWritten t).straps = s.straps ∧
    (s.reconstructionWritten t).framer = s.framer ∧ (s.reconstructionWritten t).intake = s.intake ∧
    (s.reconstructionWritten t).store = s.store ∧ (s.reconstructionWritten t).screener = s.screener ∧
    (s.reconstructionWritten t).restart = s.restart ∧ (s.reconstructionWritten t).freeIndex = s.freeIndex := by
  unfold State.reconstructionWritten
  dsimp only
  (repeat' split) <;> simp

/-- The Page table at the completion of a write. -/
@[simp] theorem State.noteCompletion_same (s : State) (w : StoreWrite) (b : Bool) :
    (s.noteCompletion w b).pending = s.pending ∧ (s.noteCompletion w b).straps = s.straps ∧
    (s.noteCompletion w b).framer = s.framer ∧ (s.noteCompletion w b).screener = s.screener ∧
    (s.noteCompletion w b).restart = s.restart ∧ (s.noteCompletion w b).freeIndex = s.freeIndex := by
  unfold State.noteCompletion
  dsimp only
  (repeat' split) <;> simp

/-- A retired tile leaves its place. -/
@[simp] theorem State.leavePlace_same (s : State) (t : Nat) :
    (s.leavePlace t).pending = s.pending ∧ (s.leavePlace t).straps = s.straps ∧ (s.leavePlace t).framer = s.framer ∧
    (s.leavePlace t).store = s.store ∧ (s.leavePlace t).screener = s.screener ∧
    (s.leavePlace t).restart = s.restart ∧ (s.leavePlace t).freeIndex = s.freeIndex := by
  unfold State.leavePlace
  (repeat' split) <;> simp

/-- A retirement. -/
@[simp] theorem State.retireTile_same (s : State) (t : Nat) :
    (s.retireTile t).pending = s.pending ∧ (s.retireTile t).straps = s.straps ∧ (s.retireTile t).framer = s.framer ∧
    (s.retireTile t).screener = s.screener ∧ (s.retireTile t).restart = s.restart ∧
    (s.retireTile t).freeIndex = s.freeIndex := by
  unfold State.retireTile
  dsimp only
  split <;> simp

/-- A failed result reaches Repair or Prefetch. -/
@[simp] theorem State.deliverFailure_same (s : State) (r : StoreRead) :
    (s.deliverFailure r).pending = s.pending ∧ (s.deliverFailure r).straps = s.straps ∧
    (s.deliverFailure r).framer = s.framer ∧ (s.deliverFailure r).intake = s.intake ∧
    (s.deliverFailure r).pages = s.pages ∧ (s.deliverFailure r).store = s.store ∧
    (s.deliverFailure r).screener = s.screener ∧ (s.deliverFailure r).schedule = s.schedule ∧
    (s.deliverFailure r).restart = s.restart ∧ (s.deliverFailure r).freeIndex = s.freeIndex := by
  unfold State.deliverFailure
  (repeat' split) <;> simp

/-- The arbiter's choice changes the store, and Repair or Prefetch where a read of a retired tile is answered. -/
@[simp] theorem State.serve_same (n : Nat) (s : State) :
    (State.serve n s).pending = s.pending ∧ (State.serve n s).straps = s.straps ∧
    (State.serve n s).framer = s.framer ∧ (State.serve n s).intake = s.intake ∧ (State.serve n s).pages = s.pages ∧
    (State.serve n s).screener = s.screener ∧ (State.serve n s).schedule = s.schedule ∧
    (State.serve n s).restart = s.restart ∧ (State.serve n s).freeIndex = s.freeIndex := by
  induction n generalizing s with
  | zero => simp [State.serve]
  | succ n ih =>
    unfold State.serve
    (repeat' split) <;> simp [ih]

/-- The arbiter's choice changes the store, and Repair or Prefetch where a read of a retired tile is answered. -/
@[simp] theorem State.arbitrate_same (s : State) :
    (s.arbitrate).pending = s.pending ∧ (s.arbitrate).straps = s.straps ∧ (s.arbitrate).framer = s.framer ∧
    (s.arbitrate).intake = s.intake ∧ (s.arbitrate).pages = s.pages ∧ (s.arbitrate).screener = s.screener ∧
    (s.arbitrate).schedule = s.schedule ∧ (s.arbitrate).restart = s.restart ∧ (s.arbitrate).freeIndex = s.freeIndex := by
  unfold State.arbitrate
  (repeat' split) <;> simp

/-- The beginning of a reconstruction changes Repair and the store only. -/
@[simp] theorem State.beginRepair_same (s : State) :
    (s.beginRepair).pending = s.pending ∧ (s.beginRepair).straps = s.straps ∧ (s.beginRepair).framer = s.framer ∧
    (s.beginRepair).intake = s.intake ∧ (s.beginRepair).pages = s.pages ∧ (s.beginRepair).prefetch = s.prefetch ∧
    (s.beginRepair).screener = s.screener ∧ (s.beginRepair).schedule = s.schedule ∧
    (s.beginRepair).drive = s.drive ∧ (s.beginRepair).restart = s.restart ∧ (s.beginRepair).reports = s.reports ∧
    (s.beginRepair).freeIndex = s.freeIndex := by
  unfold State.beginRepair
  dsimp only
  (repeat' split) <;> exact ⟨rfl, rfl, rfl, rfl, rfl, rfl, rfl, rfl, rfl, rfl, rfl, rfl⟩

/-- The issue of a reconstruction write. -/
@[simp] theorem State.issueReconstruction_same (s : State) (t : LayerRef) (l : LayerRecord) (i : Nat)
    (tile : Nat) (acc : List Byte) :
    (s.issueReconstruction t l i tile acc).pending = s.pending ∧
    (s.issueReconstruction t l i tile acc).straps = s.straps ∧
    (s.issueReconstruction t l i tile acc).framer = s.framer ∧
    (s.issueReconstruction t l i tile acc).intake = s.intake ∧
    (s.issueReconstruction t l i tile acc).screener = s.screener ∧
    (s.issueReconstruction t l i tile acc).restart = s.restart ∧
    (s.issueReconstruction t l i tile acc).freeIndex = s.freeIndex := by
  simp [State.issueReconstruction]

/-- A reconstruction that finds no tile. -/
@[simp] theorem State.reconstructionFails_same (s : State) (t : LayerRef) :
    (s.reconstructionFails t).pending = s.pending ∧ (s.reconstructionFails t).straps = s.straps ∧
    (s.reconstructionFails t).framer = s.framer ∧ (s.reconstructionFails t).intake = s.intake ∧
    (s.reconstructionFails t).store = s.store ∧ (s.reconstructionFails t).screener = s.screener ∧
    (s.reconstructionFails t).restart = s.restart ∧ (s.reconstructionFails t).freeIndex = s.freeIndex := by
  simp [State.reconstructionFails]

/-- The end of the reads of a reconstruction. -/
@[simp] theorem State.finishReconstruction_same (s : State) (t : LayerRef) (l : LayerRecord) (i : Nat)
    (acc : List Byte) :
    (s.finishReconstruction t l i acc).pending = s.pending ∧ (s.finishReconstruction t l i acc).straps = s.straps ∧
    (s.finishReconstruction t l i acc).framer = s.framer ∧
    (s.finishReconstruction t l i acc).screener = s.screener ∧
    (s.finishReconstruction t l i acc).restart = s.restart ∧
    (s.finishReconstruction t l i acc).freeIndex = s.freeIndex := by
  unfold State.finishReconstruction
  (repeat' split) <;> simp

/-- A passed result of Repair. -/
@[simp] theorem State.repairPassed_same (s : State) (data : List (List Byte)) :
    (s.repairPassed data).pending = s.pending ∧ (s.repairPassed data).straps = s.straps ∧
    (s.repairPassed data).framer = s.framer ∧ (s.repairPassed data).screener = s.screener ∧
    (s.repairPassed data).restart = s.restart ∧ (s.repairPassed data).freeIndex = s.freeIndex := by
  unfold State.repairPassed
  dsimp only
  (repeat' split) <;> simp

/-- A passed result reaches its requester. -/
@[simp] theorem State.deliverData_same (s : State) (r : StoreRead) (data : List (List Byte)) :
    (s.deliverData r data).pending = s.pending ∧ (s.deliverData r data).straps = s.straps ∧
    (s.deliverData r data).framer = s.framer ∧ (s.deliverData r data).screener = s.screener ∧
    (s.deliverData r data).restart = s.restart ∧ (s.deliverData r data).freeIndex = s.freeIndex := by
  unfold State.deliverData
  (repeat' split) <;> simp

/-- The completion of a read. -/
@[simp] theorem State.completeRead_same (s : State) (r : StoreRead) (faults : List DramFault) :
    (s.completeRead r faults).pending = s.pending ∧ (s.completeRead r faults).straps = s.straps ∧
    (s.completeRead r faults).framer = s.framer ∧ (s.completeRead r faults).screener = s.screener ∧
    (s.completeRead r faults).restart = s.restart ∧ (s.completeRead r faults).freeIndex = s.freeIndex := by
  unfold State.completeRead
  dsimp only
  (repeat' split) <;> simp

/-- The writer of a completed write is released. -/
@[simp] theorem State.releaseWriter_same (s : State) (w : WriteRef) :
    (s.releaseWriter w).pending = s.pending ∧ (s.releaseWriter w).straps = s.straps ∧
    (s.releaseWriter w).framer = s.framer ∧ (s.releaseWriter w).pages = s.pages ∧
    (s.releaseWriter w).store = s.store ∧ (s.releaseWriter w).prefetch = s.prefetch ∧
    (s.releaseWriter w).screener = s.screener ∧ (s.releaseWriter w).schedule = s.schedule ∧
    (s.releaseWriter w).drive = s.drive ∧ (s.releaseWriter w).restart = s.restart ∧
    (s.releaseWriter w).reports = s.reports ∧ (s.releaseWriter w).freeIndex = s.freeIndex := by
  unfold State.releaseWriter
  (repeat' split) <;> simp

/-- The completion of a write. -/
@[simp] theorem State.completeWrite_same (s : State) (ref : WriteRef) (w : StoreWrite) :
    (s.completeWrite ref w).pending = s.pending ∧ (s.completeWrite ref w).straps = s.straps ∧
    (s.completeWrite ref w).framer = s.framer ∧ (s.completeWrite ref w).screener = s.screener ∧
    (s.completeWrite ref w).restart = s.restart ∧ (s.completeWrite ref w).freeIndex = s.freeIndex := by
  simp [State.completeWrite]

/-- A malformed drop counts and latches. -/
@[simp] theorem State.countMalformed_same (s : State) :
    (s.countMalformed).pending = s.pending ∧ (s.countMalformed).straps = s.straps ∧
    (s.countMalformed).framer = s.framer ∧ (s.countMalformed).intake = s.intake ∧
    (s.countMalformed).pages = s.pages ∧ (s.countMalformed).store = s.store ∧ (s.countMalformed).repair = s.repair ∧
    (s.countMalformed).prefetch = s.prefetch ∧ (s.countMalformed).screener = s.screener ∧
    (s.countMalformed).schedule = s.schedule ∧ (s.countMalformed).drive = s.drive ∧
    (s.countMalformed).restart = s.restart ∧ (s.countMalformed).freeIndex = s.freeIndex := by
  simp [State.countMalformed]

/-- A start marker reaches the Framer and the report unit only. -/
@[simp] theorem State.startMarker_same (s : State) :
    (s.startMarker).pending = s.pending ∧ (s.startMarker).straps = s.straps ∧ (s.startMarker).intake = s.intake ∧
    (s.startMarker).pages = s.pages ∧ (s.startMarker).store = s.store ∧ (s.startMarker).repair = s.repair ∧
    (s.startMarker).prefetch = s.prefetch ∧ (s.startMarker).screener = s.screener ∧
    (s.startMarker).schedule = s.schedule ∧ (s.startMarker).drive = s.drive ∧ (s.startMarker).restart = s.restart ∧
    (s.startMarker).freeIndex = s.freeIndex := by
  unfold State.startMarker
  dsimp only
  split <;> simp

/-- A complete parcel reaches Intake and the report unit only. -/
@[simp] theorem State.offerParcel_same (s : State) (b : List Byte) :
    (s.offerParcel b).pending = s.pending ∧ (s.offerParcel b).straps = s.straps ∧
    (s.offerParcel b).framer = s.framer ∧ (s.offerParcel b).pages = s.pages ∧ (s.offerParcel b).store = s.store ∧
    (s.offerParcel b).repair = s.repair ∧ (s.offerParcel b).prefetch = s.prefetch ∧
    (s.offerParcel b).screener = s.screener ∧ (s.offerParcel b).schedule = s.schedule ∧
    (s.offerParcel b).drive = s.drive ∧ (s.offerParcel b).restart = s.restart ∧
    (s.offerParcel b).freeIndex = s.freeIndex := by
  unfold State.offerParcel
  (repeat' split) <;> simp

/-- A data byte reaches the Framer, Intake and the report unit only. -/
@[simp] theorem State.framerByte_same (s : State) (b : Byte) :
    (s.framerByte b).pending = s.pending ∧ (s.framerByte b).straps = s.straps ∧ (s.framerByte b).pages = s.pages ∧
    (s.framerByte b).store = s.store ∧ (s.framerByte b).repair = s.repair ∧ (s.framerByte b).prefetch = s.prefetch ∧
    (s.framerByte b).screener = s.screener ∧ (s.framerByte b).schedule = s.schedule ∧
    (s.framerByte b).drive = s.drive ∧ (s.framerByte b).restart = s.restart ∧
    (s.framerByte b).freeIndex = s.freeIndex := by
  unfold State.framerByte
  (repeat' split) <;> simp

/-- The expiry reaches the Framer and the report unit only. -/
@[simp] theorem State.assemblyTimeout_same (s : State) :
    (s.assemblyTimeout).pending = s.pending ∧ (s.assemblyTimeout).straps = s.straps ∧
    (s.assemblyTimeout).intake = s.intake ∧ (s.assemblyTimeout).pages = s.pages ∧
    (s.assemblyTimeout).store = s.store ∧ (s.assemblyTimeout).repair = s.repair ∧
    (s.assemblyTimeout).prefetch = s.prefetch ∧ (s.assemblyTimeout).screener = s.screener ∧
    (s.assemblyTimeout).schedule = s.schedule ∧ (s.assemblyTimeout).drive = s.drive ∧
    (s.assemblyTimeout).restart = s.restart ∧ (s.assemblyTimeout).freeIndex = s.freeIndex := by
  unfold State.assemblyTimeout
  (repeat' split) <;> simp

/-- The issue of a segment write. -/
@[simp] theorem State.issueSegment_same (s : State) (i : Nat) (w : StoreWrite) (n : Nat) (a : Bool) :
    (s.issueSegment i w n a).pending = s.pending ∧ (s.issueSegment i w n a).straps = s.straps ∧
    (s.issueSegment i w n a).framer = s.framer ∧ (s.issueSegment i w n a).screener = s.screener ∧
    (s.issueSegment i w n a).restart = s.restart ∧ (s.issueSegment i w n a).freeIndex = s.freeIndex := by
  unfold State.issueSegment
  dsimp only
  split <;> simp

/-- The action on a verdict. -/
@[simp] theorem State.actOnJudged_same (s : State) (i : Nat) (h : SegHeader) (b : Bool) (p : List Byte) (j : Judged) :
    (s.actOnJudged i h b p j).pending = s.pending ∧ (s.actOnJudged i h b p j).straps = s.straps ∧
    (s.actOnJudged i h b p j).framer = s.framer ∧ (s.actOnJudged i h b p j).screener = s.screener ∧
    (s.actOnJudged i h b p j).restart = s.restart ∧ (s.actOnJudged i h b p j).freeIndex = s.freeIndex := by
  cases j <;> simp [State.actOnJudged]

/-- The taking of a segment or parity parcel. -/
@[simp] theorem State.takeSegmentParcel_same (s : State) :
    (s.takeSegmentParcel).pending = s.pending ∧ (s.takeSegmentParcel).straps = s.straps ∧
    (s.takeSegmentParcel).framer = s.framer ∧ (s.takeSegmentParcel).screener = s.screener ∧
    (s.takeSegmentParcel).restart = s.restart ∧ (s.takeSegmentParcel).freeIndex = s.freeIndex := by
  unfold State.takeSegmentParcel
  (repeat' split) <;> simp

/-- The STARTED report changes the report unit only. -/
@[simp] theorem State.announceStart_same (s : State) (c : StartCause) :
    (s.announceStart c).pending = s.pending ∧ (s.announceStart c).straps = s.straps ∧
    (s.announceStart c).framer = s.framer ∧ (s.announceStart c).intake = s.intake ∧
    (s.announceStart c).pages = s.pages ∧ (s.announceStart c).store = s.store ∧
    (s.announceStart c).repair = s.repair ∧ (s.announceStart c).prefetch = s.prefetch ∧
    (s.announceStart c).screener = s.screener ∧ (s.announceStart c).schedule = s.schedule ∧
    (s.announceStart c).drive = s.drive ∧ (s.announceStart c).restart = s.restart ∧
    (s.announceStart c).freeIndex = s.freeIndex := by
  unfold State.announceStart
  dsimp only
  split <;> simp

/-- The end of the sweep. -/
@[simp] theorem State.endSweep_same (s : State) :
    (s.endSweep).pending = s.pending ∧ (s.endSweep).straps = s.straps ∧ (s.endSweep).framer = s.framer ∧
    (s.endSweep).pages = s.pages ∧ (s.endSweep).repair = s.repair ∧ (s.endSweep).prefetch = s.prefetch ∧
    (s.endSweep).screener = s.screener ∧ (s.endSweep).schedule = s.schedule ∧ (s.endSweep).drive = s.drive ∧
    (s.endSweep).restart = s.restart ∧ (s.endSweep).freeIndex = s.freeIndex := by
  unfold State.endSweep
  dsimp only
  (repeat' split) <;> simp

/-- The test of a tile changes the store only. -/
@[simp] theorem State.testTile_same (s : State) (t : Nat) (p : Bool) :
    (s.testTile t p).pending = s.pending ∧ (s.testTile t p).straps = s.straps ∧ (s.testTile t p).framer = s.framer ∧
    (s.testTile t p).intake = s.intake ∧ (s.testTile t p).pages = s.pages ∧ (s.testTile t p).repair = s.repair ∧
    (s.testTile t p).prefetch = s.prefetch ∧ (s.testTile t p).screener = s.screener ∧
    (s.testTile t p).schedule = s.schedule ∧ (s.testTile t p).drive = s.drive ∧
    (s.testTile t p).restart = s.restart ∧ (s.testTile t p).reports = s.reports ∧
    (s.testTile t p).freeIndex = s.freeIndex := by
  unfold State.testTile
  dsimp only
  split <;> simp

/-- A step of the sweep. -/
@[simp] theorem State.sweepTileTest_same (s : State) (x : List DramFault) (y : List DramFault) :
    (s.sweepTileTest x y).pending = s.pending ∧ (s.sweepTileTest x y).straps = s.straps ∧
    (s.sweepTileTest x y).framer = s.framer ∧ (s.sweepTileTest x y).pages = s.pages ∧
    (s.sweepTileTest x y).repair = s.repair ∧ (s.sweepTileTest x y).prefetch = s.prefetch ∧
    (s.sweepTileTest x y).screener = s.screener ∧ (s.sweepTileTest x y).schedule = s.schedule ∧
    (s.sweepTileTest x y).drive = s.drive ∧ (s.sweepTileTest x y).restart = s.restart ∧
    (s.sweepTileTest x y).freeIndex = s.freeIndex := by
  unfold State.sweepTileTest
  dsimp only
  (repeat' split) <;> simp

/-- A refusal changes the report unit only (R166). -/
@[simp] theorem State.refuse_same (s : State) (d : Directive) (r : Reason) (b : List Byte) :
    (s.refuse d r b).pending = s.pending ∧ (s.refuse d r b).straps = s.straps ∧ (s.refuse d r b).framer = s.framer ∧
    (s.refuse d r b).intake = s.intake ∧ (s.refuse d r b).pages = s.pages ∧ (s.refuse d r b).store = s.store ∧
    (s.refuse d r b).repair = s.repair ∧ (s.refuse d r b).prefetch = s.prefetch ∧
    (s.refuse d r b).screener = s.screener ∧ (s.refuse d r b).schedule = s.schedule ∧
    (s.refuse d r b).drive = s.drive ∧ (s.refuse d r b).restart = s.restart ∧
    (s.refuse d r b).freeIndex = s.freeIndex := by
  simp [State.refuse]

/-- A reply changes the report unit only. -/
@[simp] theorem State.accept_same (s : State) (d : Directive) (b : List Byte) :
    (s.accept d b).pending = s.pending ∧ (s.accept d b).straps = s.straps ∧ (s.accept d b).framer = s.framer ∧
    (s.accept d b).intake = s.intake ∧ (s.accept d b).pages = s.pages ∧ (s.accept d b).store = s.store ∧
    (s.accept d b).repair = s.repair ∧ (s.accept d b).prefetch = s.prefetch ∧ (s.accept d b).screener = s.screener ∧
    (s.accept d b).schedule = s.schedule ∧ (s.accept d b).drive = s.drive ∧ (s.accept d b).restart = s.restart ∧
    (s.accept d b).freeIndex = s.freeIndex := by
  unfold State.accept
  (repeat' split) <;> simp

/-- The filling of a record. -/
@[simp] theorem State.fillRecord_same (s : State) (r : Nat) (a : OpenArgs) :
    (s.fillRecord r a).pending = s.pending ∧ (s.fillRecord r a).straps = s.straps ∧
    (s.fillRecord r a).framer = s.framer ∧ (s.fillRecord r a).intake = s.intake ∧
    (s.fillRecord r a).store = s.store ∧ (s.fillRecord r a).repair = s.repair ∧
    (s.fillRecord r a).screener = s.screener ∧ (s.fillRecord r a).restart = s.restart ∧
    (s.fillRecord r a).reports = s.reports ∧ (s.fillRecord r a).freeIndex = s.freeIndex := by
  simp [State.fillRecord]

/-- OPEN_PAGE. -/
@[simp] theorem State.openPage_same (s : State) (d : Directive) :
    (s.openPage d).pending = s.pending ∧ (s.openPage d).straps = s.straps ∧ (s.openPage d).framer = s.framer ∧
    (s.openPage d).intake = s.intake ∧ (s.openPage d).store = s.store ∧ (s.openPage d).repair = s.repair ∧
    (s.openPage d).screener = s.screener ∧ (s.openPage d).restart = s.restart ∧
    (s.openPage d).freeIndex = s.freeIndex := by
  unfold State.openPage
  dsimp only
  (repeat' split) <;> simp

/-- Evaluations change the page table and Repair only. -/
@[simp] theorem State.evaluateAll_same (s : State) (r : Nat) (layers : List LayerRecord) :
    ((s.evaluateAll r layers)).pending = s.pending ∧ ((s.evaluateAll r layers)).straps = s.straps ∧
    ((s.evaluateAll r layers)).framer = s.framer ∧ ((s.evaluateAll r layers)).intake = s.intake ∧
    ((s.evaluateAll r layers)).store = s.store ∧ ((s.evaluateAll r layers)).prefetch = s.prefetch ∧
    ((s.evaluateAll r layers)).screener = s.screener ∧ ((s.evaluateAll r layers)).schedule = s.schedule ∧
    ((s.evaluateAll r layers)).drive = s.drive ∧ ((s.evaluateAll r layers)).restart = s.restart ∧
    ((s.evaluateAll r layers)).reports = s.reports ∧ ((s.evaluateAll r layers)).freeIndex = s.freeIndex := by
  unfold State.evaluateAll
  induction layers generalizing s with
  | nil => simp
  | cons l ls ih => simp [ih]

/-- CLOSE_PAGE. -/
@[simp] theorem State.closePage_same (s : State) (d : Directive) :
    (s.closePage d).pending = s.pending ∧ (s.closePage d).straps = s.straps ∧ (s.closePage d).framer = s.framer ∧
    (s.closePage d).intake = s.intake ∧ (s.closePage d).store = s.store ∧ (s.closePage d).screener = s.screener ∧
    (s.closePage d).restart = s.restart ∧ (s.closePage d).freeIndex = s.freeIndex := by
  unfold State.closePage
  (repeat' split) <;> simp

/-- A withdrawal from repair changes Repair only. -/
@[simp] theorem State.withdrawFromRepair_same (s : State) (r : Nat) :
    (s.withdrawFromRepair r).pending = s.pending ∧ (s.withdrawFromRepair r).straps = s.straps ∧
    (s.withdrawFromRepair r).framer = s.framer ∧ (s.withdrawFromRepair r).intake = s.intake ∧
    (s.withdrawFromRepair r).pages = s.pages ∧ (s.withdrawFromRepair r).store = s.store ∧
    (s.withdrawFromRepair r).prefetch = s.prefetch ∧ (s.withdrawFromRepair r).screener = s.screener ∧
    (s.withdrawFromRepair r).schedule = s.schedule ∧ (s.withdrawFromRepair r).drive = s.drive ∧
    (s.withdrawFromRepair r).restart = s.restart ∧ (s.withdrawFromRepair r).reports = s.reports ∧
    (s.withdrawFromRepair r).freeIndex = s.freeIndex := by
  unfold State.withdrawFromRepair
  dsimp only
  (repeat' split) <;> simp

/-- A record that is freed or held. -/
@[simp] theorem State.releaseRecord_same (s : State) (r : Nat) (p : PageRecord) :
    ((s.releaseRecord r p).1).pending = s.pending ∧ ((s.releaseRecord r p).1).straps = s.straps ∧
    ((s.releaseRecord r p).1).framer = s.framer ∧ ((s.releaseRecord r p).1).intake = s.intake ∧
    ((s.releaseRecord r p).1).repair = s.repair ∧ ((s.releaseRecord r p).1).prefetch = s.prefetch ∧
    ((s.releaseRecord r p).1).screener = s.screener ∧ ((s.releaseRecord r p).1).schedule = s.schedule ∧
    ((s.releaseRecord r p).1).drive = s.drive ∧ ((s.releaseRecord r p).1).restart = s.restart ∧
    ((s.releaseRecord r p).1).reports = s.reports ∧ ((s.releaseRecord r p).1).freeIndex = s.freeIndex := by
  unfold State.releaseRecord
  split <;> simp

/-- RELEASE_PAGE. -/
@[simp] theorem State.releasePage_same (s : State) (d : Directive) :
    (s.releasePage d).pending = s.pending ∧ (s.releasePage d).straps = s.straps ∧
    (s.releasePage d).framer = s.framer ∧ (s.releasePage d).intake = s.intake ∧
    (s.releasePage d).screener = s.screener ∧ (s.releasePage d).restart = s.restart ∧
    (s.releasePage d).freeIndex = s.freeIndex := by
  unfold State.releasePage
  dsimp only
  (repeat' split) <;> simp

/-- A ticket that enters the schedule. -/
@[simp] theorem State.enterTicket_same (s : State) (f : Bool) (t : Ticket) :
    (s.enterTicket f t).pending = s.pending ∧ (s.enterTicket f t).straps = s.straps ∧
    (s.enterTicket f t).framer = s.framer ∧ (s.enterTicket f t).intake = s.intake ∧
    (s.enterTicket f t).store = s.store ∧ (s.enterTicket f t).repair = s.repair ∧
    (s.enterTicket f t).screener = s.screener ∧ (s.enterTicket f t).restart = s.restart ∧
    (s.enterTicket f t).reports = s.reports ∧ (s.enterTicket f t).freeIndex = s.freeIndex := by
  simp [State.enterTicket]

/-- POST_TICKET. -/
@[simp] theorem State.postTicket_same (s : State) (d : Directive) :
    (s.postTicket d).pending = s.pending ∧ (s.postTicket d).straps = s.straps ∧ (s.postTicket d).framer = s.framer ∧
    (s.postTicket d).intake = s.intake ∧ (s.postTicket d).store = s.store ∧ (s.postTicket d).repair = s.repair ∧
    (s.postTicket d).screener = s.screener ∧ (s.postTicket d).restart = s.restart ∧
    (s.postTicket d).freeIndex = s.freeIndex := by
  unfold State.postTicket
  dsimp only
  (repeat' split) <;> simp

/-- WITHDRAW_TICKET. -/
@[simp] theorem State.withdrawTicket_same (s : State) (d : Directive) :
    (s.withdrawTicket d).pending = s.pending ∧ (s.withdrawTicket d).straps = s.straps ∧
    (s.withdrawTicket d).framer = s.framer ∧ (s.withdrawTicket d).intake = s.intake ∧
    (s.withdrawTicket d).store = s.store ∧ (s.withdrawTicket d).repair = s.repair ∧
    (s.withdrawTicket d).screener = s.screener ∧ (s.withdrawTicket d).restart = s.restart ∧
    (s.withdrawTicket d).freeIndex = s.freeIndex := by
  unfold State.withdrawTicket
  (repeat' split) <;> simp

/-- A change of the tables reaches the schedule. -/
@[simp] theorem State.setScreener_same (s : State) (sc : Screener) :
    (s.setScreener sc).pending = s.pending ∧ (s.setScreener sc).straps = s.straps ∧
    (s.setScreener sc).framer = s.framer ∧ (s.setScreener sc).intake = s.intake ∧
    (s.setScreener sc).pages = s.pages ∧ (s.setScreener sc).store = s.store ∧ (s.setScreener sc).repair = s.repair ∧
    (s.setScreener sc).restart = s.restart ∧ (s.setScreener sc).reports = s.reports ∧
    (s.setScreener sc).freeIndex = s.freeIndex := by
  simp [State.setScreener]

/-- SCREEN_BEGIN. -/
@[simp] theorem State.screenBegin_same (s : State) (d : Directive) :
    (s.screenBegin d).pending = s.pending ∧ (s.screenBegin d).straps = s.straps ∧
    (s.screenBegin d).framer = s.framer ∧ (s.screenBegin d).intake = s.intake ∧ (s.screenBegin d).pages = s.pages ∧
    (s.screenBegin d).store = s.store ∧ (s.screenBegin d).repair = s.repair ∧
    (s.screenBegin d).restart = s.restart ∧ (s.screenBegin d).freeIndex = s.freeIndex := by
  unfold State.screenBegin
  dsimp only
  (repeat' split) <;> simp

/-- SCREEN_DATA. -/
@[simp] theorem State.screenData_same (s : State) (d : Directive) :
    (s.screenData d).pending = s.pending ∧ (s.screenData d).straps = s.straps ∧ (s.screenData d).framer = s.framer ∧
    (s.screenData d).intake = s.intake ∧ (s.screenData d).pages = s.pages ∧ (s.screenData d).store = s.store ∧
    (s.screenData d).repair = s.repair ∧ (s.screenData d).prefetch = s.prefetch ∧
    (s.screenData d).schedule = s.schedule ∧ (s.screenData d).drive = s.drive ∧
    (s.screenData d).restart = s.restart ∧ (s.screenData d).freeIndex = s.freeIndex := by
  unfold State.screenData
  dsimp only
  (repeat' split) <;> simp

/-- SCREEN_END. -/
@[simp] theorem State.screenEnd_same (s : State) (d : Directive) :
    (s.screenEnd d).pending = s.pending ∧ (s.screenEnd d).straps = s.straps ∧ (s.screenEnd d).framer = s.framer ∧
    (s.screenEnd d).intake = s.intake ∧ (s.screenEnd d).pages = s.pages ∧ (s.screenEnd d).store = s.store ∧
    (s.screenEnd d).repair = s.repair ∧ (s.screenEnd d).restart = s.restart ∧
    (s.screenEnd d).freeIndex = s.freeIndex := by
  unfold State.screenEnd
  (repeat' split) <;> simp

/-- CURVE_LOAD. -/
@[simp] theorem State.curveLoad_same (s : State) (d : Directive) :
    (s.curveLoad d).pending = s.pending ∧ (s.curveLoad d).straps = s.straps ∧ (s.curveLoad d).framer = s.framer ∧
    (s.curveLoad d).intake = s.intake ∧ (s.curveLoad d).pages = s.pages ∧ (s.curveLoad d).store = s.store ∧
    (s.curveLoad d).repair = s.repair ∧ (s.curveLoad d).restart = s.restart ∧
    (s.curveLoad d).freeIndex = s.freeIndex := by
  unfold State.curveLoad
  (repeat' split) <;> simp

/-- SET_INK. -/
@[simp] theorem State.setInk_same (s : State) (d : Directive) (i : Ink) (b : Option InkBinding) :
    (s.setInk d i b).pending = s.pending ∧ (s.setInk d i b).straps = s.straps ∧ (s.setInk d i b).framer = s.framer ∧
    (s.setInk d i b).intake = s.intake ∧ (s.setInk d i b).pages = s.pages ∧ (s.setInk d i b).store = s.store ∧
    (s.setInk d i b).repair = s.repair ∧ (s.setInk d i b).restart = s.restart ∧
    (s.setInk d i b).freeIndex = s.freeIndex := by
  simp [State.setInk]

/-- SET_INK, form BIND. -/
@[simp] theorem State.bindInk_same (s : State) (d : Directive) :
    (s.bindInk d).pending = s.pending ∧ (s.bindInk d).straps = s.straps ∧ (s.bindInk d).framer = s.framer ∧
    (s.bindInk d).intake = s.intake ∧ (s.bindInk d).pages = s.pages ∧ (s.bindInk d).store = s.store ∧
    (s.bindInk d).repair = s.repair ∧ (s.bindInk d).restart = s.restart ∧ (s.bindInk d).freeIndex = s.freeIndex := by
  unfold State.bindInk
  (repeat' split) <;> simp

/-- SET_INK, form UNBIND. -/
@[simp] theorem State.unbindInk_same (s : State) (d : Directive) :
    (s.unbindInk d).pending = s.pending ∧ (s.unbindInk d).straps = s.straps ∧ (s.unbindInk d).framer = s.framer ∧
    (s.unbindInk d).intake = s.intake ∧ (s.unbindInk d).pages = s.pages ∧ (s.unbindInk d).store = s.store ∧
    (s.unbindInk d).repair = s.repair ∧ (s.unbindInk d).restart = s.restart ∧
    (s.unbindInk d).freeIndex = s.freeIndex := by
  unfold State.unbindInk
  (repeat' split) <;> simp

/-- SET_FLOW. -/
@[simp] theorem State.setFlow_same (s : State) (d : Directive) :
    (s.setFlow d).pending = s.pending ∧ (s.setFlow d).straps = s.straps ∧ (s.setFlow d).framer = s.framer ∧
    (s.setFlow d).pages = s.pages ∧ (s.setFlow d).store = s.store ∧ (s.setFlow d).repair = s.repair ∧
    (s.setFlow d).prefetch = s.prefetch ∧ (s.setFlow d).screener = s.screener ∧
    (s.setFlow d).schedule = s.schedule ∧ (s.setFlow d).drive = s.drive ∧ (s.setFlow d).restart = s.restart ∧
    (s.setFlow d).freeIndex = s.freeIndex := by
  unfold State.setFlow
  (repeat' split) <;> simp

/-- SET_HEAD. -/
@[simp] theorem State.setHead_same (s : State) (d : Directive) :
    (s.setHead d).pending = s.pending ∧ (s.setHead d).straps = s.straps ∧ (s.setHead d).framer = s.framer ∧
    (s.setHead d).intake = s.intake ∧ (s.setHead d).pages = s.pages ∧ (s.setHead d).store = s.store ∧
    (s.setHead d).repair = s.repair ∧ (s.setHead d).screener = s.screener ∧ (s.setHead d).restart = s.restart ∧
    (s.setHead d).freeIndex = s.freeIndex := by
  unfold State.setHead
  dsimp only
  (repeat' split) <;> simp

/-- RESUME_HEAD. -/
@[simp] theorem State.resumeHead_same (s : State) (d : Directive) :
    (s.resumeHead d).pending = s.pending ∧ (s.resumeHead d).straps = s.straps ∧ (s.resumeHead d).framer = s.framer ∧
    (s.resumeHead d).intake = s.intake ∧ (s.resumeHead d).pages = s.pages ∧ (s.resumeHead d).store = s.store ∧
    (s.resumeHead d).repair = s.repair ∧ (s.resumeHead d).screener = s.screener ∧
    (s.resumeHead d).restart = s.restart ∧ (s.resumeHead d).freeIndex = s.freeIndex := by
  unfold State.resumeHead
  (repeat' split) <;> simp

/-- SET_ALARM_MASK. -/
@[simp] theorem State.setAlarmMask_same (s : State) (d : Directive) :
    (s.setAlarmMask d).pending = s.pending ∧ (s.setAlarmMask d).straps = s.straps ∧
    (s.setAlarmMask d).framer = s.framer ∧ (s.setAlarmMask d).intake = s.intake ∧
    (s.setAlarmMask d).pages = s.pages ∧ (s.setAlarmMask d).store = s.store ∧ (s.setAlarmMask d).repair = s.repair ∧
    (s.setAlarmMask d).prefetch = s.prefetch ∧ (s.setAlarmMask d).screener = s.screener ∧
    (s.setAlarmMask d).schedule = s.schedule ∧ (s.setAlarmMask d).drive = s.drive ∧
    (s.setAlarmMask d).restart = s.restart ∧ (s.setAlarmMask d).freeIndex = s.freeIndex := by
  simp [State.setAlarmMask]

/-- CLEAR_ALARMS. -/
@[simp] theorem State.clearAlarms_same (s : State) (d : Directive) :
    (s.clearAlarms d).pending = s.pending ∧ (s.clearAlarms d).straps = s.straps ∧
    (s.clearAlarms d).framer = s.framer ∧ (s.clearAlarms d).intake = s.intake ∧ (s.clearAlarms d).pages = s.pages ∧
    (s.clearAlarms d).store = s.store ∧ (s.clearAlarms d).repair = s.repair ∧
    (s.clearAlarms d).prefetch = s.prefetch ∧ (s.clearAlarms d).screener = s.screener ∧
    (s.clearAlarms d).schedule = s.schedule ∧ (s.clearAlarms d).drive = s.drive ∧
    (s.clearAlarms d).restart = s.restart ∧ (s.clearAlarms d).freeIndex = s.freeIndex := by
  simp [State.clearAlarms]

/-- QUERY PAGE. -/
@[simp] theorem State.queryPage_same (s : State) (d : Directive) :
    (s.queryPage d).pending = s.pending ∧ (s.queryPage d).straps = s.straps ∧ (s.queryPage d).framer = s.framer ∧
    (s.queryPage d).intake = s.intake ∧ (s.queryPage d).pages = s.pages ∧ (s.queryPage d).store = s.store ∧
    (s.queryPage d).repair = s.repair ∧ (s.queryPage d).prefetch = s.prefetch ∧
    (s.queryPage d).screener = s.screener ∧ (s.queryPage d).schedule = s.schedule ∧
    (s.queryPage d).drive = s.drive ∧ (s.queryPage d).restart = s.restart ∧ (s.queryPage d).freeIndex = s.freeIndex := by
  unfold State.queryPage
  (repeat' split) <;> simp

/-- QUERY COUNTERS with CLEAR. -/
@[simp] theorem State.clearCounters_same (s : State) (d : Directive) :
    (s.clearCounters d).pending = s.pending ∧ (s.clearCounters d).straps = s.straps ∧
    (s.clearCounters d).framer = s.framer ∧ (s.clearCounters d).intake = s.intake ∧
    (s.clearCounters d).pages = s.pages ∧ (s.clearCounters d).store = s.store ∧
    (s.clearCounters d).repair = s.repair ∧ (s.clearCounters d).prefetch = s.prefetch ∧
    (s.clearCounters d).screener = s.screener ∧ (s.clearCounters d).schedule = s.schedule ∧
    (s.clearCounters d).drive = s.drive ∧ (s.clearCounters d).restart = s.restart ∧
    (s.clearCounters d).freeIndex = s.freeIndex := by
  simp [State.clearCounters]

/-- The abort at a RESTART. -/
@[simp] theorem State.abortSchedule_same (s : State) :
    (s.abortSchedule).pending = s.pending ∧ (s.abortSchedule).straps = s.straps ∧
    (s.abortSchedule).framer = s.framer ∧ (s.abortSchedule).intake = s.intake ∧ (s.abortSchedule).store = s.store ∧
    (s.abortSchedule).repair = s.repair ∧ (s.abortSchedule).screener = s.screener ∧
    (s.abortSchedule).restart = s.restart ∧ (s.abortSchedule).reports = s.reports ∧
    (s.abortSchedule).freeIndex = s.freeIndex := by
  simp [State.abortSchedule]

/-- RESTART. -/
@[simp] theorem State.takeRestart_same (s : State) (d : Directive) :
    (s.takeRestart d).pending = s.pending ∧ (s.takeRestart d).straps = s.straps ∧
    (s.takeRestart d).framer = s.framer ∧ (s.takeRestart d).intake = s.intake ∧ (s.takeRestart d).store = s.store ∧
    (s.takeRestart d).reports = s.reports ∧ (s.takeRestart d).freeIndex = s.freeIndex := by
  simp [State.takeRestart]

/-- The reply to a RESTART. -/
@[simp] theorem State.replyRestart_same (s : State) (h : RestartHold) :
    (s.replyRestart h).pending = s.pending ∧ (s.replyRestart h).straps = s.straps ∧
    (s.replyRestart h).framer = s.framer ∧ (s.replyRestart h).intake = s.intake ∧
    (s.replyRestart h).pages = s.pages ∧ (s.replyRestart h).store = s.store ∧ (s.replyRestart h).repair = s.repair ∧
    (s.replyRestart h).prefetch = s.prefetch ∧ (s.replyRestart h).screener = s.screener ∧
    (s.replyRestart h).schedule = s.schedule ∧ (s.replyRestart h).drive = s.drive ∧
    (s.replyRestart h).restart = s.restart ∧ (s.replyRestart h).freeIndex = s.freeIndex := by
  unfold State.replyRestart
  (repeat' split) <;> simp

/-- RESTART_FINISH. -/
@[simp] theorem State.finishRestart_same (s : State) (h : RestartHold) :
    (s.finishRestart h).pending = s.pending ∧ (s.finishRestart h).straps = s.straps ∧
    (s.finishRestart h).framer = s.framer ∧ (s.finishRestart h).prefetch = s.prefetch ∧
    (s.finishRestart h).screener = s.screener ∧ (s.finishRestart h).schedule = s.schedule ∧
    (s.finishRestart h).drive = s.drive ∧ (s.finishRestart h).freeIndex = s.freeIndex := by
  simp [State.finishRestart]

/-- What the finish of a RESTART leaves of the store, of Repair and of Intake (R171). -/
@[simp] theorem State.finishRestart_tables (s : State) (h : RestartHold) :
    (s.finishRestart h).store = { s.store with poolOut := s.store.retired } ∧
    (s.finishRestart h).repair = { s.repair with queue := [] } ∧
    (s.finishRestart h).pages = List.replicate Config.pageRecords none ∧ (s.finishRestart h).restart = none := by
  simp [State.finishRestart]
  exact ⟨rfl, rfl, rfl⟩

/-- What a finish that is due can do (R171): nothing, or, with no store write in flight, that of the RESTART in hand. -/
theorem State.finishIfDue_cases (s : State) :
    (s.finishIfDue = s ∧ (s.writesInFlight = true ∨ s.restart = none)) ∨
      ∃ h, s.writesInFlight = false ∧ s.restart = some h ∧ s.finishIfDue = s.finishRestart h := by
  unfold State.finishIfDue State.restartDue
  cases hw : s.writesInFlight <;> cases hr : s.restart <;> simp

/-- The finish that is due. -/
@[simp] theorem State.finishIfDue_same (s : State) :
    (s.finishIfDue).pending = s.pending ∧ (s.finishIfDue).straps = s.straps ∧ (s.finishIfDue).framer = s.framer ∧
    (s.finishIfDue).prefetch = s.prefetch ∧ (s.finishIfDue).screener = s.screener ∧
    (s.finishIfDue).schedule = s.schedule ∧ (s.finishIfDue).drive = s.drive ∧
    (s.finishIfDue).freeIndex = s.freeIndex := by
  rcases s.finishIfDue_cases with ⟨h, -⟩ | ⟨h, -, -, e⟩
  · simp [h]
  · simp [e]

/-- What the last step of the taking of a RESTART can do (R170, R171). -/
theorem State.finishOrHold_cases (s : State) :
    (s.finishOrHold = s.evalFlag ∧ (s.writesInFlight = true ∨ s.restart = none)) ∨
      ∃ h, s.writesInFlight = false ∧ s.restart = some h ∧ s.finishOrHold = s.finishRestart h := by
  unfold State.finishOrHold State.restartDue
  cases hw : s.writesInFlight <;> cases hr : s.restart <;> simp

/-- The last step of the taking of a RESTART. -/
@[simp] theorem State.finishOrHold_same (s : State) :
    (s.finishOrHold).pending = s.pending ∧ (s.finishOrHold).straps = s.straps ∧ (s.finishOrHold).framer = s.framer ∧
    (s.finishOrHold).prefetch = s.prefetch ∧ (s.finishOrHold).screener = s.screener ∧
    (s.finishOrHold).schedule = s.schedule ∧ (s.finishOrHold).drive = s.drive ∧
    (s.finishOrHold).freeIndex = s.freeIndex := by
  rcases s.finishOrHold_cases with ⟨h, -⟩ | ⟨h, -, -, e⟩
  · simp [h]
  · simp [e]

/-- The taking of a RESTART. -/
@[simp] theorem State.restartDirective_same (s : State) :
    (s.restartDirective).pending = s.pending ∧ (s.restartDirective).straps = s.straps ∧
    (s.restartDirective).framer = s.framer ∧ (s.restartDirective).freeIndex = s.freeIndex := by
  unfold State.restartDirective
  split <;> simp

/-- A rise of PLATE_READY. -/
@[simp] theorem State.plateReadyRise_same (s : State) :
    (s.plateReadyRise).pending = s.pending ∧ (s.plateReadyRise).straps = s.straps ∧
    (s.plateReadyRise).framer = s.framer ∧ (s.plateReadyRise).intake = s.intake ∧
    (s.plateReadyRise).pages = s.pages ∧ (s.plateReadyRise).store = s.store ∧ (s.plateReadyRise).repair = s.repair ∧
    (s.plateReadyRise).screener = s.screener ∧ (s.plateReadyRise).restart = s.restart ∧
    (s.plateReadyRise).reports = s.reports ∧ (s.plateReadyRise).freeIndex = s.freeIndex := by
  unfold State.plateReadyRise
  dsimp only
  (repeat' split) <;> simp

/-- A fall of PLATE_READY. -/
@[simp] theorem State.plateReadyFall_same (s : State) :
    (s.plateReadyFall).pending = s.pending ∧ (s.plateReadyFall).straps = s.straps ∧
    (s.plateReadyFall).framer = s.framer ∧ (s.plateReadyFall).intake = s.intake ∧
    (s.plateReadyFall).store = s.store ∧ (s.plateReadyFall).repair = s.repair ∧
    (s.plateReadyFall).screener = s.screener ∧ (s.plateReadyFall).restart = s.restart ∧
    (s.plateReadyFall).freeIndex = s.freeIndex := by
  unfold State.plateReadyFall
  dsimp only
  (repeat' split) <;> simp

/-- A line request in IMAGING. -/
@[simp] theorem State.requestLine_same (s : State) (pl : Plate) :
    (s.requestLine pl).pending = s.pending ∧ (s.requestLine pl).straps = s.straps ∧
    (s.requestLine pl).framer = s.framer ∧ (s.requestLine pl).intake = s.intake ∧
    (s.requestLine pl).store = s.store ∧ (s.requestLine pl).repair = s.repair ∧
    (s.requestLine pl).screener = s.screener ∧ (s.requestLine pl).restart = s.restart ∧
    (s.requestLine pl).freeIndex = s.freeIndex := by
  unfold State.requestLine
  (repeat' split) <;> simp

/-- A line request. -/
@[simp] theorem State.lineReq_same (s : State) :
    (s.lineReq).pending = s.pending ∧ (s.lineReq).straps = s.straps ∧ (s.lineReq).framer = s.framer ∧
    (s.lineReq).intake = s.intake ∧ (s.lineReq).store = s.store ∧ (s.lineReq).repair = s.repair ∧
    (s.lineReq).screener = s.screener ∧ (s.lineReq).restart = s.restart ∧ (s.lineReq).freeIndex = s.freeIndex := by
  unfold State.lineReq
  (repeat' split) <;> simp

/-- The completion of a transfer. -/
@[simp] theorem State.completeTransfer_same (s : State) :
    (s.completeTransfer).pending = s.pending ∧ (s.completeTransfer).straps = s.straps ∧
    (s.completeTransfer).framer = s.framer ∧ (s.completeTransfer).intake = s.intake ∧
    (s.completeTransfer).store = s.store ∧ (s.completeTransfer).repair = s.repair ∧
    (s.completeTransfer).screener = s.screener ∧ (s.completeTransfer).restart = s.restart ∧
    (s.completeTransfer).freeIndex = s.freeIndex := by
  unfold State.completeTransfer
  (repeat' split) <;> simp

/-- The expiry of the stall timer. -/
@[simp] theorem State.stallExpiry_same (s : State) :
    (s.stallExpiry).pending = s.pending ∧ (s.stallExpiry).straps = s.straps ∧ (s.stallExpiry).framer = s.framer ∧
    (s.stallExpiry).intake = s.intake ∧ (s.stallExpiry).store = s.store ∧ (s.stallExpiry).repair = s.repair ∧
    (s.stallExpiry).screener = s.screener ∧ (s.stallExpiry).restart = s.restart ∧
    (s.stallExpiry).freeIndex = s.freeIndex := by
  unfold State.stallExpiry
  (repeat' split) <;> simp

/-- The end of a report parcel. -/
@[simp] theorem State.parcelEnd_same (s : State) (c : Bool) :
    (s.parcelEnd c).pending = s.pending ∧ (s.parcelEnd c).straps = s.straps ∧ (s.parcelEnd c).framer = s.framer ∧
    (s.parcelEnd c).intake = s.intake ∧ (s.parcelEnd c).pages = s.pages ∧ (s.parcelEnd c).store = s.store ∧
    (s.parcelEnd c).repair = s.repair ∧ (s.parcelEnd c).prefetch = s.prefetch ∧ (s.parcelEnd c).screener = s.screener ∧
    (s.parcelEnd c).schedule = s.schedule ∧ (s.parcelEnd c).drive = s.drive ∧ (s.parcelEnd c).restart = s.restart ∧
    (s.parcelEnd c).freeIndex = s.freeIndex := by
  unfold State.parcelEnd
  (repeat' split) <;> simp

end Sys2Proof.Machine
end

