-- ==== Sys2Proof/Laws/Reports.lean ====
section
/-! SUPPORT. What the operations of the report unit can do: to the counters, the latches, the mask, the queue and the
report being sent. -/

namespace Sys2Proof.Machine

open Sys2Proof (Byte CrcInit)

/-! ## Counters -/

/-- A count changes its own counter and no other. -/
theorem Counters.read_add (c : Counters) (n : Nat) (j k : Counter) :
    (c.add n j).read k = if j = k then min Config.counterMax (c.read k + n) else c.read k := by
  cases j <;> cases k <;> rfl

/-- A count keeps every counter in range. -/
theorem Counters.inRange_add (c : Counters) (n : Nat) (j : Counter) (h : c.inRange) : (c.add n j).inRange := by
  intro k
  rw [Counters.read_add]
  split
  · exact Nat.min_le_left ..
  · exact h k

/-- The counters at zero are in range. -/
theorem Counters.inRange_zero : Counters.zero.inRange := by
  intro k; cases k <;> decide

/-! ## Latches -/

/-- Two alarms with one bit are one alarm. -/
theorem Alarm.index_inj (a b : Alarm) (h : a.index = b.index) : a = b := by
  revert h; cases a <;> cases b <;> decide

/-- The bit of an alarm lies in the set. -/
theorem Alarm.index_lt (a : Alarm) : a.index < 14 := by cases a <;> decide

/-- The set of one alarm holds that alarm and no other. -/
theorem Alarm.getLsbD_bit (a b : Alarm) : a.bit.getLsbD b.index = decide (a = b) := by
  cases a <;> cases b <;> decide

/-- Every bit of an alarm set is the bit of an alarm. -/
theorem Alarm.exists_index {i : Nat} (h : i < 14) : ∃ a : Alarm, a.index = i := by
  have key : ∀ j : Fin 14, ∃ a : Alarm, a.index = j.val := by
    intro j
    fin_cases j
    exacts [⟨.inletOverflow, rfl⟩, ⟨.parcelCheck, rfl⟩, ⟨.parcelMalformed, rfl⟩, ⟨.assemblyTimeout, rfl⟩,
      ⟨.storeFull, rfl⟩, ⟨.storeLow, rfl⟩, ⟨.tileRetired, rfl⟩, ⟨.storeDegraded, rfl⟩, ⟨.pageDamaged, rfl⟩,
      ⟨.unpackFault, rfl⟩, ⟨.plateSpoiled, rfl⟩, ⟨.headHalt, rfl⟩, ⟨.haltLineStuck, rfl⟩, ⟨.reportsLost, rfl⟩]
  exact key ⟨i, h⟩

/-- Two alarm sets that hold the same alarms are equal. -/
theorem Alarm.set_ext {x y : BitVec 14} (h : ∀ a : Alarm, x.getLsbD a.index = y.getLsbD a.index) : x = y := by
  apply BitVec.eq_of_getLsbD_eq
  intro i hi
  obtain ⟨a, rfl⟩ := Alarm.exists_index hi
  exact h a

/-- ALERT is low exactly where some latched alarm is not masked (R180). -/
theorem Reports.alertLow_iff (rp : Reports) :
    rp.alertLow = true ↔ ∃ a : Alarm, rp.latched a = true ∧ rp.masked a = false := by
  unfold Reports.alertLow Reports.latched Reports.masked
  rw [Bool.not_eq_true', beq_eq_false_iff_ne]
  constructor
  · intro h
    by_contra hn
    refine h (Alarm.set_ext fun a => ?_)
    by_cases h1 : rp.latches.getLsbD a.index = true
    · by_cases h2 : rp.mask.getLsbD a.index = true
      · simp [h1, h2]
      · exact absurd ⟨a, h1, by simpa using h2⟩ hn
    · simp at h1; simp [h1]
  · rintro ⟨a, h1, h2⟩ h
    have : (rp.latches &&& ~~~rp.mask).getLsbD a.index = false := by rw [h]; simp
    rw [BitVec.getLsbD_and, BitVec.getLsbD_not, h1, h2] at this
    simp [Alarm.index_lt] at this

/-! ## Touching -/

/-- An unchanged report unit touches nothing. -/
theorem Reports.touches_refl (a : Reports) (cs : List Counter) (as : List Alarm) : a.touches a cs as :=
  ⟨fun _ _ _ => rfl, fun _ _ _ => rfl, rfl⟩

/-- Touching composes. -/
theorem Reports.touches_trans {a b c : Reports} {cs : List Counter} {as : List Alarm}
    (h : a.touches b cs as) (g : b.touches c cs as) : a.touches c cs as :=
  ⟨fun k hk hr => (g.1 k hk hr).trans (h.1 k hk hr), fun x hx hr => (g.2.1 x hx hr).trans (h.2.1 x hx hr),
    g.2.2.trans h.2.2⟩

/-- What touches little touches no more than what touches much. -/
theorem Reports.touches_mono {a b : Reports} {cs cs' : List Counter} {as as' : List Alarm}
    (h : a.touches b cs as) (hc : cs ⊆ cs') (ha : as ⊆ as') : a.touches b cs' as' :=
  ⟨fun k hk hr => h.1 k (fun x => hk (hc x)) hr, fun x hx hr => h.2.1 x (fun y => hx (ha y)) hr, h.2.2⟩

/-- A report unit with the same counters, latches and mask is touched nowhere. -/
theorem Reports.touches_of_eq {a b : Reports} (hc : b.counters = a.counters) (hl : b.latches = a.latches)
    (hm : b.mask = a.mask) (cs : List Counter) (as : List Alarm) : a.touches b cs as :=
  ⟨fun _ _ _ => by rw [hc], fun _ _ _ => by simp [Reports.latched, hl], hm⟩

/-! ## The flow symbol and the boundary -/

/-- A flow symbol changes the last symbol and the record of the step only. -/
@[simp] theorem Reports.sendSymbol_same (rp : Reports) (h : Bool) :
    (rp.sendSymbol h).queue = rp.queue ∧ (rp.sendSymbol h).sending = rp.sending ∧
    (rp.sendSymbol h).latches = rp.latches ∧ (rp.sendSymbol h).mask = rp.mask ∧ (rp.sendSymbol h).owed = rp.owed ∧
    (rp.sendSymbol h).awaitStarted = rp.awaitStarted ∧ (rp.sendSymbol h).counters = rp.counters ∧
    (rp.sendSymbol h).lastSymbol = some (symbolFor h) := by
  unfold Reports.sendSymbol
  split <;> simp_all

/-- A flow symbol leaves the owed ALARM report as it is. -/
@[simp] theorem Reports.sendSymbol_owedReport (rp : Reports) (h : Bool) :
    (rp.sendSymbol h).owedReport = rp.owedReport := by
  simp [Reports.owedReport, Reports.alertLow]

/-- Where no ALARM report is owed, none joins. -/
theorem Reports.owedReport_none {rp : Reports} (h : rp.owed = false) : rp.owedReport = [] := by
  simp [Reports.owedReport, h]

/-- The owed report changes the indicator and the tail of the queue only. -/
@[simp] theorem Reports.queueOwed_same (rp : Reports) :
    rp.queueOwed.latches = rp.latches ∧ rp.queueOwed.mask = rp.mask ∧ rp.queueOwed.owed = false ∧
    rp.queueOwed.awaitStarted = rp.awaitStarted ∧ rp.queueOwed.counters = rp.counters ∧
    rp.queueOwed.queue = rp.queue ++ rp.owedReport ∧ rp.queueOwed.sending = rp.sending ∧
    rp.queueOwed.sent = rp.sent ∧ rp.queueOwed.lastSymbol = rp.lastSymbol :=
  ⟨rfl, rfl, rfl, rfl, rfl, rfl, rfl, rfl, rfl⟩

/-- What the lane does at a boundary changes the lane and the queue only. -/
@[simp] theorem Reports.sendNext_same (rp : Reports) (h : Bool) (c : CrcInit) :
    (rp.sendNext h c).latches = rp.latches ∧ (rp.sendNext h c).mask = rp.mask ∧ (rp.sendNext h c).owed = rp.owed ∧
    (rp.sendNext h c).awaitStarted = rp.awaitStarted ∧ (rp.sendNext h c).counters = rp.counters ∧
    (rp.sendNext h c).lastSymbol = some (symbolFor h) := by
  unfold Reports.sendNext
  split <;> simp

/-- With nothing waiting the lane sends the symbol that the flag calls for. -/
theorem Reports.sendNext_nil {rp : Reports} (h : Bool) (c : CrcInit) (hq : rp.queue = []) :
    rp.sendNext h c = rp.sendSymbol h := by
  simp [Reports.sendNext, hq]

/-- With a report waiting its sending begins, behind the symbol that the flag calls for, and it leaves the queue (R173). -/
theorem Reports.sendNext_cons {rp : Reports} {r : Report} {rest : List Report} (h : Bool) (c : CrcInit)
    (hq : rp.queue = r :: rest) :
    rp.sendNext h c = { rp.sendSymbol h with
      queue := rest, sending := some r, sent := (rp.sendSymbol h).sent ++ [.parcel (r.parcel c)] } := by
  simp [Reports.sendNext, hq]

/-- A boundary changes the lane, the queue and the owed indicator only. -/
@[simp] theorem Reports.boundary_same (rp : Reports) (h : Bool) (c : CrcInit) :
    (rp.boundary h c).latches = rp.latches ∧ (rp.boundary h c).mask = rp.mask ∧
    (rp.boundary h c).awaitStarted = rp.awaitStarted ∧ (rp.boundary h c).counters = rp.counters ∧
    (rp.boundary h c).lastSymbol = some (symbolFor h) := by
  unfold Reports.boundary
  split <;> simp

/-- With nothing waiting a boundary is the symbol that the flag calls for. -/
theorem Reports.boundary_nil {rp : Reports} (h : Bool) (c : CrcInit) (hq : rp.queue = []) :
    rp.boundary h c = rp.sendSymbol h := by
  simp [Reports.boundary, hq, Reports.sendNext_nil h c hq]

/-- A boundary with a report waiting begins its sending, behind the symbol that the flag calls for (R173), and the owed
ALARM report joins the tail (R178). -/
theorem Reports.boundary_cons {rp : Reports} {r : Report} {rest : List Report} (h : Bool) (c : CrcInit)
    (hq : rp.queue = r :: rest) :
    (rp.boundary h c).sending = some r ∧
      (rp.boundary h c).sent = (rp.sendSymbol h).sent ++ [.parcel (r.parcel c)] ∧
      (rp.boundary h c).queue = rest ++ rp.owedReport ∧ (rp.boundary h c).owed = false := by
  have e : rp.boundary h c = (rp.sendNext h c).queueOwed := by simp [Reports.boundary, hq]
  rw [e, Reports.sendNext_cons h c hq]
  exact ⟨rfl, rfl, by simp [Reports.owedReport, Reports.alertLow], rfl⟩

/-- A boundary makes the indicator no, unless no report waits. -/
theorem Reports.boundary_owed (rp : Reports) (h : Bool) (c : CrcInit) :
    (rp.boundary h c).owed = (rp.owed && rp.queue.isEmpty) := by
  rcases hq : rp.queue with _ | ⟨r, rest⟩
  · simp [Reports.boundary_nil h c hq]
  · simp [(Reports.boundary_cons h c hq).2.2.2]

/-! ## Queuing a report -/

/-- At a full queue a report is dropped. -/
theorem Reports.enqueue_full (rp : Reports) (r : Report) (hf : 32 ≤ rp.queue.length) :
    rp.enqueue r = rp.drop r.isAlarm := by
  simp [Reports.enqueue, Config.reportCapacity, hf]

/-- With a free place a report joins the tail, and nothing else changes. -/
theorem Reports.enqueue_free (rp : Reports) (r : Report) (hf : rp.queue.length < 32) :
    rp.enqueue r = { rp with queue := rp.queue ++ [r] } := by
  have : ¬ 32 ≤ rp.queue.length := by omega
  simp [Reports.enqueue, Config.reportCapacity, this]

/-- The counters after a report has been queued or dropped. -/
theorem Reports.enqueue_counters (rp : Reports) (r : Report) :
    (rp.enqueue r).counters = if 32 ≤ rp.queue.length then rp.counters.add 1 .reportsLost else rp.counters := by
  unfold Reports.enqueue Config.reportCapacity
  split <;> rfl

/-- The latches after a report has been queued or dropped. -/
theorem Reports.enqueue_latches (rp : Reports) (r : Report) :
    (rp.enqueue r).latches = if 32 ≤ rp.queue.length then rp.latches ||| Alarm.reportsLost.bit else rp.latches := by
  unfold Reports.enqueue Config.reportCapacity
  split <;> rfl

/-- The mask, the wait for STARTED and the lane are not changed by a report. -/
@[simp] theorem Reports.enqueue_same (rp : Reports) (r : Report) :
    (rp.enqueue r).mask = rp.mask ∧ (rp.enqueue r).awaitStarted = rp.awaitStarted ∧
    (rp.enqueue r).sending = rp.sending ∧ (rp.enqueue r).lastSymbol = rp.lastSymbol ∧
    (rp.enqueue r).sent = rp.sent := by
  unfold Reports.enqueue
  split <;> exact ⟨rfl, rfl, rfl, rfl, rfl⟩

/-- A queued report, or its drop, touches nothing but reports_lost. -/
theorem Reports.enqueue_touches (rp : Reports) (r : Report) (cs : List Counter) (as : List Alarm) :
    rp.touches (rp.enqueue r) cs as := by
  refine ⟨fun k _ hr => ?_, fun x _ hr => ?_, by simp⟩
  · rw [Reports.enqueue_counters]
    split
    · rw [Counters.read_add, if_neg (Ne.symm hr)]
    · rfl
  · unfold Reports.latched
    rw [Reports.enqueue_latches]
    split
    · rw [BitVec.getLsbD_or, Alarm.getLsbD_bit]; simp [Ne.symm hr]
    · rfl

/-- A queue of at most 32 reports stays so. -/
theorem Reports.enqueue_length (rp : Reports) (r : Report) (hq : rp.queue.length ≤ 32) :
    (rp.enqueue r).queue.length ≤ 32 := by
  unfold Reports.enqueue Config.reportCapacity
  split
  · simpa [Reports.drop] using hq
  · simp; omega

/-! ## Latching -/

/-- A latched alarm is set; every latch that was set stays set. -/
theorem Reports.latch_latched (rp : Reports) (a b : Alarm) :
    (a = b ∨ rp.latched b = true) → (rp.latch a).latched b = true := by
  intro hb
  unfold Reports.latch
  split
  · rcases hb with rfl | hb <;> assumption
  · have key : (rp.latches ||| a.bit).getLsbD b.index = true := by
      rw [BitVec.getLsbD_or, Alarm.getLsbD_bit]
      rcases hb with rfl | hb
      · simp
      · rw [show rp.latches.getLsbD b.index = true from hb]; rfl
    split
    · exact key
    · split
      · exact key
      · unfold Reports.latched
        rw [Reports.enqueue_latches]
        dsimp only
        split
        · rw [BitVec.getLsbD_or, key]; rfl
        · exact key

/-- Latching an alarm touches that alarm and reports_lost only. -/
theorem Reports.latch_touches (rp : Reports) (a : Alarm) (cs : List Counter)
    (as : List Alarm) (ha : a ∈ as) : rp.touches (rp.latch a) cs as := by
  have base : rp.touches { rp with latches := rp.latches ||| a.bit } cs as := by
    refine ⟨fun _ _ _ => rfl, fun x hx _ => ?_, rfl⟩
    simp only [Reports.latched, BitVec.getLsbD_or, Alarm.getLsbD_bit]
    have : a ≠ x := fun e => hx (e ▸ ha)
    simp [this]
  unfold Reports.latch
  split
  · exact Reports.touches_refl ..
  · split
    · exact base
    · split
      · exact base
      · exact Reports.touches_trans base (Reports.enqueue_touches ..)

/-- The mask, the wait for STARTED and the lane are not changed by a latching. -/
@[simp] theorem Reports.latch_same (rp : Reports) (a : Alarm) :
    (rp.latch a).mask = rp.mask ∧ (rp.latch a).awaitStarted = rp.awaitStarted ∧
    (rp.latch a).sending = rp.sending ∧ (rp.latch a).lastSymbol = rp.lastSymbol ∧ (rp.latch a).sent = rp.sent := by
  unfold Reports.latch
  split
  · simp
  · split
    · simp
    · split <;> simp

/-- While a STARTED report is awaited, a latching queues nothing. -/
theorem Reports.latch_await (rp : Reports) (a : Alarm) (hw : rp.awaitStarted = true) :
    (rp.latch a).queue = rp.queue ∧ (rp.latch a).counters = rp.counters := by
  unfold Reports.latch
  split
  · simp
  · split
    · simp
    · simp

/-- A count touches its own counter only. -/
theorem Reports.count_touches (rp : Reports) (n : Nat) (k : Counter) (cs : List Counter) (as : List Alarm)
    (hk : k ∈ cs) : rp.touches { rp with counters := rp.counters.add n k } cs as := by
  refine ⟨fun j hj _ => ?_, fun _ _ _ => rfl, rfl⟩
  have : k ≠ j := fun e => hj (e ▸ hk)
  simp [Counters.read_add, this]

/-- A latching counts nothing but reports_lost. -/
theorem Reports.latch_read (rp : Reports) (a : Alarm) (k : Counter) (hk : k ≠ .reportsLost) :
    (rp.latch a).counters.read k = rp.counters.read k :=
  (Reports.latch_touches rp a [] [a] (by simp)).1 k (by simp) hk

/-- A count and a latching together: the alarm is set, the counter counts once, and nothing else is touched. -/
theorem State.countLatch (s : State) (k : Counter) (a : Alarm) (hk : k ≠ .reportsLost) :
    ((s.count k).latch a).reports.latched a = true ∧ s.reports.countsOnce ((s.count k).latch a).reports k ∧
    s.reports.touches ((s.count k).latch a).reports [k] [a] := by
  refine ⟨Reports.latch_latched _ _ _ (.inl rfl), ?_, ?_⟩
  · unfold Reports.countsOnce
    rw [State.latch_reports, Reports.latch_read _ _ _ hk]
    simp [Counters.read_add]
  · exact Reports.touches_trans (Reports.count_touches _ 1 k [k] [a] (by simp))
      (Reports.latch_touches _ _ _ _ (by simp))

/-! ## The queue only grows within an event -/

/-- The queue keeps what it holds, and the lane stands as it is. -/
def Reports.growsTo (a b : Reports) : Prop :=
  b.sending = a.sending ∧ b.lastSymbol = a.lastSymbol ∧ b.sent = a.sent ∧ ∃ more, b.queue = a.queue ++ more

/-- An unchanged queue grows by nothing. -/
theorem Reports.growsTo_of_eq {a b : Reports} (hs : b.sending = a.sending) (hl : b.lastSymbol = a.lastSymbol)
    (ht : b.sent = a.sent) (hq : b.queue = a.queue) : a.growsTo b :=
  ⟨hs, hl, ht, [], by simp [hq]⟩

/-- An unchanged report unit grows by nothing. -/
theorem Reports.growsTo_refl (a : Reports) : a.growsTo a := Reports.growsTo_of_eq rfl rfl rfl rfl

/-- An unchanged report unit grows by nothing. -/
theorem Reports.growsTo_same {a b : Reports} (h : b = a) : a.growsTo b := h ▸ Reports.growsTo_refl _

/-- Growing composes. -/
theorem Reports.growsTo_trans {a b c : Reports} (h : a.growsTo b) (g : b.growsTo c) : a.growsTo c := by
  obtain ⟨h1, h2, h3, m, h4⟩ := h
  obtain ⟨g1, g2, g3, n, g4⟩ := g
  exact ⟨g1.trans h1, g2.trans h2, g3.trans h3, m ++ n, by rw [g4, h4, List.append_assoc]⟩

/-- A report that is queued grows the queue. -/
theorem Reports.enqueue_growsTo (rp : Reports) (r : Report) : rp.growsTo (rp.enqueue r) := by
  unfold Reports.enqueue
  split
  · exact Reports.growsTo_of_eq rfl rfl rfl rfl
  · exact ⟨rfl, rfl, rfl, [r], rfl⟩

/-- A report that is queued grows the queue. -/
theorem State.report_growsTo (s : State) (r : Report) : s.reports.growsTo (s.report r).reports :=
  Reports.enqueue_growsTo _ _

/-- A latching grows the queue. -/
theorem Reports.latch_growsTo (rp : Reports) (a : Alarm) : rp.growsTo (rp.latch a) := by
  unfold Reports.latch
  split
  · exact Reports.growsTo_of_eq rfl rfl rfl rfl
  · split
    · exact Reports.growsTo_of_eq rfl rfl rfl rfl
    · split
      · exact Reports.growsTo_of_eq rfl rfl rfl rfl
      · exact Reports.growsTo_trans (b := { rp with latches := rp.latches ||| a.bit })
          (Reports.growsTo_of_eq rfl rfl rfl rfl) (Reports.enqueue_growsTo _ _)

/-! ## One event -/

/-- A boundary touches nothing. -/
theorem State.boundary_touches (s : State) (cs : List Counter) (as : List Alarm) :
    s.reports.touches s.boundary.reports cs as :=
  Reports.touches_of_eq (by simp) (by simp) (by simp) cs as

/-- The end of an event leaves the latches, the mask and the counters. -/
@[simp] theorem State.settle_reports (s t : State) :
    (s.settle t).reports.latches = t.reports.latches ∧ (s.settle t).reports.mask = t.reports.mask ∧
    (s.settle t).reports.awaitStarted = t.reports.awaitStarted ∧
    (s.settle t).reports.counters = t.reports.counters := by
  unfold State.settle
  split <;> simp

/-- The end of an event makes no ALARM report owed. -/
theorem State.settle_owed {s t : State} (h : t.reports.owed = false) : (s.settle t).reports.owed = false := by
  unfold State.settle
  split
  · simp [Reports.boundary_owed, h]
  · exact h

/-- The end of an event touches nothing. -/
theorem State.settle_touches {s u t : State} {cs : List Counter} {as : List Alarm}
    (h : u.reports.touches t.reports cs as) : u.reports.touches (s.settle t).reports cs as :=
  Reports.touches_trans h (Reports.touches_of_eq (by simp) (by simp) (by simp) cs as)

/-- A latch after the end of an event. -/
@[simp] theorem State.settle_latched (s t : State) (a : Alarm) :
    (s.settle t).reports.latched a = t.reports.latched a := by
  simp [Reports.latched]

/-- What the end of an event leaves. -/
theorem State.settle_eq (s t : State) : s.settle t = { t with reports := (s.settle t).reports } := by
  unfold State.settle
  split <;> rfl

/-- On a busy lane nothing follows an event. -/
theorem State.settle_busy {s t : State} (h : t.reports.sending.isSome = true) : s.settle t = t := by
  unfold State.settle State.boundaryAfter
  cases hs : t.reports.sending <;> simp_all

/-- Nothing follows an event that changes neither the flag nor the report queue. -/
theorem State.settle_quiet {s t : State} (hh : t.intake.holding = s.intake.holding)
    (hq : t.reports.queue = s.reports.queue) : s.settle t = t := by
  unfold State.settle State.boundaryAfter
  rw [hh, hq]
  cases s.reports.queue.isEmpty <;> simp

/-- On an idle lane with an empty queue, an event that queues a report is a boundary (R40, R173). -/
theorem State.settle_idle {s t : State} {r : Report} {rest : List Report} (hs : t.reports.sending = none)
    (hq : s.reports.queue = []) (hr : t.reports.queue = r :: rest) : s.settle t = t.boundary := by
  unfold State.settle State.boundaryAfter
  simp [hs, hq, hr]

/-- The symbol of a boundary, in the record of the step. -/
theorem Reports.sendSymbol_sent (rp : Reports) (h : Bool) :
    (rp.sendSymbol h).sent
      = rp.sent ++ (if rp.lastSymbol = some (symbolFor h) then [] else [.symbol (symbolFor h)]) := by
  unfold Reports.sendSymbol
  split <;> simp

/-! ## The holding flag -/

/-- An evaluation of the holding flag touches STORE_LOW and reports_lost only. -/
theorem State.evalFlag_touches (s : State) (cs : List Counter) (as : List Alarm) (h : Alarm.storeLow ∈ as) :
    s.reports.touches s.evalFlag.reports cs as := by
  unfold State.evalFlag
  split
  · exact Reports.touches_refl ..
  · dsimp only
    split
    · rw [State.latch_reports]
      exact Reports.latch_touches _ _ _ _ h
    · exact Reports.touches_refl ..

/-- An evaluation of the holding flag keeps what the queue holds. -/
theorem State.evalFlag_growsTo (s : State) : s.reports.growsTo s.evalFlag.reports := by
  unfold State.evalFlag
  split
  · exact Reports.growsTo_of_eq rfl rfl rfl rfl
  · dsimp only
    split
    · rw [State.latch_reports]
      exact Reports.latch_growsTo _ _
    · exact Reports.growsTo_of_eq rfl rfl rfl rfl

/-- What an evaluation of the holding flag leaves of Intake. -/
@[simp] theorem State.evalFlag_intake (s : State) :
    s.evalFlag.intake.queue = s.intake.queue ∧ s.evalFlag.intake.slots = s.intake.slots ∧
    s.evalFlag.intake.flow = s.intake.flow := by
  unfold State.evalFlag
  split
  · simp
  · dsimp only
    split <;> simp

/-- What the flag and STORE_LOW are after an event depends on the flag, the cause and STORE_LOW before and after it
only. -/
theorem State.FlagEvaluated.congr {s t u v : State} {f : FlowSettings} {n m : Nat} (h : s.FlagEvaluated t f n m)
    (hs : u.intake.holding = s.intake.holding) (hc : u.intake.reserveCause = s.intake.reserveCause)
    (hl : u.reports.latched .storeLow = s.reports.latched .storeLow) (ht : v.intake = t.intake)
    (hv : v.reports.latched .storeLow = t.reports.latched .storeLow) : u.FlagEvaluated v f n m :=
  ⟨by rw [ht, hs]; exact h.raised, by rw [ht, hs]; exact h.lowered, by rw [ht]; exact h.cause,
    by rw [hc, hv]; exact h.low, by rw [hc, hv, hl]; exact h.steady⟩

/-- What an evaluation of the holding flag does (R38, R39). -/
theorem State.evalFlag_evaluated (s : State) (h : s.store.sweep = none) :
    s.FlagEvaluated s.evalFlag s.intake.flow s.intake.queue.length s.freeCount := by
  unfold State.evalFlag
  rw [if_neg (by simp [h])]
  dsimp only
  by_cases hl : s.freeCount ≤ s.intake.flow.low <;> cases hc : s.intake.reserveCause <;>
    simp only [reservePresent, hl, decide_true, decide_false, Bool.not_true, Bool.not_false, Bool.and_true,
      Bool.and_false, Bool.false_eq_true, if_true, if_false] <;>
    constructor <;> simp_all [holdingAfter, Reports.latch_latched]

/-- Where the reserve cause stood as it stands, an evaluation leaves the report unit as it is. -/
theorem State.evalFlag_steady (s : State) (h : s.intake.reserveCause = reservePresent s.intake.flow s.freeCount) :
    s.evalFlag.reports = s.reports := by
  unfold State.evalFlag
  split
  · rfl
  · have hz : (reservePresent s.intake.flow s.freeCount && !s.intake.reserveCause) = false := by rw [h]; simp
    simp only [hz, Bool.false_eq_true, if_false]

end Sys2Proof.Machine
end

