-- ==== Sys2Proof/Laws/Directives.lean ====
section
/-! SUPPORT. How a directive is taken and answered: the lemmas every statement about a directive goes through. -/

namespace Sys2Proof.Machine

open Sys2Proof (Byte Instr)

/-- The beginning of a step does not change which directive is due. -/
@[simp] theorem State.directiveOf_beginStep (s : State) (row : Instr) : s.beginStep.directiveOf row = s.directiveOf row := rfl

/-- A directive that passes R166 is carried out by its own rule, and the holding flag is evaluated. -/
theorem State.takeDirective_of_takes {s : State} {row : Instr} {d : Directive} (h : s.Takes row d)
    (act : Directive → State → State) :
    s.beginStep.takeDirective row act = (act d s.beginStep.popInlet).evalFlag := by
  simp [State.takeDirective, State.judgeDirective, h.1, h.2]

/-- A directive that fails R166 is refused, and the holding flag is evaluated. -/
theorem State.takeDirective_of_refusal {s : State} {row : Instr} {d : Directive} {reason : Reason}
    (h : s.directiveOf row = some d) (hr : d.refusal = some reason) (act : Directive → State → State) :
    s.beginStep.takeDirective row act = (s.beginStep.popInlet.refuse d reason).evalFlag := by
  simp [State.takeDirective, State.judgeDirective, h, hr]

/-- A directive belongs to the row under which it is taken. -/
theorem State.row_of_directiveOf {s : State} {row : Instr} {d : Directive} (h : s.directiveOf row = some d) :
    d.row = row := by
  simp only [State.directiveOf, Option.filter_eq_some_iff, beq_iff_eq] at h
  exact h.2

/-- A directive that is taken stands at the head of the inlet queue, and Intake is taking. -/
theorem State.head_of_directiveOf {s : State} {row : Instr} {d : Directive} (h : s.directiveOf row = some d) :
    s.intakeTaking = true ∧ s.intake.queue.head? = some (.directive d.flags d.code d.tag d.payload) := by
  simp only [State.directiveOf, Option.filter_eq_some_iff, State.directiveDue] at h
  obtain ⟨h, -⟩ := h
  split at h
  · rename_i ht
    refine ⟨ht, ?_⟩
    obtain ⟨p, hp, hd⟩ := Option.bind_eq_some_iff.mp h
    cases p with
    | data => simp [Parcel.directive?] at hd
    | directive => simp only [Parcel.directive?, Option.some.injEq] at hd; subst hd; exact hp
  · simp at h

/-- The operations that follow a directive's own rule leave the queue behind its head. -/
@[simp] theorem State.popInlet_queue (s : State) : s.popInlet.intake.queue = s.intake.queue.tail := rfl

/-- The lane and the queue stand as the event found them. -/
def State.laneAs (s u : State) : Prop :=
  u.reports.sending = s.reports.sending ∧ u.reports.lastSymbol = s.reports.lastSymbol ∧ u.reports.sent = [] ∧
    u.reports.queue = s.reports.queue

/-- A report that is queued with the lane as the event found it is the first of its event, whatever follows it. -/
theorem State.reportsFirst_settle {s u v : State} {r : Report} (hu : s.laneAs u) (hs : v.straps = s.straps)
    (hv : (u.report r).reports.growsTo v.reports) : s.reportsFirst (s.beginStep.settle v) r := by
  obtain ⟨u1, u2, u3, u4⟩ := hu
  obtain ⟨v1, v2, v3, more, v4⟩ := hv
  simp only [State.report_reports, Reports.enqueue_same] at v1 v2 v3
  refine ⟨fun hb hl => ?_, fun hn hq => ?_⟩
  · have hvs : v.reports.sending.isSome = true := by rw [v1, u1]; exact hb
    rw [State.settle_busy hvs]
    refine ⟨by rw [v1, u1], by rw [v3, u3], more, ?_⟩
    rw [v4, State.report_reports, Reports.enqueue_free _ _ (by rw [u4]; exact hl)]
    simp [u4]
  · have hvq : v.reports.queue = r :: more := by
      rw [v4, State.report_reports, Reports.enqueue_free _ _ (by rw [u4, hq]; decide)]
      simp [u4, hq]
    rw [State.settle_idle (s := s.beginStep) (by rw [v1, u1]; exact hn) hq hvq]
    have hb := Reports.boundary_cons v.intake.holding v.straps.crcInit hvq
    refine ⟨hb.1, ?_⟩
    rw [State.boundary_reports, hb.2.1, Reports.sendSymbol_sent, v3, u3, v2, u2, hs]
    simp

/-- The same where the event queues nothing more. -/
theorem State.reportsOnly_settle {s u v : State} {r : Report} (hu : s.laneAs u) (hs : v.straps = s.straps)
    (ho : u.reports.owed = s.reports.owed) (hv : v.reports = (u.report r).reports) :
    s.reportsOnly (s.beginStep.settle v) r := by
  have hg : (u.report r).reports.growsTo v.reports := by rw [hv]; exact Reports.growsTo_of_eq rfl rfl rfl rfl
  refine ⟨State.reportsFirst_settle hu hs hg, fun hb hl => ?_, fun hn hq => ?_⟩
  · obtain ⟨u1, -, -, u4⟩ := hu
    have hvs : v.reports.sending.isSome = true := by
      rw [hv, State.report_reports]; simpa [u1] using hb
    rw [State.settle_busy hvs, hv, State.report_reports, Reports.enqueue_free _ _ (by rw [u4]; exact hl)]
    simp [u4]
  · obtain ⟨u1, -, -, u4⟩ := hu
    have he : v.reports = { u.reports with queue := [r] } := by
      rw [hv, State.report_reports, Reports.enqueue_free _ _ (by rw [u4, hq]; decide), u4, hq]; rfl
    have hvs : v.reports.sending = none := by rw [he]; simpa [u1] using hn
    have hvq : v.reports.queue = [r] := by rw [he]
    have hvo : v.reports.owed = s.reports.owed := by rw [he]; exact ho
    rw [State.settle_idle (s := s.beginStep) hvs hq hvq]
    have hb := Reports.boundary_cons v.intake.holding v.straps.crcInit hvq
    refine ⟨hb.2.2.2, ?_⟩
    rw [State.boundary_reports, hb.2.2.1]
    simp [Reports.owedReport, Reports.alertLow, hvo]

/-- Two reports queued with the lane as the event found it are the first two of their event. -/
theorem State.reportsTwo_settle {s u v : State} {r q : Report} (hu : s.laneAs u) (hs : v.straps = s.straps)
    (hv : ((u.report r).report q).reports.growsTo v.reports) : s.reportsTwo (s.beginStep.settle v) r q := by
  refine ⟨State.reportsFirst_settle hu hs
    (Reports.growsTo_trans (State.report_growsTo (u.report r) q) hv), fun hb hl => ?_, fun hn hq => ?_⟩
  · obtain ⟨u1, -, -, u4⟩ := hu
    obtain ⟨v1, -, -, more, v4⟩ := hv
    have hvs : v.reports.sending.isSome = true := by rw [v1]; simpa [u1] using hb
    rw [State.settle_busy hvs]
    refine ⟨more, ?_⟩
    have hl' : s.reports.queue.length + 1 < 32 := hl
    rw [v4, State.report_reports, State.report_reports, Reports.enqueue_free u.reports _ (by rw [u4]; omega),
      Reports.enqueue_free _ _ (by simp [u4]; omega)]
    simp [u4]
  · obtain ⟨u1, -, -, u4⟩ := hu
    obtain ⟨v1, -, -, more, v4⟩ := hv
    have hvq : v.reports.queue = r :: q :: more := by
      rw [v4, State.report_reports, State.report_reports, Reports.enqueue_free u.reports _ (by rw [u4, hq]; decide),
        Reports.enqueue_free _ _ (by simp [u4, hq])]
      simp [u4, hq]
    have hvs : v.reports.sending = none := by rw [v1]; simpa [u1] using hn
    rw [State.settle_idle (s := s.beginStep) hvs hq hvq]
    have hb := Reports.boundary_cons v.intake.holding v.straps.crcInit hvq
    exact ⟨more ++ v.reports.owedReport, by rw [State.boundary_reports, hb.2.2.1]; rfl⟩

/-- A refusal that ends a directive is answered. -/
theorem answered_refuse {s u : State} (d : Directive) (reason : Reason) (body : List Byte) (hu : s.laneAs u)
    (hs : u.straps = s.straps) :
    answered s (s.beginStep.settle (u.refuse d reason body).evalFlag) d (some reason) body :=
  State.reportsFirst_settle hu (by simpa using hs) (State.evalFlag_growsTo _)

/-- An acceptance that ends a directive is answered. -/
theorem acceptedWith_accept {s u : State} (d : Directive) (body : List Byte) (hu : s.laneAs u)
    (hs : u.straps = s.straps) : acceptedWith s (s.beginStep.settle (u.accept d body).evalFlag) d body := by
  intro hd
  have : u.accept d body = u.report (.reply d.tag d.code none body) := by simp [State.accept, hd]
  rw [this]
  exact State.reportsFirst_settle hu (by simpa using hs) (State.evalFlag_growsTo _)

/-- A reply touches nothing of the report unit but reports_lost. -/
theorem State.refuse_touches (s : State) (d : Directive) (reason : Reason) (body : List Byte) (cs : List Counter)
    (as : List Alarm) : s.reports.touches (s.refuse d reason body).reports cs as := Reports.enqueue_touches ..

/-- A reply touches nothing of the report unit but reports_lost. -/
theorem State.accept_touches (s : State) (d : Directive) (body : List Byte) (cs : List Counter) (as : List Alarm) :
    s.reports.touches (s.accept d body).reports cs as := by
  unfold State.accept
  split
  · exact Reports.touches_refl ..
  · exact Reports.enqueue_touches ..

/-- A reply grows the queue. -/
theorem State.accept_growsTo (s : State) (d : Directive) (body : List Byte) :
    s.reports.growsTo (s.accept d body).reports := by
  unfold State.accept
  split
  · exact Reports.growsTo_of_eq rfl rfl rfl rfl
  · exact Reports.enqueue_growsTo _ _

/-- What an evaluation of the holding flag leaves of the state: everything but Intake and the report unit. -/
theorem State.evalFlag_eq (s : State) :
    s.evalFlag = { s with intake := s.evalFlag.intake, reports := s.evalFlag.reports } := by
  unfold State.evalFlag
  split
  · rfl
  · dsimp only
    split <;> rfl

end Sys2Proof.Machine
end

