-- ==== Sys2Proof/Laws/Pages.lean ====
section
/-! SUPPORT. The page table: what each operation leaves in a record, record by record. -/

namespace Sys2Proof.Machine

open Sys2Proof (Byte)

/-! ## Records -/

/-- A record of an unchanged page table. -/
theorem State.page?_congr {s t : State} (h : t.pages = s.pages) (r : Nat) : t.page? r = s.page? r := by
  simp [State.page?, h]

/-- A live record lies in the table. -/
theorem State.lt_of_page? {s : State} {r : Nat} {p : PageRecord} (h : s.page? r = some p) : r < s.pages.length := by
  unfold State.page? at h
  by_contra hl
  rw [List.getD_eq_default _ _ (by omega)] at h
  exact absurd h (by simp)

/-- The records after one has been replaced. -/
theorem State.page?_setPage (s : State) (r r' : Nat) (x : Option PageRecord) :
    (s.setPage r x).page? r' = if r' = r ∧ r < s.pages.length then x else s.page? r' := by
  unfold State.page? State.setPage
  simp only [List.getD_eq_getElem?_getD, List.getElem?_set]
  by_cases h : r = r'
  · subst h
    by_cases hl : r < s.pages.length <;> simp [hl]
  · simp [h, Ne.symm h]

/-- A live record that has been replaced. -/
theorem State.page?_setPage_of_live {s : State} {r : Nat} {p : PageRecord} (h : s.page? r = some p)
    (x : Option PageRecord) (r' : Nat) : (s.setPage r x).page? r' = if r' = r then x else s.page? r' := by
  rw [State.page?_setPage]; simp [State.lt_of_page? h]

/-- The records after one has been changed. -/
theorem State.page?_modifyPage (s : State) (r r' : Nat) (f : PageRecord → PageRecord) :
    (s.modifyPage r f).page? r' = if r' = r then (s.page? r).map f else s.page? r' := by
  unfold State.modifyPage
  cases h : s.page? r with
  | none =>
    dsimp only
    split
    · rename_i e; subst e; simpa using h
    · rfl
  | some p => rw [State.page?_setPage_of_live h]; rfl

/-- The records after a use count has moved. -/
theorem State.page?_addUse (s : State) (x : Option Resolution) (up : Bool) (r : Nat) (p : PageRecord)
    (h : s.page? r = some p) : ∃ u, (s.addUse x up).page? r = some { p with useCount := u } := by
  unfold State.addUse
  cases x with
  | none => exact ⟨p.useCount, h⟩
  | some x =>
    dsimp only
    rw [State.page?_modifyPage]
    split
    · rename_i e; subst e; exact ⟨_, by rw [h]; rfl⟩
    · exact ⟨p.useCount, h⟩

/-- A use count moves on live records only. -/
theorem State.page?_addUse_none (s : State) (x : Option Resolution) (up : Bool) (r : Nat) :
    (s.addUse x up).page? r = none ↔ s.page? r = none := by
  unfold State.addUse
  cases x with
  | none => rfl
  | some x =>
    dsimp only
    rw [State.page?_modifyPage]
    split
    · rename_i e; subst e; simp
    · rfl

/-- A ticket's move leaves EMPTY records EMPTY, and of a live record changes the use count only. -/
theorem State.page?_moveUse (s : State) (old new : Ticket) (r : Nat) :
    ((s.moveUse old new).page? r = none ↔ s.page? r = none) ∧
    ∀ p, s.page? r = some p → ∃ u, (s.moveUse old new).page? r = some { p with useCount := u } := by
  have step : ∀ (v : State) (a b : Option Resolution),
      (((v.addUse a false).addUse b true).page? r = none ↔ v.page? r = none) ∧
      ∀ p, v.page? r = some p → ∃ u, ((v.addUse a false).addUse b true).page? r = some { p with useCount := u } := by
    intro v a b
    refine ⟨(State.page?_addUse_none _ _ _ _).trans (State.page?_addUse_none _ _ _ _), fun p hp => ?_⟩
    obtain ⟨u, hu⟩ := State.page?_addUse v a false r p hp
    obtain ⟨u', hu'⟩ := State.page?_addUse _ b true r _ hu
    exact ⟨u', hu'⟩
  unfold State.moveUse
  dsimp only
  by_cases h1 : old.leftRes = new.leftRes <;> by_cases h2 : old.rightRes = new.rightRes
  · rw [if_pos h1, if_pos h2]; exact ⟨Iff.rfl, fun p hp => ⟨_, hp⟩⟩
  · rw [if_pos h1, if_neg h2]; exact step s _ _
  · rw [if_neg h1, if_pos h2]; exact step s _ _
  · rw [if_neg h1, if_neg h2]
    obtain ⟨a1, a2⟩ := step s old.leftRes new.leftRes
    obtain ⟨b1, b2⟩ := step ((s.addUse old.leftRes false).addUse new.leftRes true) old.rightRes new.rightRes
    refine ⟨b1.trans a1, fun p hp => ?_⟩
    obtain ⟨u, hu⟩ := a2 p hp
    obtain ⟨u', hu'⟩ := b2 _ hu
    exact ⟨u', hu'⟩

/-- Resolving anew leaves EMPTY records EMPTY, and of a live record changes the use count only (R130). -/
theorem State.page?_reresolve (s : State) (a r : Nat) :
    ((s.reresolve a).page? r = none ↔ s.page? r = none) ∧
    ∀ p, s.page? r = some p → ∃ u, (s.reresolve a).page? r = some { p with useCount := u } := by
  unfold State.reresolve
  dsimp only
  rw [State.page?_congr (State.rearm_same _ _).2.2.2.2.1]
  generalize hn : s.recomputeTicket a = next
  have key : ∀ (l : List Ticket) (v : State),
      ((l.foldl (fun acc t => acc.moveUse t (next t)) v).page? r = none ↔ v.page? r = none) ∧
      ∀ p, v.page? r = some p →
        ∃ u, (l.foldl (fun acc t => acc.moveUse t (next t)) v).page? r = some { p with useCount := u } := by
    intro l
    induction l with
    | nil => exact fun v => ⟨Iff.rfl, fun p hp => ⟨_, hp⟩⟩
    | cons x xs ih =>
      intro v
      obtain ⟨a1, a2⟩ := State.page?_moveUse v x (next x) r
      obtain ⟨b1, b2⟩ := ih (v.moveUse x (next x))
      refine ⟨b1.trans a1, fun p hp => ?_⟩
      obtain ⟨u, hu⟩ := a2 p hp
      obtain ⟨u', hu'⟩ := b2 _ hu
      exact ⟨u', hu'⟩
  subst hn
  exact key s.schedule s

/-- The live records are the records that are live. -/
theorem State.mem_liveRecords (s : State) (r : Nat) (p : PageRecord) :
    (r, p) ∈ s.liveRecords ↔ s.page? r = some p := by
  unfold State.liveRecords State.page?
  simp only [List.mem_filterMap, Prod.exists, Option.map_eq_some_iff, Prod.mk.injEq, List.mem_zipIdx_iff_getElem?]
  constructor
  · rintro ⟨o, i, hi, q, rfl, rfl, rfl⟩
    simp [List.getD_eq_getElem?_getD, hi]
  · intro h
    refine ⟨some p, r, ?_, p, rfl, rfl, rfl⟩
    rw [List.getD_eq_getElem?_getD] at h
    cases hg : s.pages[r]? with
    | none => rw [hg] at h; simp at h
    | some o => rw [hg] at h; simpa using h

/-- A record found by name is current and has the name. -/
theorem State.findPage_some {s : State} {a b r : Nat} {p : PageRecord} (h : s.findPage a b = some (r, p)) :
    s.page? r = some p ∧ p.current = true ∧ p.pageId = a ∧ p.version = b := by
  unfold State.findPage at h
  have hm := List.mem_of_find?_eq_some h
  have hp := List.find?_some h
  simp only [Bool.and_eq_true, beq_iff_eq] at hp
  exact ⟨(State.mem_liveRecords s r p).mp hm, hp.1.1, hp.1.2, hp.2⟩

/-- No record is found by a name that no current record has. -/
theorem State.findPage_none (s : State) (a b : Nat) :
    s.findPage a b = none ↔
      ∀ r p, s.page? r = some p → p.current = true → ¬ (p.pageId = a ∧ p.version = b) := by
  unfold State.findPage
  rw [List.find?_eq_none]
  simp only [Prod.forall, State.mem_liveRecords, Bool.and_eq_true, beq_iff_eq]
  constructor
  · intro h r p hp hc hn; exact h r p hp ⟨⟨hc, hn.1⟩, hn.2⟩
  · intro h r p hp hn; exact h r p hp hn.1.1 ⟨hn.1.2, hn.2⟩

/-- The lowest EMPTY record. -/
theorem State.emptyRecord_some {s : State} {r : Nat} (h : s.emptyRecord = some r) :
    r < s.pages.length ∧ s.page? r = none ∧ ∀ r' < r, s.page? r' ≠ none := by
  unfold State.emptyRecord at h
  rw [List.findIdx?_eq_some_iff_getElem] at h
  obtain ⟨hl, hr, hlt⟩ := h
  refine ⟨hl, ?_, ?_⟩
  · simpa [State.page?, List.getD_eq_getElem?_getD, List.getElem?_eq_getElem hl] using hr
  · intro r' hr'
    have := hlt r' hr'
    have hl' : r' < s.pages.length := by omega
    simp only [State.page?, List.getD_eq_getElem?_getD, List.getElem?_eq_getElem hl', Option.getD_some]
    intro hn; rw [hn] at this; simp at this

/-- No record is EMPTY. -/
theorem State.emptyRecord_none {s : State} :
    s.emptyRecord = none ↔ ∀ r < s.pages.length, s.page? r ≠ none := by
  unfold State.emptyRecord
  rw [List.findIdx?_eq_none_iff]
  constructor
  · intro h r hr
    have := h _ (List.getElem_mem hr)
    simp only [State.page?, List.getD_eq_getElem?_getD, List.getElem?_eq_getElem hr, Option.getD_some]
    intro hn; rw [hn] at this; simp at this
  · intro h x hx
    obtain ⟨r, hr, rfl⟩ := List.getElem_of_mem hx
    have := h r hr
    simp only [State.page?, List.getD_eq_getElem?_getD, List.getElem?_eq_getElem hr, Option.getD_some] at this
    cases hv : s.pages[r] with
    | none => exact absurd hv this
    | some _ => rfl

/-- The records after the superseded indicators of an id have been worked out again (R3). -/
theorem State.page?_resupersede (s : State) (a r : Nat) :
    (s.resupersede a).page? r = (s.page? r).map fun p =>
      if p.current && p.pageId == a then
        { p with superseded := s.liveRecords.any fun (_, q) =>
            q.current && q.pageId == a && decide (p.version < q.version) }
      else p := by
  simp only [State.page?, State.resupersede, List.getD_eq_getElem?_getD, List.getElem?_map]
  cases h : s.pages[r]? with
  | none => rfl
  | some o => rfl

/-! ## Layers -/

/-- A layer of a record after one of its layers has been changed, where the change keeps the identity. -/
theorem PageRecord.layer?_modifyLayer (p : PageRecord) (id id' : LayerId) (f : LayerRecord → LayerRecord)
    (hf : ∀ l, (f l).id = l.id) :
    (p.modifyLayer id f).layer? id' = if id' = id then (p.layer? id).map f else p.layer? id' := by
  unfold PageRecord.layer? PageRecord.modifyLayer
  dsimp only
  induction p.layers with
  | nil => split <;> rfl
  | cons l ls ih =>
    rw [List.map_cons, List.find?_cons, List.find?_cons]
    have hid : (if (l.id == id) = true then f l else l).id = l.id := by split <;> simp [hf]
    rw [hid]
    by_cases h : l.id = id'
    · subst h
      rw [beq_self_eq_true]
      by_cases h2 : l.id = id
      · simp [h2]
      · simp [h2]
    · rw [beq_eq_false_iff_ne.mpr h]
      dsimp only
      rw [ih]
      by_cases h2 : id' = id
      · subst h2; rw [if_pos rfl, if_pos rfl, beq_eq_false_iff_ne.mpr h]
      · simp only [h2, if_false]
        rw [List.find?_cons, beq_eq_false_iff_ne.mpr h]

/-- A layer found by its identity has it. -/
theorem PageRecord.layer?_id {p : PageRecord} {id : LayerId} {l : LayerRecord} (h : p.layer? id = some l) :
    l.id = id ∧ l ∈ p.layers := by
  unfold PageRecord.layer? at h
  exact ⟨by simpa using List.find?_some h, List.mem_of_find?_eq_some h⟩

/-! ## Derivation (R64) -/

/-- The record a derivation leaves: a closed record takes the derived state, and a first damage is noted (R64, R65). -/
def PageRecord.afterDerivation (p : PageRecord) : PageRecord :=
  if p.closed && !(p.derived == p.state) then
    { p with state := p.derived, damageNoted := p.damageNoted || p.derived == .damaged }
  else p

/-- A derivation changes the state and the damage note of a record only. -/
@[simp] theorem PageRecord.afterDerivation_same (p : PageRecord) :
    p.afterDerivation.pageId = p.pageId ∧ p.afterDerivation.version = p.version ∧
    p.afterDerivation.width = p.width ∧ p.afterDerivation.height = p.height ∧
    p.afterDerivation.inkSet = p.inkSet ∧ p.afterDerivation.bandCount = p.bandCount ∧
    p.afterDerivation.pendingWrites = p.pendingWrites ∧ p.afterDerivation.useCount = p.useCount ∧
    p.afterDerivation.superseded = p.superseded ∧ p.afterDerivation.layers = p.layers := by
  unfold PageRecord.afterDerivation
  split <;> simp

/-- A derivation changes no layer. -/
@[simp] theorem PageRecord.layer?_afterDerivation (p : PageRecord) (id : LayerId) :
    p.afterDerivation.layer? id = p.layer? id := by
  simp [PageRecord.layer?]

/-- The first damage of a record that stands in the table. -/
theorem State.page?_noteDamage {s : State} {r : Nat} {p : PageRecord} (h : s.page? r = some p) (r' : Nat) :
    (s.noteDamage r p).page? r'
      = if r' = r then some { p with damageNoted := p.damageNoted || p.state == .damaged } else s.page? r' := by
  unfold State.noteDamage
  by_cases hc : p.state = .damaged
  · cases hn : p.damageNoted
    · simp only [hc, BEq.rfl, Bool.not_false, Bool.and_self, if_true]
      rw [State.page?_congr (State.latch_same _ _).2.2.2.2.1, State.page?_setPage_of_live h]; simp
    · simp only [hc, Bool.not_true, Bool.and_false, Bool.false_eq_true, if_false]
      split
      · rename_i e; subst e; rw [h]; cases p; simp_all
      · rfl
  · have : (p.state == PageState.damaged) = false := by simpa using hc
    simp only [this, Bool.false_and, Bool.false_eq_true, if_false, Bool.or_false]
    split
    · rename_i e; subst e; exact h
    · rfl

/-- The records after a derivation. -/
theorem State.page?_derivePage (s : State) (r r' : Nat) :
    (s.derivePage r).page? r' = if r' = r then (s.page? r).map PageRecord.afterDerivation else s.page? r' := by
  unfold State.derivePage
  cases h : s.page? r with
  | none =>
    dsimp only
    split
    · rename_i e; subst e; simpa using h
    · rfl
  | some p =>
    dsimp only
    have hcond : (!p.closed || p.derived == p.state) = !(p.closed && !(p.derived == p.state)) := by
      cases p.closed <;> cases (p.derived == p.state) <;> rfl
    rw [hcond, Option.map_some]
    unfold PageRecord.afterDerivation
    cases hb : (p.closed && !(p.derived == p.state)) with
    | false =>
      simp only [Bool.not_false, if_true, Bool.false_eq_true, if_false]
      split
      · rename_i e; subst e; exact h
      · rfl
    | true =>
      simp only [Bool.not_true, Bool.false_eq_true, if_false, if_true]
      unfold State.pageChanged
      dsimp only
      rw [State.page?_congr (State.rearm_same _ _).2.2.2.2.1]
      have hs : (s.setPage r (some { p with state := p.derived })).page? r = some { p with state := p.derived } := by
        rw [State.page?_setPage_of_live h]; simp
      split
      · rw [State.page?_noteDamage (by rw [State.page?_congr (State.report_same _ _).2.2.2.2.1]; exact hs),
          State.page?_congr (State.report_same _ _).2.2.2.2.1, State.page?_setPage_of_live h]
        split <;> rfl
      · rename_i hne
        rw [State.page?_setPage_of_live h]
        split
        · have : (p.derived == PageState.damaged) = false := by
            simp only [beq_eq_false_iff_ne]; exact fun e => hne (.inr e)
          simp [this]
        · rfl

/-- A first damage grows the queue. -/
theorem State.noteDamage_growsTo (s : State) (r : Nat) (p : PageRecord) :
    s.reports.growsTo (s.noteDamage r p).reports := by
  unfold State.noteDamage
  split
  · exact Reports.latch_growsTo _ _
  · exact Reports.growsTo_refl _

/-- A derivation grows the queue. -/
theorem State.derivePage_growsTo (s : State) (r : Nat) : s.reports.growsTo (s.derivePage r).reports := by
  unfold State.derivePage
  split
  · exact Reports.growsTo_refl _
  · rename_i p _
    split
    · exact Reports.growsTo_refl _
    · unfold State.pageChanged
      dsimp only
      split
      · have h1 : s.reports.growsTo ((s.setPage r (some { p with state := p.derived })).report
            ({ p with state := p.derived }.report r)).reports := Reports.enqueue_growsTo _ _
        have h2 := Reports.growsTo_trans h1 (State.noteDamage_growsTo _ r { p with state := p.derived })
        exact Reports.growsTo_trans h2 (Reports.growsTo_same (by simp))
      · exact Reports.growsTo_same (by simp)

/-! ## Evaluation (R61 to R63) -/

/-- The records after a layer has been given a state. -/
theorem State.page?_setLayerState (s : State) (t : LayerRef) (old new : LayerState) (r : Nat) :
    (s.setLayerState t old new).page? r
      = (s.modifyPage t.record fun p => p.modifyLayer t.layer fun l => { l with state := new }).page? r := by
  apply State.page?_congr
  unfold State.setLayerState
  dsimp only
  split
  · simp
  · split <;> simp

/-- The record after an evaluation of one of its layers (R61, R62). -/
def PageRecord.afterEvaluation (p : PageRecord) (id : LayerId) : PageRecord :=
  match p.layer? id with
  | none => p
  | some l => if p.closed && l.settled then p.modifyLayer id (fun x => { x with state := l.evaluated }) else p

/-- The records after an evaluation of a layer. -/
theorem State.page?_evaluateLayer (s : State) (t : LayerRef) (r : Nat) :
    (s.evaluateLayer t).page? r
      = if r = t.record then (s.page? r).map fun p => p.afterEvaluation t.layer else s.page? r := by
  unfold State.evaluateLayer
  by_cases hr : r = t.record
  · subst hr
    rw [if_pos rfl]
    cases hp : s.page? t.record with
    | none => dsimp only; rw [hp]; rfl
    | some p =>
      rw [Option.map_some]
      unfold PageRecord.afterEvaluation
      dsimp only
      cases hl : p.layer? t.layer with
      | none => dsimp only; rw [hp]
      | some l =>
        dsimp only
        split
        · rw [State.page?_setLayerState, State.page?_modifyPage, if_pos rfl, hp]; rfl
        · rw [hp]
  · rw [if_neg hr]
    split
    · rfl
    · split
      · rfl
      · split
        · rw [State.page?_setLayerState, State.page?_modifyPage, if_neg hr]
        · rfl

end Sys2Proof.Machine
end

