-- ==== Sys2Proof/Laws/Arbiter.lean ====
section
/-! SUPPORT. The store arbiter (R55): what its choice keeps of the store, and what it serves. -/

namespace Sys2Proof.Machine

/-! ## What the choice keeps -/

/-- The sweep, the pools and the DRAM are not changed by the arbiter's choice. -/
@[simp] theorem State.serve_store (n : Nat) (s : State) :
    (State.serve n s).store.sweep = s.store.sweep ∧ (State.serve n s).store.poolOut = s.store.poolOut ∧
    (State.serve n s).store.retired = s.store.retired ∧ (State.serve n s).store.dram = s.store.dram := by
  induction n generalizing s with
  | zero => simp [State.serve]
  | succ n ih =>
    unfold State.serve
    (repeat' split) <;> simp [ih]

/-- The sweep, the pools and the DRAM are not changed by the arbiter's choice. -/
@[simp] theorem State.arbitrate_store (s : State) :
    s.arbitrate.store.sweep = s.store.sweep ∧ s.arbitrate.store.poolOut = s.store.poolOut ∧
    s.arbitrate.store.retired = s.store.retired ∧ s.arbitrate.store.dram = s.store.dram := by
  unfold State.arbitrate
  split <;> simp

/-- A write that waits goes on waiting, or is in service. -/
theorem State.serve_write (n : Nat) (s : State) (w : WriteRef) (h : w ∈ s.store.writeSide) :
    w ∈ (State.serve n s).store.writeSide ∨ (State.serve n s).store.inService = some (.write w) := by
  induction n generalizing s with
  | zero => exact .inl h
  | succ n ih =>
    unfold State.serve
    split
    · exact .inl h
    · split
      · rename_i e; rw [e] at h; exact absurd h (by simp)
      · rename_i w' rest e
        rw [e, List.mem_cons] at h
        rcases h with rfl | h
        · exact .inr rfl
        · exact .inl h
    · split
      · exact .inl h
      · split
        · refine ih _ ?_
          simpa using h
        · exact .inl h

/-- A write that waits goes on waiting, or is in service. -/
theorem State.arbitrate_write (s : State) (w : WriteRef) (h : w ∈ s.store.writeSide) :
    w ∈ s.arbitrate.store.writeSide ∨ s.arbitrate.store.inService = some (.write w) := by
  unfold State.arbitrate
  split
  · exact .inl h
  · exact State.serve_write _ _ _ h

/-! ## What is served -/

/-- With a request in service the arbiter does not choose. -/
theorem State.arbitrate_busy {s : State} (h : s.store.inService.isSome = true) : s.arbitrate = s := by
  unfold State.arbitrate; rw [if_pos h]

/-- With nothing waiting the store is idle. -/
theorem State.arbitrate_idle {s : State} (hw : s.store.writeSide = []) (hr : s.store.readSide = []) :
    s.arbitrate = s := by
  unfold State.arbitrate
  split
  · rfl
  · rw [hr]; simp [State.serve, nextSide, hw, hr]

/-- A write is served: the only side that waits, or the one not served last. -/
theorem State.arbitrate_write_first {s : State} {w : WriteRef} {ws : List WriteRef} (h : s.store.inService = none)
    (hw : s.store.writeSide = w :: ws) (hr : s.store.readSide = [] ∨ s.store.lastSide = .read) :
    s.arbitrate
      = { s with store := { s.store with writeSide := ws, inService := some (.write w), lastSide := .write } } := by
  unfold State.arbitrate
  rw [if_neg (by simp [h])]
  unfold State.serve
  have : nextSide s.store.lastSide (!s.store.writeSide.isEmpty) (!s.store.readSide.isEmpty) = some .write := by
    rw [hw]
    rcases hr with hr | hr
    · rw [hr]; rfl
    · rw [hr]; cases s.store.readSide <;> rfl
  rw [this]
  dsimp only
  rw [hw]

/-- A read of a tile that is not retired is served: the only side that waits, or the one not served last. -/
theorem State.arbitrate_read_first {s : State} {r : StoreRead} {rs : List StoreRead} (h : s.store.inService = none)
    (hr : s.store.readSide = r :: rs) (hw : s.store.writeSide = [] ∨ s.store.lastSide = .write)
    (ht : r.tile ∉ s.store.retired) :
    s.arbitrate
      = { s with store := { s.store with readSide := rs, inService := some (.read r), lastSide := .read } } := by
  unfold State.arbitrate
  rw [if_neg (by simp [h])]
  unfold State.serve
  have : nextSide s.store.lastSide (!s.store.writeSide.isEmpty) (!s.store.readSide.isEmpty) = some .read := by
    rw [hr]
    rcases hw with hw | hw
    · rw [hw]; rfl
    · rw [hw]; cases s.store.writeSide <;> rfl
  rw [this]
  dsimp only
  rw [hr]
  dsimp only
  rw [if_neg (by simpa using ht)]

end Sys2Proof.Machine
end

