-- ==== Sys2Proof/Laws/Lines.lean ====
section
/-! SUPPORT. The making of lines (R86, R98 to R100): what a made line holds, and what its making changes. -/

namespace Sys2Proof.Machine

open Sys2Proof (Byte)

/-- The dot of a line formed position by position; beyond the line every dot is off. -/
theorem getD_map_range (n : Nat) (f : Nat → Bool) (x : Nat) :
    ((List.range n).map f).getD x false = (decide (x < n) && f x) := by
  rw [List.getD_eq_getElem?_getD, List.getElem?_map]
  by_cases h : x < n <;> simp [h]

/-- A margin line has every dot off (R98). -/
theorem getD_marginLine (pl : Plate) (x : Nat) : (marginLine pl).getD x false = false := by
  unfold marginLine
  rw [List.getD_eq_getElem?_getD, List.getElem?_replicate]
  split <;> rfl

/-- A margin line has W_h dots. -/
@[simp] theorem length_marginLine (pl : Plate) : (marginLine pl).length = pl.headWidth := by simp [marginLine]

/-- An image line has W_h dots. -/
@[simp] theorem length_imageLine (pl : Plate) (t : ScreenTable) (curve : List Byte) (l r : Option SlotRows) (y : Nat) :
    (imageLine pl t curve l r y).length = pl.headWidth := by simp [imageLine]

/-- A dot of an image line is the plate dot of its position. -/
theorem getD_imageLine (pl : Plate) (t : ScreenTable) (curve : List Byte) (l r : Option SlotRows) (y x : Nat) :
    (imageLine pl t curve l r y).getD x false = (decide (x < pl.headWidth) && plateDot pl t curve l r y x) :=
  getD_map_range _ _ _

/-- Going on with waiting rows changes no cursor of the plate. -/
@[simp] theorem PrefetchJob.goOn_nextLine (j : PrefetchJob) (pl : Plate) : (j.goOn pl).nextLine = j.nextLine := by
  unfold PrefetchJob.goOn
  split <;> rfl

/-- An image line is made: the line of the rows joins the tail of the pool, the next plate line is one on, and of the
plate context the summary changes only (R86). -/
theorem State.makeImageLine_spec (s : State) (pl : Plate) (j : PrefetchJob) :
    ∃ t curve l r sm j', (s.makeImageLine pl j).drive
        = { s.drive with
            pool := s.drive.pool ++ [imageLine pl t curve l r j.nextLine], plate := some { pl with summary := sm } } ∧
      (s.makeImageLine pl j).prefetch.job = some j' ∧ j'.nextLine = j.nextLine + 1 := by
  have key : ∀ (n : Nat) (j' : PrefetchJob) (sm : Summary) (line : Line),
      ((State.unpackFaults n s).placeLine pl j' sm line).drive
        = { s.drive with pool := s.drive.pool ++ [line], plate := some { pl with summary := sm } } := by
    intro n j' sm line
    unfold State.placeLine
    simp
  unfold State.makeImageLine
  dsimp only
  exact ⟨_, _, _, _, _, _, key _ _ _ _, rfl, PrefetchJob.goOn_nextLine _ _⟩

/-- The prime test leaves the pool and the context; it takes a priming drive to IMAGING only with the pool at the prime
level or every line made (R152). -/
theorem State.primeTest_spec {s : State} {pl : Plate} {j : PrefetchJob} (hp : s.drive.plate = some pl)
    (hj : s.prefetch.job = some j) :
    s.primeTest = s ∨
      (s.drive.state = .priming ∧ (s.drive.settings.prime ≤ s.drive.pool.length ∨ pl.lineCount ≤ j.nextLine) ∧
        s.primeTest
          = { s with drive := { s.drive with state := .imaging, stall := some s.drive.settings.stallMs } }) := by
  unfold State.primeTest
  rw [hp, hj]
  dsimp only
  split
  · rename_i h; exact .inr ⟨h.1, h.2, rfl⟩
  · exact .inl rfl

/-- A line is made: it joins the tail of the pool, the next plate line is one on, and of the plate context the summary
changes only (R86). -/
theorem State.makeLine_spec {s : State} {pl : Plate} {j : PrefetchJob} (hp : s.drive.plate = some pl)
    (hj : s.prefetch.job = some j) :
    ∃ line sm j', s.makeLine.drive
        = { s.drive with pool := s.drive.pool ++ [line], plate := some { pl with summary := sm } } ∧
      s.makeLine.prefetch.job = some j' ∧ j'.nextLine = j.nextLine + 1 ∧ line.length = pl.headWidth := by
  unfold State.makeLine
  rw [hp, hj]
  dsimp only
  split
  · exact ⟨marginLine pl, pl.summary, _, rfl, rfl, by simp, by simp⟩
  · obtain ⟨t, curve, l, r, sm, j', h1, h2, h3⟩ := State.makeImageLine_spec s pl j
    exact ⟨_, sm, j', h1, h2, h3, by simp⟩

/-- A line can be made only with a plate in context, room in the pool and lines left. -/
theorem State.canMakeLine_some {s : State} (h : s.canMakeLine = true) :
    ∃ pl j, s.drive.plate = some pl ∧ s.prefetch.job = some j ∧ s.drive.pool.length < 64 ∧
      j.nextLine < pl.lineCount := by
  unfold State.canMakeLine at h
  cases hp : s.drive.plate with
  | none => cases hj : s.prefetch.job <;> simp [hp, hj] at h
  | some pl =>
    cases hj : s.prefetch.job with
    | none => simp [hp, hj] at h
    | some j =>
      simp only [hp, hj, Bool.and_eq_true, decide_eq_true_eq] at h
      exact ⟨pl, j, rfl, rfl, h.1.1.2, h.1.2⟩

/-- Lines are made (R86): they join the tail of the pool in order, as many as there are, the pool holds at most 64, and
with room for them none is left that could be made. -/
theorem State.makeLines_spec (n : Nat) {s : State} {pl : Plate} {j : PrefetchJob} (hp : s.drive.plate = some pl)
    (hj : s.prefetch.job = some j) :
    ∃ lines sm j', (State.makeLines n s).drive
        = { s.drive with pool := s.drive.pool ++ lines, plate := some { pl with summary := sm } } ∧
      (State.makeLines n s).prefetch.job = some j' ∧ j'.nextLine = j.nextLine + lines.length ∧
      (∀ l ∈ lines, l.length = pl.headWidth) ∧
      (s.drive.pool.length ≤ 64 → s.drive.pool.length + lines.length ≤ 64) ∧
      (j.nextLine ≤ pl.lineCount → j.nextLine + lines.length ≤ pl.lineCount) ∧
      (64 ≤ n + s.drive.pool.length → (State.makeLines n s).canMakeLine = false) := by
  have none : ∀ s : State, s.drive.plate = some pl → s.prefetch.job = some j → 64 ≤ s.drive.pool.length →
      s.canMakeLine = false := by
    intro s _ _ hl
    cases hc : s.canMakeLine with
    | false => rfl
    | true => obtain ⟨_, _, -, -, h, -⟩ := State.canMakeLine_some hc; omega
  induction n generalizing s pl j with
  | zero =>
    exact ⟨[], pl.summary, j, by simp [State.makeLines, ← hp], hj, by simp, by simp, by simp, by simp,
      fun h => none s hp hj (by omega)⟩
  | succ n ih =>
    unfold State.makeLines
    split
    · rename_i hc
      obtain ⟨line, sm, j1, h1, h2, h3, h4⟩ := State.makeLine_spec hp hj
      obtain ⟨pl', j', hp', hj', hroom, hleft⟩ := State.canMakeLine_some hc
      rw [hp] at hp'; cases hp'
      rw [hj] at hj'; cases hj'
      have hpl : s.makeLine.drive.plate = some { pl with summary := sm } := by rw [h1]
      have hpool : s.makeLine.drive.pool.length = s.drive.pool.length + 1 := by rw [h1]; simp
      obtain ⟨lines, sm2, j2, g1, g2, g3, g4, g5, g6, g7⟩ := ih hpl h2 (by
        intro u hu _ hl
        cases hc : u.canMakeLine with
        | false => rfl
        | true => obtain ⟨_, _, -, -, h, -⟩ := State.canMakeLine_some hc; omega)
      refine ⟨line :: lines, sm2, j2, ?_, g2, ?_, ?_, ?_, ?_, fun h => g7 (by omega)⟩
      · rw [g1, h1]; simp
      · rw [g3, h3, List.length_cons]; omega
      · intro l hl
        rcases List.mem_cons.mp hl with rfl | hl
        · exact h4
        · exact g4 l hl
      · intro _
        have := g5 (by omega)
        rw [List.length_cons]; omega
      · intro _
        have := g6 (show j1.nextLine ≤ pl.lineCount by omega)
        rw [List.length_cons]
        have h5 : ({ pl with summary := sm } : Plate).lineCount = pl.lineCount := rfl
        omega
    · rename_i hc
      exact ⟨[], pl.summary, j, by simp [← hp], hj, by simp, by simp, by simp, by simp, fun _ => by simpa using hc⟩

/-- Without a plate in context Prefetch does nothing. -/
theorem State.prefetchEvent_none {s : State} (h : s.drive.plate = none ∨ s.prefetch.job = none) :
    s.prefetchEvent = s := by
  have hc : s.canMakeLine = false := by
    cases hc : s.canMakeLine with
    | false => rfl
    | true =>
      obtain ⟨_, _, hp, hj, -⟩ := State.canMakeLine_some hc
      rcases h with h | h
      · rw [hp] at h; cases h
      · rw [hj] at h; cases h
  have hm : State.makeLines Config.poolCapacity s = s := by
    show State.makeLines 64 s = s
    unfold State.makeLines
    rw [if_neg (by simp [hc])]
  unfold State.prefetchEvent State.primeTest
  rw [hm]
  split
  · rename_i h1 h2
    rcases h with h | h
    · rw [h1] at h; cases h
    · rw [h2] at h; cases h
  · rfl
  · rfl
  · rfl

/-- An event of Prefetch (R86, R152): every line that can be made joins the pool, and the drive enters IMAGING where it
was PRIMING and the prime test passes after them. -/
theorem State.prefetchEvent_spec {s : State} {pl : Plate} {j : PrefetchJob} (hp : s.drive.plate = some pl)
    (hj : s.prefetch.job = some j) :
    ∃ lines sm j', s.prefetchEvent.prefetch.job = some j' ∧ j'.nextLine = j.nextLine + lines.length ∧
      (∀ l ∈ lines, l.length = pl.headWidth) ∧
      (s.drive.pool.length ≤ 64 → s.drive.pool.length + lines.length ≤ 64) ∧
      (j.nextLine ≤ pl.lineCount → j.nextLine + lines.length ≤ pl.lineCount) ∧
      ((s.drive.state = .priming ∧ (s.drive.settings.prime ≤ s.drive.pool.length + lines.length ∨
          pl.lineCount ≤ j.nextLine + lines.length) ∧
        s.prefetchEvent.drive = { s.drive with
          pool := s.drive.pool ++ lines, plate := some { pl with summary := sm }, state := .imaging,
          stall := some s.drive.settings.stallMs }) ∨
      (¬ (s.drive.state = .priming ∧ (s.drive.settings.prime ≤ s.drive.pool.length + lines.length ∨
          pl.lineCount ≤ j.nextLine + lines.length)) ∧
        s.prefetchEvent.drive
          = { s.drive with pool := s.drive.pool ++ lines, plate := some { pl with summary := sm } })) := by
  obtain ⟨lines, sm, j', h1, h2, h3, h4, h5, h6, -⟩ := State.makeLines_spec Config.poolCapacity hp hj
  refine ⟨lines, sm, j', ?_, h3, h4, h5, h6, ?_⟩
  · unfold State.prefetchEvent State.primeTest
    rw [h2, h1]
    dsimp only
    split
    · exact h2
    · exact h2
  · have hs : (State.makeLines Config.poolCapacity s).drive.state = s.drive.state := by rw [h1]
    have hse : (State.makeLines Config.poolCapacity s).drive.settings = s.drive.settings := by rw [h1]
    have hpo : (State.makeLines Config.poolCapacity s).drive.pool.length = s.drive.pool.length + lines.length := by
      rw [h1]; simp
    have hpl : (State.makeLines Config.poolCapacity s).drive.plate = some { pl with summary := sm } := by rw [h1]
    unfold State.prefetchEvent State.primeTest
    rw [hpl, h2]
    dsimp only
    rw [hs, hse, hpo, h3]
    split
    · rename_i h; exact .inl ⟨h.1, h.2, by rw [h1]⟩
    · rename_i h; exact .inr ⟨h, h1⟩

end Sys2Proof.Machine
end

