-- ==== Sys2Proof/Laws/Intake.lean ====
section
/-! SUPPORT. How Intake takes a segment or parity parcel, and the free pool it allocates from. -/

namespace Sys2Proof.Machine

open Sys2Proof (Byte)

/-- A segment or parity parcel at the head is judged and acted on, and the holding flag is evaluated. -/
theorem State.takeSegmentParcel_of_head {s : State} {parity : Bool} {flags : Byte} {h : SegHeader}
    {payload : List Byte} {rest : List Parcel} {k : Nat} (ht : s.intakeTaking = true)
    (hq : s.intake.queue = .data parity flags h payload :: rest) (hf : s.freeSlot = some k) :
    s.beginStep.takeSegmentParcel
      = (s.beginStep.popInlet.actOnJudged k h parity payload (s.judge parity h payload)).evalFlag := by
  unfold State.takeSegmentParcel
  have h1 : s.beginStep.intake.queue.head? = some (.data parity flags h payload) := by simp [hq]
  have h2 : s.beginStep.freeSlot = some k := hf
  rw [h1, h2]
  dsimp only
  rw [if_pos (show s.beginStep.intakeTaking = true from ht)]
  rfl

/-- An accepted verdict names a live record and a layer of it, and the tile of the item's tile-map slot, or one
allocated where that slot is empty (R35). -/
theorem State.judge_accepted {s : State} {parity : Bool} {h : SegHeader} {payload : List Byte} {r tile : Nat}
    {id : LayerId} {allocated : Bool} (hj : s.judge parity h payload = .accepted r id tile allocated) :
    ∃ p l, s.page? r = some p ∧ p.current = true ∧ p.layer? id = some l ∧
      (allocated = false → l.tileAt (h.item parity).mapSlot = some tile) ∧
      (allocated = true → l.tileAt (h.item parity).mapSlot = none ∧ s.lowestFree = some tile) := by
  unfold State.judge at hj
  cases hf : s.findPage h.pageId h.version with
  | none => rw [hf] at hj; exact absurd hj (by simp)
  | some x =>
    obtain ⟨r', p⟩ := x
    rw [hf] at hj
    dsimp only at hj
    cases hl : h.layerId?.bind p.layer? with
    | none => rw [hl] at hj; exact absurd hj (by simp)
    | some l =>
      rw [hl] at hj
      dsimp only at hj
      unfold State.judgeLayer at hj
      split at hj
      · exact absurd hj (by simp)
      · split at hj
        · exact absurd hj (by simp)
        · split at hj
          · exact absurd hj (by simp)
          · unfold State.placeItem at hj
            obtain ⟨lid, -, hl⟩ := Option.bind_eq_some_iff.mp hl
            have hid := (PageRecord.layer?_id hl).1
            have hp := State.findPage_some hf
            split at hj
            · rename_i t ht
              simp only [Judged.accepted.injEq] at hj
              obtain ⟨rfl, rfl, rfl, rfl⟩ := hj
              exact ⟨p, l, hp.1, hp.2.1, by rw [hid]; exact hl, fun _ => ht, fun e => absurd e (by simp)⟩
            · rename_i ht
              split at hj
              · exact absurd hj (by simp)
              · rename_i u hu
                simp only [Judged.accepted.injEq] at hj
                obtain ⟨rfl, rfl, rfl, rfl⟩ := hj
                exact ⟨p, l, hp.1, hp.2.1, by rw [hid]; exact hl, fun e => absurd e (by simp), fun _ => ⟨ht, hu⟩⟩

/-! ## Rising lists -/

/-- A number joins a rising list. -/
theorem mem_insertRising (x y : Nat) (l : List Nat) : y ∈ insertRising x l ↔ y = x ∨ y ∈ l := by
  induction l with
  | nil => simp [insertRising]
  | cons z zs ih =>
    unfold insertRising
    split
    · simp
    · split
      · rename_i h; subst h; simp
      · simp [ih]; tauto

/-- Every later number of a rising list is above its first. -/
theorem rises_cons {x : Nat} {l : List Nat} (h : rises (x :: l) = true) : rises l = true ∧ ∀ y ∈ l, x < y := by
  induction l generalizing x with
  | nil => exact ⟨rfl, by simp⟩
  | cons z zs ih =>
    simp only [rises, Bool.and_eq_true, decide_eq_true_eq] at h
    refine ⟨h.2, fun y hy => ?_⟩
    rcases List.mem_cons.mp hy with rfl | hy
    · exact h.1
    · exact Nat.lt_trans h.1 ((ih h.2).2 y hy)

/-- A rising list with a smaller number in front rises. -/
theorem rises_cons_of {x : Nat} {l : List Nat} (h : rises l = true) (hx : ∀ y ∈ l, x < y) : rises (x :: l) = true := by
  cases l with
  | nil => rfl
  | cons z zs => simp [rises, hx z (by simp), h]

/-- Adding a number keeps a list rising. -/
theorem rises_insertRising (x : Nat) (l : List Nat) (h : rises l = true) : rises (insertRising x l) = true := by
  induction l with
  | nil => rfl
  | cons z zs ih =>
    have hz := rises_cons h
    unfold insertRising
    split
    · exact rises_cons_of h fun y hy => by
        rcases List.mem_cons.mp hy with rfl | hy
        · assumption
        · exact Nat.lt_trans ‹_› (hz.2 y hy)
    · split
      · exact h
      · refine rises_cons_of (ih hz.1) fun y hy => ?_
        rcases (mem_insertRising x y zs).mp hy with rfl | hy
        · omega
        · exact hz.2 y hy

/-- Taking numbers out keeps a list rising. -/
theorem rises_filter (f : Nat → Bool) (l : List Nat) (h : rises l = true) : rises (l.filter f) = true := by
  induction l with
  | nil => rfl
  | cons z zs ih =>
    have hz := rises_cons h
    rw [List.filter_cons]
    split
    · exact rises_cons_of (ih hz.1) fun y hy => hz.2 y (List.mem_of_mem_filter hy)
    · exact ih hz.1

/-- The gap of a rising list is the least number from its start on that the list does not hold. -/
theorem firstGap_spec (i : Nat) (l : List Nat) (h : rises l = true) (hi : ∀ y ∈ l, i ≤ y) :
    i ≤ firstGap i l ∧ firstGap i l ∉ l ∧ ∀ u, i ≤ u → u < firstGap i l → u ∈ l := by
  induction l generalizing i with
  | nil => exact ⟨Nat.le_refl i, by simp, fun u h1 h2 => absurd h2 (by simp only [firstGap]; omega)⟩
  | cons z zs ih =>
    have hz := rises_cons h
    unfold firstGap
    split
    · rename_i e
      subst e
      obtain ⟨h1, h2, h3⟩ := ih (z + 1) hz.1 fun y hy => hz.2 y hy
      refine ⟨by omega, ?_, fun u hu hl => ?_⟩
      · rw [List.mem_cons]; rintro (e | e)
        · omega
        · exact h2 e
      · by_cases e : u = z
        · subst e; simp
        · exact List.mem_cons_of_mem _ (h3 u (by omega) hl)
    · rename_i hne
      have hlt : i < z := Nat.lt_of_le_of_ne (hi z (by simp)) (fun e => hne e.symm)
      refine ⟨Nat.le_refl i, ?_, fun u h1 h2 => absurd h1 (by omega)⟩
      rw [List.mem_cons]; rintro (e | e)
      · omega
      · have := hz.2 i e; omega

end Sys2Proof.Machine
end

