-- ==== Sys2Proof/Laws/Memory.lean ====
section
/-! SUPPORT. The DRAM of the tile area: reads after writes, and the canonical form, which every operation keeps. -/

namespace Sys2Proof.Machine

open Sys2Proof (Byte)

/-! ## Reads after writes -/

/-- The cell listed at a slot number after a cell has been put. -/
theorem cellIn_putCell (l : List (Nat × SlotCell)) (n m : Nat) (c : SlotCell) :
    cellIn m (putCell n c l) = if m = n then some c else cellIn m l := by
  induction l with
  | nil => simp only [putCell, cellIn]; simp only [eq_comm]
  | cons e es ih =>
    obtain ⟨k, x⟩ := e
    unfold putCell
    split
    · simp only [cellIn]; simp only [eq_comm]
    · split
      · rename_i h; subst h
        simp only [cellIn]
        by_cases e : n = m
        · simp [e]
        · simp [e, Ne.symm e]
      · simp only [cellIn, ih]
        by_cases e : k = m
        · subst e; rename_i h1 h2; simp [Ne.symm h2]
        · simp [e]

/-- The cell listed at a slot number once the cells of a tile are left out. -/
theorem cellIn_filter (l : List (Nat × SlotCell)) (tile m : Nat) :
    cellIn m (l.filter fun e => !(e.1 / 16 == tile)) = if m / 16 = tile then none else cellIn m l := by
  induction l with
  | nil => simp [cellIn]
  | cons e es ih =>
    obtain ⟨k, x⟩ := e
    rw [List.filter_cons]
    by_cases hk : k / 16 = tile
    · rw [if_neg (by simpa using hk), ih]
      simp only [cellIn]
      by_cases e : k = m
      · subst e; simp [hk]
      · simp [e]
    · rw [if_pos (by simpa using hk)]
      simp only [cellIn, ih]
      by_cases e : k = m
      · subst e; simp [hk]
      · simp [e]

/-- A slot after a write. -/
theorem Dram.slotAt_write (d : Dram) (n m : Nat) (c : SlotCell) :
    (d.write n c).slotAt m = if m = n then c else d.slotAt m := by
  unfold Dram.slotAt Dram.write
  dsimp only
  rw [cellIn_putCell]
  by_cases e : m = n <;> simp [e]

/-- The bytes of a slot after a write. -/
theorem Dram.bytesAt_write (d : Dram) (n m : Nat) (c : SlotCell) :
    (d.write n c).bytesAt m = if m = n then c.bytes else d.bytesAt m := by
  unfold Dram.bytesAt
  rw [Dram.slotAt_write]
  split <;> rfl

/-- Two numbers with bytes as their last digits are equal only where the digits are. -/
theorem digits_inj {a b : List Byte} (hl : a.length = b.length) {m n : Nat}
    (h : a.foldl (fun acc x => 256 * acc + x.toNat) m = b.foldl (fun acc x => 256 * acc + x.toNat) n) :
    m = n ∧ a = b := by
  induction a generalizing b m n with
  | nil => cases b with
    | nil => exact ⟨h, rfl⟩
    | cons y ys => cases hl
  | cons x xs ih => cases b with
    | nil => cases hl
    | cons y ys =>
      obtain ⟨h1, rfl⟩ := ih (Nat.succ.inj hl) h
      dsimp only at h1
      have hx := x.isLt
      have hy := y.isLt
      obtain rfl : x = y := BitVec.eq_of_toNat_eq (by omega)
      exact ⟨by omega, rfl⟩

/-- A check code is that of one place and of one list of bytes (R48). -/
theorem checkCodeAt_inj {m n : Nat} {a b : List Byte} (hl : a.length = b.length) (h : checkCodeAt m a = checkCodeAt n b) :
    m = n ∧ a = b := digits_inj hl (Config.checkCode.injective h)

/-- A slot with the code of its own bytes passes its check (R48). -/
@[simp] theorem codedCell_passes (n : Nat) (b : List Byte) : (codedCell n b).passes n = true := by
  simp [SlotCell.passes, codedCell]

/-- A slot that has been written agrees with its code, and every other slot as before (R48). -/
theorem Dram.agrees_write (d : Dram) (n m : Nat) (b : List Byte) :
    (d.write n (codedCell n b)).agrees m = if m = n then true else d.agrees m := by
  unfold Dram.agrees
  rw [Dram.slotAt_write]
  split
  · rename_i h; subst h; simp
  · rfl

/-- A byte outside the slot that is written reads as before. -/
theorem Dram.readByte_write_of_ne (d : Dram) (n a : Nat) (c : SlotCell) (h : a / 256 ≠ n) :
    (d.write n c).readByte a = d.readByte a := by
  simp [Dram.readByte, Dram.bytesAt_write, h]

/-- A byte of the slot that is written reads as it was written. -/
theorem Dram.readByte_write_at (d : Dram) (n o : Nat) (c : SlotCell) (h : o < 256) :
    (d.write n c).readByte (n * 256 + o) = c.bytes.getD o 0 := by
  have h1 : (n * 256 + o) / 256 = n := by omega
  have h2 : (n * 256 + o) % 256 = o := by omega
  simp [Dram.readByte, Dram.bytesAt_write, h1, h2]

/-- The slot of a write holds the payload and then zeros (R47). -/
theorem getD_paddedSlot (payload : List Byte) (o : Nat) (hp : payload.length ≤ 256) :
    (paddedSlot payload).getD o 0 = payload.getD o 0 := by
  unfold paddedSlot
  rw [List.take_of_length_le hp]
  simp only [List.getD_eq_getElem?_getD, List.getElem?_append, List.getElem?_replicate]
  by_cases h : o < payload.length
  · simp [h]
  · rw [if_neg h, List.getElem?_eq_none (by omega : payload.length ≤ o)]
    split <;> rfl

/-- A slot that is written has 256 bytes. -/
theorem length_paddedSlot (payload : List Byte) : (paddedSlot payload).length = 256 := by
  simp [paddedSlot]

/-! ## The sweep (R57) -/

/-- The slots of a tile that is written whole hold the pattern with its code; every other slot stands as before. -/
theorem Dram.slotAt_writeTile (d : Dram) (tile : Nat) (p : Nat → List Byte) (m : Nat) :
    (d.writeTile tile p).slotAt m = if m / 16 = tile then codedCell m (p m) else d.slotAt m := by
  have key : ∀ (n : Nat) (d : Dram), n ≤ 16 →
      ((List.range n).foldl
        (fun d k => d.write (slotNumber tile k) (codedCell (slotNumber tile k) (p (slotNumber tile k)))) d).slotAt m
        = if m / 16 = tile ∧ m % 16 < n then codedCell m (p m) else d.slotAt m := by
    intro n
    induction n with
    | zero => intro d _; simp
    | succ n ih =>
      intro d hn
      rw [List.range_succ, List.foldl_append, List.foldl_cons, List.foldl_nil, Dram.slotAt_write, ih d (by omega)]
      unfold slotNumber
      by_cases hm : m = tile * 16 + n
      · rw [if_pos hm, if_pos (by omega), hm]
      · rw [if_neg hm]
        by_cases h : m / 16 = tile ∧ m % 16 < n
        · rw [if_pos h, if_pos ⟨h.1, by omega⟩]
        · rw [if_neg h, if_neg (by omega)]
  unfold Dram.writeTile
  rw [key 16 d (Nat.le_refl _)]
  have : m % 16 < 16 := Nat.mod_lt _ (by decide)
  simp [this]

/-- The slots of a tile that the sweep has written hold the complement pattern with its code; every other slot stands
as before (R46, R57). -/
theorem Dram.slotAt_sweepTile (d : Dram) (tile m : Nat) :
    (d.sweepTile tile).slotAt m = if m / 16 = tile then codedCell m (sweptBytes m) else d.slotAt m := by
  unfold Dram.sweepTile
  split
  · rename_i ht
    unfold Dram.slotAt
    dsimp only
    rw [cellIn_filter]
    by_cases h : m / 16 = tile
    · have : m / 16 < max d.swept (tile + 1) := by omega
      simp only [if_pos h, Option.getD_none, unlistedCell, if_pos this]
    · simp only [if_neg h]
      congr 1
      unfold unlistedCell
      by_cases hs : m / 16 < d.swept
      · rw [if_pos hs, if_pos (by omega)]
      · rw [if_neg hs, if_neg (by omega)]
  · exact Dram.slotAt_writeTile d tile sweptBytes m

/-- A byte of a slot that the sweep has written is that of the complement pattern (R57). -/
theorem Dram.readByte_sweepTile_at (d : Dram) (tile k o : Nat) (hk : k < 16) (ho : o < 256) :
    (d.sweepTile tile).readByte (slotNumber tile k * 256 + o) = (sweptBytes (slotNumber tile k)).getD o 0 := by
  have h1 : (slotNumber tile k * 256 + o) / 256 = slotNumber tile k := by omega
  have h2 : (slotNumber tile k * 256 + o) % 256 = o := by omega
  have h3 : slotNumber tile k / 16 = tile := by unfold slotNumber; omega
  simp [Dram.readByte, Dram.bytesAt, h1, h2, Dram.slotAt_sweepTile, h3, codedCell]

/-- A byte of another tile reads as before the sweep of a tile (R46). -/
theorem Dram.readByte_sweepTile (d : Dram) (tile a : Nat) (h : a / 4096 ≠ tile) :
    (d.sweepTile tile).readByte a = d.readByte a := by
  have : a / 256 / 16 ≠ tile := by omega
  simp [Dram.readByte, Dram.bytesAt, Dram.slotAt_sweepTile, this]

/-- Two slot numbers of the tile area with one 2,048-bit word are one. -/
theorem ofNat_slot_inj {w m n : Nat} (hw : 20 ≤ w) (hm : m < 1048576) (hn : n < 1048576)
    (h : BitVec.ofNat w m = BitVec.ofNat w n) : m = n := by
  have hp : 2 ^ 20 ≤ 2 ^ w := Nat.pow_le_pow_right (by decide) hw
  have h2 := congrArg BitVec.toNat h
  rwa [BitVec.toNat_ofNat, BitVec.toNat_ofNat, Nat.mod_eq_of_lt (by omega), Nat.mod_eq_of_lt (by omega)] at h2

/-- The test pattern differs from slot to slot and from tile to tile (R57). -/
theorem testPattern_inj {m n : Nat} (hm : m < 1048576) (hn : n < 1048576) (h : testPattern m = testPattern n) :
    m = n := by
  have key : Config.sweepPattern (BitVec.ofNat 2048 m) = Config.sweepPattern (BitVec.ofNat 2048 n) := by
    apply BitVec.eq_of_getLsbD_eq
    intro i hi
    have h1 := congrArg (fun l => (l.getD (i / 8) 0).getLsbD (i % 8)) h
    have h2 : i / 8 < 256 := by omega
    have h3 : 8 * (i / 8) + i % 8 = i := by omega
    have h4 : i % 8 < 8 := by omega
    simp only [testPattern, List.getD_eq_getElem?_getD, List.getElem?_map, List.getElem?_range h2, Option.map_some,
      Option.getD_some, BitVec.getLsbD_extractLsb', h3, h4, decide_true, Bool.true_and] at h1
    exact h1
  exact ofNat_slot_inj (by decide) hm hn
    (Config.sweepPattern.injective key)

/-! ## The check at a read (R48, R49) -/

/-- Without a fault a read gives the slot that stands there. -/
@[simp] theorem Dram.readSlot_nil (d : Dram) (tile k : Nat) : d.readSlot tile k [] = d.slotAt (slotNumber tile k) := rfl

/-- Without a fault a slot passes exactly where its code agrees with it. -/
@[simp] theorem Dram.slotPasses_nil (d : Dram) (tile k : Nat) :
    d.slotPasses tile k [] = d.agrees (slotNumber tile k) := rfl

/-- A partly written slot never agrees with its code (R56). -/
theorem tornCell_passes (draw n : Nat) (old new : List Byte) : (tornCell draw n old new).passes n = false := by
  unfold tornCell SlotCell.passes
  dsimp only
  generalize checkCodeAt n (tornBytes draw old new) = c
  split
  · exact beq_eq_false_iff_ne.mpr (by omega)
  · rename_i h; exact beq_eq_false_iff_ne.mpr (Ne.symm h)

/-! ## The canonical form -/

/-- The slot numbers of a rising list after its first are above it. -/
theorem risingCells_cons {n : Nat} {c : SlotCell} {d : List (Nat × SlotCell)}
    (h : risingCells ((n, c) :: d) = true) : risingCells d = true ∧ ∀ e ∈ d, n < e.1 := by
  induction d generalizing n c with
  | nil => exact ⟨rfl, by simp⟩
  | cons e es ih =>
    obtain ⟨k, x⟩ := e
    simp only [risingCells, Bool.and_eq_true, decide_eq_true_eq] at h
    refine ⟨h.2, fun y hy => ?_⟩
    rcases List.mem_cons.mp hy with rfl | hy
    · exact h.1
    · exact Nat.lt_trans h.1 ((ih h.2).2 y hy)

/-- A rising list with a smaller slot number in front rises. -/
theorem risingCells_cons_of {n : Nat} {c : SlotCell} {d : List (Nat × SlotCell)} (h : risingCells d = true)
    (hn : ∀ e ∈ d, n < e.1) : risingCells ((n, c) :: d) = true := by
  cases d with
  | nil => rfl
  | cons e es =>
    obtain ⟨k, x⟩ := e
    simp only [risingCells, Bool.and_eq_true, decide_eq_true_eq]
    exact ⟨hn (k, x) (by simp), h⟩

/-- What a write lists. -/
theorem mem_putCell {n : Nat} {c : SlotCell} {d : List (Nat × SlotCell)} {e : Nat × SlotCell} (h : e ∈ putCell n c d) :
    e = (n, c) ∨ e ∈ d := by
  induction d with
  | nil => simpa [putCell] using h
  | cons x xs ih =>
    obtain ⟨k, y⟩ := x
    unfold putCell at h
    split at h
    · simpa using h
    · split at h
      · rcases List.mem_cons.mp h with h | h
        · exact .inl h
        · exact .inr (List.mem_cons_of_mem _ h)
      · rcases List.mem_cons.mp h with h | h
        · exact .inr (by simp [h])
        · exact (ih h).imp id (List.mem_cons_of_mem _)

/-- A write keeps the slot numbers rising. -/
theorem risingCells_putCell (d : List (Nat × SlotCell)) (n : Nat) (c : SlotCell) (h : risingCells d = true) :
    risingCells (putCell n c d) = true := by
  induction d with
  | nil => rfl
  | cons x xs ih =>
    obtain ⟨k, y⟩ := x
    have hx := risingCells_cons h
    unfold putCell
    split
    · rename_i hl
      exact risingCells_cons_of h fun e he => by
        rcases List.mem_cons.mp he with rfl | he
        · exact hl
        · exact Nat.lt_trans hl (hx.2 e he)
    · split
      · rename_i e; subst e; exact risingCells_cons_of hx.1 hx.2
      · refine risingCells_cons_of (ih hx.1) fun e he => ?_
        rcases mem_putCell he with rfl | he
        · show k < n; omega
        · exact hx.2 e he

/-- A write of 256 bytes keeps the canonical form. -/
theorem Dram.wf_write (d : Dram) (n : Nat) (c : SlotCell) (h : d.wf = true) (hc : c.bytes.length = 256) :
    (d.write n c).wf = true := by
  simp only [Dram.wf, Bool.and_eq_true, List.all_eq_true, decide_eq_true_eq] at h ⊢
  refine ⟨risingCells_putCell d.cells n c h.1, fun e he => ?_⟩
  rcases mem_putCell he with rfl | he
  · exact hc
  · exact h.2 e he

/-- Cells left out keep the numbers rising. -/
theorem risingCells_filter (d : List (Nat × SlotCell)) (f : Nat × SlotCell → Bool) (h : risingCells d = true) :
    risingCells (d.filter f) = true := by
  induction d with
  | nil => rfl
  | cons x xs ih =>
    obtain ⟨k, y⟩ := x
    have hx := risingCells_cons h
    rw [List.filter_cons]
    split
    · exact risingCells_cons_of (ih hx.1) fun e he => hx.2 e (List.mem_of_mem_filter he)
    · exact ih hx.1

/-- The sweep's patterns have 256 bytes. -/
@[simp] theorem length_sweptBytes (n : Nat) : (sweptBytes n).length = 256 := by simp [sweptBytes, testPattern]

/-- A tile written whole with slots of 256 bytes keeps the canonical form. -/
theorem Dram.wf_writeTile (d : Dram) (tile : Nat) (p : Nat → List Byte) (hp : ∀ n, (p n).length = 256)
    (h : d.wf = true) : (d.writeTile tile p).wf = true := by
  unfold Dram.writeTile
  generalize List.range 16 = l
  induction l generalizing d with
  | nil => exact h
  | cons k ks ih => exact ih _ (Dram.wf_write d _ (codedCell _ _) h (hp _))

/-- The sweep of a tile keeps the canonical form. -/
theorem Dram.wf_sweepTile (d : Dram) (tile : Nat) (h : d.wf = true) : (d.sweepTile tile).wf = true := by
  unfold Dram.sweepTile
  split
  · simp only [Dram.wf, Bool.and_eq_true, List.all_eq_true, decide_eq_true_eq] at h ⊢
    exact ⟨risingCells_filter _ _ h.1, fun e he => h.2 e (List.mem_of_mem_filter he)⟩
  · exact Dram.wf_writeTile d tile sweptBytes length_sweptBytes h

/-- A served write keeps the canonical form (R47). -/
theorem State.wf_dramWrite (s : State) (w : StoreWrite) (h : s.store.dram.wf = true) :
    (s.dramWrite w).store.dram.wf = true := by
  rw [State.dramWrite_store]
  exact Dram.wf_write _ _ _ h (length_paddedSlot _)

/-- A write cut short keeps the canonical form (R56). -/
theorem State.wf_tornDram (s : State) (h : s.store.dram.wf = true) : s.tornDram.wf = true := by
  unfold State.tornDram
  split
  · exact h
  · unfold State.cutWrite
    split
    · exact State.wf_dramWrite _ _ h
    · exact h
    · exact Dram.wf_write _ _ _ h (by simp [tornCell, tornBytes])

/-- Outside the slot of a write in service, a reset leaves every byte of the DRAM (R46, R60). -/
theorem State.readByte_tornDram (s : State) (a : Nat)
    (h : ∀ w, s.writeInService = some w → a / 256 ≠ slotNumber w.tile w.slot) :
    s.tornDram.readByte a = s.store.dram.readByte a := by
  unfold State.tornDram
  split
  · rfl
  · rename_i w hw
    unfold State.cutWrite
    split
    · rw [State.dramWrite_store]; exact Dram.readByte_write_of_ne _ _ _ _ (h w hw)
    · rfl
    · exact Dram.readByte_write_of_ne _ _ _ _ (h w hw)

/-- The DRAM right after reset is in its canonical form. -/
theorem State.wf_reset : State.reset.store.dram.wf = true := rfl

end Sys2Proof.Machine
end

