-- ==== Sys2Proof/Laws/Schedule.lean ====
section
/-! SUPPORT. The schedule and the drive: what the offer of the eligible ticket, the capture of a plate context and the
end of a plate can do. -/

namespace Sys2Proof.Machine

/-! ## Tickets -/

/-- The ticket found by a tag has that tag and stands in the schedule. -/
theorem State.ticket?_some {s : State} {tag : Nat} {x : Ticket} (h : s.ticket? tag = some x) :
    x.tag = tag ∧ x ∈ s.schedule := by
  unfold State.ticket? at h
  exact ⟨by simpa using List.find?_some h, List.mem_of_find?_eq_some h⟩

/-- No ticket has a tag under which none is found. -/
theorem State.ticket?_none {s : State} {tag : Nat} : s.ticket? tag = none ↔ ∀ x ∈ s.schedule, x.tag ≠ tag := by
  unfold State.ticket?
  rw [List.find?_eq_none]
  simp

/-- The eligible ticket is ARMED and stands in the schedule (R135). -/
theorem eligibleIn_some {mode : OrderMode} {l : List Ticket} {x : Ticket} (h : eligibleIn mode l = some x) :
    x ∈ l ∧ x.state = .armed := by
  unfold eligibleIn at h
  cases mode with
  | inOrder =>
    dsimp only at h
    split at h
    · exact absurd h (by simp)
    · rename_i t ht
      split at h
      · simp only [Option.some.injEq] at h; subst h; exact ⟨List.mem_of_find?_eq_some ht, by assumption⟩
      · exact absurd h (by simp)
  | firstArmed =>
    dsimp only at h
    exact ⟨List.mem_of_find?_eq_some h, by simpa using List.find?_some h⟩

/-- The eligible ticket of a schedule is the one the order mode picks (R135). -/
theorem eligibleIn_iff (mode : OrderMode) (l : List Ticket) (x : Ticket) :
    eligibleIn mode l = some x ↔ IsEligible mode l x := by
  unfold eligibleIn IsEligible
  cases mode with
  | inOrder =>
    dsimp only
    constructor
    · intro h
      split at h
      · cases h
      · rename_i t ht
        split at h
        · rename_i ha
          cases h
          obtain ⟨-, before, after, rfl, hb⟩ := List.find?_eq_some_iff_append.mp ht
          exact ⟨ha, before, after, rfl, fun y hy => ⟨fun _ => by simpa using hb y hy, by simp⟩⟩
        · cases h
    · rintro ⟨ha, before, after, rfl, hb⟩
      have hf : (before ++ x :: after).find? (fun t => !(t.state == .imaging)) = some x :=
        List.find?_eq_some_iff_append.mpr
          ⟨by simp [ha], before, after, rfl, fun y hy => by simpa using (hb y hy).1 rfl⟩
      rw [hf]
      simp [ha]
  | firstArmed =>
    dsimp only
    rw [List.find?_eq_some_iff_append]
    constructor
    · rintro ⟨ha, before, after, rfl, hb⟩
      exact ⟨by simpa using ha, before, after, rfl, fun y hy => ⟨by simp, fun _ => by simpa using hb y hy⟩⟩
    · rintro ⟨ha, before, after, rfl, hb⟩
      exact ⟨by simpa using ha, before, after, rfl, fun y hy => by simpa using (hb y hy).2 rfl⟩

/-- The eligible ticket (R135). -/
theorem State.eligible_iff (s : State) (x : Ticket) :
    s.eligible = some x ↔ IsEligible s.drive.settings.mode s.schedule x := eligibleIn_iff _ _ _

/-! ## The capture of a plate context (R150) -/

/-- The schedule with the ticket of a tag IMAGING (R137). -/
def imagingSchedule (l : List Ticket) (tag : Nat) : List Ticket :=
  l.map fun y => if y.tag == tag then { y with state := .imaging } else y

/-- The tags of a schedule do not change as a ticket becomes IMAGING. -/
@[simp] theorem imagingSchedule_tags (l : List Ticket) (tag : Nat) :
    (imagingSchedule l tag).map (·.tag) = l.map (·.tag) := by
  unfold imagingSchedule
  rw [List.map_map]
  apply List.map_congr_left
  intro y _
  simp only [Function.comp_apply]
  split <;> rfl

/-- The capture leaves everything as it is, or captures the plate of the eligible ticket: the ticket is IMAGING, the
pool is empty, Prefetch stands at line 0, and the drive is PRIMING, or IMAGING where the prime test is met (R85, R150,
R152). -/
theorem State.capturePlate_cases (s : State) :
    s.capturePlate = s ∨
    ∃ x pl lines, s.eligible = some x ∧ s.plateFor x = some pl ∧
      s.capturePlate.schedule = imagingSchedule s.schedule x.tag ∧
      (∃ sm, s.capturePlate.drive.plate = some { pl with summary := sm }) ∧
      (∃ j, s.capturePlate.prefetch.job = some j ∧ j.nextLine = lines.length) ∧
      s.capturePlate.drive.pool = lines ∧ lines.length ≤ 64 ∧ lines.length ≤ pl.lineCount ∧
      (∀ l ∈ lines, l.length = pl.headWidth) ∧ s.capturePlate.drive.selected = none ∧
      s.capturePlate.drive.plateReady = s.drive.plateReady ∧
      s.capturePlate.drive.plateEnd = s.drive.plateEnd ∧ s.capturePlate.drive.haltRun = s.drive.haltRun ∧
      s.capturePlate.drive.stuck = s.drive.stuck ∧
      s.capturePlate.drive.settings = s.drive.settings ∧
      ((s.capturePlate.drive.state = .priming ∧ s.capturePlate.drive.stall = none ∧
          lines.length < s.drive.settings.prime ∧ lines.length < pl.lineCount) ∨
        (s.capturePlate.drive.state = .imaging ∧ s.capturePlate.drive.stall = some s.drive.settings.stallMs ∧
          (s.drive.settings.prime ≤ lines.length ∨ pl.lineCount ≤ lines.length))) := by
  unfold State.capturePlate
  split
  · exact .inl rfl
  · rename_i x hx
    split
    · exact .inl rfl
    · rename_i pl hpl
      right
      dsimp only
      obtain ⟨lines, sm, j', h1, h2, h3, h4, h5, h6⟩ := State.prefetchEvent_spec
        (s := State.startPrefetch
          { s.modifyTicket x.tag (fun t => { t with state := .imaging }) with
            drive := { (s.modifyTicket x.tag fun t => { t with state := .imaging }).drive with
              state := .priming, selected := none, pool := [], stall := none } } pl) rfl rfl
      refine ⟨x, pl, lines, hx, hpl, ?_, ?_, ⟨j', h1, by rw [h2]; exact Nat.zero_add _⟩, ?_, ?_, ?_, h3, ?_⟩
      · simp [State.startPrefetch, imagingSchedule]
      · rcases h6 with ⟨-, -, h6⟩ | ⟨-, h6⟩ <;> rw [h6] <;> exact ⟨_, rfl⟩
      · rcases h6 with ⟨-, -, h6⟩ | ⟨-, h6⟩ <;> rw [h6] <;> exact List.nil_append _
      · have := h4 (Nat.zero_le _)
        simpa [State.startPrefetch] using this
      · have := h5 (Nat.zero_le _)
        simpa [State.startPrefetch] using this
      · rcases h6 with ⟨-, h, h6⟩ | ⟨h, h6⟩
        · rw [h6]
          refine ⟨rfl, rfl, rfl, rfl, rfl, rfl, .inr ⟨rfl, rfl, ?_⟩⟩
          simpa [State.startPrefetch] using h
        · rw [h6]
          refine ⟨rfl, rfl, rfl, rfl, rfl, rfl, .inl ⟨rfl, rfl, ?_⟩⟩
          simpa [State.startPrefetch] using h

/-- The tags of the schedule do not change at a capture. -/
@[simp] theorem State.capturePlate_tags (s : State) :
    s.capturePlate.schedule.map (·.tag) = s.schedule.map (·.tag) := by
  rcases State.capturePlate_cases s with h | ⟨x, pl, lines, -, -, h, -⟩
  · rw [h]
  · rw [h, imagingSchedule_tags]

/-! ## The offer of the eligible ticket (R135, R148) -/

/-- The offer outside IDLE and WAIT_PLATE changes nothing. -/
theorem State.offer_of_busy {s : State} (h1 : s.drive.state ≠ .idle) (h2 : s.drive.state ≠ .waitPlate) :
    s.offer = s := by
  unfold State.offer
  cases h : s.drive.state <;> simp_all

/-- The offer with PLATE_READY low in IDLE or WAIT_PLATE: the drive waits for a plate, or is IDLE. -/
theorem State.offer_of_low {s : State} (h : s.drive.state = .idle ∨ s.drive.state = .waitPlate)
    (hs : s.drive.state = .idle → s.drive.selected = none) (hl : s.drive.plateReady = false) :
    s.offer = { s with drive := { s.drive with
      state := if s.eligible.isSome then .waitPlate else .idle, selected := s.eligible.map (·.tag) } } := by
  unfold State.offer State.selectTicket
  rcases h with h | h
  · rw [h]
    dsimp only
    cases he : s.eligible with
    | none =>
      dsimp only
      have := hs h
      cases s; rename_i dr _ _ _; cases dr; simp_all
    | some x => simp [hl]
  · rw [h]
    dsimp only
    cases he : s.eligible with
    | none => simp
    | some x => simp [hl]

/-- The tags of the schedule do not change at an offer. -/
@[simp] theorem State.offer_tags (s : State) : s.offer.schedule.map (·.tag) = s.schedule.map (·.tag) := by
  unfold State.offer State.selectTicket
  (repeat' split) <;> simp

/-- Where the drive does not hold a plate, an offer that does not capture leaves the schedule. -/
theorem State.offer_schedule (s : State) :
    s.offer.schedule = s.schedule ∨
      ∃ x, s.eligible = some x ∧ s.drive.plateReady = true ∧ s.offer.schedule = imagingSchedule s.schedule x.tag := by
  have cap : ∀ u : State, u.schedule = s.schedule → u.drive.settings = s.drive.settings →
      u.capturePlate.schedule = s.schedule ∨
        ∃ x, s.eligible = some x ∧ u.capturePlate.schedule = imagingSchedule s.schedule x.tag := by
    intro u h1 h2
    rcases State.capturePlate_cases u with h | ⟨x, pl, lines, he, -, h, -⟩
    · exact .inl (by rw [h, h1])
    · refine .inr ⟨x, ?_, by rw [h, h1]⟩
      rw [← he]; unfold State.eligible; rw [h1, h2]
  unfold State.offer State.selectTicket
  split
  · split
    · exact .inl rfl
    · rename_i t ht
      dsimp only
      split
      · rename_i hr
        rcases cap { s with drive := { s.drive with state := .waitPlate, selected := some t.tag } } rfl rfl with h | ⟨x, hx, h⟩
        · exact .inl h
        · exact .inr ⟨x, hx, hr, h⟩
      · exact .inl rfl
  · split
    · exact .inl rfl
    · rename_i t ht
      dsimp only
      split
      · rename_i hr
        rcases cap { s with drive := { s.drive with state := .waitPlate, selected := some t.tag } } rfl rfl with h | ⟨x, hx, h⟩
        · exact .inl h
        · exact .inr ⟨x, hx, hr, h⟩
      · exact .inl rfl
  · exact .inl rfl
  · exact .inl rfl
  · exact .inl rfl
  · exact .inl rfl

/-- The offer with PLATE_READY low leaves the drive with the eligible ticket selected, or IDLE (R148). -/
theorem State.offer_selects {s : State} (h : s.Open) (hl : s.drive.plateReady = false) : s.offer.Selects := by
  have key : ∀ t : State, t.schedule = s.schedule → t.drive.settings = s.drive.settings →
      (∀ x, s.eligible = some x → t.drive.state = .waitPlate ∧ t.drive.selected = some x.tag) →
      (s.eligible = none → t.drive.state = .idle) → t.Selects := by
    intro t h1 h2 hx hn
    unfold State.Selects
    rw [h1, h2]
    refine ⟨fun x e => hx x ((s.eligible_iff x).mpr e), fun e => hn ?_⟩
    cases he : s.eligible with
    | none => rfl
    | some x => exact absurd ((s.eligible_iff x).mp he) (e x)
  unfold State.offer State.selectTicket
  rcases h with h | h <;> rw [h] <;> dsimp only <;> cases he : s.eligible <;> simp only [hl] <;>
    exact key _ rfl rfl (by simp [he]) (by simp [he, h])

/-! ## Arming (R133, R134) -/

/-- The four conditions of R133 depend on the page table and the Screener, and not on the ticket's state. -/
theorem State.MeetsArming.congr {s t : State} {x y : Ticket} (h : s.MeetsArming x) (hp : t.pages = s.pages)
    (hs : t.screener = s.screener) (hx : y = { x with state := y.state }) : t.MeetsArming y := by
  rw [hx]
  exact ⟨h.1, h.2.1, fun z hz => by rw [State.page?_congr hp]; exact h.2.2.1 z hz, by rw [hs]; exact h.2.2.2⟩

/-- No condition fails exactly where the four conditions hold (R133). -/
theorem State.armingFailure_isNone (s : State) (x : Ticket) : (s.armingFailure x).isNone = true ↔ s.MeetsArming x := by
  have h2 : (s.allPages x fun p => hasInk p.inkSet x.ink) = true ∧ (s.allPages x fun p => x.policy.admits p.state) = true
      ↔ ∀ z ∈ x.resolutions, ∃ p, s.page? z.record = some p ∧ hasInk p.inkSet x.ink = true ∧
        (p.state = .complete ∨ (x.policy = .imageMarked ∧ p.state = .damaged)) := by
    unfold State.allPages Policy.admits
    rw [List.all_eq_true, List.all_eq_true, ← forall₂_and]
    refine forall₂_congr fun z _ => ?_
    cases s.page? z.record <;> simp
  have h1 : x.resolved = true ↔ x.leftRes.isSome = true ∧ (x.right.isSome = true → x.rightRes.isSome = true) := by
    unfold Ticket.resolved
    cases x.leftRes <;> cases x.right <;> cases x.rightRes <;> simp
  unfold State.armingFailure State.MeetsArming
  rw [← h2, ← and_assoc, ← h1]
  cases x.resolved <;> cases s.allPages x fun p => hasInk p.inkSet x.ink <;>
    cases s.allPages x fun p => x.policy.admits p.state <;> cases s.screener.inkReady x.ink <;> simp

/-- A ticket of which the four conditions hold has a plate context to capture (R97, R133). -/
theorem State.MeetsArming.plateFor {s : State} {x : Ticket} (h : s.MeetsArming x) : (s.plateFor x).isSome = true := by
  obtain ⟨h1, h2, h3, h4⟩ := h
  have page : ∀ a, a ∈ x.resolutions → (s.platePage a).isSome = true := by
    intro a ha
    obtain ⟨p, hp, -⟩ := h3 a ha
    simp [State.platePage, hp]
  obtain ⟨a, ha⟩ := Option.isSome_iff_exists.mp h1
  obtain ⟨l, hl⟩ := Option.isSome_iff_exists.mp (page a (by simp [Ticket.resolutions, ha]))
  have hb : (s.screener.inks.get x.ink).isSome = true := by
    unfold Screener.inkReady at h4
    cases hi : s.screener.inks.get x.ink with
    | none => rw [hi] at h4; cases h4
    | some b => rfl
  obtain ⟨b, hb⟩ := Option.isSome_iff_exists.mp hb
  unfold State.plateFor
  rw [ha, Option.bind_some, hl, hb]
  cases hr : x.right with
  | none => rfl
  | some y =>
    obtain ⟨c, hc⟩ := Option.isSome_iff_exists.mp (h2 (by rw [hr]; rfl))
    obtain ⟨r, hr'⟩ := Option.isSome_iff_exists.mp (page c (by simp [Ticket.resolutions, hc]))
    dsimp only
    rw [hc, Option.bind_some, hr']
    rfl

/-- The offer with PLATE_READY high captures the plate of an eligible ticket of which the four conditions hold (R148,
R150). -/
theorem State.offer_of_high {s : State} {x : Ticket} (h : s.Open) (hr : s.drive.plateReady = true)
    (he : s.eligible = some x) :
    s.offer
      = State.capturePlate { s with drive := { s.drive with state := .waitPlate, selected := some x.tag } } := by
  unfold State.offer State.selectTicket
  rcases h with h | h <;> rw [h] <;> dsimp only <;> rw [he] <;> simp [hr]

/-- The drive is then in context with the ticket IMAGING (R137). -/
theorem State.offer_inContext {s : State} {x : Ticket} (h : s.Open) (hr : s.drive.plateReady = true)
    (he : s.eligible = some x) (hm : s.MeetsArming x) :
    s.offer.drive.state.inContext = true ∧ s.offer.schedule = imagingSchedule s.schedule x.tag := by
  rw [State.offer_of_high h hr he]
  set u : State := { s with drive := { s.drive with state := .waitPlate, selected := some x.tag } } with hu
  have heu : u.eligible = some x := he
  obtain ⟨pl, hpl⟩ := Option.isSome_iff_exists.mp (show (u.plateFor x).isSome = true from State.MeetsArming.plateFor hm)
  rcases u.capturePlate_cases with e | ⟨y, pl', lines, hy, -, h1, -, -, -, -, -, -, -, -, -, -, -, -, h2⟩
  · exfalso
    have : (u.capturePlate).drive.state = .waitPlate := by rw [e]
    unfold State.capturePlate at this
    rw [heu] at this
    dsimp only at this
    rw [hpl] at this
    dsimp only at this
    obtain ⟨lines, sm, j', -, -, -, -, -, g⟩ := State.prefetchEvent_spec
      (s := State.startPrefetch
        { u.modifyTicket x.tag (fun t => { t with state := .imaging }) with
          drive := { (u.modifyTicket x.tag fun t => { t with state := .imaging }).drive with
            state := .priming, selected := none, pool := [], stall := none } } pl) rfl rfl
    rcases g with ⟨-, -, g⟩ | ⟨-, g⟩ <;> rw [g] at this <;> cases this
  · rw [heu] at hy
    cases hy
    refine ⟨?_, h1⟩
    rcases h2 with ⟨h2, -⟩ | ⟨h2, -⟩ <;> rw [h2] <;> rfl

/-- An arming evaluation of a ticket that is not IMAGING: ARMED exactly where the four conditions hold (R133). -/
theorem State.armedState_eq {s : State} {x : Ticket} (h : x.state ≠ .imaging) :
    s.armedState x = if (s.armingFailure x).isNone then .armed else .posted := by
  unfold State.armedState
  cases hs : x.state <;> simp_all

/-- What an offer makes of each ticket: the one that the drive takes up becomes IMAGING (R137). -/
theorem State.offer_each {s : State} {n : Nat} {x : Ticket} (h : s.schedule[n]? = some x) :
    ∃ y, s.offer.schedule[n]? = some y ∧ y = { x with state := y.state } ∧ (y.state = x.state ∨ y.state = .imaging) ∧
      (x.state ≠ .imaging → y.state = .imaging → s.drive.plateReady = true ∧
        (s.drive.state = .idle ∨ s.drive.state = .waitPlate) ∧ (s.TagsDistinct → x.state = .armed)) := by
  rcases s.offer_schedule with e | ⟨z, hz, hr, e⟩
  · exact ⟨x, by rw [e]; exact h, rfl, .inl rfl, fun a b => absurd b a⟩
  by_cases hd : s.drive.state = .idle ∨ s.drive.state = .waitPlate
  · rw [e]
    unfold imagingSchedule
    refine ⟨_, by rw [List.getElem?_map, h]; rfl, ?_⟩
    dsimp only
    by_cases ht : x.tag = z.tag
    · rw [if_pos (by simpa using ht)]
      refine ⟨rfl, .inr rfl, fun _ _ => ⟨hr, hd, fun td => ?_⟩⟩
      obtain ⟨hm, ha⟩ := eligibleIn_some hz
      rw [List.inj_on_of_nodup_map td (List.mem_of_getElem? h) hm ht]
      exact ha
    · rw [if_neg (by simpa using ht)]
      exact ⟨rfl, .inl rfl, fun a b => absurd b a⟩
  · rw [s.offer_of_busy (fun c => hd (.inl c)) (fun c => hd (.inr c))]
    exact ⟨x, h, rfl, .inl rfl, fun a b => absurd b a⟩

/-- An offer adds and takes out no ticket. -/
theorem State.offer_length (s : State) : s.offer.schedule.length = s.schedule.length := by
  have h := congrArg List.length s.offer_tags
  rwa [List.length_map, List.length_map] at h

/-- What an arming evaluation does to the schedule (R133, R134). -/
theorem State.rearm_rearms (s : State) (f : Ticket → Bool) : s.Rearms (s.rearm f) fun x => f x = true := by
  have hlen : (s.armedSchedule f).length = s.schedule.length := by simp [State.armedSchedule]
  have hget : ∀ (n : Nat) (x : Ticket), s.schedule[n]? = some x →
      (s.armedSchedule f)[n]? = some (if f x then { x with state := s.armedState x } else x) := by
    intro n x h
    unfold State.armedSchedule
    rw [List.getElem?_map, h]; rfl
  have hpages : (s.rearm f).pages = s.pages := by simp
  have hscr : (s.rearm f).screener = s.screener := by simp
  have himg : ∀ x : Ticket, x.state = .imaging → (if f x then { x with state := s.armedState x } else x) = x := by
    intro x h
    have : s.armedState x = x.state := by unfold State.armedState; rw [h]
    rw [this]; split <;> rfl
  -- what the evaluation makes of a ticket, before the drive is given the eligible one
  have step : ∀ x : Ticket, x.state ≠ .imaging → ∀ x', x' = (if f x then { x with state := s.armedState x } else x) →
      x' = { x with state := x'.state } ∧ x'.state ≠ .imaging ∧
      (f x = true → (x'.state = .armed ↔ s.MeetsArming x)) ∧ (¬ f x = true → x'.state = x.state) := by
    intro x hx x' e
    have harm := s.armedState_eq hx
    cases hf : f x with
    | false =>
      rw [hf, if_neg (by simp)] at e
      subst e
      exact ⟨rfl, hx, fun a => absurd a (by simp), fun _ => rfl⟩
    | true =>
      rw [hf, if_pos rfl] at e
      subst e
      refine ⟨rfl, ?_, fun _ => ?_, fun a => absurd rfl a⟩
      · show s.armedState x ≠ .imaging
        rw [harm]; split <;> simp
      · show s.armedState x = .armed ↔ _
        rw [harm, ← s.armingFailure_isNone]; split <;> simp_all
  unfold State.rearm at hpages hscr ⊢
  split
  · rename_i e
    have same : ∀ (n : Nat) (x : Ticket), s.schedule[n]? = some x →
        x = if f x then { x with state := s.armedState x } else x := by
      intro n x h
      have := hget n x h
      rw [e, h] at this
      exact Option.some.inj this
    refine ⟨rfl, fun n x h => ⟨x, h, rfl, fun _ => rfl, fun hx => ?_⟩, fun n x y h h' a b => ?_,
      fun _ _ n x h hf hx hm => ?_, fun _ _ hne => absurd rfl hne⟩
    · exact ⟨(step x hx x (same n x h)).2.2.1, fun _ => rfl⟩
    · rw [h] at h'; cases h'; exact absurd b a
    · have := ((step x (by simp [hx]) x (same n x h)).2.2.1 hf).mpr hm
      rw [hx] at this; cases this
  · rename_i hne
    rw [if_neg hne] at hpages hscr
    set u : State := { s with schedule := s.armedSchedule f } with hu
    refine ⟨(u.offer_length).trans hlen, fun n x h => ?_, fun n x y h h' hx hy => ?_,
      fun ho hr n x h hf hx hm ahead => ?_, fun ho hl _ => State.offer_selects (s := u) ho hl⟩
    · obtain ⟨y, y1, y2, y3, -⟩ := u.offer_each (hget n x h)
      by_cases hx : x.state = .imaging
      · rw [himg x hx] at y2 y3
        have : y = x := by rw [y2]; rcases y3 with y3 | y3 <;> rw [y3]; rw [← hx]
        exact ⟨y, y1, y2, fun _ => this, fun hy => absurd (this ▸ hx) hy⟩
      · obtain ⟨x1, x2, x3, x4⟩ := step x hx _ rfl
        refine ⟨y, y1, by rw [y2, x1], fun a => absurd a hx, fun hy => ?_⟩
        rw [y3.resolve_right hy]
        refine ⟨fun hf => (x3 hf).trans ⟨fun m => m.congr hpages hscr ?_, fun m => m.congr hpages.symm hscr.symm ?_⟩, x4⟩
        · rw [y2, x1]
        · rw [y2, x1]
    · obtain ⟨y', y1, y2, y3, y4⟩ := u.offer_each (hget n x h)
      rw [y1] at h'; cases h'
      obtain ⟨x1, x2, x3, x4⟩ := step x hx _ rfl
      obtain ⟨r1, r2, r3⟩ := y4 x2 hy
      refine ⟨r1, r2, fun td => ?_⟩
      have harmed := r3 (by
        unfold State.TagsDistinct at td ⊢
        rw [hu]
        show ((s.armedSchedule f).map (·.tag)).Nodup
        have : (s.armedSchedule f).map (·.tag) = s.schedule.map (·.tag) := by
          unfold State.armedSchedule
          rw [List.map_map]
          apply List.map_congr_left
          intro z _
          simp only [Function.comp_apply]
          split <;> rfl
        rw [this]; exact td)
      refine ⟨fun hf => ((x3 hf).mp harmed).congr hpages hscr (by rw [y2, x1]), fun hf => ?_⟩
      rw [← x4 hf]; exact harmed
    · have hxi : x.state ≠ .imaging := by simp [hx]
      have hmx : s.MeetsArming x := hm.congr hpages.symm hscr.symm rfl
      have harm : s.armedState x = .armed := by rw [s.armedState_eq hxi, if_pos ((s.armingFailure_isNone x).mpr hmx)]
      have hn : u.schedule[n]? = some { x with state := .armed } := by
        have := hget n x h
        rw [if_pos hf, harm] at this
        exact this
      have he : u.eligible = some { x with state := .armed } := by
        rw [State.eligible_iff]
        obtain ⟨hlt, hx'⟩ := List.getElem?_eq_some_iff.mp hn
        refine ⟨rfl, u.schedule.take n, u.schedule.drop (n + 1), ?_, fun y hy => ?_⟩
        · rw [← hx', ← List.drop_eq_getElem_cons hlt, List.take_append_drop]
        · obtain ⟨m, hmn, rfl⟩ := List.mem_take_iff_getElem.mp hy
          have hml : m < u.schedule.length := by omega
          obtain ⟨y', y1, -, y3, -⟩ := u.offer_each (List.getElem?_eq_getElem hml)
          obtain ⟨p1, p2⟩ := ahead m y' (by omega) y1
          have p3 : (u.schedule[m]).state = .posted := by
            rcases y3 with y3 | y3
            · rw [← y3]; exact p1
            · rw [p1] at y3; cases y3
          have p4 : u.drive.settings.mode = .firstArmed := p2
          exact ⟨fun c => (by rw [p4] at c; cases c), fun _ => by simp [p3]⟩
      obtain ⟨g1, g2⟩ := State.offer_inContext (s := u) ho hr he (hmx.congr rfl rfl rfl)
      refine ⟨g1, ?_⟩
      rw [g2]
      unfold imagingSchedule
      rw [List.getElem?_map, hn]
      simp

/-- The drive of two states that an event passes through: a plate in context stays in context, and otherwise the drive's
state and its selection stand; the order mode stands. -/
def Drive.sameHold (a b : Drive) : Prop :=
  b.settings.mode = a.settings.mode ∧ (a.state.inContext = true → b.state.inContext = true) ∧
    (a.state.inContext = false → b.state = a.state ∧ b.selected = a.selected)

/-- A drive that is as it was holds what it held. -/
theorem Drive.sameHold.of_eq {a b : Drive} (h : b = a) : a.sameHold b := by
  rw [h]; exact ⟨rfl, id, fun _ => ⟨rfl, rfl⟩⟩

/-- What the drive has taken stands while it holds what it held. -/
theorem State.Selects.congr {t v : State} (h : t.Selects) (hs : v.schedule = t.schedule)
    (hd : t.drive.sameHold v.drive) : v.Selects := by
  obtain ⟨m, -, k⟩ := hd
  have hc : t.drive.state.inContext = false := by
    by_cases e : ∃ x, IsEligible t.drive.settings.mode t.schedule x
    · obtain ⟨x, e⟩ := e
      rw [(h.1 x e).1]; rfl
    · rw [h.2 fun x ex => e ⟨x, ex⟩]; rfl
  obtain ⟨k1, k2⟩ := k hc
  unfold State.Selects
  rw [m, hs, k1, k2]
  exact h

/-- What an arming evaluation does depends on the schedule, the page table, the Screener and the drive only. -/
theorem State.Rearms.congr {s t u v : State} {hit hit' : Ticket → Prop} (h : s.Rearms t hit)
    (h1 : u.schedule = s.schedule) (h2 : u.drive.plateReady = s.drive.plateReady) (h3 : u.drive.state = s.drive.state)
    (h4 : v.schedule = t.schedule) (h5 : v.pages = t.pages) (h6 : v.screener = t.screener)
    (hh : ∀ x, hit' x ↔ hit x) (h7 : u.drive.settings.mode = s.drive.settings.mode) (h8 : t.drive.sameHold v.drive) :
    u.Rearms v hit' := by
  have hm : ∀ y, t.MeetsArming y ↔ v.MeetsArming y := fun y =>
    ⟨fun m => m.congr h5 h6 rfl, fun m => m.congr h5.symm h6.symm rfl⟩
  have ho : u.Open → s.Open := fun o => by unfold State.Open at o ⊢; rw [← h3]; exact o
  refine ⟨by rw [h1, h4]; exact h.length, fun n x hx => ?_, fun n x y hx hy a b => ?_,
    fun o r n x hx hf hp hv ahead => ?_, fun o r hne => ?_⟩
  · rw [h1] at hx
    obtain ⟨y, y1, y2, y3, y4⟩ := h.each n x hx
    refine ⟨y, by rw [h4]; exact y1, y2, y3, fun hy => ⟨fun g => ?_, fun g => (y4 hy).2 fun k => g ((hh x).mpr k)⟩⟩
    rw [← hm]; exact (y4 hy).1 ((hh x).mp g)
  · rw [h1] at hx
    rw [h4] at hy
    obtain ⟨r1, r2, r3⟩ := h.taken n x y hx hy a b
    refine ⟨by rw [h2]; exact r1, by rw [h3]; exact r2, fun td => ?_⟩
    have td' : s.TagsDistinct := by unfold State.TagsDistinct at td ⊢; rw [← h1]; exact td
    refine ⟨fun g => ?_, fun g => (r3 td').2 fun k => g ((hh x).mpr k)⟩
    rw [← hm]; exact (r3 td').1 ((hh x).mp g)
  · rw [h1] at hx
    rw [h4] at ahead ⊢
    rw [h7] at ahead
    obtain ⟨g1, g2⟩ := h.captures (ho o) (h2 ▸ r) n x hx ((hh x).mp hf) hp ((hm x).mpr hv) ahead
    exact ⟨h8.2.1 g1, g2⟩
  · rw [h1, h4] at hne
    exact (h.selects (ho o) (h2 ▸ r) hne).congr h4 h8

/-- An event that leaves the schedule evaluates no arming. -/
theorem State.Rearms.of_same {s t : State} {hit : Ticket → Prop} (h : t.schedule = s.schedule)
    (hh : ∀ x, ¬ hit x) : s.Rearms t hit :=
  ⟨by rw [h], fun n x hx => ⟨x, by rw [h]; exact hx, rfl, fun _ => rfl, fun _ => ⟨fun g => absurd g (hh x), fun _ => rfl⟩⟩,
    fun n x y hx hy a b => by rw [h, hx] at hy; cases hy; exact absurd b a,
    fun _ _ _ x _ hf => absurd hf (hh x), fun _ _ hne => absurd (by rw [h]) hne⟩

/-- A change of the Screener evaluates the arming of the tickets of every ink whose readiness it changes (R114). -/
theorem State.setScreener_rearms (s : State) (sc : Screener) :
    s.Rearms (s.setScreener sc) fun x => sc.inkReady x.ink ≠ s.screener.inkReady x.ink :=
  (State.rearm_rearms { s with screener := sc } _).congr rfl rfl rfl rfl rfl rfl (fun x => by simp) rfl (.of_eq rfl)

/-- A resolution of the ticket names the record. -/
theorem Ticket.resolvedTo_iff (x : Ticket) (r : Nat) : x.resolvedTo r = true ↔ ∃ z ∈ x.resolutions, z.record = r := by
  simp [Ticket.resolvedTo]

/-- A derivation that changes a page's state evaluates the arming of the tickets that name the record (R66). -/
theorem State.derivePage_rearms {s : State} {r : Nat} {p : PageRecord} (hp : s.page? r = some p) :
    s.Rearms (s.derivePage r) fun x => p.afterDerivation.state ≠ p.state ∧ ∃ z ∈ x.resolutions, z.record = r := by
  unfold State.derivePage PageRecord.afterDerivation
  rw [hp]
  dsimp only
  by_cases hc : p.closed = true ∧ p.derived ≠ p.state
  · rw [if_neg (by simp [hc]), if_pos (by simp [hc])]
    unfold State.pageChanged
    dsimp only
    refine (State.rearm_rearms _ _).congr ?_ ?_ ?_ rfl rfl rfl (fun x => ?_) ?_ (.of_eq rfl)
    · split <;> simp
    · split <;> simp
    · split <;> simp
    · rw [Ticket.resolvedTo_iff]
      exact ⟨fun h => h.2, fun h => ⟨hc.2, h⟩⟩
    · split <;> simp
  · have h1 : (!p.closed || p.derived == p.state) = true := by
      cases hcl : p.closed <;> simp_all
    rw [if_pos h1, if_neg (by cases hcl : p.closed <;> simp_all)]
    exact State.Rearms.of_same rfl fun x h => h.1 rfl

/-- An evaluation of a layer, with the derivation that follows it, evaluates the arming of the tickets that name the record
where the page's state changes (R61, R64, R66). -/
theorem State.evaluationEvent_rearms {s : State} {t : LayerRef} {p : PageRecord} (hp : s.page? t.record = some p) :
    s.Rearms (s.evaluationEvent t) fun x =>
      (p.afterEvaluation t.layer).afterDerivation.state ≠ p.state ∧ ∃ z ∈ x.resolutions, z.record = t.record := by
  have h1 : (s.evaluateLayer t).page? t.record = some (p.afterEvaluation t.layer) := by
    rw [State.page?_evaluateLayer, if_pos rfl, hp]; rfl
  have h2 : (p.afterEvaluation t.layer).state = p.state := by
    unfold PageRecord.afterEvaluation
    (repeat' split) <;> rfl
  refine (State.derivePage_rearms h1).congr ?_ ?_ ?_ rfl rfl rfl (fun x => by rw [h2]) ?_ (.of_eq rfl)
  · simp
  · simp
  · simp
  · simp

/-- A derivation that makes a page COMPLETE or DAMAGED queues its PAGE report first (R65). -/
theorem State.derivePage_pageReport {s : State} {r : Nat} {p : PageRecord} (hp : s.page? r = some p)
    (hne : p.afterDerivation.state ≠ p.state)
    (h : p.afterDerivation.state = .complete ∨ p.afterDerivation.state = .damaged) :
    (s.report (p.afterDerivation.report r)).reports.growsTo (s.derivePage r).reports := by
  unfold PageRecord.afterDerivation at hne h ⊢
  split at hne
  · rename_i hc
    rw [if_pos hc] at h ⊢
    unfold State.derivePage
    rw [hp]
    dsimp only at h ⊢
    rw [if_neg (by cases hcl : p.closed <;> simp_all)]
    unfold State.pageChanged
    dsimp only
    rw [if_pos h, (State.rearm_same _ _).2.2.2.2.2.2.2.2.2.1]
    exact State.noteDamage_growsTo _ _ _
  · exact absurd rfl hne

/-! ## UNLOADING and IDLE (R148, R149) -/

/-- With PLATE_READY low the drive goes from UNLOADING to WAIT_PLATE, or to IDLE, at once. -/
theorem State.enterIdle_of_low {s : State} (hl : s.drive.plateReady = false) :
    s.enterIdle = { s with drive := { s.drive with
      state := if s.eligible.isSome then .waitPlate else .idle, selected := s.eligible.map (·.tag) } } := by
  unfold State.enterIdle
  exact State.offer_of_low (s := { s with drive := { s.drive with state := .idle, selected := none } }) (.inl rfl)
    (fun _ => rfl) hl

/-- What the entry of UNLOADING leaves: the drive is UNLOADING while a plate is mounted, and otherwise in WAIT_PLATE
or IDLE. -/
theorem State.enterUnloading_eq (s : State) :
    s.enterUnloading = { s with drive := { s.drive with
      state := if s.drive.plateReady then .unloading else if s.eligible.isSome then .waitPlate else .idle
      selected := if s.drive.plateReady then none else s.eligible.map (·.tag) } } := by
  unfold State.enterUnloading
  cases h : s.drive.plateReady with
  | true => simp
  | false => rw [if_neg (by simp), State.enterIdle_of_low h]; simp

/-! ## The end of a ticket and of a plate -/

/-- The end of a ticket in the schedule, with its report, its counter and its alarm (R142 to R144). -/
theorem State.endTicket_of_some {s : State} {pl : Plate} {x : Ticket} (h : s.ticket? pl.tag = some x)
    (o : PlateOutcome) :
    s.endTicket pl o = ((s.removeTicket x).report (x.plateReport o pl.sent pl.summary)).tallyOutcome o := by
  unfold State.endTicket; rw [h]

/-- A tally grows the queue. -/
theorem State.tallyOutcome_growsTo (s : State) (o : PlateOutcome) :
    s.reports.growsTo (s.tallyOutcome o).reports := by
  cases o with
  | done => exact Reports.growsTo_of_eq rfl rfl rfl rfl
  | spoiled r =>
    exact Reports.growsTo_trans (b := (s.count .platesSpoiled).reports) (Reports.growsTo_of_eq rfl rfl rfl rfl)
      (Reports.latch_growsTo _ _)
  | withdrawn => exact Reports.growsTo_refl _

/-- The end of a ticket grows the queue. -/
theorem State.endTicket_growsTo (s : State) (pl : Plate) (o : PlateOutcome) :
    s.reports.growsTo (s.endTicket pl o).reports := by
  unfold State.endTicket
  split
  · exact Reports.growsTo_refl _
  · rename_i x _
    have h : s.reports.growsTo ((s.removeTicket x).report (x.plateReport o pl.sent pl.summary)).reports := by
      have h0 : s.reports.growsTo (s.removeTicket x).reports := Reports.growsTo_same (by simp)
      exact Reports.growsTo_trans h0 (Reports.enqueue_growsTo _ _)
    exact Reports.growsTo_trans h (State.tallyOutcome_growsTo _ _)

/-- The schedule after the end of a ticket. -/
theorem State.endTicket_schedule (s : State) (pl : Plate) (o : PlateOutcome) :
    (s.endTicket pl o).schedule = s.schedule.filter fun y => !(y.tag == pl.tag) := by
  unfold State.endTicket
  split
  · rename_i h
    rw [State.ticket?_none] at h
    symm
    rw [List.filter_eq_self]
    intro y hy; simp [h y hy]
  · rename_i x hx
    have hr : (s.removeTicket x).schedule = s.schedule.filter fun y => !(y.tag == pl.tag) := by
      unfold State.removeTicket
      rw [(State.ticket?_some hx).1]; simp
    cases o <;> simp [State.tallyOutcome, hr]

/-- A short end grows the queue. -/
theorem State.endShort_growsTo (s : State) (o : PlateOutcome) : s.reports.growsTo (s.endShort o).reports := by
  unfold State.endShort
  dsimp only
  have h : s.reports.growsTo
      (match s.drive.plate with | none => s.dropPlate | some pl => s.dropPlate.endTicket pl o).reports := by
    split
    · exact Reports.growsTo_refl _
    · exact State.endTicket_growsTo s.dropPlate _ _
  split
  · exact h
  · rw [State.enterUnloading_eq]; exact h

/-- The end of a ticket whose plate is spoiled: PLATE_SPOILED is latched, plates_spoiled counts once, and nothing else
of the counters and latches is touched (R144). -/
theorem State.endTicket_spoiled {s : State} {pl : Plate} {x : Ticket} (h : s.ticket? pl.tag = some x)
    (r : SpoilReason) :
    (s.endTicket pl (.spoiled r)).reports.latched .plateSpoiled = true ∧
    s.reports.countsOnce (s.endTicket pl (.spoiled r)).reports .platesSpoiled ∧
    s.reports.touches (s.endTicket pl (.spoiled r)).reports [.platesSpoiled] [.plateSpoiled] := by
  rw [State.endTicket_of_some h]
  have h0 : s.reports.touches ((s.removeTicket x).report (x.plateReport (.spoiled r) pl.sent pl.summary)).reports
      [] [] := by
    have : (s.removeTicket x).reports = s.reports := by simp
    rw [State.report_reports, this]
    exact Reports.enqueue_touches ..
  obtain ⟨h1, h2, h3⟩ := State.countLatch ((s.removeTicket x).report (x.plateReport (.spoiled r) pl.sent pl.summary))
    .platesSpoiled .plateSpoiled (by decide)
  refine ⟨h1, ?_, Reports.touches_trans (Reports.touches_mono h0 (by simp) (by simp)) h3⟩
  unfold Reports.countsOnce at h2 ⊢
  rw [← h0.1 .platesSpoiled (by simp) (by simp)]
  exact h2

/-- The end of a ticket whose plate is DONE: plates_done counts once, and nothing else is touched (R144). -/
theorem State.endTicket_done {s : State} {pl : Plate} {x : Ticket} (h : s.ticket? pl.tag = some x) :
    s.reports.countsOnce (s.endTicket pl .done).reports .platesDone ∧
    s.reports.touches (s.endTicket pl .done).reports [.platesDone] [] := by
  rw [State.endTicket_of_some h]
  have h0 : s.reports.touches ((s.removeTicket x).report (x.plateReport .done pl.sent pl.summary)).reports [] [] := by
    have : (s.removeTicket x).reports = s.reports := by simp
    rw [State.report_reports, this]
    exact Reports.enqueue_touches ..
  refine ⟨?_, Reports.touches_trans (Reports.touches_mono h0 (by simp) (by simp))
    (Reports.count_touches _ 1 .platesDone _ _ (by simp))⟩
  unfold Reports.countsOnce
  rw [← h0.1 .platesDone (by simp) (by simp)]
  show (((s.removeTicket x).report (x.plateReport .done pl.sent pl.summary)).count .platesDone).reports.counters.read
    .platesDone = _
  simp [State.count, Counters.read_add]

/-- A latch that is set stays set at the end of a ticket. -/
theorem State.endTicket_keeps {s : State} (a : Alarm) (h : s.reports.latched a = true) (pl : Plate)
    (o : PlateOutcome) : (s.endTicket pl o).reports.latched a = true := by
  unfold State.endTicket
  split
  · exact h
  · rename_i x _
    have h1 : ((s.removeTicket x).report (x.plateReport o pl.sent pl.summary)).reports.latched a = true := by
      unfold Reports.latched at h ⊢
      rw [State.report_reports, Reports.enqueue_latches]
      have : (s.removeTicket x).reports = s.reports := by simp
      rw [this]
      split
      · rw [BitVec.getLsbD_or, h]; rfl
      · exact h
    cases o with
    | done => exact h1
    | spoiled r => exact Reports.latch_latched _ _ _ (.inr h1)
    | withdrawn => exact h1

end Sys2Proof.Machine
end

