-- ==== Sys2Proof/Laws/Context.lean ====
section
/-! SUPPORT. What the work of Prefetch and of the arbiter keeps of the drive: the plate in context, but for the counts of
its damage summary, and in every state without one the drive's state and its selection. -/

namespace Sys2Proof.Machine

/-- The drive after the work of Prefetch: it holds what it held, under the same settings and the same level of PLATE_READY, and
of a plate in context only the counts of the summary have changed (R94). -/
structure Drive.goesOn (a b : Drive) : Prop where
  hold : a.sameHold b
  ready : b.plateReady = a.plateReady
  settings : b.settings = a.settings
  plate : ∀ q, a.plate = some q → ∃ sm, b.plate = some { q with summary := sm } ∧ sm.clipped = q.summary.clipped

theorem Drive.goesOn.of_eq {a b : Drive} (h : b = a) : a.goesOn b := by
  subst h
  exact ⟨.of_eq rfl, rfl, rfl, fun q hq => ⟨q.summary, hq, rfl⟩⟩

theorem Drive.goesOn.trans {a b c : Drive} (h : a.goesOn b) (g : b.goesOn c) : a.goesOn c := by
  refine ⟨⟨g.hold.1.trans h.hold.1, fun k => g.hold.2.1 (h.hold.2.1 k), fun k => ?_⟩, g.ready.trans h.ready,
    g.settings.trans h.settings, fun q hq => ?_⟩
  · obtain ⟨h1, h2⟩ := h.hold.2.2 k
    obtain ⟨g1, g2⟩ := g.hold.2.2 (h1 ▸ k)
    exact ⟨g1.trans h1, g2.trans h2⟩
  · obtain ⟨sm, e, c1⟩ := h.plate q hq
    obtain ⟨sm', e', c2⟩ := g.plate _ e
    exact ⟨sm', e', c2.trans c1⟩

/-- A drive of which only the pool and the counts of the summary change. -/
theorem Drive.goesOn.of_pool {a b : Drive} {q : Plate} {sm : Summary} {lines : List Line} (hq : a.plate = some q)
    (hb : b = { a with pool := lines, plate := some { q with summary := sm } }) (hc : sm.clipped = q.summary.clipped) :
    a.goesOn b := by
  subst hb
  refine ⟨⟨rfl, id, fun _ => ⟨rfl, rfl⟩⟩, rfl, rfl, fun q' h => ?_⟩
  rw [hq] at h
  cases h
  exact ⟨sm, rfl, hc⟩

/-- The prime test (R152). -/
theorem State.primeTest_goesOn (s : State) : s.drive.goesOn s.primeTest.drive := by
  unfold State.primeTest
  split
  · split
    · rename_i h
      refine ⟨⟨rfl, fun _ => rfl, fun k => ?_⟩, rfl, rfl, fun q hq => ⟨q.summary, hq, rfl⟩⟩
      rw [h.1] at k
      cases k
    · exact .of_eq rfl
  all_goals exact .of_eq rfl

/-- A newly entered band changes the counts of the summary only. -/
@[simp] theorem Summary.entered_clipped (sm : Summary) (ps : PageSlot) (made : Bool) :
    (sm.entered ps made).clipped = sm.clipped := by
  unfold Summary.entered
  split <;> rfl

/-- The making of a line (R86). -/
theorem State.makeLine_goesOn (s : State) : s.drive.goesOn s.makeLine.drive := by
  unfold State.makeLine
  split
  · rename_i pl j hp _
    split
    · exact .of_pool hp rfl rfl
    · unfold State.makeImageLine State.placeLine
      dsimp only
      refine .of_pool hp (by rw [(State.unpackFaults_same _ s).2.2.2.2.2.2.2.2.2.2.1]) ?_
      cases hr : j.right <;> simp
  all_goals exact .of_eq rfl

/-- The making of lines. -/
theorem State.makeLines_goesOn (n : Nat) (s : State) : s.drive.goesOn (State.makeLines n s).drive := by
  induction n generalizing s with
  | zero => exact .of_eq rfl
  | succ n ih =>
    unfold State.makeLines
    split
    · exact (State.makeLine_goesOn s).trans (ih _)
    · exact .of_eq rfl

/-- An event of Prefetch. -/
theorem State.prefetchEvent_goesOn (s : State) : s.drive.goesOn s.prefetchEvent.drive :=
  (State.makeLines_goesOn _ s).trans (State.primeTest_goesOn _)

/-- A passed read reaches Prefetch (R91). -/
theorem State.prefetchPassed_goesOn (s : State) (side : Side) (kind : LayerKind) (n : Nat) (data : List (List Byte)) :
    s.drive.goesOn (s.prefetchPassed side kind n data).drive := by
  unfold State.prefetchPassed
  split
  · exact .of_eq rfl
  · split
    · split
      · exact .of_eq rfl
      · split
        · exact State.prefetchEvent_goesOn s
        · refine Drive.goesOn.trans (.of_eq ?_) (State.prefetchEvent_goesOn _)
          simp
    · exact .of_eq rfl

/-- A change of the counts of the summary. -/
theorem State.modifySummary_goesOn (s : State) {f : Summary → Summary} (hf : ∀ sm, (f sm).clipped = sm.clipped) :
    s.drive.goesOn (s.modifySummary f).drive := by
  unfold State.modifySummary
  split
  · exact .of_eq rfl
  · rename_i pl hp
    exact .of_pool (lines := s.drive.pool) hp rfl (hf _)

/-- A store fault counts (R94). -/
theorem State.countStoreFault_goesOn (s : State) (n : Nat) : s.drive.goesOn (s.countStoreFault n).drive := by
  unfold State.countStoreFault
  split
  · exact .of_eq rfl
  · rename_i j _
    split
    · exact State.modifySummary_goesOn
        { s with prefetch := { s.prefetch with job := some { j with storeFaulted := n :: j.storeFaulted } } } fun _ => rfl
    · exact .of_eq rfl

/-- A failed read reaches Prefetch (R92). -/
theorem State.prefetchFailed_goesOn (s : State) (side : Side) (kind : LayerKind) (n pos : Nat) :
    s.drive.goesOn (s.prefetchFailed side kind n pos).drive := by
  unfold State.prefetchFailed
  split
  · exact State.countStoreFault_goesOn s n
  · split
    · split
      · exact State.countStoreFault_goesOn s n
      · dsimp only
        refine Drive.goesOn.trans ?_ ((State.countStoreFault_goesOn _ n).trans (State.prefetchEvent_goesOn _))
        split
        · exact Drive.goesOn.trans (.of_eq (by simp)) (State.modifySummary_goesOn _ fun _ => rfl)
        · exact .of_eq (by simp)
    · exact State.countStoreFault_goesOn s n

/-- A failed result reaches its requester. -/
theorem State.deliverFailure_goesOn (s : State) (r : StoreRead) : s.drive.goesOn (s.deliverFailure r).drive := by
  unfold State.deliverFailure
  split
  · exact .of_eq rfl
  · exact State.prefetchFailed_goesOn ..

/-- The arbiter serves the next request (R50, R55). -/
theorem State.serve_goesOn (n : Nat) (s : State) : s.drive.goesOn (State.serve n s).drive := by
  induction n generalizing s with
  | zero => exact .of_eq rfl
  | succ n ih =>
    unfold State.serve
    split
    · exact .of_eq rfl
    · split <;> exact .of_eq rfl
    · split
      · exact .of_eq rfl
      · rename_i r rest _
        split
        · exact (State.deliverFailure_goesOn
            { s with store := { s.store with readSide := rest, lastSide := .read } } r).trans (ih _)
        · exact .of_eq rfl

/-- The arbiter chooses (R55). -/
theorem State.arbitrate_goesOn (s : State) : s.drive.goesOn s.arbitrate.drive := by
  unfold State.arbitrate
  split
  · exact .of_eq rfl
  · exact State.serve_goesOn _ _

/-- The pages, the settings and the Screener give the same plate context where only the counts of the summary, and of the
page records the use counts, differ (R97, R150). -/
theorem State.ContextOf.congr {s t : State} {x y : Ticket} {q : Plate} {sm : Summary} (h : s.ContextOf x q)
    (hp : ∀ r p, s.page? r = some p → ∃ p', t.page? r = some p' ∧ p'.width = p.width ∧ p'.height = p.height)
    (hi : t.screener.inks = s.screener.inks) (hs : t.drive.settings = s.drive.settings)
    (hx : y = { x with state := y.state }) (hc : sm.clipped = q.summary.clipped) :
    t.ContextOf y { q with summary := sm } := by
  rw [hx]
  obtain ⟨a, l, h1, h2, h3⟩ := h.left
  obtain ⟨l', g1, g2, g3⟩ := hp _ _ h2
  refine ⟨h.ticket, by rw [hi]; exact h.settings, by rw [hs]; exact h.head,
    ⟨a, l', h1, g1, by rw [g2, g3]; exact h3⟩, h.alone, fun hr => ?_, fun hn => ?_, fun r hr => ?_, h.unsent⟩
  · obtain ⟨c, r, k1, k2, k3⟩ := h.right hr
    obtain ⟨r', m1, m2, m3⟩ := hp _ _ k2
    exact ⟨c, r', k1, m1, by rw [m2, m3]; exact k3⟩
  · rw [hs]
    obtain ⟨k1, k2⟩ := h.onePage hn
    exact ⟨k1, by rw [← k2]; show sm.clipped = true ↔ _; rw [hc]⟩
  · rw [hs]
    obtain ⟨k1, k2⟩ := h.twoPages r hr
    exact ⟨k1, by rw [← k2]; show sm.clipped = true ↔ _; rw [hc]⟩

end Sys2Proof.Machine
end

