-- ==== Sys2Proof/Laws/Tables.lean ====
section
/-! SUPPORT. The tables of `Safety` met by the operations: the evaluation of a layer (R62), the derivation of a page's
state (R64), the resolution of a binding (R129), the allocation of a tile (R45), the place of a mapped tile (R44), and what the
arbiter's choice and an event of evaluation do to the report unit. -/

namespace Sys2Proof.Machine

open Sys2Proof (Byte)

/-- An evaluation gives the state of the table of R62. -/
theorem LayerRecord.evaluatesTo_evaluated (l : LayerRecord) : l.EvaluatesTo l.evaluated := by
  unfold LayerRecord.evaluated
  refine ⟨fun h => by rw [h], fun h h1 h2 => ?_, fun h h1 h2 => ?_, fun h h1 h2 => ?_, fun h h1 => ?_⟩ <;>
    (obtain ⟨n, hn⟩ := Option.isSome_iff_exists.mp h; rw [hn]; dsimp only)
  · simp [h1, h2]
  · simp [h1, h2]
  · simp [h1, h2]
  · rcases h1 with h1 | ⟨h1, h2⟩
    · rw [if_neg (by omega), if_neg (by omega)]
    · simp [h1, h2]

/-- A layer is evaluated where it has no write in flight (R61). -/
theorem LayerRecord.settled_iff (l : LayerRecord) : l.settled = true ↔ l.pending = [] ∧ l.parityPending = false := by
  unfold LayerRecord.settled; simp

/-- A derivation gives the state of the table of R64. -/
theorem PageRecord.derivesTo_derived (p : PageRecord) : p.DerivesTo p.derived := by
  unfold PageRecord.derived
  refine ⟨fun h => ?_, fun h0 h => ?_, fun h0 h1 h2 => ?_⟩
  · rw [if_pos]
    simpa [List.any_eq_true] using h
  · rw [if_neg, if_pos]
    · simpa using h
    · simp only [h0, Nat.lt_irrefl, decide_false, Bool.false_or, List.any_eq_true, beq_iff_eq, not_exists, not_and]
      intro l hl e; rcases h l hl with g | g <;> rw [g] at e <;> cases e
  · rw [if_neg, if_neg]
    · simp only [List.all_eq_true, Bool.or_eq_true, beq_iff_eq]
      intro h
      obtain ⟨l, hl, a, b⟩ := h2
      rcases h l hl with g | g
      · exact a g
      · exact b g
    · simp only [h0, Nat.lt_irrefl, decide_false, Bool.false_or, List.any_eq_true, beq_iff_eq, not_exists, not_and]
      exact h1

/-- The table of R64 reads the pending writes and the layer records only. -/
theorem PageRecord.derivesTo_congr {p q : PageRecord} (h1 : q.pendingWrites = p.pendingWrites) (h2 : q.layers = p.layers)
    {new : PageState} (h : p.DerivesTo new) : q.DerivesTo new := by
  unfold PageRecord.DerivesTo at *
  rw [h1, h2]
  exact h

/-- A closed page takes the derived state. -/
theorem PageRecord.state_afterDerivation {p : PageRecord} (h : p.closed = true) :
    p.afterDerivation.state = p.derived := by
  unfold PageRecord.afterDerivation
  split
  · rfl
  · rename_i hn; simp [h] at hn; exact hn.symm

/-- What stands in a closed page after its derivation is by the table of R64. -/
theorem PageRecord.afterDerivation_derives {p : PageRecord} (h : p.closed = true) :
    p.afterDerivation.DerivesTo p.afterDerivation.state := by
  rw [PageRecord.state_afterDerivation h]
  exact PageRecord.derivesTo_congr (by simp) (by simp) p.derivesTo_derived

/-- A page that is not closed is left as it is (R64). -/
theorem PageRecord.afterDerivation_of_open {p : PageRecord} (h : p.closed = false) : p.afterDerivation = p := by
  unfold PageRecord.afterDerivation; simp [h]

/-- A binding names the records that fit it (R129). -/
theorem Binding.names_iff_fits (b : Binding) (p) : b.names p = true ↔ b.fits p := by
  unfold Binding.names Binding.fits
  cases hv : b.version with
  | none => simp
  | some v => simp [and_assoc]

/-- The highest of a list of records is one of them, of no lower version than any. -/
theorem highest_spec (l : List (Nat × PageRecord)) :
    (highest l = none ↔ l = []) ∧ ∀ x, highest l = some x → x ∈ l ∧ ∀ y ∈ l, y.2.version ≤ x.2.version := by
  induction l with
  | nil => simp [highest]
  | cons a as ih =>
    unfold highest
    cases h : highest as with
    | none =>
      have := ih.1.mp h; subst this
      simp
    | some b =>
      obtain ⟨hb, hm⟩ := ih.2 b h
      refine ⟨by simp, fun x hx => ?_⟩
      simp only [Option.some.injEq] at hx
      unfold higherVersion at hx
      split at hx
      · rename_i hlt; subst hx
        refine ⟨List.mem_cons_of_mem _ hb, fun y hy => ?_⟩
        rcases List.mem_cons.mp hy with rfl | hy
        · omega
        · exact hm y hy
      · rename_i hlt; subst hx
        refine ⟨List.mem_cons_self, fun y hy => ?_⟩
        rcases List.mem_cons.mp hy with rfl | hy
        · omega
        · have := hm y hy; omega

/-- A resolution is by R129. -/
theorem State.resolvesTo_resolve (s : State) (b : Binding) : s.ResolvesTo b (s.resolve b) := by
  unfold State.resolve
  obtain ⟨h1, h2⟩ := highest_spec (s.liveRecords.filter fun (_, p) => b.names p)
  refine ⟨fun hn r p hp hf => ?_, fun x hx => ?_⟩
  · rw [Option.map_eq_none_iff, h1, List.filter_eq_nil_iff] at hn
    have := hn (r, p) ((State.mem_liveRecords _ _ _).mpr hp)
    exact this ((Binding.names_iff_fits b p).mpr hf)
  · obtain ⟨⟨r, p⟩, hp, rfl⟩ := Option.map_eq_some_iff.mp hx
    obtain ⟨hm, hv⟩ := h2 _ hp
    obtain ⟨hm, hn⟩ := List.mem_filter.mp hm
    refine ⟨p, (State.mem_liveRecords _ _ _).mp hm, (Binding.names_iff_fits b p).mp hn, rfl, fun r' q hq hf => ?_⟩
    exact hv (r', q) (List.mem_filter.mpr ⟨(State.mem_liveRecords _ _ _).mpr hq, (Binding.names_iff_fits b q).mpr hf⟩)

/-- The lowest tile of the free pool is the lowest gap of the list behind it (R45). -/
theorem State.lowestFree_iff {s : State} (hr : rises s.store.poolOut = true) (t : Nat) :
    s.lowestFree = some t ↔ s.inPool t = true ∧ ∀ u, u < t → s.inPool u = false := by
  obtain ⟨-, h2, h3⟩ := firstGap_spec 0 s.store.poolOut hr (fun _ _ => Nat.zero_le _)
  unfold State.lowestFree
  dsimp only
  constructor
  · intro h
    split at h
    · rename_i hlt
      simp only [Option.some.injEq] at h
      subst h
      exact ⟨by simp [State.inPool, hlt, h2], fun u hu => by simp [State.inPool, h3 u (Nat.zero_le _) hu]⟩
    · exact absurd h (by simp)
  · rintro ⟨h1, h4⟩
    simp only [State.inPool, Bool.and_eq_true, decide_eq_true_eq, Bool.not_eq_true', List.contains_eq_mem,
      decide_eq_false_iff_not] at h1
    have e : firstGap 0 s.store.poolOut = t := by
      rcases Nat.lt_trichotomy (firstGap 0 s.store.poolOut) t with h | h | h
      · have := h4 _ h
        simp [State.inPool, h2] at this
        omega
      · exact h
      · exact absurd (h3 t (Nat.zero_le _) h) h1.2
    rw [e, if_pos h1.1]

/-- No tile is allocated where the free pool is empty (R35). -/
theorem State.lowestFree_none {s : State} (hr : rises s.store.poolOut = true) :
    s.lowestFree = none ↔ ∀ u, s.inPool u = false := by
  constructor
  · intro h u
    by_contra hu
    have hex : ∃ u, s.inPool u = true := ⟨u, by simpa using hu⟩
    classical
    have := (State.lowestFree_iff hr (Nat.find hex)).mpr ⟨Nat.find_spec hex,
      fun v hv => by simpa using Nat.find_min hex hv⟩
    rw [h] at this; cases this
  · intro h
    cases e : s.lowestFree with
    | none => rfl
    | some t => have := ((State.lowestFree_iff hr t).mp e).1; rw [h t] at this; cases this

/-- A value that a list of lists holds once stands in one list of it. -/
theorem count_flatMap_add {α : Type} (L : List α) (f : α → List Nat) (t : Nat) {i j : Nat} {a b : α}
    (hi : L[i]? = some a) (hj : L[j]? = some b)
   (ha : t ∈ f a) (hb : t ∈ f b) (h : (L.flatMap f).count t = 1) : i = j ∧ (f a).count t = 1 := by
  induction L generalizing i j with
  | nil => simp at hi
  | cons x xs ih =>
    rw [List.flatMap_cons, List.count_append] at h
    have pos : ∀ (k : Nat) (y : α), xs[k]? = some y → t ∈ f y → 1 ≤ (xs.flatMap f).count t := by
      intro k y hk hy
      exact List.count_pos_iff.mpr (List.mem_flatMap.mpr ⟨y, List.mem_of_getElem? hk, hy⟩)
    cases i with
    | zero =>
      simp only [List.getElem?_cons_zero, Option.some.injEq] at hi; subst hi
      have h1 : 1 ≤ (f x).count t := List.count_pos_iff.mpr ha
      cases j with
      | zero => exact ⟨rfl, by omega⟩
      | succ j =>
        have := pos j b (by simpa using hj) hb
        omega
    | succ i =>
      have p := pos i a (by simpa using hi) ha
      cases j with
      | zero =>
        simp only [List.getElem?_cons_zero, Option.some.injEq] at hj; subst hj
        have h1 : 1 ≤ (f x).count t := List.count_pos_iff.mpr hb
        omega
      | succ j =>
        have := ih (by simpa using hi) (by simpa using hj) (by omega)
        exact ⟨by omega, this.2⟩

/-- A tile map's tiles, slot by slot. -/
theorem filterMap_eq_flatMap (l : List (Option Nat)) : (l.filterMap fun t => t) = l.flatMap Option.toList := by
  induction l with
  | nil => rfl
  | cons x xs ih => cases x <;> simp [ih]

/-- The tile of a tile-map slot is one of the layer's tiles. -/
theorem LayerRecord.mem_tiles {l : LayerRecord} {n t : Nat} (h : l.tileAt n = some t) :
    t ∈ l.tiles ∧ l.tileMap[n]? = some (some t) := by
  unfold LayerRecord.tileAt at h
  rw [List.getD_eq_getElem?_getD] at h
  have : l.tileMap[n]? = some (some t) := by
    cases hg : l.tileMap[n]? with
    | none => rw [hg] at h; cases h
    | some x => rw [hg] at h; simpa using h
  refine ⟨?_, this⟩
  unfold LayerRecord.tiles
  exact List.mem_filterMap.mpr ⟨some t, List.mem_of_getElem? this, rfl⟩

/-- A mapped tile stands in the place that maps it (R44). -/
theorem State.placeOf_of_mapped {s : State} {ref : LayerRef} {p : PageRecord} {l : LayerRecord} {n tile : Nat}
   (hc : s.mapped.count tile = 1)
   (hp : s.page? ref.record = some p) (hl : p.layer? ref.layer = some l) (hn : l.tileAt n = some tile) :
   s.placeOf tile = some (ref, n) := by
  have hmem := (State.mem_liveRecords s _ _).mpr hp
  obtain ⟨hid, hlm⟩ := PageRecord.layer?_id hl
  obtain ⟨htm, hidx⟩ := LayerRecord.mem_tiles hn
  cases h : s.placeOf tile with
  | none =>
    exfalso
    unfold State.placeOf at h
    rw [List.findSome?_eq_none_iff] at h
    have h1 := h _ hmem
    dsimp only at h1
    rw [List.findSome?_eq_none_iff] at h1
    have h2 := h1 l hlm
    simp only [Option.map_eq_none_iff, List.findIdx?_eq_none_iff] at h2
    have := h2 _ (List.mem_of_getElem? hidx)
    simp at this
  | some x =>
    unfold State.placeOf at h
    obtain ⟨⟨r', p'⟩, hm', h1⟩ := List.exists_of_findSome?_eq_some h
    dsimp only at h1
    obtain ⟨l', hl', h2⟩ := List.exists_of_findSome?_eq_some h1
    obtain ⟨k, hk, rfl⟩ := Option.map_eq_some_iff.mp h2
    obtain ⟨hkl, hk1, -⟩ := List.findIdx?_eq_some_iff_getElem.mp hk
    have hk2 : l'.tileMap[k]? = some (some tile) := by
      rw [List.getElem?_eq_getElem hkl]; simpa using hk1
    have ht' : tile ∈ l'.tiles := by
      unfold LayerRecord.tiles; exact List.mem_filterMap.mpr ⟨some tile, List.mem_of_getElem? hk2, rfl⟩
    obtain ⟨i, hi⟩ := List.getElem?_of_mem hm'
    obtain ⟨j, hj⟩ := List.getElem?_of_mem hmem
    have e1 := count_flatMap_add s.liveRecords (fun x => x.2.tiles) tile hi hj
      (List.mem_flatMap.mpr ⟨l', hl', ht'⟩) (List.mem_flatMap.mpr ⟨l, hlm, htm⟩) hc
    obtain ⟨rfl, e1⟩ := e1
    rw [hi] at hj; cases hj
    obtain ⟨i2, hi2⟩ := List.getElem?_of_mem hl'
    obtain ⟨j2, hj2⟩ := List.getElem?_of_mem hlm
    have e2 := count_flatMap_add p.layers LayerRecord.tiles tile hi2 hj2 ht' htm e1
    obtain ⟨rfl, e2⟩ := e2
    rw [hi2] at hj2; cases hj2
    have e3 := count_flatMap_add l.tileMap Option.toList tile hk2 hidx (by simp) (by simp)
      (by rw [← filterMap_eq_flatMap]; exact e2)
    obtain ⟨rfl, -⟩ := e3
    rw [hid]

/-- A tile that no record maps stands in no tile map. -/
theorem State.placeOf_none {s : State} {tile : Nat} (h : tile ∉ s.mapped) : s.placeOf tile = none := by
  cases hx : s.placeOf tile with
  | none => rfl
  | some x =>
    exfalso
    unfold State.placeOf at hx
    obtain ⟨⟨r', p'⟩, hm', h1⟩ := List.exists_of_findSome?_eq_some hx
    obtain ⟨l', hl', h2⟩ := List.exists_of_findSome?_eq_some h1
    obtain ⟨k, hk, rfl⟩ := Option.map_eq_some_iff.mp h2
    obtain ⟨hkl, hk1, -⟩ := List.findIdx?_eq_some_iff_getElem.mp hk
    apply h
    refine List.mem_flatMap.mpr ⟨(r', p'), hm', List.mem_flatMap.mpr ⟨l', hl', ?_⟩⟩
    unfold LayerRecord.tiles
    refine List.mem_filterMap.mpr ⟨some tile, ?_, rfl⟩
    have : l'.tileMap[k] = some tile := by simpa using hk1
    rw [← this]; exact List.getElem_mem hkl

/-! ## The report unit -/

/-- Unpack faults move the counter unpack_faults and the alarm UNPACK_FAULT only (R84). -/
theorem State.unpackFaults_touches (n : Nat) (s : State) :
    s.reports.touches (State.unpackFaults n s).reports [.unpackFaults] [.unpackFault] := by
  induction n generalizing s with
  | zero => exact Reports.touches_refl _ _ _
  | succ n ih => exact Reports.touches_trans (State.countLatch s .unpackFaults .unpackFault (by decide)).2.2 (ih _)

theorem State.makeLine_touches (s : State) : s.reports.touches s.makeLine.reports [.unpackFaults] [.unpackFault] := by
  unfold State.makeLine
  (repeat' split) <;> try exact Reports.touches_refl _ _ _
  unfold State.makeImageLine State.placeLine
  exact State.unpackFaults_touches _ _

theorem State.makeLines_touches (n : Nat) (s : State) :
    s.reports.touches (State.makeLines n s).reports [.unpackFaults] [.unpackFault] := by
  induction n generalizing s with
  | zero => exact Reports.touches_refl _ _ _
  | succ n ih =>
    unfold State.makeLines
    split
    · exact Reports.touches_trans (State.makeLine_touches s) (ih _)
    · exact Reports.touches_refl _ _ _

/-- An event of Prefetch moves the counter unpack_faults and the alarm UNPACK_FAULT only. -/
theorem State.prefetchEvent_touches (s : State) :
    s.reports.touches s.prefetchEvent.reports [.unpackFaults] [.unpackFault] := by
  unfold State.prefetchEvent
  rw [State.primeTest_reports]
  exact State.makeLines_touches _ s

@[simp] theorem State.modifySummary_reports (s : State) (f : Summary → Summary) :
    (s.modifySummary f).reports = s.reports := by
  unfold State.modifySummary
  split <;> rfl

@[simp] theorem State.countStoreFault_reports (s : State) (n : Nat) : (s.countStoreFault n).reports = s.reports := by
  unfold State.countStoreFault
  (repeat' split) <;> simp

theorem State.prefetchFailed_touches (s : State) (side : Side) (kind : LayerKind) (n pos : Nat) :
    s.reports.touches (s.prefetchFailed side kind n pos).reports [.unpackFaults] [.unpackFault] := by
  unfold State.prefetchFailed
  (repeat' (first | split | dsimp only)) <;> first
   | (refine Reports.touches_trans ?_ (State.prefetchEvent_touches _)
      exact Reports.touches_of_eq (by simp) (by simp) (by simp) _ _)
   | exact Reports.touches_of_eq (by simp) (by simp) (by simp) _ _

/-- A failed result moves the same, whoever receives it (R51, R92). -/
theorem State.deliverFailure_touches (s : State) (r : StoreRead) :
    s.reports.touches (s.deliverFailure r).reports [.unpackFaults] [.unpackFault] := by
  unfold State.deliverFailure State.repairFailed
  split
  · exact Reports.touches_refl _ _ _
  · exact State.prefetchFailed_touches _ _ _ _ _

theorem State.serve_touches (n : Nat) (s : State) :
    s.reports.touches (State.serve n s).reports [.unpackFaults] [.unpackFault] := by
  induction n generalizing s with
  | zero => exact Reports.touches_refl _ _ _
  | succ n ih =>
    unfold State.serve
    (repeat' split) <;> try exact Reports.touches_refl _ _ _
    exact Reports.touches_trans
      (by exact State.deliverFailure_touches { s with store := { s.store with readSide := _, lastSide := .read } } _)
      (ih _)

/-- The arbiter's choice moves the same (R50, R55). -/
theorem State.arbitrate_touches (s : State) :
    s.reports.touches s.arbitrate.reports [.unpackFaults] [.unpackFault] := by
  unfold State.arbitrate
  split
  · exact Reports.touches_refl _ _ _
  · exact State.serve_touches _ s

/-- With no waiting read of a retired tile, the arbiter's choice changes nothing but the store. -/
theorem State.arbitrate_noRetired (s : State) (h : ∀ r ∈ s.store.readSide, r.tile ∉ s.store.retired) :
    s.arbitrate.reports = s.reports ∧ s.arbitrate.repair = s.repair ∧ s.arbitrate.prefetch = s.prefetch ∧
      s.arbitrate.drive = s.drive := by
  unfold State.arbitrate
  split
  · exact ⟨rfl, rfl, rfl, rfl⟩
  · unfold State.serve
    (repeat' split) <;> try exact ⟨rfl, rfl, rfl, rfl⟩
    rename_i x rest e hc
    exact absurd (by simpa using hc) (h x (by rw [e]; simp))

/-- An event of evaluation latches PAGE_DAMAGED and no other alarm (R65). -/
theorem State.evaluationEvent_touches (s : State) (t : LayerRef) :
    s.reports.touches (s.evaluationEvent t).reports [] [.pageDamaged] := by
  have note (s : State) (r : Nat) (p : PageRecord) :
      s.reports.touches (s.noteDamage r p).reports [] [.pageDamaged] := by
    unfold State.noteDamage
    split
    · exact Reports.latch_touches _ _ _ _ (by simp)
    · exact Reports.touches_refl _ _ _
  have derive (s : State) (r : Nat) : s.reports.touches (s.derivePage r).reports [] [.pageDamaged] := by
    unfold State.derivePage
    (repeat' split) <;> try exact Reports.touches_refl _ _ _
    unfold State.pageChanged
    dsimp only
    rw [(State.rearm_same _ _).2.2.2.2.2.2.2.2.2.1]
    split
    · exact Reports.touches_trans (by exact Reports.enqueue_touches _ _ _ _) (note _ _ _)
    · exact Reports.touches_refl _ _ _
  unfold State.evaluationEvent
  simpa using derive (s.evaluateLayer t) t.record

end Sys2Proof.Machine
end

