-- ==== Sys2Proof/Laws/Resolutions.lean ====
section
/-! SUPPORT. Resolutions (R129, R130): what a binding resolves to, and what a computation of resolutions does to the
schedule, the use counts and the arming. -/

namespace Sys2Proof.Machine

/-! ## Use counts (R4) -/

/-- How often an optional resolution names a record. -/
def namings (o : Option Resolution) (r : Nat) : Nat := if o.any (fun x => x.record == r) then 1 else 0

/-- How often the resolutions of a ticket name a record. -/
def Ticket.namings (t : Ticket) (r : Nat) : Nat := Machine.namings t.leftRes r + Machine.namings t.rightRes r

/-- How often the resolutions of a list of tickets name a record. -/
def namingsIn (l : List Ticket) (r : Nat) : Nat := (l.map fun t => t.namings r).sum

/-- The resolutions that name a record, counted. -/
theorem State.uses_eq (s : State) (r : Nat) : s.uses r = namingsIn s.schedule r := by
  have one : ∀ o : Option Resolution, (o.toList.filter fun x => x.record == r).length = namings o r := by
    intro o
    unfold namings
    cases o with
    | none => rfl
    | some x => simp [List.filter_cons]; split <;> simp_all
  unfold State.uses namingsIn
  induction s.schedule with
  | nil => rfl
  | cons x xs ih =>
    have hx : (x.resolutions.filter fun z => z.record == r).length = x.namings r := by
      unfold Ticket.resolutions Ticket.namings
      rw [List.filter_append, List.length_append, one, one]
    rw [List.flatMap_cons, List.filter_append, List.length_append, hx, ih]
    rfl

/-- Every use count is the given number. -/
def State.UseCounts (s : State) (f : Nat → Nat) : Prop := ∀ r p, s.page? r = some p → p.useCount = f r

/-- Use counts are what they are, however the number is written. -/
theorem State.UseCounts.congr {s : State} {f g : Nat → Nat} (h : s.UseCounts f) (e : ∀ r, f r = g r) : s.UseCounts g :=
  fun r p hp => (h r p hp).trans (e r)

/-- One use more or less of the record that a resolution names. -/
theorem State.UseCounts.addUse {s : State} {f : Nat → Nat} (h : s.UseCounts f) (o : Option Resolution) (up : Bool) :
    (s.addUse o up).UseCounts fun r => if up then f r + namings o r else f r - namings o r := by
  intro r p hp
  have key : (s.addUse o up).page? r = (s.page? r).map fun p =>
      { p with useCount := if up then p.useCount + namings o r else p.useCount - namings o r } := by
    unfold State.addUse
    cases o with
    | none => simp [namings]
    | some x =>
      dsimp only
      rw [State.page?_modifyPage]
      by_cases e : r = x.record
      · subst e; simp [namings]
      · rw [if_neg e]
        have : namings (some x) r = 0 := by simp [namings, Ne.symm e]
        simp [this]
  rw [key] at hp
  obtain ⟨q, hq, rfl⟩ := Option.map_eq_some_iff.mp hp
  have := h r q hq
  cases up <;> simp [this]

/-- The use counts as a ticket's resolutions move (R130, steps 1 and 2). -/
theorem State.UseCounts.moveUse {s : State} {f : Nat → Nat} (h : s.UseCounts f) {old new : Ticket}
    (hge : ∀ r, old.namings r ≤ f r) : (s.moveUse old new).UseCounts fun r => f r - old.namings r + new.namings r := by
  unfold State.moveUse
  dsimp only
  have step : ∀ {v : State} {g : Nat → Nat}, v.UseCounts g → ∀ a b : Option Resolution, (∀ r, namings a r ≤ g r) →
      (if a = b then v else (v.addUse a false).addUse b true).UseCounts fun r => g r - namings a r + namings b r := by
    intro v g hv a b hg
    split
    · rename_i e; subst e; exact hv.congr fun r => by have := hg r; omega
    · exact ((hv.addUse a false).addUse b true).congr fun r => by simp
  have h1 := step h old.leftRes new.leftRes (fun r => by have := hge r; unfold Ticket.namings at this; omega)
  have h2 := step h1 old.rightRes new.rightRes (fun r => by have := hge r; unfold Ticket.namings at this; omega)
  exact h2.congr fun r => by have := hge r; unfold Ticket.namings at *; omega

/-- The use counts as the resolutions of many tickets move. -/
theorem State.UseCounts.moveAll (next : Ticket → Ticket) (l : List Ticket) :
    ∀ (s : State) (k : Nat → Nat), s.UseCounts (fun r => namingsIn l r + k r) →
      (l.foldl (fun acc t => acc.moveUse t (next t)) s).UseCounts fun r => namingsIn (l.map next) r + k r := by
  induction l with
  | nil => intro s k h; exact h
  | cons x xs ih =>
    intro s k h
    have h1 := h.moveUse (old := x) (new := next x) (fun r => by simp [namingsIn]; omega)
    have h2 := ih (s.moveUse x (next x)) (fun r => (next x).namings r + k r) (h1.congr fun r => by simp [namingsIn]; omega)
    exact h2.congr fun r => by simp [namingsIn]; omega

/-! ## What a binding resolves to (R129) -/

/-- What a resolution reads of a page table: the name of each record, and whether it is current. -/
def State.sameNames (s t : State) : Prop :=
  ∀ r, (t.page? r).map (fun p => (p.pageId, p.version, p.current))
    = (s.page? r).map (fun p => (p.pageId, p.version, p.current))

/-- A binding resolves alike in two tables of the same names. -/
theorem State.ResolvesTo.congr {s t : State} (h : s.sameNames t) {b : Binding} {o : Option Resolution}
    (hr : s.ResolvesTo b o) : t.ResolvesTo b o := by
  have get : ∀ {u v : State}, u.sameNames v → ∀ {r p}, u.page? r = some p → ∃ q, v.page? r = some q ∧
      q.version = p.version ∧ (b.fits p → b.fits q) := by
    intro u v huv r p hp
    have := huv r
    rw [hp] at this
    obtain ⟨q, hq, e⟩ := Option.map_eq_some_iff.mp this
    simp only [Prod.mk.injEq] at e
    refine ⟨q, hq, e.2.1, fun f => ?_⟩
    unfold Binding.fits at f ⊢
    rw [e.1, e.2.1, e.2.2]
    exact f
  have h' : t.sameNames s := fun r => (h r).symm
  refine ⟨fun hn r p hp hf => ?_, fun x hx => ?_⟩
  · obtain ⟨q, hq, -, e⟩ := get h' hp
    exact hr.1 hn r q hq (e hf)
  · obtain ⟨p, hp, hf, hv, hmax⟩ := hr.2 x hx
    obtain ⟨q, hq, ev, e⟩ := get h hp
    refine ⟨q, hq, e hf, hv.trans ev.symm, fun r q' hq' hf' => ?_⟩
    obtain ⟨q'', hq'', ev', e'⟩ := get h' hq'
    have := hmax r q'' hq'' (e' hf')
    rw [ev'] at this
    rw [ev]; exact this

/-! ## A computation of the resolutions (R130) -/

/-- The page table has the same names after a computation of resolutions. -/
theorem State.reresolve_sameNames (s : State) (a : Nat) : s.sameNames (s.reresolve a) := by
  intro r
  obtain ⟨h1, h2⟩ := State.page?_reresolve s a r
  cases h : s.page? r with
  | none => rw [h1.mpr h]
  | some p => obtain ⟨u, hu⟩ := h2 p h; rw [hu]; rfl

/-- A ticket whose bindings are computed again keeps all but its resolutions. -/
theorem State.recomputeTicket_eq (s : State) (a : Nat) (x : Ticket) :
    s.recomputeTicket a x = { x with
      leftRes := (s.recomputeTicket a x).leftRes, rightRes := (s.recomputeTicket a x).rightRes } := by
  unfold State.recomputeTicket
  split <;> rfl

/-- What a computation of the resolutions of the bindings that name a page id does (R130, R133, R134). -/
theorem State.reresolve_reresolves (s : State) (a : Nat) : s.Reresolves (s.reresolve a) a := by
  set next := s.recomputeTicket a with hn
  set s1 := s.schedule.foldl (fun acc t => acc.moveUse t (next t)) s with hs1
  set s2 : State := { s1 with schedule := s.schedule.map next } with hs2
  set changed := (s.schedule.filter fun t => Ticket.moved t (next t)).map (·.tag) with hch
  have ht : s.reresolve a = s2.rearm fun t => changed.contains t.tag := rfl
  have hre := s2.rearm_rearms fun t => changed.contains t.tag
  rw [← ht] at hre
  refine ⟨by simpa [hs2] using hre.length, fun htd i x h => ?_, fun hU => ?_⟩
  · have hkeep : ∀ z, next z = { z with leftRes := (next z).leftRes, rightRes := (next z).rightRes } :=
      fun z => s.recomputeTicket_eq a z
    have htag : (next x).tag = x.tag := by rw [hkeep]
    have hst : (next x).state = x.state := by rw [hkeep]
    obtain ⟨y, y1, y2, y3, y4⟩ := hre.each i (next x) (by rw [hs2]; simp [h])
    have himg : x.state = .imaging → next x = x := by
      intro e; rw [hn]; unfold State.recomputeTicket; rw [e]
    refine ⟨y, y1, ?_, fun hi => ?_, fun hi => ?_⟩
    · rw [y2, hkeep x]
    · rw [y3 (by rw [hst]; exact hi), himg hi]
    have hnext : (next x).leftRes = s.recomputed a x.left x.leftRes ∧
        (next x).rightRes = x.right.elim x.rightRes fun b => s.recomputed a b x.rightRes := by
      rw [hn]
      unfold State.recomputeTicket
      cases hs : x.state
      · exact ⟨rfl, rfl⟩
      · exact ⟨rfl, rfl⟩
      · exact absurd hs hi
    have yl : y.leftRes = (next x).leftRes ∧ y.rightRes = (next x).rightRes := by
      rw [y2]; exact ⟨rfl, rfl⟩
    have hmoves : ∀ b old, (s.reresolve a).MovesTo a b old (s.recomputed a b old) := by
      intro b old
      refine ⟨fun e => ?_, fun e => ?_⟩
      · unfold State.recomputed
        rw [if_pos e]
        exact (s.resolvesTo_resolve b).congr (s.reresolve_sameNames a)
      · unfold State.recomputed
        rw [if_neg e]
    have hmoved : changed.contains (next x).tag = true ↔ ¬ (y.leftRes = x.leftRes ∧ y.rightRes = x.rightRes) := by
      rw [yl.1, yl.2, htag, List.contains_iff_mem, hch, List.mem_map]
      constructor
      · rintro ⟨w, hw, hwt⟩
        obtain ⟨hw, hm⟩ := List.mem_filter.mp hw
        have : w = x := List.inj_on_of_nodup_map htd hw (List.mem_of_getElem? h) hwt
        subst this
        rintro ⟨a1, a2⟩
        unfold Ticket.moved at hm
        rw [a1, a2] at hm
        simp at hm
      · intro hne
        refine ⟨x, List.mem_filter.mpr ⟨List.mem_of_getElem? h, ?_⟩, rfl⟩
        unfold Ticket.moved
        by_cases e : (next x).leftRes = x.leftRes
        · have : (next x).rightRes ≠ x.rightRes := fun g => hne ⟨e, g⟩
          simp [e, Ne.symm this]
        · simp [Ne.symm e]
    refine ⟨by rw [yl.1, hnext.1]; exact hmoves _ _, fun b hb => by rw [yl.2, hnext.2, hb]; exact hmoves _ _,
      fun hb => by rw [yl.2, hnext.2, hb]; rfl, fun h1 h2 => ?_, fun hne hni => ?_⟩
    · by_cases hy : y.state = .imaging
      · exact .inr hy
      · left
        rw [(y4 hy).2 fun g => hmoved.mp g ⟨h1, h2⟩, hst]
    · exact (y4 hni).1 (hmoved.mpr hne)
  · intro r p hp
    have h0 : s.UseCounts fun r => namingsIn s.schedule r + 0 := fun r p hp => by rw [hU.counts r p hp, s.uses_eq]; rfl
    have h2 := State.UseCounts.moveAll next s.schedule s (fun _ => 0) h0
    have h3 : (s.reresolve a).page? r = s1.page? r := State.page?_congr (by rw [ht]; simp [hs2]) r
    rw [h3] at hp
    rw [h2 r p hp, State.uses_eq]
    -- an arming evaluation leaves the resolutions
    have h4 : ∀ l m : List Ticket, m.length = l.length → (∀ (n : Nat) (x : Ticket), l[n]? = some x → ∃ y,
        m[n]? = some y ∧ y.namings r = x.namings r) → namingsIn m r = namingsIn l r := by
      intro l m hl hm
      unfold namingsIn
      congr 1
      apply List.ext_getElem?
      intro n
      rw [List.getElem?_map, List.getElem?_map]
      cases hx : l[n]? with
      | none =>
        have : m[n]? = none := by rw [List.getElem?_eq_none_iff] at hx ⊢; omega
        rw [this]
      | some x =>
        obtain ⟨y, hy, e⟩ := hm n x hx
        rw [hy, Option.map_some, e]; rfl
    have h5 := h4 (s.schedule.map next) (s.reresolve a).schedule hre.length fun n x hx => by
      obtain ⟨y, y1, y2, -⟩ := hre.each n x hx
      exact ⟨y, y1, by rw [y2]; rfl⟩
    exact h5.symm

/-- What a computation of resolutions does depends on the schedule, the page table and the Screener only. -/
theorem State.Reresolves.congr {s t u v : State} {a : Nat} (h : s.Reresolves t a) (h1 : u.schedule = s.schedule)
    (h2 : u.UsesWf → s.UsesWf) (h3 : v.schedule = t.schedule) (h4 : v.pages = t.pages)
    (h5 : v.screener = t.screener) : u.Reresolves v a := by
  have hn : t.sameNames v := fun r => by rw [State.page?_congr h4]
  have hm : ∀ b o n, t.MovesTo a b o n → v.MovesTo a b o n := fun b o n m => ⟨fun e => (m.1 e).congr hn, m.2⟩
  refine ⟨by rw [h1, h3]; exact h.length, fun td i x hx => ?_, fun hU r p hp => ?_⟩
  · rw [h1] at hx
    have td' : s.TagsDistinct := by unfold State.TagsDistinct at td ⊢; rw [← h1]; exact td
    obtain ⟨y, y1, y2, y3, y4⟩ := h.each td' i x hx
    refine ⟨y, by rw [h3]; exact y1, y2, y3, fun hi => ?_⟩
    obtain ⟨z1, z2, z3, z4, z5⟩ := y4 hi
    exact ⟨hm _ _ _ z1, fun b hb => hm _ _ _ (z2 b hb), z3, z4, fun hne hy => (z5 hne hy).trans
      ⟨fun m => m.congr h4 h5 rfl, fun m => m.congr h4.symm h5.symm rfl⟩⟩
  · rw [State.page?_congr h4] at hp
    rw [h.counts (h2 hU) r p hp]
    unfold State.uses
    rw [h3]

end Sys2Proof.Machine
end

