-- ==== Sys2Proof/Laws/Restart.lean ====
section
/-! SUPPORT. What the taking and the finish of a RESTART do (R170, R171). -/

namespace Sys2Proof.Machine

/-- A RESTART that Intake takes is carried out, and then it finishes or is held (R165, R170). -/
theorem State.restartDirective_of_takes {s : State} {d : Directive} (h : s.Takes .restart d) :
    s.restartDirective = (s.popInlet.takeRestart d).finishOrHold := by
  unfold State.restartDirective
  rw [h.1]

/-- An alarm latched with room in the queue counts nothing, and adds at most one report. -/
theorem Reports.latch_room (rp : Reports) (a : Alarm) (hq : rp.queue.length < 32) :
    (rp.latch a).counters = rp.counters ∧ (rp.latch a).queue.length ≤ rp.queue.length + 1 ∧
      (rp.latch a).mask = rp.mask := by
  unfold Reports.latch
  split
  · simp
  · split
    · simp
    · split
      · simp
      · rw [Reports.enqueue_free { rp with latches := rp.latches ||| a.bit } _ hq]; simp

/-- An evaluation of the holding flag with room in the queue counts nothing, and adds at most one report. -/
theorem State.evalFlag_room (s : State) (hq : s.reports.queue.length < 32) :
    s.evalFlag.reports.counters = s.reports.counters ∧
      s.evalFlag.reports.queue.length ≤ s.reports.queue.length + 1 ∧ s.evalFlag.reports.mask = s.reports.mask := by
  unfold State.evalFlag
  split
  · simp
  · dsimp only
    split
    · exact Reports.latch_room _ _ hq
    · simp

/-- The finish leaves every counter at 0 and keeps the mask (R171, step 3). -/
theorem State.finishRestart_counters (s : State) (h : RestartHold) :
    (s.finishRestart h).reports.counters = Counters.zero ∧ (s.finishRestart h).reports.mask = s.reports.mask := by
  obtain ⟨c, q, m⟩ := s.emptyTables.evalFlag_room (show ([] : List Report).length < 32 by decide)
  have q' : s.emptyTables.evalFlag.reports.queue.length ≤ 1 := q
  have key : (s.emptyTables.evalFlag.replyRestart h).reports.counters = Counters.zero ∧
      (s.emptyTables.evalFlag.replyRestart h).reports.queue.length ≤ 2 ∧
      (s.emptyTables.evalFlag.replyRestart h).reports.mask = s.reports.mask := by
    unfold State.replyRestart
    split
    · exact ⟨c, by omega, m⟩
    · rw [State.report_reports, Reports.enqueue_free _ _ (by omega)]
      exact ⟨c, by simp; omega, m⟩
  unfold State.finishRestart
  dsimp only
  rw [State.report_reports, Reports.enqueue_free _ _ (by omega)]
  exact ⟨key.1, key.2.2⟩

/-- Where the evaluation of the finish does not find the reserve cause newly present, the queue holds the reply and the
STARTED report alone, and no latch is set (R171). -/
theorem State.finishRestart_reports {s : State} (h : RestartHold)
    (hl : reservePresent s.intake.flow (s.tileCount - s.retiredCount) = true → s.intake.reserveCause = true) :
    (s.finishRestart h).reports
      = { s.reports with queue := h.reports s, latches := 0, owed := false, counters := Counters.zero } := by
  have he : s.emptyTables.evalFlag.reports = s.reports.afterRestart := by
    unfold State.evalFlag
    split
    · rfl
    · dsimp only
      rw [if_neg]
      · rfl
      · intro hc
        simp only [Bool.and_eq_true, Bool.not_eq_true'] at hc
        exact absurd (hl hc.1) (by rw [show s.intake.reserveCause = false from hc.2]; decide)
  have hs : (s.emptyTables.evalFlag.replyRestart h).startedReport .restart h.aborted
      = .started ⟨.restart, s.straps.size, s.tileCount, s.retiredCount, h.aborted⟩ := by
    simp [State.startedReport, State.tileCount, State.retiredCount, State.emptyTables]
  have hq : s.reports.afterRestart.queue.length < 32 := show ([] : List Report).length < 32 by decide
  unfold State.finishRestart
  dsimp only
  rw [hs, State.report_reports]
  unfold State.replyRestart RestartHold.reports
  cases h.quiet
  · rw [if_neg (by decide), State.report_reports, he,
      Reports.enqueue_free _ _ hq, Reports.enqueue_free _ _ (by simp [show s.reports.afterRestart.queue = [] from rfl])]
    rfl
  · rw [if_pos rfl, he, Reports.enqueue_free _ _ hq]
    rfl

/-- The holding flag after the finish (R38; R171, step 4). -/
theorem State.finishRestart_flag {s : State} (h : RestartHold) (hs : s.store.sweep = none) :
    s.FlagFollows (s.finishRestart h) s.intake.queue.length (s.tileCount - s.retiredCount) := by
  have e : (s.finishRestart h).intake = s.emptyTables.evalFlag.intake := by simp [State.finishRestart]
  have f := s.emptyTables.evalFlag_evaluated hs
  exact ⟨by rw [e]; exact f.raised, by rw [e]; exact f.lowered⟩

/-- What the finish leaves of Intake's queue, write slots and settings. -/
@[simp] theorem State.finishRestart_intake (s : State) (h : RestartHold) :
    (s.finishRestart h).intake.queue = s.intake.queue ∧ (s.finishRestart h).intake.slots = s.intake.slots ∧
    (s.finishRestart h).intake.flow = s.intake.flow := by
  simp [State.finishRestart]

/-- What a finish that is due leaves of the store's bytes and retired set, of Repair and of Intake. -/
@[simp] theorem State.finishIfDue_tables (s : State) :
    (s.finishIfDue).store.dram = s.store.dram ∧ (s.finishIfDue).store.retired = s.store.retired ∧
    (s.finishIfDue).repair.write = s.repair.write ∧ (s.finishIfDue).repair.engine = s.repair.engine ∧
    (s.finishIfDue).intake.queue = s.intake.queue ∧ (s.finishIfDue).intake.slots = s.intake.slots ∧
    (s.finishIfDue).intake.flow = s.intake.flow := by
  rcases s.finishIfDue_cases with ⟨e, -⟩ | ⟨h, -, -, e⟩
  · simp [e]
  · simp [e]

/-- The finish at the end of an event that began at `s` (R171). -/
theorem State.finishRestart_finished {s u : State} {low : Bool} (h : RestartHold) (hst : u.straps = s.straps)
    (hr : u.store.retired = s.store.retired) (hsw : u.store.sweep = none) (hf : u.intake.flow = s.intake.flow)
    (hm : u.reports.mask = s.reports.mask) (hsend : u.reports.sending = s.reports.sending)
    (hl : low = true → reservePresent u.intake.flow (u.tileCount - u.retiredCount) = true →
      u.intake.reserveCause = true) :
    s.RestartFinished (s.beginStep.settle (u.finishRestart h)) h low := by
  have ht : u.tileCount = s.tileCount := by simp [State.tileCount, hst]
  have hc : u.retiredCount = s.retiredCount := by simp [State.retiredCount, hr]
  have hrep : h.reports u = h.reports s := by simp [RestartHold.reports, hst, ht, hc]
  obtain ⟨c, m⟩ := u.finishRestart_counters h
  refine ⟨?_, by simp, by simp [hr], by simp [hr], by simp [c], by simp [m, hm], ?_, fun hlow => ?_⟩
  · unfold State.liveRecords
    rw [(State.settle_same _ _).2.2.2.2.1, (State.finishRestart_tables u h).2.2.1]
    rfl
  · unfold State.intakeTaking
    simp [hsw]
  · rw [ht, hc, hf] at hl
    have hl' : reservePresent u.intake.flow (u.tileCount - u.retiredCount) = true → u.intake.reserveCause = true := by
      rw [ht, hc, hf]
      exact fun h => hl (hlow h) h
    have e := State.finishRestart_reports h hl'
    rw [hrep] at e
    refine ⟨by simp [e], State.settle_owed (by rw [e]), fun hb => ?_, fun hi hq => ?_⟩
    · rw [State.settle_busy (by rw [e]; exact hsend ▸ hb), e]
      exact ⟨hsend, rfl⟩
    · have hne : ∃ r rest, h.reports s = r :: rest := by
        unfold RestartHold.reports
        split <;> exact ⟨_, _, rfl⟩
      obtain ⟨r, rest, hh⟩ := hne
      rw [hh] at e ⊢
      rw [State.settle_idle (s := s.beginStep) (r := r) (rest := rest) (by rw [e]; exact hsend.trans hi) hq (by rw [e])]
      have b := Reports.boundary_cons (rp := (u.finishRestart h).reports) (r := r) (rest := rest)
        (u.finishRestart h).intake.holding (u.finishRestart h).straps.crcInit (by rw [e])
      refine ⟨b.1, b.2.2.1.trans ?_⟩
      rw [Reports.owedReport_none (by rw [e])]
      simp

end Sys2Proof.Machine
end

