-- ==== Sys2Proof/Laws/Rows.lean ====
section
/-! SUPPORT. The rows of a line and band captures (R80 to R94): what the making of a slot's rows does, what a capture of a
band keeps, and what Prefetch's start leaves. -/

namespace Sys2Proof.Machine

open Sys2Proof (Byte)

/-! ## The verdict on the next row -/

/-- A row that has been completed ahead of its line is the one the line needs. -/
theorem Stream.verdict_ahead {u : Stream} {overrun : Bool} (h : u.ahead = some overrun) :
    u.verdict = .produced u.previous overrun { u with ahead := none } := by
  unfold Stream.verdict
  rw [h]

/-- A row that the bytes at hand complete is produced. -/
theorem Stream.verdict_completes {u : Stream} {row : List Byte} {overrun : Bool} {rest : List Byte}
    (ha : u.ahead = none) (hm : u.mode = .reading) (h : u.Completes row overrun rest) :
    u.verdict = .produced row overrun (u.afterRow row rest) := by
  unfold Stream.verdict Stream.judge
  rw [ha, hm]
  dsimp only
  rcases h with h | ⟨rfl, rfl, hs, op, ho, h⟩
  · rw [h]
  · rw [h]
    dsimp only
    rw [if_pos hs, if_pos ho]

/-- A row at or after the stream's end. -/
theorem Stream.verdict_atEnd {u : Stream} (h : u.AtEnd) : u.verdict = .ended := by
  obtain ⟨ha, h⟩ := h
  unfold Stream.verdict Stream.judge
  rw [ha]
  rcases h with h | h | ⟨h, ⟨r, he, hr⟩, hs⟩
  · rw [h]
  · rw [h]
  · rw [h]
    dsimp only
    rw [he]
    dsimp only
    rw [if_pos hs, if_neg (by simp [hr])]

/-- A row at or after the cut. -/
theorem Stream.verdict_atCut {u : Stream} (h : u.AtCut) : u.verdict = .cut := by
  obtain ⟨ha, h⟩ := h
  unfold Stream.verdict Stream.judge
  rw [ha]
  rcases h with h | ⟨h, ⟨r, he⟩, hs, hc⟩
  · rw [h]
  · rw [h]
    dsimp only
    rw [he]
    dsimp only
    rw [if_neg (by omega), if_pos hc]

/-- What a produced row leaves of a stream. -/
theorem Stream.afterRow_produces {u : Stream} (hm : u.mode = .reading) (ha : u.ahead = none) (row rest : List Byte) :
    u.Produces (u.afterRow row rest) row rest :=
  ⟨rfl, rfl, rfl, rfl, ⟨rfl, rfl, ha⟩, rfl, by simp [Stream.afterRow, hm]⟩

/-- Bytes left over after a produced row (R83). -/
theorem Stream.afterRow_leftover {u : Stream} (hm : u.mode = .reading) (row rest : List Byte) :
    (u.afterRow row rest).leftover = true
      ↔ u.rows + 1 = u.rowCount ∧ u.position + (u.buffer.length - rest.length) < u.length := by
  unfold Stream.leftover Stream.afterRow
  by_cases h : u.rows + 1 = u.rowCount <;> simp [h, hm]

/-! ## The rows of a capture -/

/-- The making of a LINE row. -/
theorem Capture.makeLineRow_makes (c c' : Capture) (h : c'.kind = c.makeLineRow.capture.kind) :
    c.MakesLineRow c' c.makeLineRow.row c.makeLineRow.faults := by
  refine ⟨fun st hk => ?_, fun u hk => ⟨fun o ha => ?_, fun b o rest ha hm hc => ?_, fun he => ?_, fun hc => ?_⟩⟩
  · rw [h]
    unfold Capture.makeLineRow
    rw [hk]
    exact ⟨rfl, hk, rfl⟩
  · rw [h]
    unfold Capture.makeLineRow
    rw [hk]
    dsimp only
    rw [Stream.verdict_ahead ha]
    refine ⟨rfl, rfl, ?_⟩
    simp [Stream.leftover]
  · refine ⟨u.afterRow b rest, ?_⟩
    rw [h]
    unfold Capture.makeLineRow
    rw [hk]
    dsimp only
    rw [Stream.verdict_completes ha hm hc]
    refine ⟨rfl, rfl, Stream.afterRow_produces hm ha b rest, ?_⟩
    simp only [Stream.afterRow_leftover hm]
  · rw [h]
    unfold Capture.makeLineRow
    rw [hk]
    dsimp only
    rw [Stream.verdict_atEnd he]
    exact ⟨rfl, rfl, by simp⟩
  · rw [h]
    unfold Capture.makeLineRow
    rw [hk]
    dsimp only
    rw [Stream.verdict_atCut hc]
    exact ⟨rfl, rfl, rfl⟩

/-- The making of a PICTURE row. -/
theorem Capture.makePictureRow_makes (c c' : Capture) (held : List Byte) (p : Nat)
    (h : c'.kind = (c.makePictureRow held p).capture.kind) :
    c.MakesPictureRow c' p held (c.makePictureRow held p).row.1 (c.makePictureRow held p).row.2
      (c.makePictureRow held p).faults := by
  refine ⟨fun st hk => ?_, fun u hk => ⟨fun hp ha => ?_, fun o ha => ?_, fun b o rest hp ha hm hc => ?_,
    fun hp he => ?_, fun hp hc => ?_⟩⟩
  · rw [h]
    unfold Capture.makePictureRow
    rw [hk]
    exact ⟨rfl, rfl, hk, rfl⟩
  · rw [h]
    unfold Capture.makePictureRow
    rw [hk]
    dsimp only
    rw [if_pos ⟨hp, ha⟩]
    exact ⟨rfl, rfl, hk, rfl⟩
  · rw [h]
    unfold Capture.makePictureRow
    rw [hk]
    dsimp only
    rw [if_neg (by simp [ha]), Stream.verdict_ahead ha]
    refine ⟨rfl, rfl, rfl, ?_⟩
    simp [Stream.leftover]
  · refine ⟨u.afterRow b rest, ?_⟩
    rw [h]
    unfold Capture.makePictureRow
    rw [hk]
    dsimp only
    rw [if_neg (by omega), Stream.verdict_completes ha hm hc]
    refine ⟨rfl, rfl, rfl, Stream.afterRow_produces hm ha b rest, ?_⟩
    simp only [Stream.afterRow_leftover hm]
  · rw [h]
    unfold Capture.makePictureRow
    rw [hk]
    dsimp only
    rw [if_neg (by omega), Stream.verdict_atEnd he]
    exact ⟨rfl, rfl, rfl, by simp⟩
  · rw [h]
    unfold Capture.makePictureRow
    rw [hk]
    dsimp only
    rw [if_neg (by omega), Stream.verdict_atCut hc]
    exact ⟨rfl, rfl, rfl, rfl⟩

/-- The making of a row keeps all of a capture but its stream. -/
theorem Capture.makeLineRow_same (c : Capture) :
    c.makeLineRow.capture = { c with kind := c.makeLineRow.capture.kind } := by
  unfold Capture.makeLineRow
  (repeat' split) <;> rfl

/-- The making of a row keeps all of a capture but its stream. -/
theorem Capture.makePictureRow_same (c : Capture) (held : List Byte) (p : Nat) :
    (c.makePictureRow held p).capture = { c with kind := (c.makePictureRow held p).capture.kind } := by
  unfold Capture.makePictureRow
  (repeat' split) <;> rfl

/-! ## Going on -/

/-- A capture goes on. -/
theorem Capture.goOn_goesOn (c : Capture) : c.GoesOn c.goOn := by
  unfold Capture.GoesOn Capture.goOn Capture.isFill
  cases hk : c.kind with
  | fill st =>
    dsimp only
    exact ⟨rfl, fun _ => rfl, fun u hu => by cases hu⟩
  | read u =>
    refine ⟨rfl, fun h => by simp at h, fun v hv => ?_⟩
    cases hv
    refine ⟨u.goOn, rfl, ?_⟩
    rcases u.goOn_cases with h | ⟨-, -, h⟩ | ⟨-, ha, row, o, rest, hc, h⟩
    · exact .inl h
    · exact .inr (.inl h)
    · exact .inr (.inr ⟨ha, row, o, rest, hc, h⟩)

/-- A capture that stays as it is. -/
theorem Capture.GoesOn.refl (c : Capture) : c.GoesOn c := ⟨rfl, fun _ => rfl, fun u hu => ⟨u, hu, .inl rfl⟩⟩

/-- A slot goes on. -/
theorem PageSlot.goOn_goesOn (ps : PageSlot) (j : Nat) : ps.GoesOn (ps.goOn j) := by
  unfold PageSlot.goOn
  split
  · exact ⟨rfl, .refl _, .refl _⟩
  · refine ⟨rfl, ps.line.goOn_goesOn, ?_⟩
    dsimp only
    split
    · exact .refl _
    · split
      · exact .refl _
      · exact ps.picture.goOn_goesOn

/-- A slot whose page is exhausted stays as it is. -/
theorem PageSlot.goOn_exhausted {ps : PageSlot} {j : Nat} (h : ps.height ≤ j) : ps.goOn j = ps := by
  unfold PageSlot.goOn
  rw [if_pos (by simp [PageSlot.ready, h])]

/-! ## Band captures (R87) -/

/-- A capture that has just been made: filled, or with a stream of which nothing has been read. -/
def Capture.Fresh (c : Capture) : Prop :=
  c.faulted = false ∧ c.marked = c.isFill ∧
    ∀ u, c.kind = .read u → ∃ length tiles rowWidth rowCount, 0 < length ∧ u = Stream.start length tiles rowWidth rowCount

/-- A stream of which nothing has been read waits, as it is. -/
theorem Stream.start_verdict {length : Nat} (h : 0 < length) (tiles : List Nat) (rowWidth rowCount : Nat) :
    (Stream.start length tiles rowWidth rowCount).verdict = .waiting (Stream.start length tiles rowWidth rowCount) := by
  have hs : ¬ (Stream.start length tiles rowWidth rowCount).slotCount ≤ 0 := by
    simp only [Stream.slotCount, segmentCount, ceilDiv, Stream.start]
    omega
  unfold Stream.verdict Stream.judge
  dsimp only [Stream.start] at hs ⊢
  simp only [eatBytes, if_neg hs]
  rfl

/-- A capture that has just been made has nothing to go on with. -/
theorem Capture.Fresh.goOn {c : Capture} (h : c.Fresh) : c.goOn = c := by
  unfold Capture.goOn
  cases hk : c.kind with
  | fill st => rfl
  | read u =>
    obtain ⟨n, ts, w, k, hn, rfl⟩ := h.2.2 u hk
    dsimp only
    unfold Stream.goOn
    rw [Stream.start_verdict hn, ← hk]

/-- A slot whose captures have just been made has nothing to go on with. -/
theorem PageSlot.goOn_fresh {ps : PageSlot} (hl : ps.line.Fresh) (hp : ps.picture.Fresh) (j : Nat) : ps.goOn j = ps := by
  unfold PageSlot.goOn
  split
  · rfl
  · rw [hl.goOn, hp.goOn]
    cases ps.picture.stream? <;> simp

/-- A capture of a layer has just been made. -/
theorem State.captureLayer_fresh (s : State) (r w h : Nat) (id : LayerId) (n : Nat) : (s.captureLayer r w h id n).Fresh := by
  have key : ∀ (l : LayerRecord) (a b : Nat) (u : Stream), readCaptureOf l a b = .read u →
      ∃ length tiles rowWidth rowCount, 0 < length ∧ u = Stream.start length tiles rowWidth rowCount := by
    intro l a b u hu
    unfold readCaptureOf at hu
    split at hu
    · rename_i hl
      cases hu
      exact ⟨_, _, _, _, hl, rfl⟩
    · cases hu
  refine ⟨rfl, ?_, fun u hu => ?_⟩
  · unfold State.captureLayer Capture.isFill
    rfl
  · unfold State.captureLayer at hu
    dsimp only at hu
    split at hu
    · cases hu
    · unfold captureKindOf at hu
      split at hu <;> first | exact key _ _ _ _ hu | cases hu

/-- The lines of a band that the page reaches (R6). -/
theorem bandLines_eq {height b : Nat} (h : 256 * b < height ∨ b = 0) : bandLines height b = min 256 (height - 256 * b) := by
  unfold bandLines bandCountOf ceilDiv
  split <;> omega

/-- What a capture of a layer keeps (R87). -/
theorem State.captureLayer_captures (s : State) (r w h : Nat) (id : LayerId) (n : Nat)
    (hb : 256 * id.band < h ∨ id.band = 0) : s.Captures r w h id (s.captureLayer r w h id n) := by
  obtain ⟨h1, h2, -⟩ := s.captureLayer_fresh r w h id n
  refine ⟨h1, h2, fun p l hp hl => ?_⟩
  have hk : (s.captureLayer r w h id n).kind = captureKindOf l (rowWidthOf id.kind w) (rowCountOf id.kind h id.band) := by
    unfold State.captureLayer
    rw [hp, Option.bind_some, hl]
  refine ⟨fun m hs hm hpos => ?_, fun h3 h4 => ?_⟩
  · have hread : captureKindOf l (rowWidthOf id.kind w) (rowCountOf id.kind h id.band)
        = readCaptureOf l (rowWidthOf id.kind w) (rowCountOf id.kind h id.band) := by
      unfold captureKindOf
      rcases hs with hs | hs <;> rw [hs]
    rw [hk, hread]
    unfold readCaptureOf LayerRecord.segments
    rw [hm, Option.getD_some, if_pos hpos]
    have hlines := bandLines_eq hb
    have hw : rowWidthOf id.kind w = match id.kind with | .line => (w + 7) / 8 | .picture => (w + 3) / 4 := by
      unfold rowWidthOf ceilDiv
      cases id.kind <;> rfl
    have hc : rowCountOf id.kind h id.band = match id.kind with
        | .line => min 256 (h - 256 * id.band) | .picture => (min 256 (h - 256 * id.band) + 3) / 4 := by
      unfold rowCountOf ceilDiv
      rw [hlines]
      cases id.kind <;> rfl
    rw [hw, hc]
    rfl
  · rw [hk]
    unfold captureKindOf
    cases hs : l.state <;> simp_all

/-- Both layers of a band are captured as they stand (R87). -/
theorem State.captureBand_captures (s : State) (ps : PageSlot) (ink : Ink) (b n : Nat)
    (hb : 256 * b < ps.height ∨ b = 0) : s.CapturesBand (s.captureBand ps ink b n) ink b :=
  ⟨s.captureLayer_captures ps.record ps.width ps.height ⟨ink, b, .line⟩ n hb,
    s.captureLayer_captures ps.record ps.width ps.height ⟨ink, b, .picture⟩ (n + 1) hb⟩

/-! ## The rows of a slot and the line they make (R86) -/

/-- What a slot's part in a page line gives: its rows and faults, and what it adds to the plate summary, the fill captures of
a newly entered band among it (R84, R94). -/
def slotGives (ps : PageSlot) (after : PageSlot) (n : Nat) : SlotGives :=
  let m := slotMade? (some ps) n
  let entered := m.isSome && after.cursor % 256 == 0 && decide (after.cursor < after.height)
  { rows := m.map (·.rows)
    faults := m.elim 0 (·.faults)
    lineMarked := m.elim 0 (·.newlyMarked) + (if entered && after.line.isFill then 1 else 0)
    pictureHeld := if entered && after.picture.isFill then 1 else 0
    newlyFaulted := m.elim 0 (·.newlyFaulted) }

/-- The making of a page line does to a slot what R86 says, whether the slot then goes on or not. -/
theorem State.enterBand_makesRows (s : State) (ps : PageSlot) (ink : Ink) (n serial : Nat) (e ps' : PageSlot)
    (he : e = s.enterBand ((slotMade? (some ps) n).elim ps (·.slot)) ink (slotMade? (some ps) n).isSome serial)
    (h : ps' = e ∨ ps' = e.goOn (n + 1)) : s.MakesRows ink n ps ps' (slotGives ps e n) := by
  by_cases hn : ps.height ≤ n
  · have hm : slotMade? (some ps) n = none := by
      unfold slotMade?
      dsimp only
      rw [if_pos hn]
    have he' : e = ps := by
      rw [he, hm]
      rfl
    rw [he'] at h ⊢
    refine ⟨fun _ => ⟨?_, ?_⟩, fun hlt => absurd hn (by omega)⟩
    · rcases h with h | h
      · exact h
      · rw [h]; exact PageSlot.goOn_exhausted (by omega)
    · unfold slotGives
      rw [hm]
      rfl
  · have hm : slotMade? (some ps) n = some (ps.makeRows n) := by
      unfold slotMade?
      dsimp only
      rw [if_neg hn]
    have he : e = s.enterBand (ps.makeRows n).slot ink true serial := by
      rw [he, hm]
      rfl
    unfold slotGives
    rw [hm]
    dsimp only [Option.elim, Option.isSome, Option.map]
    refine ⟨fun h => absurd h hn, fun _ => ⟨(ps.makeRows n).slot, (ps.makeRows n).rows, ps.line.makeLineRow.faults,
      (ps.picture.makePictureRow ps.held (n % 256 / 4)).faults, ?_⟩⟩
    have hbeq : ∀ r : LineRow, (r == LineRow.marked) = decide (r = .marked) := fun r => by
      cases r <;> rfl
    have hmark : (if ((ps.line.makeLineRow.row == LineRow.marked) && !ps.line.marked) = true then 1 else 0)
        = if ps.line.makeLineRow.row = .marked ∧ ps.line.marked = false then 1 else 0 := by
      rw [hbeq]
      simp
    have hcond : ((true && (ps.makeRows n).slot.cursor % 256 == 0 &&
        decide ((ps.makeRows n).slot.cursor < (ps.makeRows n).slot.height)) = true)
          ↔ ((n + 1) % 256 = 0 ∧ n + 1 < ps.height) := by
      simp [PageSlot.makeRows]
    refine ⟨Capture.makeLineRow_makes _ _ rfl, Capture.makePictureRow_makes _ _ _ _ rfl, rfl, ?_, ?_, rfl, rfl, ?_, ?_, ?_⟩
    · show ({ ps.line.makeLineRow.capture.afterFaults ps.line.makeLineRow.faults with
        marked := ps.line.marked || ((ps.line.makeLineRow.row == .marked) && !ps.line.marked) } : Capture) = _
      rw [Capture.makeLineRow_same, hbeq]
      unfold Capture.afterFaults
      dsimp only [PageSlot.makeRows]
      congr 1
      cases ps.line.marked
      · simp only [Bool.not_false, Bool.and_true, Bool.false_or]
        exact decide_eq_decide.mpr Iff.rfl
      · rfl
    · show (ps.picture.makePictureRow ps.held (n % 256 / 4)).capture.afterFaults _ = _
      rw [Capture.makePictureRow_same]
      rfl
    · simp [PageSlot.makeRows, Capture.becomesFaulted]
    · intro hne
      have hent : e = (ps.makeRows n).slot := by
        rw [he]
        unfold State.enterBand
        rw [if_neg (fun c => hne (hcond.mp c))]
      have hfalse : (true && (ps.makeRows n).slot.cursor % 256 == 0 &&
          decide ((ps.makeRows n).slot.cursor < (ps.makeRows n).slot.height)) = false := by
        rw [Bool.eq_false_iff]; exact fun c => hne (hcond.mp c)
      rw [hent] at h ⊢
      rw [hfalse]
      refine ⟨?_, ?_, by simp⟩
      · rcases h with h | h
        · rw [h]; exact ⟨rfl, .refl _, .refl _⟩
        · rw [h]; exact PageSlot.goOn_goesOn _ _
      · simp only [Bool.false_and, Bool.false_eq_true, if_false, Nat.add_zero]
        exact hmark
    · intro hen
      have hent : e = s.captureBand (ps.makeRows n).slot ink ((n + 1) / 256) serial := by
        rw [he]
        unfold State.enterBand
        rw [if_pos (hcond.mpr hen)]
        rfl
      have hfr : ∀ k, (s.captureBand (ps.makeRows n).slot ink ((n + 1) / 256) serial).goOn k
          = s.captureBand (ps.makeRows n).slot ink ((n + 1) / 256) serial := fun k =>
        PageSlot.goOn_fresh (s.captureLayer_fresh ..) (s.captureLayer_fresh ..) k
      rw [hent, hfr, or_self] at h
      rw [hent]
      have htrue : (true && (s.captureBand (ps.makeRows n).slot ink ((n + 1) / 256) serial).cursor % 256 == 0 &&
          decide ((s.captureBand (ps.makeRows n).slot ink ((n + 1) / 256) serial).cursor <
            (s.captureBand (ps.makeRows n).slot ink ((n + 1) / 256) serial).height)) = true := hcond.mpr hen
      rw [htrue, h]
      refine ⟨rfl, s.captureBand_captures _ ink _ serial (.inl ?_), ?_, ?_⟩
      · show 256 * ((n + 1) / 256) < ps.height
        omega
      · rw [Bool.true_and]
        exact congrArg (· + _) hmark
      · dsimp only
        rw [Bool.true_and]

/-- What going on leaves of the slots: they stand, or they go on with the page line of the next plate line. -/
theorem PrefetchJob.goOn_cases (j : PrefetchJob) (pl : Plate) :
    ∃ left right, j.goOn pl = { j with left, right } ∧
      (left = j.left ∨ left = j.left.goOn (j.nextLine - pl.margin)) ∧
      (right = j.right ∨ right = j.right.map fun ps => ps.goOn (j.nextLine - pl.margin)) := by
  unfold PrefetchJob.goOn
  split
  · exact ⟨_, _, rfl, .inl rfl, .inl rfl⟩
  · exact ⟨_, _, rfl, .inr rfl, .inr rfl⟩

/-- The faults of a line count, saturating, and latch UNPACK_FAULT (R84, R177). -/
theorem State.unpackFaults_counts (n : Nat) (s : State) :
    (0 < n → (State.unpackFaults n s).reports.counters.unpackFaults
      = min 65535 (s.reports.counters.unpackFaults + n)) ∧
    (0 < n ∨ s.reports.latched .unpackFault = true → (State.unpackFaults n s).reports.latched .unpackFault = true) := by
  induction n generalizing s with
  | zero => simp [State.unpackFaults]
  | succ n ih =>
    obtain ⟨h1, h2, -⟩ := State.countLatch s .unpackFaults .unpackFault (by decide)
    obtain ⟨g1, g2⟩ := ih ((s.count .unpackFaults).latch .unpackFault)
    refine ⟨fun _ => ?_, fun _ => g2 (.inr h1)⟩
    have h2 : ((s.count .unpackFaults).latch .unpackFault).reports.counters.unpackFaults
        = min 65535 (s.reports.counters.unpackFaults + 1) := h2
    show (State.unpackFaults n ((s.count .unpackFaults).latch .unpackFault)).reports.counters.unpackFaults = _
    by_cases hn : n = 0
    · subst hn
      exact h2
    · rw [g1 (by omega), h2]
      omega

/-- A line is placed in the pool and the plate context. -/
theorem State.placeLine_drive (s : State) (pl : Plate) (j : PrefetchJob) (sm : Summary) (line : Line) :
    (s.placeLine pl j sm line).drive
      = { s.drive with pool := s.drive.pool ++ [line], plate := some { pl with summary := sm } } := rfl

/-- What the captures of a newly entered band add to the summary, count by count. -/
theorem Summary.entered_eq (sm : Summary) (ps : PageSlot) (made : Bool) :
    sm.entered ps made = { sm with
      lineMarked := sm.lineMarked
        + (if (made && ps.cursor % 256 == 0 && decide (ps.cursor < ps.height)) && ps.line.isFill then 1 else 0)
      pictureHeld := sm.pictureHeld
        + (if (made && ps.cursor % 256 == 0 && decide (ps.cursor < ps.height)) && ps.picture.isFill then 1 else 0) } := by
  unfold Summary.entered Summary.addFills
  by_cases h : (made && ps.cursor % 256 == 0 && decide (ps.cursor < ps.height)) = true
  · rw [if_pos h, h]; rfl
  · rw [if_neg h, Bool.eq_false_iff.mpr h]; rfl

/-- An image line is made (R86): the rows of both slots make the line and its place in the pool, and the summary, the
counter and the slots take what their making gives. -/
theorem State.makeImageLine_makes (s : State) (pl : Plate) (j : PrefetchJob) (hy : pl.margin ≤ j.nextLine) :
    ∃ gl gr j', (s.makeImageLine pl j).prefetch.job = some j' ∧
      j' = { j with nextLine := j.nextLine + 1, left := j'.left, right := j'.right } ∧
      s.MakesRows pl.ink (j.nextLine - pl.margin) j.left j'.left gl ∧
      (j.right = none → j'.right = none ∧ gr = ⟨none, 0, 0, 0, 0⟩) ∧
      (∀ ps, j.right = some ps → ∃ ps', j'.right = some ps' ∧
        s.MakesRows pl.ink (j.nextLine - pl.margin) ps ps' gr) ∧
      (s.makeImageLine pl j).drive = { s.drive with
        pool := s.drive.pool ++ [imageLine pl (s.screener.screenTable pl.settings.screen)
          (s.screener.curveTable pl.settings.curve) gl.rows gr.rows j.nextLine]
        plate := some { pl with summary := { pl.summary with
          lineMarked := pl.summary.lineMarked + gl.lineMarked + gr.lineMarked
          pictureHeld := pl.summary.pictureHeld + gl.pictureHeld + gr.pictureHeld
          unpackFaults := pl.summary.unpackFaults + gl.newlyFaulted + gr.newlyFaulted } } } ∧
      (s.makeImageLine pl j).reports = (State.unpackFaults (gl.faults + gr.faults) s).reports := by
  have hnext : j.nextLine + 1 - pl.margin = j.nextLine - pl.margin + 1 := by omega
  have entered : ∀ (ps : PageSlot) (serial : Nat), ∃ e, e = s.enterBand
      ((slotMade? (some ps) (j.nextLine - pl.margin)).elim ps (·.slot)) pl.ink
      (slotMade? (some ps) (j.nextLine - pl.margin)).isSome serial := fun _ _ => ⟨_, rfl⟩
  obtain ⟨left, hleft⟩ := entered j.left s.prefetch.serial
  unfold State.makeImageLine
  dsimp only
  rw [State.placeLine_drive, ← hleft]
  cases hj : j.right with
  | none =>
    have hr : slotMade? none (j.nextLine - pl.margin) = none := rfl
    rw [hr]
    simp only [Option.elim_none, Option.map_none]
    obtain ⟨l', r', hgo, gl, gr⟩ :=
      PrefetchJob.goOn_cases { j with nextLine := j.nextLine + 1, left, right := none } pl
    dsimp only at gl gr
    rw [hnext] at gl
    refine ⟨slotGives j.left left (j.nextLine - pl.margin), ⟨none, 0, 0, 0, 0⟩, _, rfl, ?_, ?_, fun _ => ⟨?_, rfl⟩,
      by simp, ?_, ?_⟩
    · rw [hgo]
    · rw [hgo]
      exact s.enterBand_makesRows j.left pl.ink _ _ left l' hleft gl
    · rw [hgo]
      rcases gr with rfl | rfl <;> rfl
    · rw [Summary.entered_eq]
      simp [slotGives, Nat.add_assoc]
    · simp [slotGives, State.placeLine]
  | some ps =>
    obtain ⟨right, hright⟩ := entered ps (s.prefetch.serial + 2)
    simp only [Option.elim_some, Option.map_some, ← hright]
    obtain ⟨l', r', hgo, gl, gr⟩ :=
      PrefetchJob.goOn_cases { j with nextLine := j.nextLine + 1, left, right := some right } pl
    dsimp only at gl gr
    rw [hnext] at gl gr
    have gr' : ∃ q, r' = some q ∧ (q = right ∨ q = right.goOn (j.nextLine - pl.margin + 1)) := by
      rcases gr with rfl | rfl
      · exact ⟨_, rfl, .inl rfl⟩
      · exact ⟨_, rfl, .inr rfl⟩
    obtain ⟨q, rfl, gq⟩ := gr'
    refine ⟨slotGives j.left left (j.nextLine - pl.margin), slotGives ps right (j.nextLine - pl.margin), _, rfl, ?_, ?_,
      by simp, fun ps0 h => ?_, ?_, ?_⟩
    · rw [hgo]
    · rw [hgo]
      exact s.enterBand_makesRows j.left pl.ink _ _ left l' hleft gl
    · cases h
      rw [hgo]
      exact ⟨q, rfl, s.enterBand_makesRows ps pl.ink _ _ right q hright gq⟩
    · rw [Summary.entered_eq, Summary.entered_eq]
      simp [slotGives, Nat.add_assoc, Nat.add_left_comm]
    · simp [slotGives, State.placeLine]

/-! ## The lines of Prefetch's start (R85, R88) -/

/-- Both captures of a slot have just been made. -/
def PageSlot.Fresh (ps : PageSlot) : Prop := ps.line.Fresh ∧ ps.picture.Fresh

/-- A captured band has just been made. -/
theorem State.captureBand_fresh (s : State) (ps : PageSlot) (ink : Ink) (b n : Nat) : (s.captureBand ps ink b n).Fresh :=
  ⟨s.captureLayer_fresh .., s.captureLayer_fresh ..⟩

/-- A capture that has just been made is unread. -/
theorem Capture.Fresh.unread {c : Capture} (h : c.Fresh) : c.Unread := by
  intro u hu
  obtain ⟨_, _, _, _, hl, rfl⟩ := h.2.2 u hu
  exact ⟨rfl, rfl, hl, rfl, rfl, rfl, rfl⟩

/-- A slot past `n` page lines. -/
def PageSlot.past (ps : PageSlot) (n : Nat) : PageSlot := { ps with cursor := min ps.height n }

/-- The rows of a slot whose captures have just been made are ready only where both are filled, and their making advances
its cursor only (R88). -/
theorem PageSlot.past_made {ps : PageSlot} (h : ps.Fresh) {n : Nat} (hr : (ps.past n).ready n = true) :
    slotMade? (some (ps.past n)) n
      = if ps.height ≤ n then none else some ⟨ps.past (n + 1), ⟨.marked, ps.held⟩, 0, 0, 0⟩ := by
  unfold slotMade?
  dsimp only [PageSlot.past]
  split
  · rfl
  · rename_i hn
    simp only [PageSlot.ready, PageSlot.past, hn, decide_false, Bool.false_or, Bool.and_eq_true] at hr
    have hl := Capture.fill_of_lineReady h.1.unread hr.1
    have hp := Capture.fill_of_pictureReady h.2.unread hr.2
    have hm : ps.line.marked = true := h.1.2.1.trans hl
    unfold PageSlot.makeRows
    dsimp only
    rw [Capture.makeLineRow_fill hl, Capture.makePictureRow_fill hp, Nat.min_eq_right (by omega)]
    have hk : ({ ps.line with marked := true } : Capture) = ps.line := by rw [← hm]
    simp [Capture.afterFaults, Capture.becomesFaulted, hm, hk]

/-- A slot whose captures have just been made takes its part in a line (R86). -/
theorem State.enterBand_past (s : State) {ps : PageSlot} (h : ps.Fresh) {n : Nat} (hr : (ps.past n).ready n = true)
    (hn : n + 1 < 256) (ink : Ink) (serial : Nat) :
    s.enterBand ((slotMade? (some (ps.past n)) n).elim (ps.past n) (·.slot)) ink
        (slotMade? (some (ps.past n)) n).isSome serial = ps.past (n + 1) ∧
      (slotMade? (some (ps.past n)) n).elim 0 (·.faults) = 0 ∧
      (slotMade? (some (ps.past n)) n).elim 0 (·.newlyFaulted) = 0 ∧
      (slotMade? (some (ps.past n)) n).elim 0 (·.newlyMarked) = 0 ∧
      (slotMade? (some (ps.past n)) n).map (·.rows) = fillRows ps.height ps.held n ∧
      ∀ sm : Summary, sm.entered (ps.past (n + 1)) (slotMade? (some (ps.past n)) n).isSome = sm := by
  rw [PageSlot.past_made h hr]
  unfold fillRows
  by_cases hh : ps.height ≤ n
  · rw [if_pos hh, if_pos hh]
    refine ⟨?_, rfl, rfl, rfl, rfl, fun sm => rfl⟩
    show ps.past n = ps.past (n + 1)
    unfold PageSlot.past
    rw [Nat.min_eq_left hh, Nat.min_eq_left (by omega)]
  · rw [if_neg hh, if_neg hh]
    have hc : (ps.past (n + 1)).cursor % 256 ≠ 0 := by
      show min ps.height (n + 1) % 256 ≠ 0
      omega
    refine ⟨?_, rfl, rfl, rfl, rfl, fun sm => ?_⟩
    · show s.enterBand (ps.past (n + 1)) ink true serial = _
      unfold State.enterBand
      rw [if_neg (by simp [hc])]
    · show sm.entered (ps.past (n + 1)) true = sm
      unfold Summary.entered
      rw [if_neg (by simp [hc])]

/-- The job of a plate that Prefetch has just started, past `y` plate lines. -/
def PrefetchJob.past (j : PrefetchJob) (margin y : Nat) : PrefetchJob :=
  { j with nextLine := y, left := j.left.past (y - margin), right := j.right.map (·.past (y - margin)) }

/-- Plate line `y` of slots whose captures are all filled (R88, R98, R99). -/
def State.fillLine (s : State) (pl : Plate) (j : PrefetchJob) (y : Nat) : Line :=
  if y < pl.margin then marginLine pl
  else
    imageLine pl (s.screener.screenTable pl.settings.screen) (s.screener.curveTable pl.settings.curve)
      (fillRows j.left.height j.left.held (y - pl.margin))
      (j.right.bind fun ps => fillRows ps.height ps.held (y - pl.margin)) y

/-- A line that can be made of slots whose captures have just been made (R85, R86, R88): they are filled, and it changes
the pool and the cursors only. -/
theorem State.makeLine_past {s : State} {pl : Plate} {j : PrefetchJob} {y : Nat} (hp : s.drive.plate = some pl)
    (hj : s.prefetch.job = some (j.past pl.margin y)) (hl : j.left.Fresh) (hr : ∀ ps, j.right = some ps → ps.Fresh)
    (hy : y + 1 < 256) (hc : s.canMakeLine = true) :
    s.makeLine.drive = { s.drive with pool := s.drive.pool ++ [s.fillLine pl j y] } ∧
      s.makeLine.prefetch.job = some (j.past pl.margin (y + 1)) ∧ s.makeLine.screener = s.screener := by
  have fresh : ∀ {ps : PageSlot} (_ : ps.Fresh) (k n : Nat), (ps.past k).goOn n = ps.past k := fun {ps} h k n =>
    PageSlot.goOn_fresh (ps := ps.past k) h.1 h.2 n
  have goOn : ∀ k, (j.past pl.margin k).goOn pl = j.past pl.margin k := by
    intro k
    unfold PrefetchJob.goOn
    split
    · rfl
    · unfold PrefetchJob.past
      dsimp only
      rw [fresh hl]
      cases hjr : j.right with
      | none => rfl
      | some ps => rw [Option.map_some, Option.map_some, fresh (hr ps hjr)]
  have hdrive : { s.drive with plate := some pl } = s.drive := by rw [← hp]
  unfold State.canMakeLine at hc
  rw [hp, hj] at hc
  simp only [Bool.and_eq_true, Bool.or_eq_true, decide_eq_true_eq] at hc
  unfold State.makeLine State.fillLine
  rw [hp, hj]
  dsimp only
  by_cases hm : y < pl.margin
  · have hpast : ({ j.past pl.margin y with nextLine := y + 1 } : PrefetchJob) = j.past pl.margin (y + 1) := by
      unfold PrefetchJob.past
      rw [show y - pl.margin = y + 1 - pl.margin by omega]
    rw [if_pos (show (j.past pl.margin y).nextLine < pl.margin from hm), if_pos hm]
    refine ⟨?_, ?_, rfl⟩
    · rw [State.placeLine_drive, ← hdrive]
    · show some (({ j.past pl.margin y with nextLine := y + 1 } : PrefetchJob).goOn pl) = _
      rw [hpast, goOn]
  · rw [if_neg (show ¬ (j.past pl.margin y).nextLine < pl.margin from hm), if_neg hm]
    have hready := hc.2.resolve_left hm
    have hn : y + 1 - pl.margin = y - pl.margin + 1 := by omega
    obtain ⟨a1, a2, a3, a4, a5, a6⟩ := s.enterBand_past hl hready.1 (by omega) pl.ink s.prefetch.serial
    have hdrive : ∀ line, ({ s.drive with pool := s.drive.pool ++ [line], plate := some pl } : Drive)
        = { s.drive with pool := s.drive.pool ++ [line] } := fun line => by rw [← hp]
    unfold State.makeImageLine
    cases hjr : j.right with
    | none =>
      have hnone : slotMade? none (y - pl.margin) = none := rfl
      have hg := goOn (y + 1)
      simp only [PrefetchJob.past, hjr, hn, Option.map_none] at hg ⊢
      simp only [a1, a2, a3, a4, a5, a6, hnone, Option.elim_none, Option.map_none, Nat.add_zero, Option.bind_none]
      exact ⟨hdrive _, congrArg some hg, by simp [State.placeLine]⟩
    | some ps =>
      have hps : (ps.past (y - pl.margin)).ready (y - pl.margin) = true := by
        have := hready.2
        simpa only [PrefetchJob.past, hjr, Option.map_some] using this
      obtain ⟨b1, b2, b3, b4, b5, b6⟩ :=
        s.enterBand_past (hr ps hjr) hps (by omega) pl.ink (s.prefetch.serial + 2)
      have hg := goOn (y + 1)
      simp only [PrefetchJob.past, hjr, hn, Option.map_some] at hg ⊢
      simp only [a1, a2, a3, a4, a5, a6, b1, b2, b3, b4, b5, b6, Option.elim_some, Nat.add_zero, Option.bind_some]
      exact ⟨hdrive _, congrArg some hg, by simp [State.placeLine]⟩

/-- The lines that can be made of slots whose captures have just been made. -/
theorem State.makeLines_past (n : Nat) {s : State} {pl : Plate} {j : PrefetchJob} {y : Nat} (hp : s.drive.plate = some pl)
    (hj : s.prefetch.job = some (j.past pl.margin y)) (hl : j.left.Fresh) (hr : ∀ ps, j.right = some ps → ps.Fresh)
    (hy : y + n < 256) :
    ∃ m, (State.makeLines n s).drive
        = { s.drive with pool := s.drive.pool ++ (List.range m).map fun i => s.fillLine pl j (y + i) } ∧
      (State.makeLines n s).prefetch.job = some (j.past pl.margin (y + m)) := by
  induction n generalizing s y with
  | zero => exact ⟨0, by simp [State.makeLines], hj⟩
  | succ n ih =>
    unfold State.makeLines
    split
    · rename_i hc
      obtain ⟨h1, h2, h3⟩ := State.makeLine_past hp hj hl hr (by omega) hc
      obtain ⟨m, g1, g2⟩ := ih (s := s.makeLine) (y := y + 1) (by rw [h1]; exact hp) h2 (by omega)
      have hfill : ∀ k, s.makeLine.fillLine pl j k = s.fillLine pl j k := fun k => by
        unfold State.fillLine
        rw [h3]
      refine ⟨m + 1, ?_, ?_⟩
      · rw [g1, h1, List.range_succ_eq_map, List.map_cons, List.map_map, List.append_assoc]
        simp only [hfill, Nat.add_zero, List.singleton_append]
        congr 3
        exact List.map_congr_left fun i _ => by rw [Function.comp_apply]; congr 1; omega
      · rw [g2]
        congr 2
        omega
    · exact ⟨0, by simp, hj⟩

/-- The job that Prefetch starts with (R85, R87): line 0, each slot at cursor 0 with a held row of zeros and band 0
captured. -/
def State.startJob (s : State) (pl : Plate) : PrefetchJob :=
  { nextLine := 0
    left := s.captureBand (PageSlot.fresh pl.left) pl.ink 0 s.prefetch.serial
    right := pl.right.map fun p => s.captureBand (PageSlot.fresh p) pl.ink 0 (s.prefetch.serial + 2)
    firstSerial := s.prefetch.serial, storeFaulted := [] }

/-- What Prefetch's start and the lines it makes at once leave (R85, R86, R88, R94): the captures as they were made, the
cursors past the lines, and the lines of the slots whose captures are all filled. -/
theorem State.startPrefetch_event (s : State) (pl : Plate) :
    ∃ m sm, (s.startPrefetch pl).prefetchEvent.drive.plate = some { pl with summary := sm } ∧
      sm = (s.startJob pl).right.elim (pl.summary.addFills (s.startJob pl).left)
        (pl.summary.addFills (s.startJob pl).left).addFills ∧
      (s.startPrefetch pl).prefetchEvent.drive.pool
        = s.drive.pool ++ (List.range m).map (s.fillLine { pl with summary := sm } (s.startJob pl)) ∧
      (s.startPrefetch pl).prefetchEvent.prefetch.job = some ((s.startJob pl).past pl.margin m) := by
  obtain ⟨sm, hsm⟩ : ∃ sm, sm = (s.startJob pl).right.elim (pl.summary.addFills (s.startJob pl).left)
        (pl.summary.addFills (s.startJob pl).left).addFills := ⟨_, rfl⟩
  have hp : (s.startPrefetch pl).drive = { s.drive with plate := some { pl with summary := sm } } := by
    rw [hsm]
    unfold State.startPrefetch State.startJob
    cases pl.right <;> rfl
  have hj : (s.startPrefetch pl).prefetch.job = some ((s.startJob pl).past pl.margin 0) := by
    unfold State.startPrefetch PrefetchJob.past PageSlot.past State.startJob
    cases pl.right <;> simp [State.captureBand, PageSlot.fresh]
  obtain ⟨m, h1, h2⟩ := State.makeLines_past Config.poolCapacity (s := s.startPrefetch pl)
    (pl := { pl with summary := sm }) (y := 0) (by rw [hp]) hj (s.captureBand_fresh ..)
    (fun ps h => by obtain ⟨p, -, rfl⟩ := Option.map_eq_some_iff.mp h; exact s.captureBand_fresh ..) (by decide)
  simp only [Nat.zero_add] at h1 h2
  have key : ∀ {v : State}, (v.primeTest.drive.plate = v.drive.plate ∧ v.primeTest.drive.pool = v.drive.pool) ∧
      v.primeTest.prefetch = v.prefetch := by
    intro v
    unfold State.primeTest
    (repeat' split) <;> exact ⟨⟨rfl, rfl⟩, rfl⟩
  refine ⟨m, sm, ?_, hsm, ?_, ?_⟩
  · show (State.makeLines Config.poolCapacity (s.startPrefetch pl)).primeTest.drive.plate = _
    rw [key.1.1, h1, hp]
  · show (State.makeLines Config.poolCapacity (s.startPrefetch pl)).primeTest.drive.pool = _
    rw [key.1.2, h1, hp]
    rfl
  · show (State.makeLines Config.poolCapacity (s.startPrefetch pl)).primeTest.prefetch.job = _
    rw [key.2, h2]

end Sys2Proof.Machine
end

