-- ==== Sys2Proof/Tests/Slice0.lean ====
section
/-! SUPPORT. Tests of the model: facts of the spec's text checked on small states, and for every statement with
hypotheses a named theorem that shows a state and operands which meet them. Expected values come from the spec. -/

namespace Sys2Proof.Tests

open Sys2Proof Sys2Proof.Machine

/-! ## Small states -/

/-- The block after a sweep, with an idle lane and an empty queue. -/
def up : State :=
  { State.reset with
    store := { State.reset.store with sweep := none, dram := ⟨32768, []⟩ }
    intake := { State.reset.intake with holding := false }
    reports := { State.reset.reports with awaitStarted := false, lastSymbol := some .resume, sent := [] } }

/-- The same, with a report being sent. -/
def busy : State := { up with reports := { up.reports with sending := some (.reply 0 0 none []) } }

/-- A directive parcel from byte values. -/
def directive (code tag : Nat) (payload : List Nat) : Parcel := .directive 0 code tag (payload.map byteOf)

/-- A directive as the Directive unit has it. -/
def directiveArgs (code tag : Nat) (payload : List Nat) : Directive := ⟨0, code, tag, payload.map byteOf⟩

/-- A state with one parcel in the inlet queue. -/
def withParcel (p : Parcel) (s : State) : State := { s with intake := { s.intake with queue := [p] } }

/-- A state at which a directive is to be taken. -/
def asked (code tag : Nat) (payload : List Nat) (s : State) : State := withParcel (directive code tag payload) s

/-- A directive that is QUIET at the queue head. -/
def askedQuiet (code tag : Nat) (payload : List Nat) (s : State) : State :=
  withParcel (.directive 1 code tag (payload.map byteOf)) s

/-- The LINE layer of band 0 of ink K. -/
def lineK : LayerId := ⟨.k, 0, .line⟩

/-- An OPEN page of one band with the ink K: id 5, version 1, 64 dots by 4 lines. -/
def page5 : PageRecord :=
  ⟨5, 1, .opened, 64, 4, 1, 1, 0, 0, false, false, (layerIds 1 1).map LayerRecord.fresh⟩

/-- A state with a page in record 0. -/
def withPage (p : PageRecord) (s : State) : State := s.setPage 0 (some p)

/-- A segment header of page 5: ink K, band 0, LINE, segment 0, a layer of one byte. -/
def head5 : SegHeader := ⟨5, 1, 0, 0, 0, 0, 0⟩

/-- A ticket for page 5. -/
def ticket7 : Ticket := ⟨7, .k, 0, 0, ⟨5, none⟩, none, .holdForRepair, .armed, some ⟨0, 1⟩, none⟩

/-- A screen of one threshold. -/
def screen1 : ScreenTable := ⟨1, 1, 0, [128]⟩

/-- A plate of page 5. -/
def plate7 : Plate :=
  { tag := 7, ink := .k, margin := 0, gutter := 0, left := ⟨0, 1, 64, 4⟩, right := none, settings := ⟨0, 0, 0, 255⟩
    headWidth := 1024, lineCount := 4, summary := ⟨0, 0, 0, 0, false⟩, requested := 0, sent := 0, transfer := none }

/-- The drive with the plate in context. -/
def imaging (pl : Plate) (pool : List Line) (s : State) : State :=
  { s with
    schedule := [{ ticket7 with state := .imaging }]
    drive := { s.drive with state := .imaging, plateReady := true, plate := some pl, pool } }

/-- A write into the LINE layer of page 5. -/
def write5 : StoreWrite := ⟨⟨0, lineK⟩, .segment 0, 0, 0, [0xAA]⟩

/-- A state with that write in write slot 0 and in service. -/
def writing (p : PageRecord) (s : State) : State :=
  { withPage p s with
    intake := { s.intake with slots := s.intake.slots.set 0 (some write5) }
    store := { s.store with inService := some (.write (.intake 0)), poolOut := [0] } }

/-- A read of slot 0 of tile 3 for Repair. -/
def read3 : StoreRead := ⟨.repair, 3, 0, [0]⟩

/-- A page slot of page 5 whose layers are filled as damaged. -/
def slot5 : PageSlot :=
  { record := 0, width := 64, height := 4, cursor := 0, line := ⟨0, .fill .damaged, false, false⟩
    picture := ⟨1, .fill .damaged, false, false⟩, held := [] }

/-- A plate in context with Prefetch at work on it. -/
def making (pl : Plate) (slot : PageSlot) (nextLine : Nat) : State :=
  { imaging pl [] up with prefetch := ⟨4, some ⟨nextLine, slot, none, 0, []⟩⟩ }

/-- The stream of a LINE layer of one byte in tile 3. -/
def stream5 : Stream := Stream.start 1 [3] 8 4

/-- Prefetch reads a stream for the LINE layer of the left slot, with the pool full. -/
def fetchingFor (u : Stream) (s : State) : State :=
  { imaging plate7 (List.replicate 64 [true]) s with
    prefetch := ⟨4, some ⟨0, { slot5 with line := ⟨0, .read u, false, false⟩ }, none, 0, []⟩⟩ }

/-- Prefetch has read for that stream, with the pool full. -/
def fetching (s : State) : State := fetchingFor { stream5 with issued := 1 } s

/-- Its read of slot 0 of tile 3. -/
def fetch3 : StoreRead := ⟨.prefetch .left .line 0, 3, 0, [0]⟩

/-- A screen load of slot 2 with `n` of 4 thresholds stored. -/
def loading (n : Nat) (s : State) : State :=
  { s with screener := { s.screener with
      screens := s.screener.screens.set 2 (.loading ⟨2, 2, 0, List.replicate n 9⟩), load := some ⟨2, n⟩ } }

/-- The next state of a step that completes. -/
def nextOf : Host.Outcome State Fault Refusal → Option State
  | .next t => some t
  | .fault _ => none
  | .refused _ => none

/-- The fault of a step that stops. -/
def faultOf : Host.Outcome State Fault Refusal → Option Fault
  | .next _ => none
  | .fault f => some f
  | .refused _ => none

/-! ## Well-formed commands, and what the table spells -/

/-- A slot beyond the 16 of a tile, as the place of a fault or as the place it gives (R43). -/
theorem test_fault_slot_16_refused :
    (Instr.storeReadCompletion [.code 15 0, .code 16 0]).wellFormed = false ∧
      (Instr.sweepTileTest ⟨[], [.place 0 7 16]⟩).wellFormed = false := by decide

/-- A slot is 256 bytes (R43). -/
theorem test_fault_short_slot_refused : (Instr.sweepTileTest ⟨[.bytes 0 []], []⟩).wellFormed = false := by decide

theorem test_fault_slot_15_accepted :
    (Instr.storeReadCompletion [.code 15 0, .place 0 7 15]).wellFormed = true := by decide

theorem test_no_word_spells_a_command : decodeTableWord 8 0 = none ∧ up.withFetchWord 8 0 = up := by decide

/-! ## Facts of the spec's text -/

/-- The nine bytes "123456789" and the two initial values (R26). -/
theorem test_crc_known_values :
    crc16 0xFFFF ([49, 50, 51, 52, 53, 54, 55, 56, 57].map byteOf) = 0x29B1 ∧
      crc16 0 ([49, 50, 51, 52, 53, 54, 55, 56, 57].map byteOf) = 0x31C3 := by decide +kernel

/-- The worked band geometry: a page 5000 dots wide and 6000 lines high (R5, R6). -/
theorem test_band_geometry :
    bandCountOf 6000 = 24 ∧ bandLines 6000 23 = 112 ∧ rowWidthOf .line 5000 = 625 ∧ rowWidthOf .picture 5000 = 1250 ∧
      rowCountOf .picture 6000 23 = 28 := by decide

/-- The worked LINE row of 8 bytes (R80). -/
theorem test_unpack_worked_row :
    eatBytes 8 (List.replicate 8 0) ⟨[], .code⟩ [0x81, 0, 1, 0xAA, 0x55, 0xFF, 0]
      = .complete [0, 0, 0, 0, 0xAA, 0x55, 0, 0] false [] := by decide

/-- The row that follows it, packed as a vertical copy of 8 (R80). -/
theorem test_unpack_vertical_copy :
    eatBytes 8 [0, 0, 0, 0, 0xAA, 0x55, 0, 0] ⟨[], .code⟩ [0xFE, 7]
      = .complete [0, 0, 0, 0, 0xAA, 0x55, 0, 0] false [] := by decide

/-- A literal of 3 at a row of 2 overruns: the row keeps 2 bytes, and it is complete once the third operand byte, which
has no effect, is consumed too (R81, R92). -/
theorem test_unpack_overrun :
    eatBytes 2 [0, 0] ⟨[], .code⟩ [2, 1, 2, 3] = .complete [1, 2] true [] := by decide

/-- The damage mark is on for 8 of every 64 along a diagonal (R106). -/
theorem test_damage_mark : damageMark 0 0 = true ∧ damageMark 7 0 = true ∧ damageMark 7 1 = false ∧
    damageMark 63 1 = true := by decide

/-- Floor and ceiling do not reach 0 and 255 (R103). -/
theorem test_toned_ends : toned 10 200 0 = 0 ∧ toned 10 200 255 = 255 ∧ toned 10 200 1 = 10 ∧ toned 10 200 254 = 200 := by
  decide

/-- The worked LINE band: row 2 copies 4 bytes and is overrun by its run (5.2). -/
theorem test_unpack_worked_overrun :
    eatBytes 8 [0, 0, 0, 0, 0xAA, 0x55, 0, 0] ⟨[], .code⟩ [0xFE, 3, 0x84, 0xFF, 0xFF, 0x0F, 0, 0]
      = .complete [0, 0, 0, 0, 0xFF, 0xFF, 0xFF, 0xFF] true [0xFF, 0x0F, 0, 0] := by decide

/-- The same 13 bytes as a PICTURE row of 16: six bytes are left over (5.2). -/
theorem test_unpack_worked_picture :
    eatBytes 16 (List.replicate 16 0) ⟨[], .code⟩ [0x81, 0, 1, 0xAA, 0x55, 0xFF, 0, 0xFE, 7, 0xFE, 3, 0x84, 0xFF]
      = .complete [0, 0, 0, 0, 0xAA, 0x55, 0, 0, 0, 0, 0, 0, 0, 0, 0, 0] false [0xFE, 7, 0xFE, 3, 0x84, 0xFF] := by
  decide

/-- Page line 0 is to be made, with a LINE stream in the left slot and a PICTURE stream in it or in the other. -/
def heldUp (sameSlot : Bool) : State :=
  let line : Capture := ⟨0, .read { Stream.start 512 [3] 8 4 with issued := 2 }, false, false⟩
  let picture : Capture := ⟨1, .read { Stream.start 512 [4] 16 1 with issued := 2 }, false, false⟩
  let left := { slot5 with line }
  { making plate7 slot5 0 with prefetch := ⟨4, some ⟨0, if sameSlot then { left with picture } else left,
      if sameSlot then none else some { slot5 with picture }, 0, []⟩⟩ }

/-- The LINE stream after a read of it has passed: its rows, its position, its bytes at hand and what is completed
ahead. -/
def lineAfterRead (s : State) : Option (Nat × Nat × Nat × Option Bool) :=
  (((s.prefetchPassed .left .line 0 [List.replicate 256 0xFF]).captureOf .left .line).bind Capture.stream?).map
    fun u => (u.rows, u.position, u.buffer.length, u.ahead)

/-- A LINE row that is at hand while its slot's PICTURE row waits is completed ahead of the line: its two bytes are
consumed. With the PICTURE row of the other slot alone waiting, it is left (R86, R91). -/
theorem test_row_completed_ahead :
    lineAfterRead (heldUp true) = some (1, 2, 254, some false) ∧
      lineAfterRead (heldUp false) = some (0, 0, 256, none) := by
  decide +kernel

/-- Half of a LINE row is placed, with a read of its stream outstanding. -/
def halfBuilt : Stream :=
  { Stream.start 512 [3] 8 4 with issued := 2, arrived := 1, position := 256, placed := List.replicate 4 0 }

/-- The row under construction goes on with the bytes of a passed read though the pool is full and nothing else holds up
its line: it is completed, and its two bytes are consumed (R91). -/
theorem test_row_built_on : lineAfterRead (fetchingFor halfBuilt up) = some (1, 258, 254, some false) := by decide +kernel

/-- Two pages side by side (6.5). -/
theorem test_worked_geometry :
    plateLineCount 120 6000 (some 5800) = 6120 ∧ contentWidth 8200 100 (some 8200) = 16500 := by decide

/-- One dot and the limits (6.6): the screen positions. -/
theorem test_worked_threshold_positions :
    thresholdPosition ⟨20, 20, 7, []⟩ 1000 250 = 204 ∧ thresholdPosition ⟨256, 1, 255, []⟩ 32767 28670 = 1 := by decide

/-- One dot and the limits (6.6): the toned values. -/
theorem test_worked_toned :
    toned 8 240 0 = 0 ∧ toned 8 240 3 = 8 ∧ toned 8 240 92 = 92 ∧ toned 8 240 250 = 240 ∧ toned 8 240 255 = 255 ∧
      toned 120 120 1 = 120 ∧ toned 120 120 254 = 120 := by decide

/-- A marked LINE row on line 250 (6.7). -/
theorem test_worked_mark :
    damageMark 5 250 = false ∧ damageMark 6 250 = true ∧ damageMark 13 250 = true ∧ damageMark 14 250 = false ∧
      damageMark 1000 250 = false ∧ damageMark 1030 250 = true ∧ damageMark 5 251 = true := by decide

/-- The flow-control excursion (2.11): the flag at steps 1, 2, 7 and 8, and with a freeing of 250 tiles only. -/
theorem test_worked_holding :
    holdingAfter .default false 63 258 = false ∧ holdingAfter .default false 64 258 = true ∧
      holdingAfter .default true 32 216 = true ∧ holdingAfter .default true 31 526 = false ∧
      holdingAfter .default true 31 466 = true ∧ reservePresent .default 257 = false ∧
      reservePresent .default 256 = true := by decide

/-- A lane that is sending, with a full report queue. -/
def fullLane : State := { busy with reports := { busy.reports with queue := List.replicate 32 (.reply 1 1 none []) } }

/-- Alarms at a full report queue (11.5): a dropped report, then a dropped ALARM report. -/
theorem test_worked_full_queue :
    ((fullLane.report (.reply 2 2 none [])).reports.latches, (fullLane.report (.reply 2 2 none [])).reports.owed,
        (fullLane.report (.reply 2 2 none [])).reports.counters.reportsLost) = (0x2000, true, 1) ∧
      (((fullLane.report (.reply 2 2 none [])).latch .tileRetired).reports.latches,
        ((fullLane.report (.reply 2 2 none [])).latch .tileRetired).reports.counters.reportsLost) = (0x2040, 2) := by
  decide

/-- The third row of 11.5: the next sending frees a place, which the owed ALARM report takes. -/
theorem test_worked_owed_joins :
    (nextOf (exec (.reportParcelEnd false) ((fullLane.report (.reply 2 2 none [])).latch .tileRetired))).map
        (fun t => (t.reports.queue.length, t.reports.queue.getLast?, t.reports.owed))
      = some (32, some (.alarm 0x2040 0), false) := by decide +kernel

/-- A cause taken first at the freeing of a place (R178): its own report takes the place, and a report stays owed. -/
theorem test_cause_taken_first :
    (nextOf (exec (.reportParcelEnd true) ((fullLane.report (.reply 2 2 none [])).latch .tileRetired))).map
        (fun t => (t.reports.queue.length, (t.latch .headHalt).reports.queue.length,
          (t.latch .headHalt).reports.queue.getLast?, (t.latch .headHalt).reports.owed))
      = some (31, 32, some (.alarm 0x2840 0), true) := by decide +kernel

/-- The order of R58: STARTED, the ALARM report owed from before, and that of TILE_RETIRED. -/
theorem test_sweep_end_order :
    let s := { State.reset with
      store := { State.reset.store with sweep := none, retired := [5], poolOut := [5] }
      reports := { State.reset.reports with latches := 0x800, owed := true, sent := [] } }
    (s.endSweep.reports.sending, s.endSweep.reports.queue, s.endSweep.reports.owed, s.endSweep.intake.holding)
      = (some (.started ⟨.powerOn, .mib128, 32768, 1, none⟩), [.alarm 0x800 0, .alarm 0x840 0], false, false) := by
  decide +kernel

/-! ## Reset -/

theorem test_reset_sweeps : State.reset.store.sweep = some 0 ∧ State.reset.intakeTaking = false ∧
    State.reset.reports.sent = [.symbol .hold] ∧ State.reset.intake.flow = ⟨64, 32, 256, 512, 4⟩ := by decide

theorem test_reset_tiles : State.reset.tileCount = 32768 ∧ State.reset.freeCount = 32768 ∧
    State.reset.lowestFree = some 0 := by decide

theorem test_reset_idles : nextOf (step up) = some up := by decide

/-! ## Single steps -/

theorem test_start_marker_then_byte :
    nextOf (exec (.dataByteArrival 3) { up with framer := ⟨true, [], some 4⟩ })
      = some { up with framer := ⟨true, [3], some 4⟩ } := by decide

theorem test_unknown_kind_dropped :
    (nextOf (exec (.headerMalformedDrop 4) { busy with framer := ⟨true, [], some 4⟩ })).map
      (fun t => (t.framer.assembling, t.reports.counters.malformed, t.reports.queue))
      = some (false, 1, [.alarm 4 0]) := by decide

theorem test_fill_point_in_refusal :
    (nextOf (exec .screenData (loading 1 (asked 0x22 9 [0, 3, 0] busy)))).map
      (fun t => t.reports.queue)
      = some [.reply 9 0x22 (some .outOfOrder) [0, 0, 0, 1]] := by decide

theorem test_raised_threshold :
    (nextOf (exec .screenData (loading 1 (asked 0x22 9 [0, 1, 0, 7] busy)))).map
      (fun t => (t.screener.screen 2, t.reports.counters.thresholdsRaised, t.reports.queue))
      = some (.loading ⟨2, 2, 0, [9, 1, 7]⟩, 1, [.reply 9 0x22 none [0, 0, 0, 3, 0, 1]]) := by decide

theorem test_identify_names_the_part :
    (nextOf (exec .identify (asked 0x51 9 [] busy))).map
      (fun t => t.reports.queue)
      = some [.reply 9 0x51 none [0x4B, 0x43, 0x62, 0x40, 1, 0, 0, 0, 0x80, 0, 0, 0, 0, 0, 48, 16, 6, 8, 0xFF,
        0xFF]] := by decide

theorem test_open_page_reply :
    (nextOf (exec .openPage (asked 0x01 9 [0, 5, 1, 0, 64, 0, 4, 1] busy))).map
      (fun t => (t.page? 0, t.reports.queue))
      = some (some page5, [.reply 9 0x01 none [0, 1]]) := by decide

theorem test_quiet_directive_has_no_reply :
    (nextOf (exec .openPage (withParcel (.directive 1 0x01 9 ([0, 5, 1, 0, 64, 0, 4, 1].map byteOf)) busy))).map
      (fun t => (t.page? 0, t.reports.queue))
      = some (some page5, []) := by decide

theorem test_segment_takes_tile_zero :
    (nextOf (exec .takeSegmentParcel (withParcel (.data false 0 head5 [0xAA]) (withPage page5 up)))).map
      (fun t => (t.store.poolOut, t.store.inService, (t.page? 0).map (·.pendingWrites)))
      = some ([0], some (.write (.intake 0)), some 1) := by decide

theorem test_halt_pulse_of_four :
    (nextOf (exec .haltRequest { busy with drive := { busy.drive with haltRun := 4, lastSample := true } })).map
      (fun t => (t.drive.state, t.drive.haltRun, t.reports.queue))
      = some (.halted, 0, [.alarm 0x800 0]) := by decide

theorem test_early_line_request :
    (nextOf (exec .lineReq { up with drive := { up.drive with state := .priming } })).map
      (fun t => t.reports.counters.earlyLineRequests)
      = some 1 := by decide

theorem test_restart_refuses_nothing :
    (directiveArgs 0x5F 9 [1, 2, 3]).refusal = none ∧ (directiveArgs 0x5F 9 []).refusal = none := by decide

/-- A RESTART that finds no write in flight finishes at its taking, whatever payload it carries (R166, R170). -/
theorem test_restart_finishes_at_taking :
    (nextOf (exec .restart (asked 0x5F 9 [1, 2] (withPage page5 busy)))).map
        (fun t => (t.restart, t.intakeTaking, t.page? 0, t.reports.queue))
      = some (none, true, none, [.reply 9 0x5F none [], .started ⟨.restart, .mib128, 32768, 0, none⟩]) := by decide

theorem test_write_beyond_store_stops :
    faultOf (exec (.storeReadCompletion [])
      { up with store := { up.store with inService := some (.read { read3 with tile := 32768 }) } })
      = some (.noSuchTile 32768) := by decide

/-! ## Witnesses: states and operands that meet the hypotheses of each statement, clause by clause -/

/-- A state whose Framer holds a buffer. -/
def assembling (buffer : List Byte) (s : State) : State := { s with framer := ⟨true, buffer, some 4⟩ }

theorem witness_StartMarkerBeginsParcel : up.framer.assembling = false ∧ (assembling [] up).framer.assembling = true := by
  decide

/-- The clauses at a buffer of three bytes, and at the last byte but one of an IDENTIFY parcel. -/
theorem witness_DataByteJoinsParcel :
    (assembling [3, 0] up).framer.assembling = true ∧
      kindHeaderSize (u8 ((assembling [3, 0] up).framer.buffer ++ [0]) 0) = some 3 ∧ [3, 0, 0].length < 4 ∧
      kindHeaderSize (u8 ((assembling [3, 0, 0, 0, 0x51, 0, 9] up).framer.buffer ++ [0xAB]) 0) = some 3 ∧
      u16 ([3, 0, 0, 0, 0x51, 0, 9] ++ [0xAB]) 2 ≤ 272 ∧
      ([3, 0, 0, 0, 0x51, 0, 9, 0xAB] : List Byte).length < 4 + 3 + u16 [3, 0, 0, 0, 0x51, 0, 9, 0xAB] 2 + 2 := by decide

/-- An unknown kind, and a payload length of 273. -/
theorem witness_HeaderMalformedDropsParcel :
    (assembling [] up).framer.assembling = true ∧ kindHeaderSize (u8 ([] ++ [0]) 0) = none ∧
      (assembling [1, 0, 1] up).framer.assembling = true ∧ 4 ≤ ([1, 0, 1, 17] : List Byte).length ∧
      272 < u16 ([1, 0, 1] ++ [17]) 2 := by decide

/-- The bytes of an IDENTIFY parcel that the CRC covers. -/
def identifyBytes : List Byte := [3, 0, 0, 0, 0x51, 0, 9]

/-- A state with `n` parcels in the inlet queue, and with the given flag, cause and marks. -/
def held (holding cause : Bool) (n : Nat) (f : FlowSettings) (s : State) : State :=
  { s with intake := { s.intake with
      holding, reserveCause := cause, flow := f, queue := List.replicate n (directive 0x51 9 []) } }

/-- A parcel of 9 bytes whose CRC is right with one last byte and wrong with another; the queue holds 0, 95 or 96. The flag
is met at the hold mark and one below it, at the resume mark and one above it, at the reserve high mark and one below it, at
the reserve low mark and one above it, and while the sweep runs. -/
theorem witness_CompleteParcelJoinsQueue :
    let trailer := be16 (crc16 0xFFFF identifyBytes).toNat
    (assembling (identifyBytes ++ trailer.take 1) up).framer.assembling = true ∧
      kindHeaderSize (u8 (identifyBytes ++ trailer) 0) = some 3 ∧ u16 (identifyBytes ++ trailer) 2 ≤ 272 ∧
      (identifyBytes ++ trailer).length = 4 + 3 + u16 (identifyBytes ++ trailer) 2 + 2 ∧
      crcInitValue up.straps.crcInit = 0xFFFF ∧
      (identifyBytes ++ trailer).drop 7 = be16 (crc16 0xFFFF identifyBytes).toNat ∧
      (identifyBytes ++ [0, 0]).drop 7 ≠ be16 (crc16 0xFFFF identifyBytes).toNat ∧
      (List.replicate 95 (directive 0x51 9 [])).length < 96 ∧ 96 ≤ (List.replicate 96 (directive 0x51 9 [])).length ∧
      (∀ x ∈ [(63, true), (62, false)], let s := held false false x.1 ⟨64, 32, 256, 512, 4⟩ up
        s.store.sweep = none ∧ (x.2 = true ↔ s.intake.flow.hold ≤ s.intake.queue.length + 1)) ∧
      (∀ x ∈ [(31, 32768, true), (32, 32768, false), (31, 32769, false)],
        let s := held true false x.1 ⟨64, 32, 256, x.2.1, 4⟩ up
        (x.2.2 = true ↔ s.intake.queue.length + 1 ≤ s.intake.flow.resume ∧ s.intake.flow.high ≤ s.freeCount)) ∧
      (∀ x ∈ [(32768, true), (32767, false)], let s := held false false 0 ⟨64, 32, x.1, 32768, 4⟩ up
        (x.2 = true ↔ s.freeCount ≤ s.intake.flow.low)) ∧
      State.reset.store.sweep.isSome = true := by
  decide +kernel

theorem witness_AssemblyTimeoutDropsParcel :
    (assembling [3] up).framer.assembling = true ∧ (assembling [3] up).framer.timer.isSome = true := by decide

/-- A state at which the segment of page 5 is at the queue head. -/
def segmentAt (s : State) : State := withParcel (.data false 0 head5 [0xAA]) s

/-- Page 5 with its LINE layer changed. -/
def pageWith (f : LayerRecord → LayerRecord) : PageRecord := page5.modifyLayer lineK f

/-- The LINE layer of page 5 as it is opened. -/
def line5 : LayerRecord := LayerRecord.fresh lineK

/-- The fields of the segment of page 5 agree with a page of ink K that has a band, and with a layer of no other length. -/
theorem head5_agrees {p : PageRecord} (l : LayerRecord) {parity : Bool} {payload : List Byte}
    (hl : p.layer? lineK = some l) (hs : hasInk p.inkSet .k = true) (hb : 0 < p.bandCount) (hn : l.length.getD 1 = 1)
    (hp : payload.length = if parity = true then 256 else 1) : ¬ fieldsContradict p parity head5 payload := by
  rintro (h | ⟨i, h, hi⟩ | h | h | ⟨m, n, h, hm, hne⟩ | ⟨-, h⟩ | h)
  · exact absurd h (by decide)
  · obtain rfl : Ink.k = i := Option.some.inj h
    exact absurd (hs.symm.trans hi) (by decide)
  · exact absurd hb (Nat.not_lt.mpr h)
  · exact absurd h (by decide)
  · obtain rfl : l = m := Option.some.inj (hl.symm.trans h)
    rw [hm] at hn
    exact hne hn
  · exact absurd h (by decide)
  · rw [hp] at h
    revert h
    cases parity <;> decide

/-- The damaged LINE layer of one byte, in tile 5, of the closed page 5. -/
def lost5 : LayerRecord := { line5 with state := .damaged, length := some 1, tileMap := line5.tileMap.set 0 (some 5) }

/-- The closed page with that layer. -/
def closed5 : PageRecord := { pageWith fun _ => lost5 with state := .damaged }

/-- An OPEN page without a tile, a closed one with a tile at the slot, and the parity parcel of an OPEN page. -/
theorem witness_AcceptedSegmentIsIssued :
    ((segmentAt (withPage page5 up)).intakeTaking = true ∧ (segmentAt (withPage page5 up)).freeSlot = some 0 ∧
        rises up.store.poolOut = true ∧
        passesTests (segmentAt (withPage page5 up)) false head5 [0xAA] 0 lineK page5 line5 ∧
        line5.tileAt (slotOf false head5) = none ∧ (segmentAt (withPage page5 up)).inPool 0 = true) ∧
      (passesTests (segmentAt (withPage closed5 up)) false head5 [0xAA] 0 lineK closed5 lost5 ∧
        lost5.tileAt (slotOf false head5) = some 5) ∧
      passesTests (withPage page5 up) true head5 (List.replicate 256 1) 0 lineK page5 line5 := by
  refine ⟨⟨by decide, by decide, by decide, ⟨by decide, by decide, by decide, head5_agrees line5 (by decide) (by decide)
      (by decide) (by decide) rfl, by simp [holdsParcel, line5, LayerRecord.fresh], .inl rfl⟩, by decide, by decide⟩,
    ⟨⟨by decide, by decide, by decide, head5_agrees lost5 (by decide) (by decide) (by decide) (by decide) rfl,
      by simp [holdsParcel, lost5, line5, LayerRecord.fresh], .inr ⟨rfl, .inl ⟨rfl, .inl (by decide)⟩⟩⟩, by decide⟩,
    by decide, by decide, by decide, head5_agrees line5 (by decide) (by decide) (by decide) (by decide)
      (List.length_replicate ..), by simp [holdsParcel, line5, LayerRecord.fresh], .inl rfl⟩

theorem firstGap_range (n : Nat) : ∀ i, firstGap i (List.range' i n) = i + n := by
  induction n with
  | zero => intro i; rfl
  | succ n ih => intro i; rw [List.range'_succ, firstGap, if_pos rfl, ih]; omega

theorem rises_range (n : Nat) : ∀ i, rises (List.range' i n) = true := by
  induction n with
  | zero => intro i; rfl
  | succ n ih =>
    intro i
    have h := ih (i + 1)
    cases n with
    | zero => rfl
    | succ n => simp only [List.range'_succ, rises, decide_true, Nat.lt_succ_self, Bool.true_and] at h ⊢; exact h

/-- A state with every tile out of the pool. -/
def noTile (s : State) : State := { s with store := { s.store with poolOut := List.range' 0 32768 } }

theorem noTile_inPool (s : State) (h : s.straps = up.straps) (u : Nat) : (noTile s).inPool u = false := by
  have ht : (noTile s).tileCount = 32768 := by show tileCountOf s.straps.size = _; rw [h]; rfl
  have hu : (decide (u < 32768) && !((List.range' 0 32768).contains u)) = false := by
    simp only [Bool.and_eq_false_imp, decide_eq_true_eq, Bool.not_eq_false', List.contains_eq_mem, List.mem_range'_1]
    omega
  show (decide (u < (noTile s).tileCount) && _) = false
  rw [ht]
  exact hu

/-- With every tile out of the pool, none is free. -/
theorem test_no_tile_free : (noTile up).lowestFree = none := by
  have h : firstGap 0 (List.range' 0 32768) = 32768 := by rw [firstGap_range]
  unfold State.lowestFree noTile
  simp only [h]
  decide

/-- The LINE layer of page 5, with its segment received. -/
def held5 : LayerRecord := { line5 with length := some 1, received := [0] }

/-- Page 5, COMPLETE. -/
def done5 : PageRecord := { page5 with state := .complete }

/-- One state for each counter of the judging. -/
theorem witness_DiscardCountsOnce :
    ((segmentAt up).intakeTaking = true ∧ (segmentAt up).freeSlot.isSome = true ∧ rises up.store.poolOut = true ∧
        discards (segmentAt up) false head5 [0xAA] .unknownPage none) ∧
      discards (segmentAt (withPage page5 up)) false head5 [] .malformed (some .parcelMalformed) ∧
      discards (withPage (pageWith fun _ => held5) up) false head5 [0xAA] .duplicate none ∧
      discards (withPage done5 up) false head5 [0xAA] .late none ∧ rises (noTile up).store.poolOut = true ∧
      discards (noTile (withPage page5 up)) false head5 [0xAA] .storeFullLosses (some .storeFull) := by
  have fits : ¬ fieldsContradict page5 false head5 [0xAA] :=
    head5_agrees line5 (by decide) (by decide) (by decide) (by decide) rfl
  refine ⟨⟨by decide, by decide, by decide, .inl ⟨by decide, rfl, rfl⟩⟩,
    .inr ⟨0, page5, by decide, .inl ⟨.inr (.inr (.inr (.inr (.inr (.inr (by decide)))))), rfl, rfl⟩⟩,
    .inr ⟨0, pageWith fun _ => held5, by decide, .inr ⟨lineK, held5, by decide, by decide, head5_agrees held5 (by decide)
      (by decide) (by decide) (by decide) rfl, .inl ⟨.inl ⟨rfl, .inl (by decide)⟩, rfl, rfl⟩⟩⟩,
    .inr ⟨0, done5, by decide, .inr ⟨lineK, line5, by decide, by decide, head5_agrees line5 (by decide) (by decide)
      (by decide) (by decide) rfl, .inr (.inl ⟨by simp [holdsParcel, line5, LayerRecord.fresh], by decide,
        by simp [repairSegment, line5, LayerRecord.fresh], rfl, rfl⟩)⟩⟩,
    rises_range _ _,
    .inr ⟨0, page5, ?_, .inr ⟨lineK, line5, by decide, by decide, fits, .inr (.inr ⟨⟨?_, by decide, by decide, fits,
      by simp [holdsParcel, line5, LayerRecord.fresh], .inl rfl⟩, by decide, noTile_inPool _ rfl, rfl, rfl⟩)⟩⟩⟩ <;>
  exact (by decide : (withPage page5 up).findPage 5 1 = some (0, page5))

theorem witness_UnknownPageDiscarded :
    (segmentAt up).intakeTaking = true ∧ (segmentAt up).freeSlot.isSome = true ∧
      (∀ r p, (segmentAt up).page? r = some p → p.current = true → ¬ (p.pageId = head5.pageId ∧ p.version = head5.version)) ∧
      (segmentAt up).intake.reserveCause = reservePresent (segmentAt up).intake.flow (segmentAt up).freeCount := by
  refine ⟨by decide, by decide, ?_, by decide⟩
  intro r p h
  have : (segmentAt up).page? r = none := by
    show (List.replicate 48 none).getD r none = none
    rw [List.getD_eq_getElem?_getD, List.getElem?_replicate]
    split <;> rfl
  rw [this] at h
  exact absurd h (by simp)

theorem witness_AllocationTakesLowestTile :
    rises up.store.poolOut = true ∧ up.lowestFree = some 0 ∧
      State.lowestFree { up with store := { up.store with poolOut := [0, 1, 3] } } = some 2 := by decide

/-- Page 5 in a state with the write of its segment outstanding, beside `n` other writes. -/
def awaiting (state : PageState) (n : Nat) : PageRecord :=
  { pageWith fun l => { l with length := some 1, pending := [0], tileMap := l.tileMap.set 0 (some 0) } with
    state, pendingWrites := n + 1 }

/-- The same write as one of Repair. -/
def rebuilding (p : PageRecord) (s : State) : State :=
  { withPage p s with
    repair := ⟨[], .writing ⟨0, lineK⟩ 0, some write5⟩
    store := { s.store with inService := some (.write .repair), poolOut := [0] } }

/-- A write of Intake into an OPEN, a closed and a RELEASING record, and one of Repair. -/
theorem witness_WriteCompletionReceivesSegment :
    (∀ p ∈ [awaiting .opened 0, awaiting .evaluating 0, awaiting .releasing 1],
      (writing p up).store.inService = some (.write (.intake 0)) ∧ (writing p up).writeOf (.intake 0) = some write5 ∧
        write5.tile < (writing p up).tileCount ∧ write5.payload.length ≤ 256 ∧ write5.item = .segment 0 ∧
        (writing p up).page? 0 = some p ∧ (p.layer? write5.target.layer).isSome = true) ∧
      (rebuilding (awaiting .evaluating 0) up).store.inService = some (.write .repair) ∧
      (rebuilding (awaiting .evaluating 0) up).writeOf .repair = some write5 ∧
      (rebuilding (awaiting .evaluating 0) up).page? 0 = some (awaiting .evaluating 0) ∧
      (awaiting .evaluating 0).closed = true ∧
      (rebuilding (awaiting .evaluating 0) up).repair.engine = .writing ⟨0, lineK⟩ 0 ∧
      ¬ ((awaiting .releasing 1).state = .releasing ∧ (awaiting .releasing 1).pendingWrites ≤ 1) := by decide

/-- A RESTART of the plate 40 is held. -/
def holdingRestart (s : State) : State := { s with restart := some ⟨9, false, some 40⟩ }

/-- A second write of Intake is in flight. -/
def secondWrite (s : State) : State :=
  { s with intake := { s.intake with slots := s.intake.slots.set 1 (some { write5 with tile := 1 }) } }

/-- The two last rows but one of 10.4.1: at the first write's completion the RESTART stays held, and at the second's it
finishes, with the reports and the counters of the hold gone, the parcel behind it kept and the report being sent going
on. -/
theorem test_worked_restart_finish :
    let s := withParcel (directive 0x50 10 [3, 0, 0, 0, 0]) (holdingRestart (writing (awaiting .evaluating 0)
      { busy with reports := { busy.reports with
          queue := [.reply 1 1 none []], counters := { Counters.zero with late := 9 } } }))
    ((nextOf (exec .storeWriteCompletion (secondWrite s))).map
        (fun t => (t.restart, t.reports.queue.length, t.reports.counters.late)) = some (some ⟨9, false, some 40⟩, 3, 9)) ∧
      (nextOf (exec .storeWriteCompletion s)).map
        (fun t => (t.restart, t.reports.queue, t.reports.counters.late, t.intake.queue.length))
      = some (none, [.reply 9 0x5F none [], .started ⟨.restart, .mib128, 32768, 0, some 40⟩], 0, 1) := by
  decide +kernel

/-- The write in slot 0 is the only one in flight. -/
theorem onlyWrite_writing (p : PageRecord) : (holdingRestart (writing p up)).OnlyWrite (.intake 0) := by
  intro r hr
  cases r with
  | repair => cases hr
  | intake n =>
    cases n with
    | zero => rfl
    | succ n =>
      have h : ((List.replicate 7 (none : Option StoreWrite)).getD n none).isSome = true := hr
      rw [List.getD_eq_getElem?_getD, List.getElem?_replicate] at h
      split at h <;> exact absurd h (by simp)

/-- With a RESTART held: the only write in flight, and one of two. -/
theorem witness_completion_finishes_restart :
    (∀ p ∈ [awaiting .opened 0, awaiting .evaluating 0, { page5 with state := .releasing, pendingWrites := 1 }],
      (holdingRestart (writing p up)).restart = some ⟨9, false, some 40⟩ ∧
        (holdingRestart (writing p up)).store.sweep = none ∧ (holdingRestart (writing p up)).OnlyWrite (.intake 0) ∧
        ¬ (holdingRestart (secondWrite (writing p up))).OnlyWrite (.intake 0)) ∧
      reservePresent up.intake.flow (up.tileCount - up.retiredCount) = false := by
  refine ⟨fun p _ => ⟨rfl, rfl, onlyWrite_writing p, fun h => ?_⟩, by decide⟩
  cases h (.intake 1) rfl

/-- A reconstruction that was abandoned is drained: its write is Repair's and is in service. -/
def draining (p : PageRecord) : State := { rebuilding p up with repair := ⟨[], .draining, some write5⟩ }

/-- A write of Intake, and a drained one of Repair, beside no other write and with a RESTART held. -/
theorem witness_LastWriteFreesReleasingRecord :
    let p := { page5 with state := .releasing, pendingWrites := 1 }
    (∀ e ∈ [(writing p up, WriteRef.intake 0), (draining p, .repair), (holdingRestart (draining p), .repair)],
      e.1.store.inService = some (.write e.2) ∧ e.1.writeOf e.2 = some write5 ∧ write5.tile < e.1.tileCount ∧
        e.1.page? 0 = some p) ∧
      (draining p).repair.engine = .draining ∧ (holdingRestart (draining p)).OnlyWrite .repair ∧
      (holdingRestart (draining p)).store.sweep = none := by
  refine ⟨by decide, rfl, fun r hr => ?_, rfl⟩
  cases r with
  | repair => rfl
  | intake n =>
    have h : ((List.replicate 8 (none : Option StoreWrite)).getD n none).isSome = true := hr
    rw [List.getD_eq_getElem?_getD, List.getElem?_replicate] at h
    split at h <;> exact absurd h (by simp)

/-- The drained write of Repair frees the record, and Repair is IDLE (R17, R73). -/
theorem test_drained_write_frees :
    (nextOf (exec .storeWriteCompletion (draining { page5 with state := .releasing, pendingWrites := 1 }))).map
        (fun t => (t.page? 0, t.repair.engine, t.repair.write)) = some (none, .idle, none) := by decide

/-- A state with a read in service. -/
def reading (r : StoreRead) (s : State) : State := { s with store := { s.store with inService := some (.read r) } }

/-- A layer of two segments of which the first is missing, with its parity held. -/
def repairable (l : LayerRecord) : LayerRecord :=
  { l with
    state := .repairing, length := some 512, received := [1], parityHeld := true
    tileMap := (l.tileMap.set 0 (some 3)).set 16 (some 4) }

/-- A closed page of that layer alone. -/
def mapped5 : PageRecord := { page5 with state := .evaluating, layers := [repairable line5] }

/-- A page in record 0, with its tiles out of the pool. -/
def holding (p : PageRecord) (s : State) : State :=
  { withPage p s with store := { s.store with poolOut := p.tiles } }

/-- Repair reads the tile-map slot `k` of a layer of that page. -/
def repairing (k : Nat) (s : State) : State :=
  { s with repair := ⟨[], .reading ⟨0, lineK⟩ 0 k (List.replicate 256 0), none⟩ }

/-- The one record of a page table. -/
theorem only_record {s : State} {p : PageRecord} (hp : s.pages = (withPage p up).pages) {r : Nat} {q : PageRecord}
    (h : s.page? r = some q) : r = 0 ∧ q = p := by
  have h1 : (withPage p up).pages.getD r none = some q := by rw [← hp]; exact h
  cases r with
  | zero => exact ⟨rfl, (Option.some.inj h1).symm⟩
  | succ r =>
    have : (List.replicate 47 none).getD r none = some q := h1
    rw [List.getD_eq_getElem?_getD, List.getElem?_replicate] at this
    split at this <;> exact absurd this (by simp)

/-- A state with that page and no other is well formed where its tiles are distinct. -/
theorem storeWf_of {s : State} {p : PageRecord} (hp : s.pages = (holding p up).pages) (hw : p.Wf)
    (ho : s.store.poolOut = p.tiles) (hr : rises p.tiles = true) (hn : p.tiles.Nodup) (hm : ∀ t ∈ p.tiles, t < 32768)
    (ht : s.store.retired = []) (hd : s.store.dram = up.store.dram) (hs : s.straps = up.straps)
    (hq : s.intake.queue = []) (hsw : s.store.sweep = none)
    (he : ∀ t i k acc, s.repair.engine = .reading t i k acc → i < 256) : s.StoreWf := by
  have hc : s.tileCount = 32768 := by show tileCountOf s.straps.size = _; rw [hs]; rfl
  have hl : s.mapped = p.tiles := by
    show (s.pages.zipIdx.filterMap fun (p, r) => p.map fun p => (r, p)).flatMap (fun (_, p) => p.tiles) = _
    rw [hp]
    exact List.append_nil p.tiles
  refine ⟨by rw [ho]; exact hr, by rw [ht]; rfl, by rw [hd]; rfl, fun t h => ?_, fun t h => ?_, fun r q h => ?_,
    by rw [hq]; exact fun x h => absurd h List.not_mem_nil, fun n h => ?_, he⟩
  · rw [State.places, hl, ht, State.inPool, ho, decide_eq_true h, List.count_nil]
    by_cases h' : t ∈ p.tiles
    · rw [List.count_eq_one_of_mem hn h']; simp [h']
    · rw [List.count_eq_zero_of_not_mem h']; simp [h']
  · rw [hl, ht, ho]
    have : t ∉ p.tiles := fun h' => absurd (hm t h') (by omega)
    exact ⟨this, List.not_mem_nil, this⟩
  · exact (only_record hp h).2 ▸ hw
  · rw [hsw] at h; exact absurd h (by simp)

/-- The DRAM gives a wrong code for a slot. -/
def wrongCode (d : Dram) (tile k : Nat) : List DramFault :=
  [.code k (checkCodeAt (slotNumber tile k) (d.slotAt (slotNumber tile k)).bytes + 1)]

/-- A code read back wrong fails the check, whatever the check is (R48). -/
theorem wrong_code_fails (d : Dram) (tile k : Nat) : d.slotPasses tile k (wrongCode d tile k) = false := by
  simp [Dram.slotPasses, Dram.readSlot, Machine.faultOf, SlotCell.passes, wrongCode]

/-- A slot that a sweep has written and nothing since passes its check. -/
theorem swept_agrees (n : Nat) (h : n < 524288) : up.store.dram.agrees n = true := by
  have hn : unlistedCell 32768 n = codedCell n (sweptBytes n) := if_pos (by omega)
  show ((cellIn n []).getD (unlistedCell 32768 n)).passes n = true
  rw [hn]
  exact codedCell_passes n _

/-- A read of Repair from a tile of a closed page, one of a tile no record maps, and one of Prefetch. -/
theorem witness_FailedReadRetiresTile :
    ((reading read3 (repairing 0 (holding mapped5 up))).StoreWf ∧
        (reading read3 (repairing 0 (holding mapped5 up))).store.inService = some (.read read3) ∧
        read3.tile < (reading read3 up).tileCount ∧ 0 ∈ read3.slots ∧
        (∃ faults, (reading read3 (repairing 0 (holding mapped5 up))).store.dram.slotPasses read3.tile 0 faults = false) ∧
        (holding mapped5 up).page? 0 = some mapped5 ∧ mapped5.layer? lineK = some (repairable line5) ∧
        (repairable line5).tileAt 0 = some 3 ∧ read3.requester = .repair) ∧
      ((reading read3 (repairing 0 (holding page5 up))).StoreWf ∧
        read3.tile ∉ (reading read3 (repairing 0 (holding page5 up))).mapped) ∧
      (reading fetch3 (fetching (holding mapped5 up))).StoreWf ∧
      (fetching up).captureOf .left .line = some ⟨0, .read { stream5 with issued := 1 }, false, false⟩ ∧
      (fetching up).drive.state.inContext = true ∧ (fetching up).drive.plate = some plate7 ∧
      (fetching up).prefetch.job.isSome = true ∧ (reading fetch3 (fetching up)).store.readSide = [] ∧
      64 ≤ (fetching up).drive.pool.length ∧
      (⟨List.replicate 256 0, checkCodeAt 48 (List.replicate 256 0)⟩ : SlotCell).passes 48 = true := by
  have hw : mapped5.Wf := ⟨by decide, by decide, by decide, by decide⟩
  have he : ∀ t i k acc, (repairing 0 up).repair.engine = .reading t i k acc → i < 256 := by
    intro t i k acc h
    injection h with _ hi
    subst hi
    decide
  exact ⟨⟨storeWf_of rfl hw rfl (by decide) (by decide) (by decide) rfl rfl rfl rfl rfl he, rfl, by decide, by decide,
      ⟨_, wrong_code_fails _ _ _⟩, by decide, by decide, by decide, rfl⟩,
    ⟨storeWf_of rfl ⟨by decide, by decide, by decide, by decide⟩ rfl (by decide) (by decide) (by decide) rfl rfl rfl rfl
      rfl he, by decide⟩,
    storeWf_of rfl hw rfl (by decide) (by decide) (by decide) rfl rfl rfl rfl rfl (fun _ _ _ _ h => by cases h),
    by decide, by decide, by decide, by decide, by decide, by decide, codedCell_passes 48 _⟩

/-- The read of the parity slot in tile 4. -/
def parity4 : StoreRead := ⟨.repair, 4, 16, [0]⟩

/-- The layer with its data tile gone. -/
def untiled (l : LayerRecord) : LayerRecord := { repairable l with tileMap := l.tileMap.set 16 (some 4) }

/-- A data read of Repair; its parity read with the tile there, with another free, and with none free; and a read of
Prefetch, whose stream is building no row, in a slot whose rows are ready with it, or is building one. -/
theorem witness_RepairAccumulatesReads :
    let s := reading read3 (repairing 0 (holding mapped5 up))
    let u := { page5 with state := .evaluating, layers := [untiled line5] }
    (s.store.inService = some (.read read3) ∧ read3.tile < s.tileCount ∧ read3.requester = .repair ∧
        (∀ n ∈ read3.slots, s.store.dram.agrees (slotNumber read3.tile n) = true) ∧
        s.repair.engine = .reading ⟨0, lineK⟩ 0 0 (List.replicate 256 0) ∧ s.layer? ⟨0, lineK⟩ = some (repairable line5) ∧
        s.store.readSide = [] ∧ s.store.writeSide = [] ∧
        ((repairable line5).repairRead ((repairable line5).nextReadSlot 1)).tile ∉ s.store.retired) ∧
      ((∀ n ∈ parity4.slots, up.store.dram.agrees (slotNumber parity4.tile n) = true) ∧
        (repairing 16 up).repair.engine = .reading ⟨0, lineK⟩ 0 16 (List.replicate 256 0) ∧
        rises mapped5.tiles = true ∧ (repairable line5).length.isSome = true ∧ (repairable line5).tileAt 0 = some 3 ∧
        (holding u up).layer? ⟨0, lineK⟩ = some (untiled line5) ∧ (untiled line5).tileAt 0 = none ∧
        (holding u up).inPool 0 = true ∧ ∀ v, (noTile (withPage u up)).inPool v = false) ∧
      (∀ n ∈ fetch3.slots, up.store.dram.agrees (slotNumber fetch3.tile n) = true) ∧
      (fetching up).captureOf .left .line = some ⟨0, .read { stream5 with issued := 1 }, false, false⟩ ∧
      stream5.cut = none ∧ stream5.mode = .reading ∧ 64 ≤ (fetching up).drive.pool.length ∧ stream5.building = false ∧
      (∀ bytes, PageSlot.ready { slot5 with
        line := ⟨0, .read { stream5 with issued := 1, arrived := 1, buffer := bytes }, false, false⟩ } 0 = true) ∧
      (fetchingFor halfBuilt up).captureOf .left .line = some ⟨0, .read halfBuilt, false, false⟩ ∧
      halfBuilt.cut = none ∧ halfBuilt.building = true ∧ 64 ≤ (fetchingFor halfBuilt up).drive.pool.length := by
  have slots : ∀ tile < 32768, ∀ n ∈ [0], up.store.dram.agrees (slotNumber tile n) = true := by
    intro tile ht n hn
    obtain rfl := List.mem_singleton.mp hn
    exact swept_agrees _ (by show tile * 16 + 0 < 524288; omega)
  refine ⟨⟨rfl, by decide, rfl, slots 3 (by decide), rfl, by decide, rfl, rfl, by decide⟩,
    ⟨slots 4 (by decide), rfl, by decide, rfl, by decide, by decide, by decide, by decide, noTile_inPool _ rfl⟩,
    slots 3 (by decide), by decide, rfl, rfl, by decide, rfl, fun bytes => ?_, rfl, rfl, rfl, by decide⟩
  have : (⟨0, .read { stream5 with issued := 1, arrived := 1, buffer := bytes }, false, false⟩ : Capture).lineReady = true :=
    Capture.lineReady_of_arrived (u := { stream5 with issued := 1, arrived := 1, buffer := bytes })
      (show segmentCount 1 ≤ 1 by decide) ..
  simp only [PageSlot.ready, this, Bool.true_and, Bool.or_eq_true]
  exact .inr rfl

/-- The layer waits in the repair queue. -/
def repairQueued (s : State) : State :=
  { withPage mapped5 s with
    repair := ⟨[⟨0, lineK⟩], .idle, none⟩ }

theorem witness_RepairBeginIssuesFirstRead :
    let l := repairable line5
    (repairQueued up).repair.engine = .idle ∧ (repairQueued up).repair.queue = [⟨0, lineK⟩] ∧
      (repairQueued up).restart = none ∧ (repairQueued up).layer? ⟨0, lineK⟩ = some l ∧
      (repairQueued up).store.inService = none ∧ (repairQueued up).store.readSide = [] ∧
      (repairQueued up).store.writeSide = [] ∧
      (l.repairRead (l.nextReadSlot 0)).tile ∉ (repairQueued up).store.retired := by decide

/-- A state with given sides and side served last. -/
def sides (w : List WriteRef) (r : List StoreRead) (last : ArbiterSide) : State :=
  { up with store := { up.store with writeSide := w, readSide := r, lastSide := last } }

/-- Each order of the sides, and the read of a tile that has been retired. -/
theorem witness_ArbiterAlternates :
    ((sides [.repair] [read3] .write).store.inService = none ∧ read3.tile ∉ up.store.retired ∧
        (sides [.repair] [read3] .write).store.lastSide = .write ∧
        (sides [.repair] [read3] .read).store.lastSide = .read ∧ (sides [.repair] [] .read).store.readSide = [] ∧
        (sides [] [read3] .read).store.writeSide = []) ∧
      ∀ r ∈ [read3, fetch3],
        let s := { fetching up with store := { up.store with retired := [3], poolOut := [3], readSide := [r] } }
        s.store.inService = none ∧ r.tile ∈ s.store.retired ∧ s.store.writeSide = [] ∧ s.store.readSide = [r] ∧
          (s.captureOf .left .line).isSome = true ∧ 64 ≤ s.drive.pool.length := by decide

/-- The first tile of the sweep, and the last but one; a tile whose first slot's code is read back wrong fails. -/
theorem witness_SweepTestsOneTile :
    (State.reset.store.sweep = some 0 ∧ 0 + 1 < State.reset.tileCount ∧ 32766 + 1 < State.reset.tileCount ∧
        State.store { State.reset with store := { State.reset.store with sweep := some 32766 } }
          = { State.reset.store with sweep := some 32766 }) ∧
      ∀ d : Dram, ∃ faults, ¬ readPass d 0 testPattern faults := by
  refine ⟨by decide, fun d => ⟨wrongCode d 0 0, fun h => ?_⟩⟩
  exact Bool.false_ne_true ((wrong_code_fails d 0 0).symm.trans (h 0 (by decide)).1)

/-- The last tile of the store; for the second clause with no tile retired, with one below the threshold of 1024 and with as
many, and with a queue that keeps the flag true. -/
theorem witness_CleanSweepEndStarts :
    let s := { State.reset with store := { State.reset.store with sweep := some 32767 } }
    (s.reports.awaitStarted = true ∧ s.reports.mask = 0 ∧ s.reports.latched .tileRetired = false ∧
        s.reports.latched .storeDegraded = false ∧ s.tileCount / 32 = 1024 ∧
        (List.range 1023).length < s.tileCount / 32 ∧ s.tileCount / 32 ≤ (List.range 1024).length ∧
        ¬ (held true false 64 s.intake.flow s).intake.queue.length ≤ s.intake.flow.resume) ∧
    s.store.sweep = some 32767 ∧ s.tileCount ≤ 32767 + 1 ∧ s.store.retired = [] ∧ s.store.poolOut = [] ∧
      s.restart = none ∧ s.intake.holding = true ∧ s.intake.queue.length ≤ s.intake.flow.resume ∧
      s.intake.flow.high ≤ s.tileCount ∧ s.intake.flow.low < s.tileCount ∧ s.reports.queue = [] ∧
      s.reports.sending = none ∧ s.reports.lastSymbol = some .hold ∧ s.reports.owed = false := by
  decide +kernel

/-- A reset with a store write in service. -/
theorem witness_PowerOnResetsEveryBlock : (writing page5 up).writeInService = some write5 := by decide

/-- No sweep, with no write in service and with one; and a sweep. -/
theorem witness_PinResetKeepsRetiredSet :
    up.store.sweep = none ∧ up.writeInService = none ∧ (writing page5 up).store.sweep = none ∧
      (writing page5 up).writeInService = some write5 ∧ State.reset.store.sweep = some 0 := by decide

/-- A SCREEN_DATA directive with `n` payload bytes. -/
def runOf (n : Nat) : Directive := directiveArgs 0x22 9 (List.replicate n 1)

/-- An unlisted code, lengths just outside those of SCREEN_DATA and at their ends, an ink set of 16 and one of 15, and a
RESTART. -/
theorem witness_RefusedDirectiveChangesNothing :
    ((asked 0x77 9 [] up).directiveOf .unknownDirective = some (directiveArgs 0x77 9 []) ∧
        ¬ ∃ e ∈ directiveLengths, e.1 = (directiveArgs 0x77 9 []).code) ∧
      ((∀ n ∈ [1, 2, 258, 259], (asked 0x22 9 (List.replicate n 1) up).directiveOf .screenData = some (runOf n)) ∧
        (∃ e ∈ directiveLengths, e.1 = 0x22) ∧ (∀ n ∈ [2, 258], lengthFits (runOf n) ∧ ¬ codeOutside (runOf n)) ∧
        ∀ n ∈ [1, 259], ¬ lengthFits (runOf n)) ∧
      (∀ n ∈ [15, 16], (asked 0x01 9 [0, 5, 1, 0, 64, 0, 4, n] up).directiveOf .openPage
          = some (directiveArgs 0x01 9 [0, 5, 1, 0, 64, 0, 4, n]) ∧
        lengthFits (directiveArgs 0x01 9 [0, 5, 1, 0, 64, 0, 4, n]) ∧
        (codeOutside (directiveArgs 0x01 9 [0, 5, 1, 0, 64, 0, 4, n]) ↔ n = 16)) ∧
      (asked 0x5F 9 [] up).directiveOf .restart = some (directiveArgs 0x5F 9 []) := by
  unfold lengthFits codeOutside
  decide +kernel

/-- A state with ticket 7 in the schedule. -/
def scheduled (s : State) : State := { withPage { page5 with useCount := 1 } s with schedule := [ticket7] }

/-- The arguments of an OPEN_PAGE at the lower and the upper ends of their ranges, and of one between. -/
def openings : List (List Nat) :=
  [[0, 1, 1, 0, 64, 0, 1, 1], [15, 255, 255, 64, 0, 96, 0, 15], [0, 5, 1, 0, 64, 0, 4, 1]]

/-- The ranges of OPEN_PAGE as they stand in the statements. -/
theorem openings_legal : ∀ l ∈ openings, let a := openArgs (directiveArgs 0x01 9 l).payload
    (1 ≤ a.pageId ∧ a.pageId ≤ 4095) ∧ (1 ≤ a.version ∧ a.version ≤ 255) ∧ (64 ≤ a.width ∧ a.width ≤ 16384) ∧
      (1 ≤ a.height ∧ a.height ≤ 24576) ∧ a.inkSet ≠ 0 := by decide

/-- An empty page table, with those arguments; and version 2 of page 5, of which ticket 7 names version 1. -/
theorem witness_OpenPageFillsRecord :
    (∀ l ∈ openings, (asked 0x01 9 l up).directiveOf .openPage = some (directiveArgs 0x01 9 l) ∧
        (directiveArgs 0x01 9 l).refusal = none) ∧
      (∀ r, up.page? r = none) ∧ 0 < up.pages.length ∧
      (asked 0x01 9 [0, 5, 2, 0, 64, 0, 4, 1] (scheduled up)).Takes .openPage
        (directiveArgs 0x01 9 [0, 5, 2, 0, 64, 0, 4, 1]) ∧
      (∀ r p, (scheduled up).page? r = some p → p.version < 2) ∧
      1 < (scheduled up).pages.length ∧ (scheduled up).page? 1 = none ∧ (∀ r < 1, (scheduled up).page? r ≠ none) ∧
      (scheduled up).UsesWf ∧ (scheduled up).TagsDistinct ∧
      (scheduled up).schedule[0]? = some ticket7 ∧ (scheduled up).page? 0 = some { page5 with useCount := 1 } := by
  refine ⟨by decide, fun r => ?_, by decide, ⟨by decide, by decide⟩, fun r p h => ?_, by decide, by decide, by decide,
    ⟨fun r q h => ?_, fun x hx y hy => ?_⟩, by simp [State.TagsDistinct, scheduled], rfl, rfl⟩
  · show (List.replicate 48 (none : Option PageRecord)).getD r none = none
    rw [List.getD_eq_getElem?_getD, List.getElem?_replicate]
    split <;> rfl
  · obtain ⟨rfl, rfl⟩ := only_record rfl h
    decide
  · obtain ⟨rfl, rfl⟩ := only_record rfl h
    decide
  · obtain rfl := List.mem_singleton.mp hx
    obtain rfl := List.mem_singleton.mp hy
    exact ⟨_, rfl, rfl⟩

theorem witness_ClosePageEvaluatesLayers :
    (asked 0x02 9 [0, 5, 1] (withPage page5 up)).Takes .closePage (directiveArgs 0x02 9 [0, 5, 1]) ∧
      (asked 0x02 9 [0, 5, 1] (withPage page5 up)).findPage 5 1 = some (0, page5) ∧ page5.state = .opened ∧ page5.Wf := by
  refine ⟨⟨by decide, by decide⟩, by decide, by decide, by decide, by decide, by decide, by decide⟩

/-- A page table with every record taken by page 5. -/
def fullTable : State := { up with pages := List.replicate 48 (some page5) }

theorem fullTable_page? (r : Nat) : fullTable.page? r = if r < 48 then some page5 else none := by
  show (List.replicate 48 (some page5)).getD r none = _
  rw [List.getD_eq_getElem?_getD, List.getElem?_replicate]
  split <;> rfl

/-- The arguments of an OPEN_PAGE, each with one of them just outside its range. -/
def outside : List (List Nat) :=
  [[0, 0, 1, 0, 64, 0, 4, 1], [16, 0, 1, 0, 64, 0, 4, 1], [0, 5, 0, 0, 64, 0, 4, 1], [0, 5, 1, 0, 63, 0, 4, 1],
    [0, 5, 1, 64, 1, 0, 4, 1], [0, 5, 1, 0, 64, 0, 0, 1], [0, 5, 1, 0, 64, 96, 1, 1], [0, 5, 1, 0, 64, 0, 4, 0]]

/-- The six clauses, in their order. The arguments of the second and the third are legal, as `openings_legal` shows of
those of page 5. -/
theorem witness_PageDirectiveRefusals :
    (∀ l ∈ outside, ((asked 0x01 9 l up).directiveOf .openPage = some (directiveArgs 0x01 9 l) ∧
        (directiveArgs 0x01 9 l).refusal = none) ∧ let a := openArgs (directiveArgs 0x01 9 l).payload
        ¬ ((1 ≤ a.pageId ∧ a.pageId ≤ 4095) ∧ (1 ≤ a.version ∧ a.version ≤ 255) ∧
          (64 ≤ a.width ∧ a.width ≤ 16384) ∧ (1 ≤ a.height ∧ a.height ≤ 24576) ∧ a.inkSet ≠ 0)) ∧
      ((asked 0x01 9 [0, 5, 1, 0, 64, 0, 4, 1] (withPage page5 up)).Takes .openPage
          (directiveArgs 0x01 9 [0, 5, 1, 0, 64, 0, 4, 1]) ∧
        ∃ r p, (asked 0x01 9 [0, 5, 1, 0, 64, 0, 4, 1] (withPage page5 up)).page? r = some p ∧ p.current = true ∧
          p.pageId = 5 ∧ 1 ≤ p.version) ∧
      ((asked 0x01 9 [0, 6, 1, 0, 64, 0, 4, 1] fullTable).Takes .openPage
          (directiveArgs 0x01 9 [0, 6, 1, 0, 64, 0, 4, 1]) ∧
        (∀ r p, fullTable.page? r = some p → p.current = true → p.pageId = 6 → p.version < 1) ∧
        ∀ r < fullTable.pages.length, fullTable.page? r ≠ none) ∧
      ((asked 0x02 9 [0, 5, 1] up).Takes .closePage (directiveArgs 0x02 9 [0, 5, 1]) ∧
        (asked 0x02 9 [0, 5, 1] up).findPage 5 1 = none) ∧
      ((asked 0x02 9 [0, 5, 1] (withPage { page5 with state := .complete } up)).Takes .closePage
          (directiveArgs 0x02 9 [0, 5, 1]) ∧
        (asked 0x02 9 [0, 5, 1] (withPage { page5 with state := .complete } up)).findPage 5 1
          = some (0, { page5 with state := .complete })) ∧
      ((asked 0x03 9 [0, 5, 1] (withPage { page5 with useCount := 1 } up)).Takes .releasePage
          (directiveArgs 0x03 9 [0, 5, 1]) ∧
        (asked 0x03 9 [0, 5, 1] (withPage { page5 with useCount := 1 } up)).findPage 5 1
          = some (0, { page5 with useCount := 1 })) := by
  refine ⟨by decide, ⟨⟨by decide, by decide⟩, 0, page5, by decide, by decide, by decide, by decide⟩,
    ⟨⟨by decide, by decide⟩, ?_, ?_⟩, ⟨⟨by decide, by decide⟩, by decide⟩, ⟨⟨by decide, by decide⟩, by decide⟩,
    ⟨⟨by decide, by decide⟩, by decide⟩⟩
  · intro r p h _ h6
    rw [fullTable_page?] at h
    split at h
    · injection h with h; subst h; exact absurd h6 (by decide)
    · exact absurd h (by simp)
  · intro r h
    have h48 : r < 48 := by simpa [fullTable] using h
    rw [fullTable_page?, if_pos h48]
    simp

/-- A record with no pending write, and one with one. -/
theorem witness_ReleasePageFreesOrHolds :
    ((asked 0x03 9 [0, 5, 1] (withPage page5 up)).Takes .releasePage (directiveArgs 0x03 9 [0, 5, 1]) ∧
        (asked 0x03 9 [0, 5, 1] (withPage page5 up)).findPage 5 1 = some (0, page5) ∧ page5.useCount = 0 ∧
        page5.pendingWrites = 0) ∧
      ((asked 0x03 9 [0, 5, 1] (withPage { page5 with pendingWrites := 1 } up)).Takes .releasePage
          (directiveArgs 0x03 9 [0, 5, 1]) ∧
        (asked 0x03 9 [0, 5, 1] (withPage { page5 with pendingWrites := 1 } up)).findPage 5 1
          = some (0, { page5 with pendingWrites := 1 })) := by
  refine ⟨⟨⟨by decide, by decide⟩, by decide, by decide, by decide⟩, ⟨⟨by decide, by decide⟩, by decide⟩⟩

/-- The payload of a POST_TICKET: tag 8, ink K, page 5, LATEST. -/
def post8 (front : Nat) : List Nat := [0, 8, 0, 0, 0, 0, 0, 0, 5, 0, 0, 0, 0, 0, front]

/-- The payload of a POST_TICKET that names no page. -/
def postNone : List Nat := [0, 8, 0, 0, 0, 0, 0, 0, 0, 0, 0, 0, 0, 0, 0]

/-- Arguments out of their range, a tag of a live ticket, a full schedule, and a ticket at the tail and one in front. -/
theorem witness_PostTicketEntersSchedule :
    ((asked 0x10 9 postNone up).Takes .postTicket (directiveArgs 0x10 9 postNone) ∧
        ¬ (1 ≤ (ticketArgs (directiveArgs 0x10 9 postNone).payload).left.pageId)) ∧
      ((asked 0x10 9 (post8 0) (scheduled up)).Takes .postTicket (directiveArgs 0x10 9 (post8 0)) ∧
        ticketArgs (directiveArgs 0x10 9 (post8 0)).payload = ⟨8, 0, 0, 0, ⟨5, none⟩, none, .holdForRepair, false⟩) ∧
      (∃ x ∈ State.schedule { up with schedule := [{ ticket7 with tag := 8 }] }, x.tag = 8) ∧
      ((∀ x ∈ List.replicate 16 ticket7, x.tag ≠ 8) ∧ 16 ≤ (List.replicate 16 ticket7).length) ∧
      ((∀ x ∈ (scheduled up).schedule, x.tag ≠ 8) ∧ (scheduled up).schedule.length < 16) ∧
      (asked 0x10 9 (post8 1) (scheduled up)).Takes .postTicket (directiveArgs 0x10 9 (post8 1)) ∧
      (ticketArgs (directiveArgs 0x10 9 (post8 1)).payload).front = true := by
  refine ⟨⟨⟨by decide, by decide⟩, by decide⟩, ⟨⟨by decide, by decide⟩, by decide⟩, by decide,
    ⟨fun x h => ?_, by decide⟩, by decide, ⟨by decide, by decide⟩, by decide⟩
  rw [List.eq_of_mem_replicate h]
  decide

/-- Screen slot 0, curve slot 0 and the ink record of K stand. -/
def inked (s : State) : State :=
  { s with screener := { s.screener with
      screens := s.screener.screens.set 0 (.ready screen1), curves := s.screener.curves.set 0 (some (List.replicate 256 0))
      inks := { s.screener.inks with k := some ⟨0, 0, 0, 255⟩ } } }

/-- Both outcomes of an arming evaluation; and of an IMAGING, a POSTED and an ARMED ticket, in this order, the eligible one
under each order mode, with the schedule that has no POSTED ticket (R135). -/
theorem witness_ArmedExactlyWhenReady :
    ticket7.state ≠ .imaging ∧ (inked (withPage { page5 with state := .complete } up)).armedState ticket7 = .armed ∧
      (withPage { page5 with state := .complete } up).armedState ticket7 = .posted ∧
      (inked (withPage page5 up)).armedState ticket7 = .posted ∧
      (let l : List Ticket := [{ ticket7 with tag := 1, state := .imaging }, { ticket7 with tag := 2, state := .posted }, ticket7]
       eligibleIn .inOrder l = none ∧ eligibleIn .firstArmed l = some ticket7 ∧
         eligibleIn .inOrder [{ ticket7 with tag := 1, state := .imaging }, ticket7] = some ticket7) := by decide

theorem witness_WithdrawEndsTicket :
    ((asked 0x11 9 [0, 6] (scheduled up)).Takes .withdrawTicket (directiveArgs 0x11 9 [0, 6]) ∧
        (asked 0x11 9 [0, 6] (scheduled up)).ticket? 6 = none) ∧
      ((asked 0x11 9 [0, 7] (scheduled busy)).Takes .withdrawTicket (directiveArgs 0x11 9 [0, 7]) ∧
        (asked 0x11 9 [0, 7] (scheduled busy)).ticket? 7 = some ticket7 ∧ ticket7.state ≠ .imaging) ∧
      ((askedQuiet 0x11 9 [0, 7] (scheduled busy)).Takes .withdrawTicket ⟨1, 0x11, 9, [0, 7]⟩ ∧
        Directive.quiet ⟨1, 0x11, 9, [0, 7]⟩ = true) ∧
      ((asked 0x11 9 [0, 7] (imaging plate7 [] up)).Takes .withdrawTicket (directiveArgs 0x11 9 [0, 7]) ∧
        (asked 0x11 9 [0, 7] (imaging plate7 [] up)).ticket? 7 = some { ticket7 with state := .imaging } ∧
        ∃ pl, (asked 0x11 9 [0, 7] (imaging plate7 [] up)).drive.plate = some pl ∧ pl.tag = 7) := by
  refine ⟨⟨⟨by decide, by decide⟩, by decide⟩, ⟨⟨by decide, by decide⟩, by decide, by decide⟩,
    ⟨⟨by decide, by decide⟩, by decide⟩, ⟨by decide, by decide⟩, by decide, plate7, by decide, by decide⟩

/-- A SCREEN_BEGIN of slot `n` with 2 by 2 entries. -/
def begin2 (n : Nat) : List Nat := [n, 0, 2, 0, 2, 0]

/-- A slot out of its range, a slot that the plate in context has captured, a load of another slot, and a load of the
same one. -/
theorem witness_ScreenBeginOpensLoad :
    ((asked 0x21 9 (begin2 6) up).Takes .screenBegin (directiveArgs 0x21 9 (begin2 6)) ∧
        ¬ (beginArgs (directiveArgs 0x21 9 (begin2 6)).payload).slot ≤ 5) ∧
      ((asked 0x21 9 (begin2 0) (imaging plate7 [] up)).Takes .screenBegin (directiveArgs 0x21 9 (begin2 0)) ∧
        beginArgs (directiveArgs 0x21 9 (begin2 0)).payload = ⟨0, 2, 2, 0⟩ ∧
        (imaging plate7 [] up).screenCaptured 0 = true) ∧
      ((asked 0x21 9 (begin2 3) (loading 1 up)).Takes .screenBegin (directiveArgs 0x21 9 (begin2 3)) ∧
        (loading 1 up).screenCaptured 3 = false ∧ ∃ l, (loading 1 up).screener.load = some l ∧ l.slot ≠ 3) ∧
      (asked 0x21 9 (begin2 2) (loading 1 up)).Takes .screenBegin (directiveArgs 0x21 9 (begin2 2)) ∧
      (loading 1 up).screenCaptured 2 = false ∧ ¬ ∃ l, (loading 1 up).screener.load = some l ∧ l.slot ≠ 2 := by
  refine ⟨⟨⟨by decide, by decide⟩, by decide⟩, ⟨⟨by decide, by decide⟩, by decide, by decide⟩,
    ⟨⟨by decide, by decide⟩, by decide, ⟨2, 1⟩, rfl, by decide⟩, ⟨by decide, by decide⟩, by decide, ?_⟩
  rintro ⟨l, h, hl⟩
  obtain rfl : (⟨2, 1⟩ : ScreenLoad) = l := Option.some.inj h
  exact hl rfl

/-- A run that ends exactly at the end of the load. -/
theorem witness_ScreenDataStoresRun :
    (asked 0x22 9 [0, 1, 0, 7, 9] (loading 1 up)).Takes .screenData (directiveArgs 0x22 9 [0, 1, 0, 7, 9]) ∧
      (loading 1 up).screener.load = some ⟨2, 1⟩ ∧
      (loading 1 up).screener.screens.getD 2 .empty = .loading ⟨2, 2, 0, [9]⟩ ∧
      2 < (loading 1 up).screener.screens.length ∧ u16 (directiveArgs 0x22 9 [0, 1, 0, 7, 9]).payload 0 = 1 ∧
      (directiveArgs 0x22 9 [0, 1, 0, 7, 9]).payload.drop 2 ≠ [] ∧
      1 + ((directiveArgs 0x22 9 [0, 1, 0, 7, 9]).payload.drop 2).length ≤ 2 * 2 := by
  refine ⟨⟨by decide, by decide⟩, by decide, by decide, by decide, by decide, by decide, by decide⟩

/-- No load; a wrong position; a run of nothing, and one past the end; an end before the last threshold. -/
theorem witness_ScreenLoadRefusals :
    ((asked 0x22 9 [0, 0, 1] up).Takes .screenData (directiveArgs 0x22 9 [0, 0, 1]) ∧ up.screener.load = none ∧
        (asked 0x23 9 [] up).Takes .screenEnd (directiveArgs 0x23 9 [])) ∧
      (loading 3 up).screener.openLoad = some (⟨2, 3⟩, ⟨2, 2, 0, [9, 9, 9]⟩) ∧
      ((asked 0x22 9 [0, 2, 1] (loading 3 up)).Takes .screenData (directiveArgs 0x22 9 [0, 2, 1]) ∧
        u16 (directiveArgs 0x22 9 [0, 2, 1]).payload 0 ≠ 3) ∧
      ((asked 0x22 9 [0, 3] (loading 3 up)).Takes .screenData (directiveArgs 0x22 9 [0, 3]) ∧
        (directiveArgs 0x22 9 [0, 3]).payload.length = 2) ∧
      ((asked 0x22 9 [0, 3, 1, 1] (loading 3 up)).Takes .screenData (directiveArgs 0x22 9 [0, 3, 1, 1]) ∧
        2 * 2 < 3 + ((directiveArgs 0x22 9 [0, 3, 1, 1]).payload.length - 2)) ∧
      (asked 0x23 9 [] (loading 3 up)).Takes .screenEnd (directiveArgs 0x23 9 []) := by
  refine ⟨⟨⟨by decide, by decide⟩, by decide, by decide, by decide⟩, by decide, ⟨⟨by decide, by decide⟩, by decide⟩,
    ⟨⟨by decide, by decide⟩, by decide⟩, ⟨⟨by decide, by decide⟩, by decide⟩, by decide, by decide⟩

theorem witness_ScreenEndCompletesLoad :
    (asked 0x23 9 [] (loading 4 up)).Takes .screenEnd (directiveArgs 0x23 9 []) ∧
      (asked 0x23 9 [] (loading 4 up)).screener.openLoad = some (⟨2, 4⟩, ⟨2, 2, 0, [9, 9, 9, 9]⟩) ∧ 2 * 2 ≤ 4 := by
  refine ⟨⟨by decide, by decide⟩, by decide, by decide⟩

/-- A curve of zeros for slot `n`. -/
def curveOf (n : Nat) : List Nat := n :: List.replicate 256 0

/-- Slot 0, which the plate in context has captured, slot 7, which it has not, and slot 8. -/
theorem witness_CurveLoadReplacesCurve :
    ((asked 0x24 9 (curveOf 0) (imaging plate7 [] up)).directiveOf .curveLoad = some (directiveArgs 0x24 9 (curveOf 0)) ∧
        (directiveArgs 0x24 9 (curveOf 0)).refusal = none ∧
        (asked 0x24 9 (curveOf 0) (imaging plate7 [] up)).curveCaptured 0 = true) ∧
      ((asked 0x24 9 (curveOf 7) (imaging plate7 [] up)).directiveOf .curveLoad = some (directiveArgs 0x24 9 (curveOf 7)) ∧
        (directiveArgs 0x24 9 (curveOf 7)).refusal = none ∧ u8 (directiveArgs 0x24 9 (curveOf 7)).payload 0 ≤ 7 ∧
        (asked 0x24 9 (curveOf 7) (imaging plate7 [] up)).curveCaptured 7 = false) ∧
      (asked 0x24 9 (curveOf 8) up).directiveOf .curveLoad = some (directiveArgs 0x24 9 (curveOf 8)) ∧
        (directiveArgs 0x24 9 (curveOf 8)).refusal = none ∧ 8 ≤ u8 (directiveArgs 0x24 9 (curveOf 8)).payload 0 := by
  decide +kernel

/-- The form BIND with a plate in context, with none and with a ceiling of 0, and the form UNBIND, which takes the ink of
ticket 7 its readiness. -/
theorem witness_SetInkReplacesRecord :
    ((asked 0x20 9 [0, 0, 5, 7, 254, 255] (imaging plate7 [] up)).Takes .setInkBind
        (directiveArgs 0x20 9 [0, 0, 5, 7, 254, 255]) ∧
        inkOf (u8 (directiveArgs 0x20 9 [0, 0, 5, 7, 254, 255]).payload 0) = some .k ∧
        bindArgs (directiveArgs 0x20 9 [0, 0, 5, 7, 254, 255]).payload = ⟨5, 7, 254, 255⟩ ∧
        (imaging plate7 [] up).drive.state.inContext = true) ∧
      ((asked 0x20 9 [0, 0, 5, 7, 254, 255] up).Takes .setInkBind (directiveArgs 0x20 9 [0, 0, 5, 7, 254, 255]) ∧
        up.drive.state.inContext = false) ∧
      ((asked 0x20 9 [0, 0, 5, 7, 0, 0] up).Takes .setInkBind (directiveArgs 0x20 9 [0, 0, 5, 7, 0, 0]) ∧
        ¬ 1 ≤ (bindArgs (directiveArgs 0x20 9 [0, 0, 5, 7, 0, 0]).payload).ceiling) ∧
      (asked 0x20 9 [0, 1, 0, 0, 0, 0] (inked (scheduled up))).Takes .setInkUnbind
        (directiveArgs 0x20 9 [0, 1, 0, 0, 0, 0]) ∧
      (inked (scheduled up)).screener.inkReady .k = true := by
  refine ⟨⟨⟨by decide, by decide⟩, by decide, by decide, by decide⟩, ⟨⟨by decide, by decide⟩, by decide⟩,
    ⟨⟨by decide, by decide⟩, by decide⟩, ⟨by decide, by decide⟩, by decide⟩

/-! ## Arming at an event (R66, R114, R133, R134) -/

/-- Ink K is ready, and ticket 7 stands in the schedule in a state, under a policy. -/
def ticketed (state : TicketState) (policy : Policy) (s : State) : State :=
  { inked s with schedule := [{ ticket7 with state, policy }] }

/-- A plate is mounted in IDLE, the page of ticket 7 is COMPLETE and its ink ready; the schedule is the given one. -/
def mounted (schedule : List Ticket) (mode : OrderMode) : State :=
  { inked (withPage { page5 with state := .complete } up) with
    schedule, drive := { up.drive with plateReady := true, settings := { up.drive.settings with mode } } }

/-- Page 5, whose layers fill every row, is captured where a POST_TICKET, or a changed order mode, offers the drive its
ticket in IDLE with a plate mounted: the four lines need no read, so that the drive is IMAGING (R148, R150, R152). -/
theorem test_offer_captures :
    let seen := fun t : State => (t.schedule.map (·.state), t.drive.state, t.drive.plate.map (·.tag), t.drive.pool.length)
    (nextOf (exec .postTicket (asked 0x10 9 (post8 0) (mounted [] .inOrder)))).map seen
        = some ([.imaging], .imaging, some 8, 4) ∧
      (nextOf (exec .setHead (asked 0x31 9 [4, 0, 64, 1, 1]
          (mounted [{ ticket7 with tag := 2, state := .posted }, ticket7] .inOrder)))).map seen
        = some ([.posted, .imaging], .imaging, some 7, 4) := by decide +kernel

/-- The offer's hypotheses: an armed ticket that is eligible, in IDLE with a plate mounted, under each order mode; with none
mounted, and with none eligible. -/
theorem witness_offer :
    (∀ m, (mounted [ticket7] m).Open ∧ (mounted [ticket7] m).drive.plateReady = true ∧
        IsEligible m (mounted [ticket7] m).schedule ticket7 ∧ (mounted [ticket7] m).MeetsArming ticket7) ∧
      (let l := [{ ticket7 with tag := 2, state := .posted }, ticket7]
       IsEligible .firstArmed l ticket7 ∧ ∀ x, ¬ IsEligible .inOrder l x) ∧
      (mounted [] .inOrder).drive.state.inContext = false ∧ (mounted [] .inOrder).restart = none ∧
      (scheduled up).Open ∧ (scheduled up).drive.plateReady = false := by
  refine ⟨fun m => ⟨.inl rfl, rfl, ⟨rfl, [], [], rfl, by simp⟩, rfl, by simp [ticket7], fun z hz => ?_, ?_⟩,
    ⟨⟨rfl, [_], [], rfl, by simp⟩, fun x hx => ?_⟩, rfl, rfl, .inl rfl, rfl⟩
  · obtain rfl := List.mem_singleton.mp hz
    exact ⟨_, rfl, by decide, .inl rfl⟩
  · cases m <;> decide
  · rw [← eligibleIn_iff] at hx
    cases hx

/-- The hypotheses of POST_TICKET's and SET_HEAD's clauses on the drive, which those states meet. -/
theorem witness_offer_directives :
    (∀ s ∈ [mounted [] .inOrder, scheduled up], (asked 0x10 9 (post8 0) s).Takes .postTicket (directiveArgs 0x10 9 (post8 0))) ∧
      IsEligible .inOrder ([] ++ { ticket7 with tag := 8 } :: []) { ticket7 with tag := 8 } ∧
      (let l := [{ ticket7 with tag := 2, state := .posted }, ticket7]
       (asked 0x31 9 [4, 0, 64, 1, 1] (mounted l .inOrder)).Takes .setHead (directiveArgs 0x31 9 [4, 0, 64, 1, 1]) ∧
         (headArgs (directiveArgs 0x31 9 [4, 0, 64, 1, 1]).payload).mode = .firstArmed) ∧
      (headArgs (directiveArgs 0x31 9 [4, 0, 64, 1, 1]).payload).mode ≠ up.drive.settings.mode := by
  refine ⟨fun s hs => ?_, ⟨rfl, [], [], rfl, by simp⟩, ⟨⟨by decide, by decide⟩, by decide⟩, by decide⟩
  simp only [List.mem_cons, List.not_mem_nil, or_false] at hs
  rcases hs with rfl | rfl <;> exact ⟨by decide, by decide⟩

/-- Ink K is bound to a screen slot and a curve slot. -/
def boundTo (screen curve : Nat) (s : State) : State :=
  { s with screener := { s.screener with inks := { s.screener.inks with k := some ⟨screen, curve, 0, 255⟩ } } }

/-- Page 5 with one layer, whose one segment is being written. -/
def nearly5 : PageRecord := { awaiting .evaluating 0 with layers := (awaiting .evaluating 0).layers.take 1 }

/-- Page 5, OPEN, with every layer received. -/
def filled5 : PageRecord :=
  { page5 with layers := page5.layers.map fun l => { l with state := .filling, length := some 1, received := [0] } }

/-- The write that completes a page; a segment for a DAMAGED page; the close of a page; the failing read of a page; and the
directives that give an ink its readiness and take it: each with a ticket whose resolution names the page, or of that ink. -/
def completing : State := ticketed .posted .holdForRepair (writing nearly5 up)
def reopening : State := ticketed .armed .imageMarked (segmentAt (withPage closed5 up))
def closing : State := ticketed .posted .holdForRepair (asked 0x02 9 [0, 5, 1] (withPage filled5 up))
def failing : State := ticketed .posted .imageMarked (reading read3 (repairing 0 (holding mapped5 up)))
def reloading : State := ticketed .armed .holdForRepair (asked 0x21 9 (begin2 0) (withPage done5 up))
def loaded : State := boundTo 2 0 (ticketed .posted .holdForRepair (asked 0x23 9 [] (withPage done5 (loading 4 up))))
def curving : State := boundTo 0 7 (ticketed .posted .holdForRepair (asked 0x24 9 (curveOf 7) (withPage done5 up)))
def binding : State := boundTo 0 7 (ticketed .posted .holdForRepair (asked 0x20 9 [0, 0, 0, 0, 0, 255] (withPage done5 up)))
def unbinding : State := ticketed .armed .holdForRepair (asked 0x20 9 [0, 1, 0, 0, 0, 0] (withPage done5 up))

/-- What an event makes of the tickets and of the drive. -/
def ticketsAfter (i : Instr) (s : State) : Option (List TicketState × DriveState) :=
  (nextOf (exec i s)).map fun t => (t.schedule.map (·.state), t.drive.state)

/-- A ticket arms where its page completes or is closed complete, and an IDLE drive selects it; it disarms where its page is
EVALUATING again (R66, R134, R148). -/
theorem test_page_state_arms :
    ticketsAfter .storeWriteCompletion completing = some ([.armed], .waitPlate) ∧
      ticketsAfter .takeSegmentParcel reopening = some ([.posted], .idle) ∧
      ticketsAfter .closePage closing = some ([.armed], .waitPlate) := by decide +kernel

/-- With a plate mounted the ticket that arms is taken up at the event, and its LINE layer waits for a read (R148, R150). -/
theorem test_arming_captures :
    ticketsAfter .storeWriteCompletion { completing with drive := { completing.drive with plateReady := true } }
      = some ([.imaging], .priming) := by decide +kernel

/-- A ticket arms where its ink becomes ready, and disarms where it ceases to be (R114, R134). -/
theorem test_readiness_arms :
    ticketsAfter .screenBegin reloading = some ([.posted], .idle) ∧
      ticketsAfter .screenEnd loaded = some ([.armed], .waitPlate) ∧
      ticketsAfter .curveLoad curving = some ([.armed], .waitPlate) ∧
      ticketsAfter .setInkBind binding = some ([.armed], .waitPlate) ∧
      ticketsAfter .setInkUnbind unbinding = some ([.posted], .idle) := by decide +kernel

/-- The hypotheses of the statements that say so, with those tickets. -/
theorem witness_page_state_arms :
    (completing.store.inService = some (.write (.intake 0)) ∧ completing.writeOf (.intake 0) = some write5 ∧
        write5.tile < completing.tileCount ∧ completing.page? 0 = some nearly5 ∧
        (nearly5.layer? write5.target.layer).isSome = true ∧ completing.restart = none) ∧
      (reopening.intakeTaking = true ∧ reopening.freeSlot = some 0 ∧ rises reopening.store.poolOut = true ∧
        passesTests reopening false head5 [0xAA] 0 lineK closed5 lost5 ∧ lost5.tileAt (slotOf false head5) = some 5) ∧
      (closing.Takes .closePage (directiveArgs 0x02 9 [0, 5, 1]) ∧ closing.findPage 5 1 = some (0, filled5) ∧
        filled5.state = .opened ∧ filled5.Wf) ∧
      (failing.StoreWf ∧ failing.store.inService = some (.read read3) ∧ failing.page? 0 = some mapped5 ∧
        mapped5.state = .evaluating) ∧
      ∀ s ∈ [completing, reopening, closing, failing], ∃ x, s.schedule[0]? = some x ∧
        (∃ z ∈ x.resolutions, z.record = 0) ∧ s.TagsDistinct ∧ s.drive.state = .idle := by
  refine ⟨by decide, ⟨by decide, by decide, by decide, ⟨by decide, by decide, by decide,
      head5_agrees lost5 (by decide) (by decide) (by decide) (by decide) rfl,
      by simp [holdsParcel, lost5, line5, LayerRecord.fresh], .inr ⟨rfl, .inl ⟨rfl, .inl (by decide)⟩⟩⟩, by decide⟩,
    ⟨⟨by decide, by decide⟩, by decide, by decide, by decide, by decide, by decide, by decide⟩,
    ⟨storeWf_of rfl ⟨by decide, by decide, by decide, by decide⟩ rfl (by decide) (by decide) (by decide) rfl rfl rfl rfl
      rfl ?_, rfl, by decide, by decide⟩, ?_⟩
  · intro t i k acc h
    injection h with _ hi
    subst hi
    decide
  · intro s hs
    simp only [List.mem_cons, List.not_mem_nil, or_false] at hs
    rcases hs with rfl | rfl | rfl | rfl <;> exact ⟨_, rfl, by decide,
      by simp [State.TagsDistinct, completing, reopening, closing, failing, ticketed], rfl⟩

theorem witness_readiness_arms :
    (reloading.Takes .screenBegin (directiveArgs 0x21 9 (begin2 0)) ∧ reloading.screenCaptured 0 = false ∧
        reloading.screener.load = none ∧ reloading.screener.inkReady .k = true) ∧
      (loaded.Takes .screenEnd (directiveArgs 0x23 9 []) ∧
        loaded.screener.openLoad = some (⟨2, 4⟩, ⟨2, 2, 0, [9, 9, 9, 9]⟩)) ∧
      (curving.directiveOf .curveLoad = some (directiveArgs 0x24 9 (curveOf 7)) ∧ curving.curveCaptured 7 = false) ∧
      binding.Takes .setInkBind (directiveArgs 0x20 9 [0, 0, 0, 0, 0, 255]) ∧
      unbinding.Takes .setInkUnbind (directiveArgs 0x20 9 [0, 1, 0, 0, 0, 0]) ∧
      unbinding.screener.inkReady .k = true ∧
      ∀ s ∈ [loaded, curving, binding], s.screener.inkReady .k = false ∧
        s.schedule = [{ ticket7 with state := .posted }] := by
  refine ⟨⟨⟨by decide, by decide⟩, by decide, by decide, by decide⟩, ⟨⟨by decide, by decide⟩, by decide⟩,
    by decide +kernel, ⟨by decide, by decide⟩, ⟨by decide, by decide⟩, by decide, by decide +kernel⟩

/-! ## The other records of a page id (R3, R18, R130) -/

/-- Versions 1, 2 and 3 of page 5, and page 6; and a ticket that names version 2. -/
def versions : State :=
  { ((((withPage { page5 with superseded := true } up).setPage 1
      (some { page5 with version := 2, superseded := true, useCount := 1 })).setPage 2
      (some { page5 with version := 3 })).setPage 3 (some { page5 with pageId := 6, superseded := true })) with
    schedule := [{ ticket7 with left := ⟨5, some 2⟩, state := .posted, leftRes := some ⟨1, 2⟩ }] }

/-- The release of version 3 leaves version 2 the highest, and the release of version 1 leaves the others as they were. -/
theorem test_release_supersedes_again :
    (nextOf (exec .releasePage (asked 0x03 9 [0, 5, 3] versions))).map
        (fun t => (List.range 4).map fun r => (t.page? r).map (·.superseded))
      = some [some true, some false, none, some true] ∧
    (nextOf (exec .releasePage (asked 0x03 9 [0, 5, 1] versions))).map
        (fun t => (List.range 4).map fun r => (t.page? r).map (·.superseded))
      = some [none, some true, some false, some true] := by decide

/-- The law of use counts of a page table of 48 records is that of its 48 records. -/
theorem usesWf_of {s : State} (hl : s.pages.length = 48)
    (hr : ∀ r < 48, (s.page? r).all (fun p => p.useCount == s.uses r) = true)
    (hs : ∀ t ∈ s.schedule, ∀ x ∈ t.resolutions, ∃ p, s.page? x.record = some p ∧ p.current = true) : s.UsesWf := by
  refine ⟨fun r p h => ?_, hs⟩
  by_cases h48 : r < 48
  · have := hr r h48
    rw [h] at this
    simpa using this
  · have hnone : s.page? r = none := by
      unfold State.page?
      rw [List.getD_eq_getElem?_getD, List.getElem?_eq_none (by omega)]
      rfl
    rw [hnone] at h
    cases h

theorem witness_release_supersedes_again :
    (asked 0x03 9 [0, 5, 3] versions).Takes .releasePage (directiveArgs 0x03 9 [0, 5, 3]) ∧
      (asked 0x03 9 [0, 5, 3] versions).findPage 5 3 = some (2, { page5 with version := 3 }) ∧
      versions.UsesWf ∧ versions.TagsDistinct ∧
      (∃ q, versions.page? 0 = some q ∧ q.current = true ∧ q.pageId = 5) ∧
      (∃ q, versions.page? 3 = some q ∧ ¬ (q.current = true ∧ q.pageId = 5)) := by
  refine ⟨⟨by decide, by decide⟩, by decide, usesWf_of (by decide) (by decide) ?_, by simp [State.TagsDistinct, versions],
    ⟨_, rfl, by decide⟩, ⟨_, rfl, by decide⟩⟩
  intro t ht x hx
  obtain rfl := List.mem_singleton.mp ht
  obtain rfl := List.mem_singleton.mp hx
  exact ⟨_, rfl, rfl⟩

/-- Version 1 of page 5 is RELEASING with its last write in flight, beside version 2 that ticket 7 names. -/
def lastWrite : State :=
  { (writing { page5 with state := .releasing, pendingWrites := 1 } up).setPage 1
      (some { page5 with version := 2, useCount := 1 }) with
    schedule := [{ ticket7 with state := .posted, leftRes := some ⟨1, 2⟩ }] }

theorem witness_last_write_beside_another :
    lastWrite.store.inService = some (.write (.intake 0)) ∧ lastWrite.restart = none ∧ lastWrite.UsesWf ∧
      lastWrite.TagsDistinct ∧ (lastWrite.page? 1).isSome = true := by
  refine ⟨by decide, by decide, usesWf_of (by decide) (by decide) ?_, by simp [State.TagsDistinct, lastWrite], by decide⟩
  intro t ht x hx
  obtain rfl := List.mem_singleton.mp ht
  obtain rfl := List.mem_singleton.mp hx
  exact ⟨_, rfl, rfl⟩

/-! ## Settings, Prefetch, the head drive and the return lane -/

/-- Legal settings with the queue hold mark at 96, and settings with it at 97; a reserve low mark of 32767 with 32767 tiles
free, at which the cause is present, and with 32768 free, at which it is not. -/
theorem witness_SetFlowReplacesSettings :
    ((asked 0x30 9 [96, 95, 0, 0, 0, 0, 0, 0, 0x80, 0, 1] up).Takes .setFlow
        (directiveArgs 0x30 9 [96, 95, 0, 0, 0, 0, 0, 0, 0x80, 0, 1]) ∧
        flowArgs (directiveArgs 0x30 9 [96, 95, 0, 0, 0, 0, 0, 0, 0x80, 0, 1]).payload = ⟨96, 95, 0, up.tileCount, 1⟩) ∧
      (asked 0x30 9 [97, 95, 0, 0, 0, 0, 0, 0, 0x80, 0, 1] up).Takes .setFlow
        (directiveArgs 0x30 9 [97, 95, 0, 0, 0, 0, 0, 0, 0x80, 0, 1]) ∧
      (asked 0x30 9 [96, 95, 0, 0, 0x7F, 0xFF, 0, 0, 0x80, 0, 1] (up.takeFromPool 0)).Takes .setFlow
        (directiveArgs 0x30 9 [96, 95, 0, 0, 0x7F, 0xFF, 0, 0, 0x80, 0, 1]) ∧
      (flowArgs (directiveArgs 0x30 9 [96, 95, 0, 0, 0x7F, 0xFF, 0, 0, 0x80, 0, 1]).payload).low = 32767 ∧
      (up.takeFromPool 0).freeCount = 32767 ∧ up.freeCount = 32768 := by
  refine ⟨⟨⟨by decide, by decide⟩, by decide⟩, ⟨by decide, by decide⟩, ⟨by decide, by decide⟩, by decide, by decide,
    by decide⟩

/-- Legal settings at the ends of their ranges with no plate in context and with one; and a width of 1023. -/
theorem witness_SetHeadReplacesSettings :
    ((asked 0x31 9 [4, 0, 64, 1, 1] up).Takes .setHead (directiveArgs 0x31 9 [4, 0, 64, 1, 1]) ∧
        (headArgs (directiveArgs 0x31 9 [4, 0, 64, 1, 1]).payload).ok = true ∧ up.drive.state.inContext = false) ∧
      (asked 0x31 9 [4, 0, 64, 1, 1] (imaging plate7 [] up)).Takes .setHead (directiveArgs 0x31 9 [4, 0, 64, 1, 1]) ∧
      (imaging plate7 [] up).drive.state.inContext = true ∧
      (asked 0x31 9 [3, 255, 64, 1, 1] up).Takes .setHead (directiveArgs 0x31 9 [3, 255, 64, 1, 1]) ∧
      (headArgs (directiveArgs 0x31 9 [3, 255, 64, 1, 1]).payload).width = 1023 := by
  refine ⟨⟨⟨by decide, by decide⟩, by decide, by decide⟩, ⟨by decide, by decide⟩, by decide, ⟨by decide, by decide⟩,
    by decide⟩

/-- A HALTED drive with the given stuck indicator. -/
def halted (stuck : Bool) : State := { up with drive := { up.drive with state := .halted, stuck } }

theorem witness_ResumeHeadLeavesHalted :
    (asked 0x32 9 [] (halted false)).Takes .resumeHead (directiveArgs 0x32 9 []) ∧ (halted false).drive.state = .halted ∧
      (halted false).drive.stuck = false ∧ (asked 0x32 9 [] (halted true)).Takes .resumeHead (directiveArgs 0x32 9 []) ∧
      (halted true).drive.stuck = true ∧ up.drive.state ≠ .halted := by
  refine ⟨⟨by decide, by decide⟩, by decide, by decide, ⟨by decide, by decide⟩, by decide, by decide⟩

/-- On an idle lane, on a busy one, and QUIET; and with an ALARM report owed. -/
theorem witness_AlarmDirectives :
    (up.intake.reserveCause = reservePresent up.intake.flow up.freeCount ∧ up.reports.queue.length < 32 ∧
        (asked 0x40 9 [0x3F, 0xFF] up).Takes .setAlarmMask (directiveArgs 0x40 9 [0x3F, 0xFF]) ∧
        (asked 0x41 9 [0x3F, 0xFF] up).Takes .clearAlarms (directiveArgs 0x41 9 [0x3F, 0xFF]) ∧
        (directiveArgs 0x41 9 [0x3F, 0xFF]).quiet = false) ∧
      busy.reports.sending.isSome = true ∧
      (askedQuiet 0x40 9 [0, 1] busy).Takes .setAlarmMask ⟨1, 0x40, 9, [0, 1]⟩ ∧
      (askedQuiet 0x41 9 [0, 1] busy).Takes .clearAlarms ⟨1, 0x41, 9, [0, 1]⟩ ∧
      Directive.quiet ⟨1, 0x40, 9, [0, 1]⟩ = true ∧
      ((asked 0x40 9 [0, 1] { up with reports := { up.reports with owed := true } }).Takes .setAlarmMask
        (directiveArgs 0x40 9 [0, 1])) ∧ up.reports.sending = none ∧ up.reports.queue = [] := by
  refine ⟨⟨by decide, by decide, ⟨by decide, by decide⟩, ⟨by decide, by decide⟩, by decide⟩, by decide,
    ⟨by decide, by decide⟩, ⟨by decide, by decide⟩, by decide, ⟨by decide, by decide⟩, by decide, by decide⟩

/-- One state for each row: the seven with a body, and QUERY PAGE with the page and without it. -/
theorem witness_QueriesChangeNothing :
    (∀ k ∈ [(2, Instr.queryPages), (3, .querySchedule), (4, .queryStore), (5, .queryInks), (6, .queryHead),
        (7, .queryCounters)],
      (asked 0x50 9 [k.1, 0, 0, 0, 0] up).directiveOf k.2 = some (directiveArgs 0x50 9 [k.1, 0, 0, 0, 0]) ∧
        (directiveArgs 0x50 9 [k.1, 0, 0, 0, 0]).refusal = none) ∧
      (asked 0x51 9 [] up).Takes .identify (directiveArgs 0x51 9 []) ∧
      ((asked 0x50 9 [1, 0, 0, 5, 1] (withPage page5 up)).Takes .queryPage (directiveArgs 0x50 9 [1, 0, 0, 5, 1]) ∧
        (withPage page5 up).findPage 5 1 = some (0, page5) ∧ up.findPage 5 1 = none) ∧
      ∀ k : Instr, k ∈ [Instr.queryPages, .querySchedule, .queryStore, .queryInks, .queryHead, .queryCounters, .identify] →
        ∀ s, (queryBodyOf s k).isSome = true := by
  refine ⟨by decide, ⟨by decide, by decide⟩, ⟨⟨by decide, by decide⟩, by decide, by decide⟩, ?_⟩
  intro k hk s
  simp only [List.mem_cons, List.not_mem_nil, or_false] at hk
  rcases hk with rfl | rfl | rfl | rfl | rfl | rfl | rfl <;> rfl

/-- A queue with a free place, and a full one. -/
theorem witness_CountersCopiedThenCleared :
    (asked 0x50 9 [7, 1, 0, 0, 0] up).Takes .queryCountersClear (directiveArgs 0x50 9 [7, 1, 0, 0, 0]) ∧
      (directiveArgs 0x50 9 [7, 1, 0, 0, 0]).quiet = false ∧
      up.intake.reserveCause = reservePresent up.intake.flow up.freeCount ∧ up.reports.queue.length < 32 ∧
      32 ≤ (List.replicate 32 (Report.alarm 0 0)).length := by
  refine ⟨⟨by decide, by decide⟩, by decide, by decide, by decide, by decide⟩

/-- With a plate in context, and with a LOADING slot; with no write in flight, and with one. -/
theorem witness_RestartAbortsPlate :
    State.writesInFlight (asked 0x5F 9 [] (imaging plate7 [] up)) = false ∧
      State.writesInFlight (asked 0x5F 9 [] (writing page5 up)) = true ∧
      (asked 0x5F 9 [] (writing page5 up)).Takes .restart (directiveArgs 0x5F 9 []) ∧
      reservePresent up.intake.flow (up.tileCount - up.retiredCount) = false ∧
    (asked 0x5F 9 [] (imaging plate7 [] up)).Takes .restart (directiveArgs 0x5F 9 []) ∧
      (asked 0x5F 9 [] (loading 3 up)).Takes .restart (directiveArgs 0x5F 9 []) ∧
      (asked 0x5F 9 [] (loading 3 up)).screener.screen 2 = .loading ⟨2, 2, 0, [9, 9, 9]⟩ :=
  ⟨by decide, by decide, ⟨by decide, by decide⟩, by decide, ⟨by decide, by decide⟩, ⟨by decide, by decide⟩, by decide⟩

/-- A RESTART in hand, with no store write in flight, and with one. -/
theorem witness_RestartFinishEmptiesTables :
    let h : RestartHold := ⟨9, false, none⟩
    State.restart { up with restart := some h } = some h ∧ up.store.sweep = none ∧ up.restart = none ∧
      reservePresent up.intake.flow (up.tileCount - up.retiredCount) = false ∧
      State.writesInFlight { up with restart := some h } = false ∧
      State.writesInFlight { writing page5 up with restart := some h } = true := by decide

/-- A LINE stream whose first row is at hand, a literal of 8 bytes, and a PICTURE stream with one of 16. -/
def lineRow : Stream :=
  { Stream.start 9 [3] 8 4 with issued := 1, arrived := 1, buffer := [7, 0xAA, 0, 0, 0, 0, 0, 0, 0].map byteOf }
def pictureRow : Stream :=
  { Stream.start 17 [4] 16 1 with issued := 1, arrived := 1, buffer := byteOf 15 :: List.replicate 16 9 }

/-- A stream that has ended with its first row missing, one that is cut before it, and one whose row, which overran, has
been completed ahead of the line. -/
def atEnd (u : Stream) : Stream := { u with buffer := [] }
def atCut (u : Stream) : Stream := { u with arrived := 0, buffer := [], cut := some 0 }
def aheadRow : Stream :=
  { lineRow with
    buffer := [], rows := 1, position := 9, previous := [0xAA, 0, 0, 0, 0, 0, 0, 0].map byteOf, ahead := some true }

/-- Line 0 of page 5 is to be made of two streams, for a head of 8 dots. -/
def rowsOf (l p : Stream) : State :=
  inked (making { plate7 with headWidth := 8 }
    { slot5 with line := ⟨0, .read l, false, false⟩, picture := ⟨1, .read p, false, false⟩ } 0)

/-- The line made of them; the marked, held and faulted counts of the summary, the left cursor, the counter unpack_faults,
and 1 for each indicator that is set of LINE marked, LINE faulted and PICTURE faulted; and the left slot's held row. -/
def lineMade (s : State) : Option (List Line × List Nat × List Byte) :=
  (nextOf (exec .makeLine s)).bind fun t => t.drive.plate.bind fun pl => t.prefetch.job.map fun j =>
    (t.drive.pool, [pl.summary.lineMarked, pl.summary.pictureHeld, pl.summary.unpackFaults, j.left.cursor,
      t.reports.counters.unpackFaults, j.left.line.marked.toNat, j.left.line.faulted.toNat, j.left.picture.faulted.toNat],
      j.left.held)

/-- The dots of the byte 0xAA. -/
def dotsAA : Line := [true, false, true, false, true, false, true, false]

/-- The rows of a line (R80 to R84, R88, R92, R93): rows at hand; a stream's end, which is a fault and marks the line; cuts,
which are none; and a row completed ahead, whose overrun counts now. -/
theorem test_line_of_rows :
    [rowsOf lineRow pictureRow, rowsOf (atEnd lineRow) pictureRow, rowsOf (atCut lineRow) (atCut pictureRow),
        rowsOf aheadRow pictureRow].map lineMade
      = [some ([dotsAA], [0, 0, 0, 1, 0, 0, 0, 0], List.replicate 16 9),
        some ([List.replicate 8 true], [1, 0, 1, 1, 1, 1, 1, 0], List.replicate 16 9),
        some ([List.replicate 8 true], [1, 0, 0, 1, 0, 1, 0, 0], []),
        some ([dotsAA], [0, 0, 1, 1, 1, 0, 1, 0], List.replicate 16 9)] := by
  decide +kernel

/-- Page 5 of 300 lines, of which the LINE layer of band 1 is WHOLE in tile 3. -/
def tall5 : PageRecord :=
  { page5 with
    state := .damaged, height := 300, bandCount := 2
    layers := (layerIds 1 2).map fun id => if id = ⟨.k, 1, .line⟩ then
      { LayerRecord.fresh id with
        state := .whole, length := some 1, received := [0], tileMap := (LayerRecord.fresh id).tileMap.set 0 (some 3) }
      else LayerRecord.fresh id }

/-- Its line 255 is to be made. -/
def entering : State :=
  { making { plate7 with left := ⟨0, 1, 64, 300⟩, lineCount := 300 } { slot5 with height := 300, cursor := 255 } 255 with
    pages := (withPage tall5 up).pages }

/-- The line that takes the cursor to 256 captures band 1 (R86, R87, R94): its LINE layer is read, 44 rows of 8 bytes from
tile 3, and its EMPTY PICTURE layer is filled and counts. -/
theorem test_band_entered :
    (nextOf (exec .makeLine entering)).map (fun t =>
        (t.prefetch.job.map fun j => (j.left.cursor, j.left.line.kind, j.left.picture.kind),
        t.drive.plate.map (·.summary)))
      = some (some (256, .read (Stream.start 1 [3] 8 44), .fill .empty), some ⟨1, 1, 0, 0, false⟩) := by decide +kernel

/-- A margin line; the first image line, of filled layers; lines of rows of every kind; one that enters a band; and one of
two slots of which the right one is exhausted. -/
theorem witness_MakeLineFillsPool :
    let two : State := { making { plate7 with right := some ⟨1, 1, 64, 0⟩ } slot5 0 with
      prefetch := ⟨4, some ⟨0, slot5, some { slot5 with record := 1, height := 0 }, 0, []⟩⟩ }
    (∀ s ∈ [making { plate7 with margin := 1 } slot5 0, making plate7 slot5 0, rowsOf lineRow pictureRow,
        rowsOf (atEnd lineRow) (atEnd pictureRow), rowsOf (atCut lineRow) (atCut pictureRow), rowsOf aheadRow pictureRow,
        entering, two], s.canMakeLine = true ∧ s.drive.plate.isSome = true ∧ s.prefetch.job.isSome = true) ∧
      (∀ u ∈ [lineRow, pictureRow], u.ahead = none ∧ u.mode = .reading ∧ ∃ row overrun rest, u.Completes row overrun rest) ∧
      (∀ u ∈ [lineRow, pictureRow], (atEnd u).AtEnd ∧ (atCut u).AtCut ∧ u.rows = 0) ∧
      (255 + 1) % 256 = 0 ∧ 255 + 1 < slot5.height + 296 ∧
      (∃ l, entering.page? 0 = some tall5 ∧ tall5.layer? ⟨.k, 1, .line⟩ = some l ∧ l.state = .whole ∧ l.length = some 1) ∧
      ∃ l, tall5.layer? ⟨.k, 1, .picture⟩ = some l ∧ l.state = .empty := by
  refine ⟨by decide +kernel, ?_, ?_, by decide, by decide, ⟨_, rfl, rfl, rfl, rfl⟩, ⟨_, rfl, rfl⟩⟩
  · intro u hu
    simp only [List.mem_cons, List.not_mem_nil, or_false] at hu
    rcases hu with rfl | rfl
    · exact ⟨rfl, rfl, _, _, _, .inl rfl⟩
    · exact ⟨rfl, rfl, _, _, _, .inl rfl⟩
  · intro u hu
    simp only [List.mem_cons, List.not_mem_nil, or_false] at hu
    rcases hu with rfl | rfl
    · exact ⟨⟨rfl, .inr (.inr ⟨rfl, ⟨_, rfl, rfl⟩, by decide⟩)⟩, ⟨rfl, .inr ⟨rfl, ⟨_, rfl⟩, by decide, rfl⟩⟩, rfl⟩
    · exact ⟨⟨rfl, .inr (.inr ⟨rfl, ⟨_, rfl, rfl⟩, by decide⟩)⟩, ⟨rfl, .inr ⟨rfl, ⟨_, rfl⟩, by decide, rfl⟩⟩, rfl⟩

theorem witness_PrefetchIssuesRead :
    let slot := { slot5 with line := ⟨0, .read stream5, false, false⟩ }
    let s := making plate7 slot 0
    s.issuingStream = some (.left, .line) ∧ s.captureOf .left .line = some slot.line ∧ slot.line.stream? = some stream5 ∧
      s.store.inService = none ∧ s.store.readSide = [] ∧ s.store.writeSide = [] ∧
      (stream5.nextRead .left .line 0).tile ∉ s.store.retired := by decide

/-- The worked row of the spec, one that overruns, and a full row with two operand bytes left to consume; and the codes at
the ends of their ranges, short of the row end, at it and past it. -/
theorem witness_CompleteRowHasRowWidth :
    (List.replicate 8 (0 : Byte)).length = 8 ∧ ([] : List Byte).length < 8 ∧
      eatBytes 8 (List.replicate 8 0) ⟨[], .code⟩ [0x81, 0, 1, 0xAA, 0x55, 0xFF, 0]
        = .complete [0, 0, 0, 0, 0xAA, 0x55, 0, 0] false [] ∧
      eatBytes 2 [0, 0] ⟨[], .code⟩ [2, 1, 2, 3] = .complete [1, 2] true [] ∧
      eatBytes 2 [0, 0] ⟨[1, 2], .skip 2⟩ [3, 4, 5] = .complete [1, 2] true [5] ∧
      codeOutput 4 [1, 2, 3, 4] [7] 0 [9] 1 [9] ∧ 1 + 1 < 4 ∧
      codeOutput 4 [1, 2, 3, 4] [7] 127 (List.replicate 128 9) 128 (List.replicate 128 9) ∧ 4 < 1 + 128 ∧
      codeOutput 4 [1, 2, 3, 4] [7] 128 [9] 3 [9, 9, 9] ∧ 1 + 3 = 4 ∧
      codeOutput 4 [1, 2, 3, 4] [7] 253 [9] 128 (List.replicate 128 9) ∧
      codeOutput 4 [1, 2, 3, 4] [7] 254 [0] 1 [2] ∧ codeOutput 4 [1, 2, 3, 4] [7] 254 [255] 256 [2, 3, 4] ∧
      codeOutput 4 [1, 2, 3, 4] [7] 255 [9] 3 [9, 9, 9] := by
  refine ⟨by decide, by decide, by decide, by decide, by decide, .inl (by decide), by decide, .inl (by decide +kernel),
    by decide, .inr (.inl ⟨9, by decide⟩), by decide, .inr (.inl ⟨9, by decide +kernel⟩),
    .inr (.inr (.inl ⟨0, by decide⟩)), .inr (.inr (.inl ⟨255, by decide +kernel⟩)), .inr (.inr (.inr ⟨9, by decide⟩))⟩

/-- The screen, the extreme tones, tones at and about a floor of 10 and a ceiling of 200, and dots of both pages. -/
theorem witness_ExtremeTonesIgnoreScreen :
    0 < screen1.w ∧ 0 < screen1.h ∧ screen1.entries.length = screen1.w * screen1.h ∧ (∀ b ∈ screen1.entries, b ≠ 0) ∧
      tone [0] (u8 [0] (0 / 4)) = 0 ∧ tone [255] (u8 [0] (0 / 4)) = 255 ∧
      (∀ v ∈ [1, 9, 10, 200, 201, 254], tone [byteOf v] (u8 [0] (0 / 4)) = v) ∧ 0 < plate7.headWidth ∧
      0 < plate7.left.width ∧ plate7.left.width - 1 < plate7.headWidth ∧
      (let pl : Plate := { plate7 with gutter := 2, right := some ⟨1, 1, 8, 4⟩ }
       pl.right = some ⟨1, 1, 8, 4⟩ ∧ 64 + 2 + 7 < pl.headWidth ∧ pl.left.width + pl.gutter = 66) := by decide

/-- The drive waits for a plate with the armed ticket 7. -/
def waiting : State :=
  { inked (scheduled up) with drive := { up.drive with state := .waitPlate, selected := some 7 } }

/-- The drive waits for a plate of page 5 on the left and, on the right, of a page of 8 dots by 6 lines whose LINE layer is
WHOLE, of one byte in tile 3. -/
def right6 : PageRecord :=
  { page5 with
    pageId := 6, state := .damaged, width := 8, height := 6, useCount := 1
    layers := page5.layers.map fun l => if l.id = lineK then
      { l with state := .whole, length := some 1, received := [0], tileMap := l.tileMap.set 0 (some 3) } else l }
def ticketTwo : Ticket := { ticket7 with margin := 1, gutter := 2, right := some ⟨6, none⟩, rightRes := some ⟨1, 1⟩ }
def waitingTwo : State := { waiting.setPage 1 (some right6) with schedule := [ticketTwo] }

/-- The context and the captures of two pages (R85, R87, R94, R100): 7 lines; content of 64 + 2 + 8 dots in a head of 16384;
the left layers EMPTY, and filled; the right LINE layer to be read, 6 rows of 1 byte; and its PICTURE layer filled. The margin
line is made, and the cursors are 0. -/
theorem test_bands_captured :
    (nextOf (exec .plateReadyRise waitingTwo)).bind (fun t => t.drive.plate.bind fun pl => t.prefetch.job.map fun j =>
        ([pl.lineCount, pl.summary.lineMarked, pl.summary.pictureHeld, pl.summary.clipped.toNat, t.drive.pool.length,
          j.left.cursor, (j.right.map (·.cursor)).getD 9], [j.left.line.kind, j.left.picture.kind],
          j.right.map fun ps => (ps.line.kind, ps.picture.kind)))
      = some ([7, 1, 2, 0, 1, 0, 0], [.fill .empty, .fill .empty],
          some (.read (Stream.start 1 [3] 1 6), .fill .empty)) := by decide +kernel

/-- A plate of one page, and of two, at heads of 73 dots, which clips the content of 74, and of 74, which does not. -/
theorem witness_PlateReadyRiseCapturesPlate :
    let head (n : Nat) : State := { waitingTwo with drive := { waitingTwo.drive with settings := ⟨n, 1, 40, .inOrder⟩ } }
    (∀ s ∈ [waiting, waitingTwo, head 73, head 74], s.drive.state = .waitPlate ∧ s.drive.plateReady = false ∧
        s.screener.inks.get .k = some ⟨0, 0, 0, 255⟩ ∧ s.page? 0 = some { page5 with useCount := 1 }) ∧
      waiting.eligible = some ticket7 ∧ waitingTwo.eligible = some ticketTwo ∧ ticket7.right = none ∧
      ticketTwo.rightRes = some ⟨1, 1⟩ ∧ waitingTwo.page? 1 = some right6 ∧
      (head 73).drive.settings.width < 64 + 2 + 8 ∧ ¬ (head 74).drive.settings.width < 64 + 2 + 8 ∧
      0 < waiting.drive.settings.prime := by
  decide

/-- The same with a head of 8 dots and the given prime level, and with one line of margin. -/
def waitingFor (prime : Nat) (p : PageRecord) : State :=
  let s := inked (scheduled up)
  { s.setPage 0 (some { p with useCount := 1 }) with
    schedule := [{ ticket7 with margin := 1 }]
    drive := { up.drive with state := .waitPlate, selected := some 7, settings := ⟨8, prime, 40, .inOrder⟩ } }

/-- Page 5 with a WHOLE LINE layer of one byte in tile 3. -/
def whole5 : PageRecord := { pageWith fun _ => { held5 with state := .whole, tileMap := line5.tileMap.set 0 (some 3) } with
  state := .complete }

/-- The margin line is made at the capture and the LINE rows wait for their reads: a prime level of 1 is met at once,
and one of 2 is not (R85, R152). -/
theorem test_capture_makes_lines :
    (nextOf (exec .plateReadyRise (waitingFor 1 whole5))).map
        (fun t => (t.drive.pool, t.drive.state, t.drive.stall, t.drive.exposeHigh))
      = some ([List.replicate 8 false], .imaging, some 40, true) ∧
    (nextOf (exec .plateReadyRise (waitingFor 2 whole5))).map
        (fun t => (t.drive.pool, t.drive.state, t.drive.stall, t.drive.exposeHigh))
      = some ([List.replicate 8 false], .priming, none, false) := by decide +kernel

/-- Filled layers need no read, so that all five lines are made at the capture, and the margins are met by their end
(R86, R152). -/
theorem test_capture_makes_every_line :
    (nextOf (exec .plateReadyRise (waitingFor 48 page5))).map (fun t => (t.drive.pool.length, t.drive.state))
      = some (5, .imaging) := by decide +kernel

/-- A plate in context, UNLOADING, HALTED and IDLE. -/
theorem witness_PlateReadyFallEndsPlate :
    let level (d : DriveState) : State := { up with drive := { up.drive with state := d, plateReady := true } }
    (imaging plate7 [] up).drive.plateReady = true ∧ (imaging plate7 [] up).drive.state.inContext = true ∧
      (imaging plate7 [] up).drive.plate = some plate7 ∧
      (imaging plate7 [] up).ticket? plate7.tag = some { ticket7 with state := .imaging } ∧
      ∀ d ∈ [DriveState.unloading, .halted, .idle, .waitPlate], (level d).drive.plateReady = true ∧
        (level d).drive.state = d := by decide

/-- A line in the pool, a plate that is PRIMING, and none. -/
theorem witness_LineRequestStartsTransfer :
    let s := { making plate7 slot5 1 with drive := (imaging plate7 [[true]] up).drive }
    s.drive.state = .imaging ∧ s.drive.plate = some plate7 ∧ s.prefetch.job = some ⟨1, slot5, none, 0, []⟩ ∧
      plate7.transfer = none ∧ s.drive.pool = [[true]] ∧ ([] : List Line).length < 64 ∧
      (({ up with drive := { up.drive with state := .priming } } : State).drive.state = .priming) ∧
      up.drive.state.inContext = false := by decide

/-- The three spoiling events. -/
theorem witness_SpoilingEventsEndPlate :
    (imaging plate7 [] up).drive.state = .imaging ∧
      (imaging plate7 [] up).ticket? plate7.tag = some { ticket7 with state := .imaging } ∧
      (imaging plate7 [] up).drive.plateReady = true ∧ plate7.transfer = none ∧ (imaging plate7 [] up).drive.pool = [] ∧
      (imaging { plate7 with transfer := some [true] } [] up).drive.plate = some { plate7 with transfer := some [true] } ∧
      (({ imaging plate7 [] up with drive := { (imaging plate7 [] up).drive with stall := some 40 } } : State).drive.stall
        = some 40) := by decide

/-- The last line but one, and the last. -/
theorem witness_TransferCompletionEndsPlate :
    let third := { plate7 with requested := 3, sent := 2, transfer := some [true] }
    let last := { plate7 with requested := 4, sent := 3, transfer := some [true] }
    (imaging third [] up).drive.state = .imaging ∧ (imaging third [] up).drive.plate = some third ∧
      third.transfer.isSome = true ∧ third.sent + 1 < third.lineCount ∧
      (imaging last [] up).drive.plate = some last ∧ last.transfer.isSome = true ∧ last.lineCount ≤ last.sent + 1 ∧
      (imaging last [] up).ticket? last.tag = some { ticket7 with state := .imaging } ∧ (imaging last [] up).drive.plateReady = true := by decide

/-- The state after a run of `n` high samples. -/
def haltRunOf (n : Nat) : State := { up with drive := { up.drive with haltRun := n } }

/-- The ends of the ranges, runs of 0, 3, 4, 6 and 7; and a plate in context, on a busy lane. -/
theorem witness_HaltSamples :
    (haltRunOf 0).drive.haltRun < 4 ∧ (haltRunOf 3).drive.haltRun < 4 ∧ 4 ≤ (haltRunOf 4).drive.haltRun ∧
      (haltRunOf 6).drive.haltRun ≤ 6 ∧ (haltRunOf 6).drive.haltRun = 6 ∧ (haltRunOf 7).drive.haltRun = 7 ∧
      (haltRunOf 7).drive.haltRun ≠ 6 ∧ (haltRunOf 0).drive.state.inContext = false ∧
      (imaging plate7 [] busy).drive.state.inContext = true ∧ (imaging plate7 [] busy).drive.plate = some plate7 ∧
      (imaging plate7 [] busy).ticket? plate7.tag = some { ticket7 with state := .imaging } ∧
      (imaging plate7 [] busy).reports.sending.isSome = true ∧ (imaging plate7 [] busy).reports.queue.length + 2 < 32 := by
  decide

/-- A busy lane that owes an ALARM report, with given latches and mask. -/
def owing (latches mask : BitVec 14) : State :=
  { busy with reports := { busy.reports with latches, mask, owed := true } }

/-- An empty queue; and one that holds a report, with nothing owed, with an unmasked latch and with a masked one only; and
a full queue, a report owed and a cause whose latch is clear and not masked. -/
theorem witness_ParcelEndBeginsNext :
    busy.reports.sending = some (.reply 0 0 none []) ∧ busy.reports.queue = [] ∧
      (busy.report (.reply 1 1 none [])).reports.queue = [.reply 1 1 none []] ∧ busy.reports.owed = false ∧
      ((owing 0x800 0).report (.reply 1 1 none [])).reports.queue = [.reply 1 1 none []] ∧
      ((owing 0x800 0).report (.reply 1 1 none [])).reports.owed = true ∧
      (owing 0x800 0).reports.latched .headHalt = true ∧ (owing 0x800 0).reports.masked .headHalt = false ∧
      (owing 0x800 0x800).reports.latches &&& ~~~(owing 0x800 0x800).reports.mask = 0 ∧
      (let s := fullLane.report (.reply 2 2 none [])
       s.reports.sending = some (.reply 0 0 none []) ∧ s.reports.queue.length = 32 ∧ s.reports.owed = true ∧
        s.reports.latched .headHalt = false ∧ s.reports.masked .headHalt = false ∧
        s.reports.awaitStarted = false) := by decide

/-- An unmasked latch, and a masked one only; nothing owed, a full queue, and a STARTED report awaited. -/
theorem witness_OwedAlarmReportJoins :
    ((owing 0x800 0).reports.owed = true ∧ (owing 0x800 0).reports.queue.length < 32 ∧
        (owing 0x800 0).reports.awaitStarted = false ∧ (owing 0x800 0).reports.sending.isSome = true ∧
        (owing 0x800 0).reports.latched .headHalt = true ∧ (owing 0x800 0).reports.masked .headHalt = false) ∧
      (busy.reports.owed = false ∧ 32 ≤ fullLane.reports.queue.length ∧ State.reset.reports.awaitStarted = true) ∧
      ∀ a : Alarm, (owing 0x800 0x800).reports.latched a = true → (owing 0x800 0x800).reports.masked a = true := by
  refine ⟨by decide, by decide, ?_⟩
  intro a
  cases a <;> decide

/-- A full queue with REPORTS_LOST clear and unmasked, and with it masked; and HEAD_HALT set, clear and masked, clear and
unmasked with a free place and with none, and clear while a STARTED report is awaited. -/
theorem witness_FullQueueDropsReport :
    ((owing 0x800 0).reports.latched .headHalt = true ∧ (owing 0 0x800).reports.latched .headHalt = false ∧
        (owing 0 0x800).reports.masked .headHalt = true ∧ (owing 0 0).reports.latched .headHalt = false ∧
        (owing 0 0).reports.masked .headHalt = false ∧ (owing 0 0).reports.awaitStarted = false ∧
        (owing 0 0).reports.queue.length < 32 ∧ fullLane.reports.latched .headHalt = false ∧
        fullLane.reports.masked .headHalt = false ∧ fullLane.reports.awaitStarted = false ∧
        State.reset.reports.latched .headHalt = false ∧ State.reset.reports.masked .headHalt = false ∧
        State.reset.reports.awaitStarted = true ∧
        ∀ b ∈ [Alarm.headHalt, .storeLow], (0x800 : BitVec 14).getLsbD b.index = true ↔
          (owing 0 0).reports.latched b = true ∨ b = .headHalt) ∧
    32 ≤ fullLane.reports.queue.length ∧ fullLane.reports.latched .reportsLost = false ∧
      fullLane.reports.masked .reportsLost = false ∧
      Reports.masked { fullLane.reports with mask := 0x2000 } .reportsLost = true := by decide

theorem up_page? (r : Nat) : up.page? r = none := by
  show (List.replicate 48 none).getD r none = none
  rw [List.getD_eq_getElem?_getD, List.getElem?_replicate]
  split <;> rfl

/-- A state with each invariant, from which the step answers a next state. -/
theorem witness_StepsKeep :
    (∃ t, step up = .next t) ∧ up.StoreWf ∧ up.Bounded ∧ up.ScheduleWf := by
  have h (r : Nat) (p : PageRecord) (hp : up.page? r = some p) : False := by rw [up_page?] at hp; exact absurd hp (by simp)
  refine ⟨⟨up, rfl⟩, ⟨rfl, rfl, rfl, fun t ht => ?_, fun t _ => ⟨List.not_mem_nil, List.not_mem_nil, List.not_mem_nil⟩,
      fun r p hp => (h r p hp).elim, fun x hx => absurd hx List.not_mem_nil, fun n hn => (by cases hn),
      fun t i k acc he => (by cases he)⟩,
    ⟨by decide, by decide, by decide, by decide, by decide, by decide, by decide, by decide, by decide, ?_⟩,
    ⟨⟨by decide, by decide, fun _ => rfl, fun pl hp => (by cases hp), by decide, by decide⟩, List.nodup_nil,
      ⟨fun t ht => absurd ht List.not_mem_nil, fun pl hp => (by cases hp)⟩,
      ⟨fun r p hp => (h r p hp).elim, fun t ht => absurd ht List.not_mem_nil⟩, fun _ => rfl⟩⟩
  · show (if (decide (t < up.tileCount) && true) = true then 1 else 0) + 0 + 0 = 1
    rw [decide_eq_true ht]
    rfl
  · intro k
    cases k <;> decide

end Sys2Proof.Tests
end

section
/-! PROOFS. A start marker (R22, R24, R25), and a segment or parity parcel of an unknown page (R2, R31). -/

namespace Sys2Proof.Machine

open Sys2Proof (Byte)

/-! ## What one event hands on -/

/-- The end of an event leaves a count as the event made it. -/
theorem State.settle_countsOnce {s t : State} {a : Reports} {k : Counter} (h : a.countsOnce t.reports k) :
    a.countsOnce (s.settle t).reports k := by
  unfold Reports.countsOnce at h ⊢
  rw [(State.settle_reports s t).2.2.2]
  exact h

/-- A count, seen from the report unit before it, counts its counter once. -/
theorem State.count_countsOnce (s : State) (k : Counter) : s.reports.countsOnce (s.count k).reports k := by
  simp [Reports.countsOnce, Counters.read_add]

/-! ## The start marker -/

/-- A start marker is one event of the Framer. -/
theorem exec_startMarker (s : State) :
    exec .startMarker s = .next (s.beginStep.settle s.beginStep.startMarker) := rfl

/-- OUTSIDE, a start marker begins a parcel and does nothing else (R22, R25). -/
theorem State.startMarker_outside {s : State} (h : s.framer.assembling = false) :
    s.startMarker = { s with framer := ⟨true, [], some s.intake.flow.timeoutMs⟩ } := by
  simp [State.startMarker, h]

/-- In ASSEMBLING, the parcel in assembly ends as malformed before the new one begins (R24). -/
theorem State.startMarker_assembling {s : State} (h : s.framer.assembling = true) :
    s.startMarker = { s.countMalformed with framer := ⟨true, [], some s.intake.flow.timeoutMs⟩ } := by
  simp [State.startMarker, h]

/-- A start marker writes the Framer and the report unit only, and the Framer alike in both of its states. -/
theorem State.startMarker_eq (s : State) :
    s.startMarker
      = { s with framer := ⟨true, [], some s.intake.flow.timeoutMs⟩, reports := s.startMarker.reports } := by
  cases h : s.framer.assembling with
  | false => rw [State.startMarker_outside h]
  | true => rw [State.startMarker_assembling h]; rfl

/-- Settles O3: the two states of the Framer are its two cases, and the end of the event adds nothing to them. -/
theorem startMarkerBeginsParcel : Obligations.StartMarkerBeginsParcel := by
  intro s
  refine ⟨_, exec_startMarker s, ?_, fun h => ?_, fun h => ?_⟩
  · calc s.beginStep.settle s.beginStep.startMarker
        = { s.beginStep.startMarker with reports := (s.beginStep.settle s.beginStep.startMarker).reports } :=
          State.settle_eq _ _
      _ = _ := by rw [State.startMarker_eq s.beginStep]; rfl
  · have hm := State.startMarker_outside (s := s.beginStep) h
    rw [State.settle_quiet (by rw [hm]) (by rw [hm]), hm]
  · have hm : s.beginStep.startMarker.reports = s.beginStep.countMalformed.reports := by
      rw [State.startMarker_assembling (s := s.beginStep) h]
    obtain ⟨hlatch, hcount, htouch⟩ := State.countLatch s.beginStep .malformed .parcelMalformed (by decide)
    refine ⟨?_, State.settle_countsOnce ?_, State.settle_touches ?_⟩
    · rw [State.settle_latched, hm]; exact hlatch
    · rw [hm]; exact hcount
    · rw [hm]; exact htouch

/-! ## The parcel of an unknown page -/

/-- The taking of a segment or parity parcel is one event of Intake. -/
theorem exec_takeSegmentParcel (s : State) :
    exec .takeSegmentParcel s = .next (s.beginStep.settle s.beginStep.takeSegmentParcel) := rfl

/-- A name that no current record has is judged an unknown page, before every other test (R2, R31). -/
theorem State.judge_unknownPage {s : State} {h : SegHeader}
    (hn : ∀ r p, s.page? r = some p → p.current = true → ¬ (p.pageId = h.pageId ∧ p.version = h.version))
    (parity : Bool) (payload : List Byte) : s.judge parity h payload = .unknownPage := by
  unfold State.judge
  rw [(State.findPage_none s h.pageId h.version).mpr hn]

/-- A parcel of an unknown page leaves the queue and counts; the holding flag is then evaluated (R31, R38). -/
theorem State.takeSegmentParcel_unknownPage {s : State} {parity : Bool} {flags : Byte} {h : SegHeader}
    {payload : List Byte} {rest : List Parcel} (ht : s.intakeTaking = true)
    (hq : s.intake.queue = .data parity flags h payload :: rest) (hf : s.freeSlot.isSome = true)
    (hn : ∀ r p, s.page? r = some p → p.current = true → ¬ (p.pageId = h.pageId ∧ p.version = h.version)) :
    s.beginStep.takeSegmentParcel = (s.beginStep.popInlet.count .unknownPage).evalFlag := by
  obtain ⟨k, hk⟩ := Option.isSome_iff_exists.mp hf
  rw [State.takeSegmentParcel_of_head ht hq hk, State.judge_unknownPage hn]
  rfl

/-- Settles O10: the verdict only counts, and the evaluation of the holding flag latches nothing, because the reserve
cause stood as the free pool has it. -/
theorem unknownPageDiscarded : Obligations.UnknownPageDiscarded := by
  intro s parity flags h payload rest ht hq hf hn hc
  have htake := State.takeSegmentParcel_unknownPage ht hq hf hn
  have hreports : s.beginStep.takeSegmentParcel.reports = (s.beginStep.count .unknownPage).reports := by
    rw [htake]
    exact State.evalFlag_steady (s.beginStep.popInlet.count .unknownPage) hc
  refine ⟨_, exec_takeSegmentParcel s, ?_, ?_, ?_, State.settle_countsOnce ?_, State.settle_touches ?_, ?_⟩
  · rw [State.settle_eq, htake, State.evalFlag_eq]
    rfl
  · simp [htake, hq]
  · simp [htake]
  · rw [hreports]
    exact State.count_countsOnce s.beginStep .unknownPage
  · rw [hreports]
    exact Reports.count_touches s.reports 1 .unknownPage [.unknownPage] [] (by simp)
  · rw [State.settle_latched, hreports]
    rfl

end Sys2Proof.Machine
end

section
/-! PROOFS. The run of a SCREEN_DATA (R118, R119). -/

namespace Sys2Proof.Machine

open Sys2Proof (Byte)

/-! ## A run of thresholds (R119) -/

/-- The raised bytes of a run are its zeros. -/
theorem raisedCount_eq_count (run : List Byte) : raisedCount run = run.count 0 :=
  List.countP_eq_length_filter.symm

/-- Behind the entries stored so far stands the run, each byte of it raised. -/
theorem getD_append_map_raiseByte (es run : List Byte) {i : Nat} (h : i < run.length) :
    (es ++ run.map raiseByte).getD (es.length + i) 0 = if run.getD i 0 = 0 then 1 else run.getD i 0 := by
  have hmap : i < (run.map raiseByte).length := by simpa using h
  calc (es ++ run.map raiseByte).getD (es.length + i) 0
      = (run.map raiseByte).getD i 0 := by
        rw [List.getD_append_right _ _ _ _ (Nat.le_add_right ..), Nat.add_sub_cancel_left]
    _ = raiseByte (run.getD i 0) := by
        rw [List.getD_eq_getElem _ _ hmap, List.getD_eq_getElem _ _ h, List.getElem_map]
    _ = _ := rfl

/-! ## The tables -/

/-- The slot that the screen-load context names is LOADING: the load is open (R115). -/
theorem Screener.openLoad_of_loading {sc : Screener} {l : ScreenLoad} {tb : ScreenTable} (hl : sc.load = some l)
    (ht : sc.screen l.slot = .loading tb) : sc.openLoad = some (l, tb) := by
  simp [Screener.openLoad, hl, ht]

/-- A stored run changes the slots and the context only. -/
@[simp] theorem Screener.storeRun_same (sc : Screener) (l : ScreenLoad) (tb : ScreenTable) (run : List Byte) :
    (sc.storeRun l tb run).curves = sc.curves ∧ (sc.storeRun l tb run).inks = sc.inks ∧
    (sc.storeRun l tb run).load = some ⟨l.slot, l.fillPoint + run.length⟩ := ⟨rfl, rfl, rfl⟩

/-- The slot of the load takes the run behind its entries. -/
theorem Screener.storeRun_screen_slot {sc : Screener} {l : ScreenLoad} (h : l.slot < sc.screens.length)
    (tb : ScreenTable) (run : List Byte) :
    (sc.storeRun l tb run).screen l.slot = .loading { tb with entries := tb.entries ++ run.map raiseByte } := by
  simp [Screener.screen, Screener.storeRun, h]

/-- Every other slot stands as it was. -/
theorem Screener.storeRun_screen_other (sc : Screener) {l : ScreenLoad} {n : Nat} (h : n ≠ l.slot)
    (tb : ScreenTable) (run : List Byte) : (sc.storeRun l tb run).screen n = sc.screen n := by
  simp [Screener.screen, Screener.storeRun, List.getElem?_set_ne h.symm]

/-! ## The directive -/

/-- The taking of a SCREEN_DATA that passes R166 is one event: its own rule, and the evaluation of the holding flag. -/
theorem exec_screenData_of_takes {s : State} {d : Directive} (h : s.Takes .screenData d) :
    exec .screenData s = .next (s.beginStep.settle (s.beginStep.popInlet.screenData d).evalFlag) :=
  congrArg (fun t => Host.Outcome.next (s.beginStep.settle t)) (State.takeDirective_of_takes h _)

/-- The state with a run stored and its raised bytes counted, ahead of the reply. -/
def State.storeRun (s : State) (l : ScreenLoad) (tb : ScreenTable) (run : List Byte) : State :=
  State.count { s with screener := s.screener.storeRun l tb run } .thresholdsRaised (raisedCount run)

/-- A stored run changes the tables and the counters only. -/
@[simp] theorem State.storeRun_same (s : State) (l : ScreenLoad) (tb : ScreenTable) (run : List Byte) :
    (s.storeRun l tb run).straps = s.straps ∧ (s.storeRun l tb run).pages = s.pages ∧
    (s.storeRun l tb run).store = s.store ∧ (s.storeRun l tb run).schedule = s.schedule ∧
    (s.storeRun l tb run).screener = s.screener.storeRun l tb run ∧
    (s.storeRun l tb run).reports
      = { s.reports with counters := s.reports.counters.add (raisedCount run) .thresholdsRaised } :=
  ⟨rfl, rfl, rfl, rfl, rfl, rfl⟩

/-- A run at the fill point that fits its load is stored and accepted (R118). -/
theorem State.screenData_of_fits {s : State} {d : Directive} {l : ScreenLoad} {tb : ScreenTable}
    (ho : s.screener.openLoad = some (l, tb)) (hp : u16 d.payload 0 = l.fillPoint) (hn : d.payload.drop 2 ≠ [])
    (hf : l.fillPoint + (d.payload.drop 2).length ≤ tb.w * tb.h) :
    s.screenData d = (s.storeRun l tb (d.payload.drop 2)).accept d
      (be32 (l.fillPoint + (d.payload.drop 2).length) ++ be16 (raisedCount (d.payload.drop 2))) := by
  have hrun : ¬ ((d.payload.drop 2).length = 0 ∨ tb.w * tb.h < l.fillPoint + (d.payload.drop 2).length) := by
    rintro (h0 | hover)
    · exact hn (List.eq_nil_of_length_eq_zero h0)
    · exact Nat.not_lt.mpr hf hover
  unfold State.screenData
  rw [ho]
  dsimp only
  rw [if_neg (not_not_intro hp), if_neg hrun]
  rfl

/-- What follows an acceptance in its event, the reply with it, touches STORE_LOW and reports_lost only. -/
theorem State.settle_accept_touches (s u : State) (d : Directive) (body : List Byte) :
    u.reports.touches (s.settle (u.accept d body).evalFlag).reports [] [.storeLow] :=
  State.settle_touches (Reports.touches_trans (State.accept_touches u d body [] [.storeLow])
    (State.evalFlag_touches _ [] [.storeLow] (by simp)))

/-- Settles O31: the event is the storing of the run with its count; the reply, the evaluation of the holding flag and
the end of the event, which follow it, touch neither the tables nor thresholds_raised. -/
theorem screenDataStoresRun : Obligations.ScreenDataStoresRun := by
  intro s d l tb htakes hload hslot hlen run hpos hne hfits
  have hopen : s.screener.openLoad = some (l, tb) := Screener.openLoad_of_loading hload hslot
  have hrule := State.screenData_of_fits (s := s.beginStep.popInlet) hopen hpos hne hfits
  have hexec := exec_screenData_of_takes htakes
  rw [hrule, raisedCount_eq_count] at hexec
  have hrest := State.settle_accept_touches s.beginStep (s.beginStep.popInlet.storeRun l tb run) d
    (be32 (l.fillPoint + run.length) ++ be16 (run.count 0))
  refine ⟨_, hexec, ?load, ⟨tb.entries ++ run.map raiseByte, ?table, ?length, ?before, ?stored⟩, ?counted, ?touched,
    ?reply, ?otherSlots, ?frame⟩
  case load => simp [run]
  case table => simpa using Screener.storeRun_screen_slot hlen tb run
  case length => simp
  case before => exact fun i hi => List.getD_append _ _ _ _ hi
  case stored => exact fun i hi => getD_append_map_raiseByte tb.entries run hi
  case counted =>
    calc _ = (s.beginStep.popInlet.storeRun l tb run).reports.counters.read .thresholdsRaised :=
          hrest.1 .thresholdsRaised (by simp) (by simp)
      _ = min 65535 (s.reports.counters.thresholdsRaised + run.count 0) := by
          rw [← raisedCount_eq_count]; rfl
  case touched =>
    have hcount : s.reports.touches (s.beginStep.popInlet.storeRun l tb run).reports [.thresholdsRaised] [.storeLow] :=
      Reports.count_touches s.beginStep.reports (raisedCount run) .thresholdsRaised _ _ (by simp)
    exact Reports.touches_trans hcount (Reports.touches_mono hrest (by simp) (by simp))
  case reply => exact acceptedWith_accept d _ ⟨rfl, rfl, rfl, rfl⟩ rfl
  case otherSlots => exact fun n hn => by simpa using Screener.storeRun_screen_other s.screener hn tb run
  case frame => simp [State.beginStep]

end Sys2Proof.Machine
end

section
/-! PROOFS. An invariant that every act of the block keeps is kept by every step: the dispatch, made once. -/

namespace Sys2Proof.Machine

open Sys2Proof (Byte Instr DramFault StoreSize CrcInit)

/-- The state a power-on reset leaves (R57). -/
def State.afterPowerOn (s : State) (size : StoreSize) (crc : CrcInit) (ready : Bool) : State :=
  { State.reset with
    pending := s.pending
    straps := ⟨size, crc⟩
    store := { State.reset.store with dram := s.tornDram }
    drive := Drive.afterReset ready
    freeIndex := s.freeIndex + 1 }

/-- Every act of a command keeps the predicate, under what the command tests before it acts. -/
structure KeptByActs (I : State → Prop) : Prop where
  beginStep : ∀ {s : State}, I s → I s.beginStep
  settle : ∀ {t : State} (s : State), I t → I (s.settle t)
  report : ∀ {s : State} r, I s → I (s.report r)
  evalFlag : ∀ {s : State}, I s → I s.evalFlag
  popInlet : ∀ {s : State}, I s → I s.popInlet
  startMarker : ∀ {s : State}, I s → I s.startMarker
  framerByte : ∀ {s : State} b, I s → I (s.framerByte b)
  assemblyTimeout : ∀ {s : State}, I s → I s.assemblyTimeout
  takeSegmentParcel : ∀ {s : State}, I s → I s.takeSegmentParcel
  completeWrite : ∀ {s : State} {ref w}, s.store.inService = some (.write ref) → s.writeOf ref = some w →
    w.tile < s.tileCount → I s → I (s.completeWrite ref w).finishIfDue
  completeRead : ∀ {s : State} {r} faults, s.store.inService = some (.read r) → r.tile < s.tileCount → I s →
    I (s.completeRead r faults)
  beginRepair : ∀ {s : State}, s.canBeginRepair = true → I s → I s.beginRepair.arbitrate
  sweepTileTest : ∀ {s : State} first second, I s → I (s.sweepTileTest first second)
  afterPowerOn : ∀ {s : State} size crc ready, I s → I (s.afterPowerOn size crc ready)
  pinReset : ∀ {s : State} ready, I s → I (s.pinReset ready)
  openPage : ∀ {s : State} d, s.intakeTaking = true → I s → I (s.openPage d)
  closePage : ∀ {s : State} d, I s → I (s.closePage d)
  releasePage : ∀ {s : State} d, I s → I (s.releasePage d)
  postTicket : ∀ {s : State} d, s.intakeTaking = true → I s → I (s.postTicket d)
  withdrawTicket : ∀ {s : State} d, I s → I (s.withdrawTicket d)
  bindInk : ∀ {s : State} d, I s → I (s.bindInk d)
  unbindInk : ∀ {s : State} d, I s → I (s.unbindInk d)
  screenBegin : ∀ {s : State} d, I s → I (s.screenBegin d)
  screenData : ∀ {s : State} d, I s → I (s.screenData d)
  screenEnd : ∀ {s : State} d, I s → I (s.screenEnd d)
  curveLoad : ∀ {s : State} d, I s → I (s.curveLoad d)
  setFlow : ∀ {s : State} d, I s → I (s.setFlow d)
  setHead : ∀ {s : State} d, I s → I (s.setHead d)
  resumeHead : ∀ {s : State} d, I s → I (s.resumeHead d)
  setAlarmMask : ∀ {s : State} d, I s → I (s.setAlarmMask d)
  clearAlarms : ∀ {s : State} d, I s → I (s.clearAlarms d)
  clearCounters : ∀ {s : State} d, I s → I (s.clearCounters d)
  restartDirective : ∀ {s : State}, I s → I s.restartDirective
  finishIfDue : ∀ {s : State}, I s → I s.finishIfDue
  makeLine : ∀ {s : State}, s.canMakeLine = true → I s → I s.makeLine.primeTest
  issueRead : ∀ {s : State} side kind, I s → I (s.issueRead side kind).arbitrate
  plateReadyRise : ∀ {s : State}, I s → I s.plateReadyRise
  plateReadyFall : ∀ {s : State}, I s → I s.plateReadyFall
  lineReq : ∀ {s : State}, I s → I s.lineReq
  completeTransfer : ∀ {s : State}, I s → I s.completeTransfer
  stallExpiry : ∀ {s : State}, I s → I s.stallExpiry
  haltSample : ∀ {s : State} high, I s → I (s.haltSample high)
  parcelEnd : ∀ {s : State} causeFirst, I s → I (s.parcelEnd causeFirst)
  queueOwed : ∀ {s : State}, s.owedDue = true → I s → I s.queueOwed

/-- What a command answers keeps the predicate. -/
def Keeps (I : State → Prop) (s : State) (o : Host.Outcome State Fault Refusal) : Prop := I s → ∀ t, o = .next t → I t

theorem keeps_next {I : State → Prop} {s t : State} (h : I s → I t) : Keeps I s (.next t) := by
  rintro hs _ ⟨⟩
  exact h hs

theorem keeps_guardTile {I : State → Prop} {s t : State} {tile : Nat} (h : tile < s.tileCount → I s → I t) :
    Keeps I s (s.guardTile tile t) := by
  unfold State.guardTile
  split
  next ht => exact keeps_next (h ht)
  · rintro _ _ ⟨⟩

namespace KeptByActs

variable {I : State → Prop} (h : KeptByActs I)
include h

theorem refuse {s : State} (d : Directive) (reason : Reason) (body : List Byte) (hs : I s) :
    I (s.refuse d reason body) := h.report _ hs

theorem accept {s : State} (d : Directive) (body : List Byte) (hs : I s) : I (s.accept d body) := by
  unfold State.accept
  split
  · exact hs
  · exact h.report _ hs

theorem queryPage {s : State} (d : Directive) (hs : I s) : I (s.queryPage d) := by
  unfold State.queryPage
  split
  · exact h.refuse _ _ _ hs
  · exact h.accept _ _ hs

theorem event {s : State} {act : State → State} (ha : I s.beginStep → I (act s.beginStep)) (hs : I s) :
    I (s.event act) := h.settle _ (ha (h.beginStep hs))

/-- A directive: the pop, the tests of R166, its own rule, and the evaluation of the holding flag (R165). -/
theorem takeDirective {s : State} (row : Instr) {act : Directive → State → State}
    (ha : ∀ (d : Directive) {u : State}, u.intakeTaking = true → I u → I (act d u)) (hs : I s) :
    I (s.takeDirective row act) := by
  unfold State.takeDirective
  split
  · exact hs
  next d hd =>
    have htaking : s.popInlet.intakeTaking = true := (State.head_of_directiveOf hd).1
    refine h.evalFlag ?_
    unfold State.judgeDirective
    split
    · exact h.refuse _ _ _ (h.popInlet hs)
    · exact ha d htaking (h.popInlet hs)

theorem keeps_begin (s : State) : Keeps I s (.next s.beginStep) := keeps_next h.beginStep

theorem keeps_event {s : State} {act : State → State} (ha : ∀ {u : State}, I u → I (act u)) :
    Keeps I s (.next (s.event act)) := keeps_next (h.event ha)

/-- A directive whose rule needs that Intake takes parcels (R30). -/
theorem keeps_taken {s : State} {row : Instr} {act : Directive → State → State}
    (ha : ∀ {u : State} (d : Directive), u.intakeTaking = true → I u → I (act d u)) :
    Keeps I s (.next (s.event fun s => s.takeDirective row act)) :=
  h.keeps_event (h.takeDirective row fun d _ => ha d)

theorem keeps_directive {s : State} {row : Instr} {act : Directive → State → State}
    (ha : ∀ {u : State} (d : Directive), I u → I (act d u)) :
    Keeps I s (.next (s.event fun s => s.takeDirective row act)) :=
  h.keeps_taken fun d _ => ha d

theorem keeps_storeWriteCompletion (s : State) : Keeps I s (execStoreWriteCompletion s) := by
  unfold execStoreWriteCompletion
  split
  next ref hserv =>
    split
    next w hw => exact keeps_guardTile fun ht => h.event (h.completeWrite hserv hw ht)
    · exact h.keeps_begin s
  all_goals exact h.keeps_begin s

theorem keeps_storeReadCompletion (faults : List DramFault) (s : State) :
    Keeps I s (execStoreReadCompletion faults s) := by
  unfold execStoreReadCompletion
  split
  next r hserv => exact keeps_guardTile fun ht => h.event (h.completeRead faults hserv ht)
  all_goals exact h.keeps_begin s

theorem keeps_repairBegin (s : State) : Keeps I s (execRepairBegin s) := by
  unfold execRepairBegin
  split
  next hb => exact keeps_next (h.event (h.beginRepair hb))
  · exact h.keeps_begin s

theorem keeps_makeLine (s : State) : Keeps I s (execMakeLine s) := by
  unfold execMakeLine
  split
  next hc => exact keeps_next (h.event (h.makeLine hc))
  · exact h.keeps_begin s

theorem keeps_prefetchReadIssue (s : State) : Keeps I s (execPrefetchReadIssue s) := by
  unfold execPrefetchReadIssue
  split
  · exact h.keeps_begin s
  · exact h.keeps_event (h.issueRead _ _)

theorem keeps_owedAlarmReport (s : State) : Keeps I s (execOwedAlarmReport s) := by
  unfold execOwedAlarmReport
  split
  next hd => exact keeps_next (h.event (h.queueOwed hd))
  · exact h.keeps_begin s

theorem keeps_exec (c : Instr) (s : State) : Keeps I s (exec c s) := by
  cases c with
  | startMarker => exact h.keeps_event h.startMarker
  | headerMalformedDrop b => exact h.keeps_event (h.framerByte b)
  | parcelComplete b => exact h.keeps_event (h.framerByte b)
  | dataByteArrival b => exact h.keeps_event (h.framerByte b)
  | assemblyTimeout => exact h.keeps_event h.assemblyTimeout
  | takeSegmentParcel => exact h.keeps_event h.takeSegmentParcel
  | storeWriteCompletion => exact h.keeps_storeWriteCompletion s
  | storeReadCompletion faults => exact h.keeps_storeReadCompletion faults s
  | repairBegin => exact h.keeps_repairBegin s
  | sweepTileTest faults => exact h.keeps_event (h.sweepTileTest _ _)
  | powerOnReset size crc ready => exact keeps_next (h.afterPowerOn size crc ready)
  | pinReset ready => exact keeps_next (h.pinReset ready)
  | unknownDirective => exact h.keeps_directive fun d => h.refuse d _ _
  | openPage => exact h.keeps_taken h.openPage
  | closePage => exact h.keeps_directive h.closePage
  | releasePage => exact h.keeps_directive h.releasePage
  | postTicket => exact h.keeps_taken h.postTicket
  | withdrawTicket => exact h.keeps_directive h.withdrawTicket
  | setInkBind => exact h.keeps_directive h.bindInk
  | setInkUnbind => exact h.keeps_directive h.unbindInk
  | screenBegin => exact h.keeps_directive h.screenBegin
  | screenData => exact h.keeps_directive h.screenData
  | screenEnd => exact h.keeps_directive h.screenEnd
  | curveLoad => exact h.keeps_directive h.curveLoad
  | setFlow => exact h.keeps_directive h.setFlow
  | setHead => exact h.keeps_directive h.setHead
  | resumeHead => exact h.keeps_directive h.resumeHead
  | setAlarmMask => exact h.keeps_directive h.setAlarmMask
  | clearAlarms => exact h.keeps_directive h.clearAlarms
  | queryPage => exact h.keeps_directive h.queryPage
  | queryPages => exact h.keeps_directive fun d => h.accept d _
  | querySchedule => exact h.keeps_directive fun d => h.accept d _
  | queryStore => exact h.keeps_directive fun d => h.accept d _
  | queryInks => exact h.keeps_directive fun d => h.accept d _
  | queryHead => exact h.keeps_directive fun d => h.accept d _
  | queryCounters => exact h.keeps_directive fun d => h.accept d _
  | queryCountersClear => exact h.keeps_directive h.clearCounters
  | identify => exact h.keeps_directive fun d => h.accept d _
  | restart => exact h.keeps_event h.restartDirective
  | restartFinish => exact h.keeps_event h.finishIfDue
  | makeLine => exact h.keeps_makeLine s
  | prefetchReadIssue => exact h.keeps_prefetchReadIssue s
  | plateReadyRise => exact h.keeps_event h.plateReadyRise
  | plateReadyFall => exact h.keeps_event h.plateReadyFall
  | lineReq => exact h.keeps_event h.lineReq
  | lineTransferCompletion => exact h.keeps_event h.completeTransfer
  | stallTimerExpiry => exact h.keeps_event h.stallExpiry
  | haltRequest => exact h.keeps_event (h.haltSample _)
  | haltLineStuck => exact h.keeps_event (h.haltSample _)
  | haltLineSample high => exact h.keeps_event (h.haltSample _)
  | reportParcelEnd causeFirst => exact keeps_next fun hs => h.parcelEnd _ (h.beginStep hs)
  | owedAlarmReport => exact h.keeps_owedAlarmReport s

/-- A step runs the command at the front, or the one that is due, or nothing. -/
theorem stepKeeps (pending : ∀ {s : State} (l : List Instr), I s → I { s with pending := l }) : StepKeeps I := by
  intro s t hs ht
  unfold step at ht
  split at ht
  next c rest _ => exact h.keeps_exec c _ (pending rest hs) t ht
  · split at ht
    next c _ => exact h.keeps_exec c s hs t ht
    · cases ht
      exact hs

end KeptByActs
end Sys2Proof.Machine
end

section
/-! PROOFS. Every step keeps the queues, tables and counters within their room (00_scope.md, 2.3; R181). -/

namespace Sys2Proof.Machine

open Sys2Proof (Byte Instr DramFault)

/-! ## The report unit -/

/-- The report queue is within its room, and every counter within its range (R172, R181). -/
def Reports.Fits (rp : Reports) : Prop := rp.queue.length ≤ Config.reportCapacity ∧ rp.counters.inRange

/-- At most one ALARM report is owed. -/
theorem Reports.owedReport_length (rp : Reports) : rp.owedReport.length ≤ 1 := by
  unfold Reports.owedReport
  split <;> simp

namespace Reports.Fits

variable {rp : Reports}

theorem enqueue (h : rp.Fits) (r : Report) : (rp.enqueue r).Fits := by
  refine ⟨rp.enqueue_length r h.1, ?_⟩
  rw [Reports.enqueue_counters]
  split
  · exact Counters.inRange_add _ _ _ h.2
  · exact h.2

theorem add (h : rp.Fits) (n : Nat) (c : Counter) : Reports.Fits { rp with counters := rp.counters.add n c } :=
  ⟨h.1, Counters.inRange_add _ _ _ h.2⟩

theorem latch (h : rp.Fits) (a : Alarm) : (rp.latch a).Fits := by
  unfold Reports.latch
  split
  · exact h
  split
  · exact h
  split
  · exact h
  · exact enqueue (rp := { rp with latches := rp.latches ||| a.bit }) h _

theorem queueOwed (h : rp.Fits) (hq : rp.queue.length < Config.reportCapacity) : rp.queueOwed.Fits := by
  refine ⟨?_, h.2⟩
  have := rp.owedReport_length
  simp only [Reports.queueOwed_same, List.length_append]
  omega

theorem sendNext (h : rp.Fits) (holding : Bool) (c : CrcInit) : (rp.sendNext holding c).Fits := by
  refine ⟨?_, by simpa using h.2⟩
  cases hq : rp.queue with
  | nil => simp [Reports.sendNext_nil holding c hq, hq]
  | cons r rest =>
    have := h.1
    simp only [hq, List.length_cons] at this
    rw [Reports.sendNext_cons holding c hq]
    exact Nat.le_of_succ_le this

theorem boundary (h : rp.Fits) (holding : Bool) (c : CrcInit) : (rp.boundary holding c).Fits := by
  refine ⟨?_, by simpa using h.2⟩
  cases hq : rp.queue with
  | nil => simp [Reports.boundary_nil holding c hq, hq]
  | cons r rest =>
    have hlen := h.1
    have howed := rp.owedReport_length
    simp only [hq, List.length_cons] at hlen
    simp only [(Reports.boundary_cons holding c hq).2.2.1, List.length_append]
    omega

end Reports.Fits

/-! ## Updates of one field -/

/-- A ticket that is placed makes the schedule one longer (R132). -/
theorem insertTicket_length (front : Bool) (x : Ticket) (l : List Ticket) :
    (insertTicket front x l).length = l.length + 1 := by
  induction l with
  | nil => rfl
  | cons y ys ih =>
    unfold insertTicket
    split
    · rfl
    · simp [ih]

namespace State.Bounded

variable {s t : State}

/-- Only the lengths of the queues and tables, the run count and the counters matter. -/
theorem congr (h : s.Bounded) (hi : t.intake = s.intake) (hp : t.pages.length = s.pages.length)
    (hs : t.screener = s.screener) (hc : t.schedule.length = s.schedule.length) (hd : t.drive = s.drive)
    (hr : t.reports = s.reports) : t.Bounded where
  inlet := hi ▸ h.inlet
  slots := hi ▸ h.slots
  pages := hp ▸ h.pages
  screens := hs ▸ h.screens
  curves := hs ▸ h.curves
  schedule := hc ▸ h.schedule
  pool := hd ▸ h.pool
  run := hd ▸ h.run
  reports := hr ▸ h.reports
  counters := hr ▸ h.counters

theorem fits (h : s.Bounded) : s.reports.Fits := ⟨h.reports, h.counters⟩

theorem withReports (h : s.Bounded) {rp : Reports} (hf : rp.Fits) : State.Bounded { s with reports := rp } :=
  { h with reports := hf.1, counters := hf.2 }

theorem withDrive (h : s.Bounded) {d : Drive} (hp : d.pool.length ≤ Config.poolCapacity) (hr : d.haltRun ≤ 7) :
    State.Bounded { s with drive := d } := { h with pool := hp, run := hr }

/-- A drive whose pool and run count stand. -/
theorem withDriveAs (h : s.Bounded) {d : Drive} (hsame : (d.pool, d.haltRun) = (s.drive.pool, s.drive.haltRun)) :
    State.Bounded { s with drive := d } :=
  h.withDrive ((Prod.mk.inj hsame).1 ▸ h.pool) ((Prod.mk.inj hsame).2 ▸ h.run)

theorem ite (hs : s.Bounded) (ht : t.Bounded) {c : Prop} [Decidable c] : State.Bounded (if c then s else t) := by
  split
  · exact hs
  · exact ht

theorem withPages (h : s.Bounded) {ps : List (Option PageRecord)} (hp : ps.length = s.pages.length) :
    State.Bounded { s with pages := ps } := { h with pages := hp.trans h.pages }

theorem withSchedule (h : s.Bounded) {l : List Ticket} (hl : l.length ≤ Config.scheduleCapacity) :
    State.Bounded { s with schedule := l } := { h with schedule := hl }

theorem withIntake (h : s.Bounded) {i : Intake} (hq : i.queue.length ≤ Config.inletCapacity)
    (hs : i.slots.length = Config.writeSlots) : State.Bounded { s with intake := i } := { h with inlet := hq, slots := hs }

theorem withScreener (h : s.Bounded) {sc : Screener} (hs : sc.screens.length = s.screener.screens.length)
    (hc : sc.curves.length = s.screener.curves.length) : State.Bounded { s with screener := sc } :=
  { h with screens := hs.trans h.screens, curves := hc.trans h.curves }

theorem withStore (h : s.Bounded) (st : Store) : State.Bounded { s with store := st } := { h with }
theorem withRepair (h : s.Bounded) (r : Repair) : State.Bounded { s with repair := r } := { h with }
theorem withPrefetch (h : s.Bounded) (p : Prefetch) : State.Bounded { s with prefetch := p } := { h with }
theorem withFramer (h : s.Bounded) (f : Framer) : State.Bounded { s with framer := f } := { h with }
theorem withRestart (h : s.Bounded) (r : Option RestartHold) : State.Bounded { s with restart := r } := { h with }


/-! ## The report unit and the holding flag -/

theorem report (h : s.Bounded) (r : Report) : (s.report r).Bounded := h.withReports (h.fits.enqueue r)
theorem latch (h : s.Bounded) (a : Alarm) : (s.latch a).Bounded := h.withReports (h.fits.latch a)
theorem count (h : s.Bounded) (c : Counter) (n : Nat := 1) : (s.count c n).Bounded := h.withReports (h.fits.add n c)
theorem sendNext (h : s.Bounded) : s.sendNext.Bounded := h.withReports (h.fits.sendNext _ _)
theorem boundary (h : s.Bounded) : s.boundary.Bounded := h.withReports (h.fits.boundary _ _)
theorem beginStep (h : s.Bounded) : s.beginStep.Bounded := { h with }

theorem settle (h : t.Bounded) (s : State) : (s.settle t).Bounded := by
  unfold State.settle
  split
  · exact h.boundary
  · exact h

theorem evalFlag (h : s.Bounded) : s.evalFlag.Bounded := by
  unfold State.evalFlag
  split
  · exact h
  · have h1 := h.withIntake (i := { s.intake with
      holding := holdingAfter s.intake.flow s.intake.holding s.intake.queue.length s.freeCount
      reserveCause := reservePresent s.intake.flow s.freeCount }) h.inlet h.slots
    dsimp only
    split
    · exact h1.latch _
    · exact h1

theorem countMalformed (h : s.Bounded) : s.countMalformed.Bounded := (h.count _).latch _
theorem refuse (h : s.Bounded) (d : Directive) (r : Reason) (body : List Byte) : (s.refuse d r body).Bounded := h.report _

theorem accept (h : s.Bounded) (d : Directive) (body : List Byte) : (s.accept d body).Bounded := by
  unfold State.accept
  split
  · exact h
  · exact h.report _

/-! ## The page table -/

theorem setPage (h : s.Bounded) (r : Nat) (p : Option PageRecord) : (s.setPage r p).Bounded :=
  h.withPages List.length_set

theorem modifyPage (h : s.Bounded) (r : Nat) (f : PageRecord → PageRecord) : (s.modifyPage r f).Bounded := by
  unfold State.modifyPage
  split
  · exact h
  · exact h.setPage _ _

theorem resupersede (h : s.Bounded) (n : Nat) : (s.resupersede n).Bounded := h.withPages (List.length_map _)

theorem addUse (h : s.Bounded) (r : Option Resolution) (up : Bool) : (s.addUse r up).Bounded := by
  unfold State.addUse
  split
  · exact h
  · exact h.modifyPage _ _

theorem moveUse (h : s.Bounded) (old new : Ticket) : (s.moveUse old new).Bounded := by
  unfold State.moveUse
  have hleft : State.Bounded (if old.leftRes = new.leftRes then s
      else (s.addUse old.leftRes false).addUse new.leftRes true) := by
    split
    · exact h
    · exact (h.addUse _ _).addUse _ _
  dsimp only
  split
  · exact hleft
  · exact (hleft.addUse _ _).addUse _ _

theorem foldl_moveUse (f : Ticket → Ticket) (l : List Ticket) :
    ∀ {s : State}, s.Bounded → (l.foldl (fun acc t => acc.moveUse t (f t)) s).Bounded := by
  induction l with
  | nil => exact id
  | cons t l ih => exact fun h => ih (h.moveUse _ _)

/-! ## Prefetch -/

theorem unpackFaults (n : Nat) : ∀ {s : State}, s.Bounded → (State.unpackFaults n s).Bounded := by
  induction n with
  | zero => exact id
  | succ n ih => exact fun h => ih ((h.count _).latch _)

theorem placeLine (h : s.Bounded) (hp : s.drive.pool.length < Config.poolCapacity) (pl : Plate) (j : PrefetchJob)
    (sm : Summary) (line : Line) : (s.placeLine pl j sm line).Bounded := by
  refine { h with pool := ?_ }
  simpa [State.placeLine] using hp

theorem makeLine (h : s.Bounded) (hp : s.drive.pool.length < Config.poolCapacity) : s.makeLine.Bounded := by
  unfold State.makeLine
  split
  · split
    · exact h.placeLine hp _ _ _ _
    · exact (h.unpackFaults _).placeLine (by simpa using hp) _ _ _ _
  all_goals exact h

/-- A line is made only where the pool has room (R86). -/
theorem makeLines (n : Nat) : ∀ {s : State}, s.Bounded → (State.makeLines n s).Bounded := by
  induction n with
  | zero => exact id
  | succ n ih =>
    intro s h
    unfold State.makeLines
    split
    next hc =>
      obtain ⟨_, _, _, _, hp, _⟩ := State.canMakeLine_some hc
      exact ih (h.makeLine hp)
    · exact h

theorem primeTest (h : s.Bounded) : s.primeTest.Bounded := by
  unfold State.primeTest
  split
  · split
    · exact h.withDriveAs (by rfl)
    · exact h
  all_goals exact h

theorem prefetchEvent (h : s.Bounded) : s.prefetchEvent.Bounded := (h.makeLines _).primeTest

theorem setCapture (h : s.Bounded) (side : Side) (kind : LayerKind) (c : Capture) :
    (s.setCapture side kind c).Bounded := h.congr (by simp) (by simp) (by simp) (by simp) (by simp) (by simp)

theorem issueRead (h : s.Bounded) (side : Side) (kind : LayerKind) : (s.issueRead side kind).Bounded :=
  h.congr (by simp) (by simp) (by simp) (by simp) (by simp) (by simp)

theorem prefetchGoOn (h : s.Bounded) : s.prefetchGoOn.Bounded :=
  h.congr (by simp) (by simp) (by simp) (by simp) (by simp) (by simp)

theorem prefetchPassed (h : s.Bounded) (side : Side) (kind : LayerKind) (n : Nat) (data : List (List Byte)) :
    (s.prefetchPassed side kind n data).Bounded := by
  unfold State.prefetchPassed
  split
  · exact h
  split
  · split
    · exact h
    split
    · exact h.prefetchEvent
    · exact ((h.setCapture _ _ _).prefetchGoOn).prefetchEvent
  · exact h

theorem modifySummary (h : s.Bounded) (f : Summary → Summary) : (s.modifySummary f).Bounded := by
  unfold State.modifySummary
  split
  · exact h
  · exact h.withDriveAs (by rfl)

theorem countStoreFault (h : s.Bounded) (n : Nat) : (s.countStoreFault n).Bounded := by
  unfold State.countStoreFault
  split
  · exact h
  split
  · exact (h.withPrefetch _).modifySummary _
  · exact h

theorem prefetchFailed (h : s.Bounded) (side : Side) (kind : LayerKind) (n pos : Nat) :
    (s.prefetchFailed side kind n pos).Bounded := by
  unfold State.prefetchFailed
  split
  · exact h.countStoreFault _
  split
  · split
    · exact h.countStoreFault _
    · dsimp only
      split
      · exact (((h.setCapture _ _ _).modifySummary _).countStoreFault _).prefetchEvent
      · exact ((h.setCapture _ _ _).countStoreFault _).prefetchEvent
  · exact h.countStoreFault _

/-! ## The schedule and the drive -/

theorem modifyTicket (h : s.Bounded) (n : Nat) (f : Ticket → Ticket) : (s.modifyTicket n f).Bounded :=
  h.withSchedule (by simpa using h.schedule)

theorem startPrefetch (h : s.Bounded) (pl : Plate) : (s.startPrefetch pl).Bounded :=
  { h with }

theorem capturePlate (h : s.Bounded) : s.capturePlate.Bounded := by
  unfold State.capturePlate
  split
  · exact h
  split
  · exact h
  · exact (((h.modifyTicket _ _).withDrive (by exact Nat.zero_le _) (by exact h.run)).startPrefetch _).prefetchEvent

theorem selectTicket (h : s.Bounded) (n : Nat) : (s.selectTicket n).Bounded := by
  unfold State.selectTicket
  dsimp only
  split
  · exact (h.withDriveAs (by rfl)).capturePlate
  · exact h.withDriveAs (by rfl)

theorem offer (h : s.Bounded) : s.offer.Bounded := by
  unfold State.offer
  split
  · split
    · exact h
    · exact h.selectTicket _
  · split
    · exact h.withDriveAs (by rfl)
    · exact h.selectTicket _
  all_goals exact h

theorem enterIdle (h : s.Bounded) : s.enterIdle.Bounded := (h.withDriveAs (by rfl)).offer

theorem enterUnloading (h : s.Bounded) : s.enterUnloading.Bounded := by
  unfold State.enterUnloading
  split
  · exact h.withDriveAs (by rfl)
  · exact h.enterIdle

theorem rearm (h : s.Bounded) (f : Ticket → Bool) : (s.rearm f).Bounded := by
  unfold State.rearm
  split
  · exact h
  · exact (h.withSchedule (by simpa [State.armedSchedule] using h.schedule)).offer

theorem setScreener (h : s.Bounded) {sc : Screener} (hs : sc.screens.length = s.screener.screens.length)
    (hc : sc.curves.length = s.screener.curves.length) : (s.setScreener sc).Bounded :=
  (h.withScreener hs hc).rearm _

theorem reresolve (h : s.Bounded) (n : Nat) : (s.reresolve n).Bounded := by
  unfold State.reresolve
  exact ((foldl_moveUse _ _ h).withSchedule (by simpa using h.schedule)).rearm _

theorem removeTicket (h : s.Bounded) (x : Ticket) : (s.removeTicket x).Bounded :=
  ((h.withSchedule ((List.length_filter_le _ _).trans h.schedule)).addUse _ _).addUse _ _

theorem tallyOutcome (h : s.Bounded) (o : PlateOutcome) : (s.tallyOutcome o).Bounded := by
  cases o with
  | done => exact h.count _
  | spoiled r => exact (h.count _).latch _
  | withdrawn => exact h

theorem endTicket (h : s.Bounded) (pl : Plate) (o : PlateOutcome) : (s.endTicket pl o).Bounded := by
  unfold State.endTicket
  split
  · exact h
  · exact ((h.removeTicket _).report _).tallyOutcome _

theorem dropPlate (h : s.Bounded) : s.dropPlate.Bounded :=
  (h.withDrive (d := { s.drive with plate := none, pool := [], stall := none }) (Nat.zero_le _) h.run).withPrefetch _

theorem endShort (h : s.Bounded) (o : PlateOutcome) : (s.endShort o).Bounded := by
  unfold State.endShort
  have h1 : State.Bounded (match s.drive.plate with | none => s.dropPlate | some pl => s.dropPlate.endTicket pl o) := by
    split
    · exact h.dropPlate
    · exact h.dropPlate.endTicket _ _
  dsimp only
  split
  · exact h1.withDriveAs (by rfl)
  · exact h1.enterUnloading

theorem endDone (h : s.Bounded) (pl : Plate) : (s.endDone pl).Bounded :=
  ((h.dropPlate.withDriveAs (by rfl)).endTicket _ _).enterUnloading

theorem haltRequest (h : s.Bounded) : s.haltRequest.Bounded := by
  unfold State.haltRequest
  dsimp only
  split
  · exact (h.latch _).endShort _
  · exact (h.latch _).withDriveAs (by rfl)

/-- The run count moves within 0..7 (R159). -/
theorem haltSample (h : s.Bounded) (high : Bool) : (s.haltSample high).Bounded := by
  unfold State.haltSample
  dsimp only
  split
  · split
    next hn => exact h.withDrive h.pool (show s.drive.haltRun + 1 ≤ 7 by omega)
    split
    · exact ((h.withDrive (by exact h.pool) (by exact Nat.le_refl 7)).latch _).haltRequest
    · exact h.withDriveAs (by rfl)
  · have h1 := h.withDrive (d := { s.drive with haltRun := 0, lastSample := false }) h.pool (Nat.zero_le 7)
    split
    · exact h1
    split
    · exact h1.haltRequest
    · exact h1.withDriveAs (by rfl)

/-! ## Layers and pages -/

theorem noteDamage (h : s.Bounded) (r : Nat) (p : PageRecord) : (s.noteDamage r p).Bounded := by
  unfold State.noteDamage
  split
  · exact (h.setPage _ _).latch _
  · exact h

theorem pageChanged (h : s.Bounded) (r : Nat) (p : PageRecord) : (s.pageChanged r p).Bounded := by
  unfold State.pageChanged
  dsimp only
  split
  · exact (((h.setPage _ _).report _).noteDamage _ _).rearm _
  · exact (h.setPage _ _).rearm _

theorem derivePage (h : s.Bounded) (r : Nat) : (s.derivePage r).Bounded := by
  unfold State.derivePage
  split
  · exact h
  split
  · exact h
  · exact h.pageChanged _ _

theorem joinRepair (h : s.Bounded) (x : LayerRef) : (s.joinRepair x).Bounded :=
  h.congr (by simp) (by simp) (by simp) (by simp) (by simp) (by simp)

theorem leaveRepair (h : s.Bounded) (x : LayerRef) : (s.leaveRepair x).Bounded :=
  h.congr (by simp) (by simp) (by simp) (by simp) (by simp) (by simp)

theorem setLayerState (h : s.Bounded) (x : LayerRef) (old new : LayerState) : (s.setLayerState x old new).Bounded := by
  unfold State.setLayerState
  dsimp only
  split
  · exact (h.modifyPage _ _).joinRepair _
  split
  · exact (h.modifyPage _ _).leaveRepair _
  · exact h.modifyPage _ _

theorem evaluateLayer (h : s.Bounded) (x : LayerRef) : (s.evaluateLayer x).Bounded := by
  unfold State.evaluateLayer
  split
  · exact h
  split
  · exact h
  split
  · exact h.setLayerState _ _ _
  · exact h

theorem evaluateAll (r : Nat) (l : List LayerRecord) : ∀ {s : State}, s.Bounded → (s.evaluateAll r l).Bounded := by
  induction l with
  | nil => exact id
  | cons x l ih => exact fun h => ih (h.evaluateLayer _)

theorem evaluationEvent (h : s.Bounded) (x : LayerRef) : (s.evaluationEvent x).Bounded :=
  (h.evaluateLayer x).derivePage _

theorem noteIssue (h : s.Bounded) (w : StoreWrite) (n : Nat) : (s.noteIssue w n).Bounded :=
  (h.modifyPage _ _).derivePage _

theorem freeRecord (h : s.Bounded) (r : Nat) (p : PageRecord) : (s.freeRecord r p).Bounded :=
  (h.withStore _).setPage _ _

theorem reconstructionWritten (h : s.Bounded) (x : LayerRef) : (s.reconstructionWritten x).Bounded := by
  unfold State.reconstructionWritten
  dsimp only
  split
  · exact h.withRepair _
  split
  · exact (((h.withRepair _).modifyPage _ _).count _).derivePage _
  · exact (h.withRepair _).evaluationEvent _

theorem noteCompletion (h : s.Bounded) (w : StoreWrite) (b : Bool) : (s.noteCompletion w b).Bounded := by
  unfold State.noteCompletion
  split
  · exact h
  next p _ =>
    have h1 := h.setPage w.target.record (some (p.completed w (s.store.retired.contains w.tile)))
    dsimp only
    split
    · split
      · exact ((h1.freeRecord _ _).reresolve _).evalFlag
      · exact h1
    split
    · exact h1
    split
    · split
      · exact h1.reconstructionWritten _
      all_goals exact h1.evaluationEvent _
    · exact h1.evaluationEvent _

theorem leavePlace (h : s.Bounded) (tile : Nat) : (s.leavePlace tile).Bounded := by
  unfold State.leavePlace
  split
  · exact (h.modifyPage _ _).evaluationEvent _
  · exact h.evalFlag

theorem retireTile (h : s.Bounded) (tile : Nat) : (s.retireTile tile).Bounded := by
  unfold State.retireTile
  dsimp only
  split
  · exact (((h.withStore _).leavePlace _).latch _).latch _
  · exact ((h.withStore _).leavePlace _).latch _

/-! ## The store -/

theorem deliverFailure (h : s.Bounded) (r : StoreRead) : (s.deliverFailure r).Bounded := by
  unfold State.deliverFailure
  split
  · exact h.withRepair _
  · exact h.prefetchFailed _ _ _ _

theorem serve (n : Nat) : ∀ {s : State}, s.Bounded → (State.serve n s).Bounded := by
  induction n with
  | zero => exact id
  | succ n ih =>
    intro s h
    unfold State.serve
    split
    · exact h
    · split
      · exact h
      · exact h.withStore _
    · split
      · exact h
      split
      · exact ih ((h.withStore _).deliverFailure _)
      · exact h.withStore _

theorem arbitrate (h : s.Bounded) : s.arbitrate.Bounded := by
  unfold State.arbitrate
  split
  · exact h
  · exact serve _ h

theorem beginRepair (h : s.Bounded) : s.beginRepair.Bounded :=
  h.congr (by simp) (by simp) (by simp) (by simp) (by simp) (by simp)

theorem issueReconstruction (h : s.Bounded) (x : LayerRef) (l : LayerRecord) (i tile : Nat) (acc : List Byte) :
    (s.issueReconstruction x l i tile acc).Bounded := ((h.withRepair _).noteIssue _ _).withStore _

theorem reconstructionFails (h : s.Bounded) (x : LayerRef) : (s.reconstructionFails x).Bounded :=
  (((h.latch _).count _).modifyPage _ _ |>.withRepair _).derivePage _

theorem finishReconstruction (h : s.Bounded) (x : LayerRef) (l : LayerRecord) (i : Nat) (acc : List Byte) :
    (s.finishReconstruction x l i acc).Bounded := by
  unfold State.finishReconstruction
  split
  · exact h.issueReconstruction _ _ _ _ _
  split
  · exact h.reconstructionFails _
  · exact ((h.withStore _).issueReconstruction _ _ _ _ _).evalFlag

theorem repairPassed (h : s.Bounded) (data : List (List Byte)) : (s.repairPassed data).Bounded := by
  unfold State.repairPassed
  split
  · split
    · exact h.withRepair _
    split
    · exact h.finishReconstruction _ _ _ _
    · exact (h.withRepair _).withStore _
  · exact h.withRepair _
  all_goals exact h

theorem deliverData (h : s.Bounded) (r : StoreRead) (data : List (List Byte)) : (s.deliverData r data).Bounded := by
  unfold State.deliverData
  split
  · exact h.repairPassed _
  · exact h.prefetchPassed _ _ _ _

theorem completeRead (h : s.Bounded) (r : StoreRead) (faults : List DramFault) : (s.completeRead r faults).Bounded := by
  unfold State.completeRead
  dsimp only
  split
  · exact (((h.withStore _).retireTile _).deliverFailure _).arbitrate
  · exact ((h.withStore _).deliverData _ _).arbitrate

theorem releaseWriter (h : s.Bounded) (ref : WriteRef) : (s.releaseWriter ref).Bounded := by
  cases ref with
  | intake i => exact h.withIntake h.inlet (List.length_set.trans h.slots)
  | repair => exact h.withRepair _

theorem completeWrite (h : s.Bounded) (ref : WriteRef) (w : StoreWrite) : (s.completeWrite ref w).Bounded := by
  have h0 : State.Bounded (({ s with store := { s.store with inService := none } } : State).dramWrite w) :=
    (h.withStore _).withStore _
  exact ((h0.releaseWriter ref).noteCompletion _ _).arbitrate

theorem emptyTables (h : s.Bounded) : s.emptyTables.Bounded :=
  { h with
    pages := List.length_replicate
    reports := Nat.zero_le _
    counters := Counters.inRange_zero }

theorem finishRestart (h : s.Bounded) (x : RestartHold) : (s.finishRestart x).Bounded := by
  have h1 : (s.emptyTables.evalFlag.replyRestart x).Bounded := by
    unfold State.replyRestart
    split
    · exact h.emptyTables.evalFlag
    · exact h.emptyTables.evalFlag.report _
  exact (h1.report _).withRestart _

theorem finishIfDue (h : s.Bounded) : s.finishIfDue.Bounded := by
  unfold State.finishIfDue
  split
  · exact h
  · exact h.finishRestart _

theorem finishOrHold (h : s.Bounded) : s.finishOrHold.Bounded := by
  unfold State.finishOrHold
  split
  · exact h.evalFlag
  · exact h.finishRestart _

theorem announceStart (h : s.Bounded) (c : StartCause) : (s.announceStart c).Bounded := by
  have h1 : State.Bounded { s.report (s.startedReport c none) with
      reports := { (s.report (s.startedReport c none)).reports with awaitStarted := false } } :=
    (h.report _).withReports (h.report _).fits
  unfold State.announceStart
  dsimp only
  split
  · exact h1.boundary
  · exact h1

theorem endSweep (h : s.Bounded) : s.endSweep.Bounded := by
  have h1 := ((h.withStore { s.store with sweep := none }).evalFlag).announceStart .powerOn
  exact ((h1.latch _).ite h1 |>.latch _).ite ((h1.latch _).ite h1)

theorem testTile (h : s.Bounded) (n : Nat) (passed : Bool) : (s.testTile n passed).Bounded :=
  h.congr (by simp) (by simp) (by simp) (by simp) (by simp) (by simp)

theorem sweepTileTest (h : s.Bounded) (first second : List DramFault) : (s.sweepTileTest first second).Bounded := by
  unfold State.sweepTileTest
  split
  · exact h
  · dsimp only
    split
    · exact (h.testTile _ _).withStore _
    · exact (h.testTile _ _).endSweep

/-! ## Intake -/

theorem popInlet (h : s.Bounded) : s.popInlet.Bounded :=
  h.withIntake (by simpa using Nat.le_succ_of_le h.inlet) h.slots

theorem issueSegment (h : s.Bounded) (k : Nat) (w : StoreWrite) (n : Nat) (allocated : Bool) :
    (s.issueSegment k w n allocated).Bounded := by
  have h1 : State.Bounded (if allocated then s.takeFromPool w.tile else s) := (h.withStore _).ite h
  exact (((h1.withIntake (by exact h1.inlet) (by exact List.length_set.trans h1.slots)).noteIssue w n).withStore
    _).arbitrate

theorem actOnJudged (h : s.Bounded) (k : Nat) (hd : SegHeader) (parity : Bool) (payload : List Byte) (j : Judged) :
    (s.actOnJudged k hd parity payload j).Bounded := by
  cases j with
  | unknownPage => exact h.count _
  | malformed => exact h.countMalformed
  | duplicate => exact h.count _
  | late => exact h.count _
  | noTile => exact (h.count _).latch _
  | accepted r l tile allocated => exact h.issueSegment _ _ _ _

theorem takeSegmentParcel (h : s.Bounded) : s.takeSegmentParcel.Bounded := by
  unfold State.takeSegmentParcel
  split
  · split
    · exact (h.popInlet.actOnJudged _ _ _ _ _).evalFlag
    · exact h
  all_goals exact h

/-! ## The Framer -/

theorem startMarker (h : s.Bounded) : s.startMarker.Bounded := by
  unfold State.startMarker
  dsimp only
  split
  · exact h.countMalformed.withFramer _
  · exact h.withFramer _

/-- A parcel joins the inlet queue only where it is not full (R27). -/
theorem offerParcel (h : s.Bounded) (buffer : List Byte) : (s.offerParcel buffer).Bounded := by
  unfold State.offerParcel
  split
  · exact (h.count _).latch _
  split
  · exact (h.count _).latch _
  next hq =>
    have hroom : (s.intake.queue ++ [parseParcel buffer]).length ≤ Config.inletCapacity := by
      simpa using Nat.lt_of_not_le hq
    exact (h.withIntake (by exact hroom) (by exact h.slots)).evalFlag

theorem framerByte (h : s.Bounded) (b : Byte) : (s.framerByte b).Bounded := by
  unfold State.framerByte
  split
  · split
    · exact h.withFramer _
    · exact (h.withFramer _).countMalformed
    · exact (h.withFramer _).offerParcel _
  · exact h

theorem assemblyTimeout (h : s.Bounded) : s.assemblyTimeout.Bounded := by
  unfold State.assemblyTimeout
  split
  · exact ((h.withFramer _).count _).latch _
  · exact h

/-! ## Resets -/

theorem reset : State.reset.Bounded where
  inlet := by decide
  slots := by decide
  pages := by decide
  screens := by decide
  curves := by decide
  schedule := by decide
  pool := by decide
  run := by decide
  reports := by decide
  counters := Counters.inRange_zero

theorem afterPin (s : State) (ready : Bool) : (s.afterPin ready).Bounded := { reset with }

theorem pinReset (s : State) (ready : Bool) : (s.pinReset ready).Bounded := by
  unfold State.pinReset
  split
  · exact (afterPin s ready).boundary
  · exact (afterPin s ready).evalFlag.announceStart _

/-! ## Directives -/

theorem openPage (h : s.Bounded) (d : Directive) : (s.openPage d).Bounded := by
  unfold State.openPage
  dsimp only
  split
  · exact h.refuse _ _ _
  split
  · exact h.refuse _ _ _
  split
  · exact h.refuse _ _ _
  · exact (((h.setPage _ _).resupersede _).reresolve _).accept _ _

theorem closePage (h : s.Bounded) (d : Directive) : (s.closePage d).Bounded := by
  unfold State.closePage
  split
  · exact h.refuse _ _ _
  split
  · exact (evaluateAll _ _ ((h.setPage _ _).accept _ _)).derivePage _
  · exact h.refuse _ _ _

theorem withdrawFromRepair (h : s.Bounded) (r : Nat) : (s.withdrawFromRepair r).Bounded :=
  h.congr (by simp) (by simp) (by simp) (by simp) (by simp) (by simp)

theorem releaseRecord (h : s.Bounded) (r : Nat) (p : PageRecord) : (s.releaseRecord r p).1.Bounded := by
  unfold State.releaseRecord
  split
  · exact h.freeRecord _ _
  · exact h.setPage _ _

theorem releasePage (h : s.Bounded) (d : Directive) : (s.releasePage d).Bounded := by
  unfold State.releasePage
  split
  · exact h.refuse _ _ _
  split
  · exact h.refuse _ _ _
  · exact ((((h.withdrawFromRepair _).releaseRecord _ _).resupersede _).reresolve _).accept _ _

theorem enterTicket (h : s.Bounded) (hroom : s.schedule.length < Config.scheduleCapacity) (front : Bool) (x : Ticket) :
    (s.enterTicket front x).Bounded := by
  have hlen : (insertTicket front x s.schedule).length ≤ Config.scheduleCapacity := by
    rw [insertTicket_length]
    exact hroom
  exact (((h.addUse _ _).addUse _ _).withSchedule hlen).offer

/-- A ticket enters the schedule only where it is not full (R131). -/
theorem postTicket (h : s.Bounded) (d : Directive) : (s.postTicket d).Bounded := by
  unfold State.postTicket
  dsimp only
  split
  · exact h.refuse _ _ _
  split
  · exact h.refuse _ _ _
  split
  · exact h.refuse _ _ _
  split
  · exact h.refuse _ _ _
  next hroom => exact (h.enterTicket (Nat.lt_of_not_le hroom) _ _).accept _ _

theorem withdrawTicket (h : s.Bounded) (d : Directive) : (s.withdrawTicket d).Bounded := by
  unfold State.withdrawTicket
  split
  · exact h.refuse _ _ _
  split
  · exact (h.accept _ _).endShort _
  · exact ((h.removeTicket _).offer.accept _ _).report _

theorem screenBegin (h : s.Bounded) (d : Directive) : (s.screenBegin d).Bounded := by
  unfold State.screenBegin
  dsimp only
  split
  · exact h.refuse _ _ _
  split
  · exact h.refuse _ _ _
  split
  · exact h.refuse _ _ _
  · exact (h.setScreener (by exact List.length_set) (by rfl)).accept _ _

theorem screenData (h : s.Bounded) (d : Directive) : (s.screenData d).Bounded := by
  unfold State.screenData
  split
  · exact h.refuse _ _ _
  · dsimp only
    split
    · exact h.refuse _ _ _
    split
    · exact h.refuse _ _ _
    · exact ((h.withScreener (by exact List.length_set) (by rfl)).count _ _).accept _ _

theorem screenEnd (h : s.Bounded) (d : Directive) : (s.screenEnd d).Bounded := by
  unfold State.screenEnd
  split
  · exact h.refuse _ _ _
  split
  · exact h.refuse _ _ _
  · exact (h.setScreener (by exact List.length_set) (by rfl)).accept _ _

theorem curveLoad (h : s.Bounded) (d : Directive) : (s.curveLoad d).Bounded := by
  unfold State.curveLoad
  split
  · exact h.refuse _ _ _
  split
  · exact h.refuse _ _ _
  · exact (h.setScreener (by rfl) (by exact List.length_set)).accept _ _

theorem setInk (h : s.Bounded) (d : Directive) (i : Ink) (b : Option InkBinding) : (s.setInk d i b).Bounded :=
  (h.setScreener (by rfl) (by rfl)).accept _ _

theorem bindInk (h : s.Bounded) (d : Directive) : (s.bindInk d).Bounded := by
  unfold State.bindInk
  split
  · exact h.refuse _ _ _
  · exact (h.setInk _ _ _).ite (h.refuse _ _ _)

theorem unbindInk (h : s.Bounded) (d : Directive) : (s.unbindInk d).Bounded := by
  unfold State.unbindInk
  split
  · exact h.refuse _ _ _
  · exact h.setInk _ _ _

theorem setFlow (h : s.Bounded) (d : Directive) : (s.setFlow d).Bounded :=
  ((h.withIntake (by exact h.inlet) (by exact h.slots)).accept _ _).ite (h.refuse _ _ _)

theorem setHead (h : s.Bounded) (d : Directive) : (s.setHead d).Bounded :=
  (h.refuse _ _ _).ite ((h.refuse _ _ _).ite (((h.withDriveAs (by rfl)).accept _ _).ite ((h.withDriveAs (by rfl)).accept _ _).offer))

theorem resumeHead (h : s.Bounded) (d : Directive) : (s.resumeHead d).Bounded :=
  (h.enterUnloading.accept _ _).ite (h.refuse _ _ _)

theorem setAlarmMask (h : s.Bounded) (d : Directive) : (s.setAlarmMask d).Bounded :=
  (h.withReports (by exact h.fits)).accept _ _

theorem clearAlarms (h : s.Bounded) (d : Directive) : (s.clearAlarms d).Bounded :=
  (h.withReports (by exact h.fits)).accept _ _

theorem clearCounters (h : s.Bounded) (d : Directive) : (s.clearCounters d).Bounded :=
  (h.withReports (rp := { s.reports with counters := Counters.zero }) ⟨h.reports, Counters.inRange_zero⟩).accept _ _

theorem abortSchedule (h : s.Bounded) : s.abortSchedule.Bounded :=
  State.Bounded.enterUnloading { h.dropPlate with
    pages := (List.length_map _).trans h.pages
    schedule := Nat.zero_le _ }

theorem takeRestart (h : s.Bounded) (d : Directive) : (s.takeRestart d).Bounded :=
  { h.abortSchedule with screens := (List.length_map _).trans h.abortSchedule.screens }

theorem restartDirective (h : s.Bounded) : s.restartDirective.Bounded := by
  unfold State.restartDirective
  split
  · exact h
  · exact (h.popInlet.takeRestart _).finishOrHold

/-! ## The head drive and the return lane -/

theorem plateReadyRise (h : s.Bounded) : s.plateReadyRise.Bounded :=
  h.ite ((h.withDriveAs (by rfl)).capturePlate.ite (h.withDriveAs (by rfl)))

theorem plateReadyFall (h : s.Bounded) : s.plateReadyFall.Bounded := by
  unfold State.plateReadyFall
  split
  · dsimp only
    split
    · exact (h.withDriveAs (by rfl)).endShort _
    · exact (h.withDriveAs (by rfl)).endShort _
    · exact (h.withDriveAs (by rfl)).enterIdle
    all_goals exact h.withDriveAs (by rfl)
  · exact h

theorem requestLine (h : s.Bounded) (pl : Plate) : (s.requestLine pl).Bounded := by
  unfold State.requestLine
  split
  · exact h.endShort _
  split
  next line rest hpool =>
    have hrest : rest.length ≤ Config.poolCapacity := by
      have := h.pool
      rw [hpool] at this
      exact Nat.le_of_succ_le this
    exact (h.withDrive (by exact hrest) (by exact h.run)).prefetchEvent
  · exact h.endShort _

theorem lineReq (h : s.Bounded) : s.lineReq.Bounded := by
  unfold State.lineReq
  split
  · exact h.count _
  · split
    · exact h
    · exact h.requestLine _
  all_goals exact h

theorem completeTransfer (h : s.Bounded) : s.completeTransfer.Bounded := by
  unfold State.completeTransfer
  split
  · exact h
  · exact (h.withDriveAs (by rfl)).ite (h.endDone _)

theorem stallExpiry (h : s.Bounded) : s.stallExpiry.Bounded := (h.endShort _).ite h

theorem parcelEnd (h : s.Bounded) (causeFirst : Bool) : (s.parcelEnd causeFirst).Bounded := by
  have h1 := h.withReports (rp := { s.reports with sending := none }) h.fits
  unfold State.parcelEnd
  split
  · exact h
  · exact h1.sendNext.ite h1.boundary

end State.Bounded

/-! ## The step -/

theorem State.Bounded.keptByActs : KeptByActs State.Bounded where
  beginStep := .beginStep
  settle s h := h.settle s
  report r h := h.report r
  evalFlag := .evalFlag
  popInlet := .popInlet
  startMarker := .startMarker
  framerByte b h := h.framerByte b
  assemblyTimeout := .assemblyTimeout
  takeSegmentParcel := .takeSegmentParcel
  completeWrite _ _ _ h := (h.completeWrite _ _).finishIfDue
  completeRead faults _ _ h := h.completeRead _ faults
  beginRepair _ h := h.beginRepair.arbitrate
  sweepTileTest first second h := h.sweepTileTest first second
  afterPowerOn _ _ _ _ := { State.Bounded.reset with }
  pinReset ready _ := .pinReset _ ready
  openPage d _ h := h.openPage d
  closePage d h := h.closePage d
  releasePage d h := h.releasePage d
  postTicket d _ h := h.postTicket d
  withdrawTicket d h := h.withdrawTicket d
  bindInk d h := h.bindInk d
  unbindInk d h := h.unbindInk d
  screenBegin d h := h.screenBegin d
  screenData d h := h.screenData d
  screenEnd d h := h.screenEnd d
  curveLoad d h := h.curveLoad d
  setFlow d h := h.setFlow d
  setHead d h := h.setHead d
  resumeHead d h := h.resumeHead d
  setAlarmMask d h := h.setAlarmMask d
  clearAlarms d h := h.clearAlarms d
  clearCounters d h := h.clearCounters d
  restartDirective := .restartDirective
  finishIfDue := .finishIfDue
  makeLine hc h := by
    obtain ⟨_, _, _, _, hp, _⟩ := State.canMakeLine_some hc
    exact (h.makeLine hp).primeTest
  issueRead side kind h := (h.issueRead side kind).arbitrate
  plateReadyRise := .plateReadyRise
  plateReadyFall := .plateReadyFall
  lineReq := .lineReq
  completeTransfer := .completeTransfer
  stallExpiry := .stallExpiry
  haltSample high h := h.haltSample high
  parcelEnd causeFirst h := h.parcelEnd causeFirst
  queueOwed hd h := by
    simp only [State.owedDue, Bool.and_eq_true, decide_eq_true_eq] at hd
    exact h.withReports (h.fits.queueOwed hd.1.2)

/-- Settles O57: every operation keeps the room, where a queue grows by its own guard, and every act is made of them. -/
theorem stepsKeepCapacities : Obligations.StepsKeepCapacities := State.Bounded.keptByActs.stepKeeps fun _ h => { h with }

end Sys2Proof.Machine
end

section
/-! PROOFS. Every command completes, with the queue of waiting commands as it was (log entry 27). -/

namespace Sys2Proof.Machine

open Sys2Proof (Byte Instr DramFault)

theorem State.pinReset_pending (s : State) (ready : Bool) : (s.pinReset ready).pending = s.pending := by
  have hpin : (s.afterPin ready).pending = s.pending := rfl
  unfold State.pinReset
  split
  · exact hpin
  · simpa using hpin

/-- No act of a command touches the queue of the commands that wait. -/
theorem State.pending_keptByActs (l : List Instr) : KeptByActs fun s => s.pending = l where
  beginStep h := by simpa using h
  settle _ h := by simpa using h
  report _ h := by simpa using h
  evalFlag h := by simpa using h
  popInlet h := by simpa using h
  startMarker h := by simpa using h
  framerByte _ h := by simpa using h
  assemblyTimeout h := by simpa using h
  takeSegmentParcel h := by simpa using h
  completeWrite _ _ _ h := by simpa using h
  completeRead _ _ _ h := by simpa using h
  beginRepair _ h := by simpa using h
  sweepTileTest _ _ h := by simpa using h
  afterPowerOn _ _ _ h := h
  pinReset ready h := (State.pinReset_pending _ ready).trans h
  openPage _ _ h := by simpa using h
  closePage _ h := by simpa using h
  releasePage _ h := by simpa using h
  postTicket _ _ h := by simpa using h
  withdrawTicket _ h := by simpa using h
  bindInk _ h := by simpa using h
  unbindInk _ h := by simpa using h
  screenBegin _ h := by simpa using h
  screenData _ h := by simpa using h
  screenEnd _ h := by simpa using h
  curveLoad _ h := by simpa using h
  setFlow _ h := by simpa using h
  setHead _ h := by simpa using h
  resumeHead _ h := by simpa using h
  setAlarmMask _ h := by simpa using h
  clearAlarms _ h := by simpa using h
  clearCounters _ h := by simpa using h
  restartDirective h := by simpa using h
  finishIfDue h := by simpa using h
  makeLine _ h := by simpa using h
  issueRead _ _ h := by simpa using h
  plateReadyRise h := by simpa using h
  plateReadyFall h := by simpa using h
  lineReq h := by simpa using h
  completeTransfer h := by simpa using h
  stallExpiry h := by simpa using h
  haltSample _ h := by simpa using h
  parcelEnd _ h := by simpa using h
  queueOwed _ h := by simpa using h

/-- A command completes, or stops at a tile beyond the store. -/
def CompletesOrStops (s : State) (o : Host.Outcome State Fault Refusal) : Prop :=
  completes o ∨ ∃ n, o = .fault (.noSuchTile n) ∧ s.tileCount ≤ n

theorem completesOrStops_next (s t : State) : CompletesOrStops s (.next t) := .inl ⟨t, rfl⟩

theorem completesOrStops_guardTile (s t : State) (tile : Nat) : CompletesOrStops s (s.guardTile tile t) := by
  unfold State.guardTile
  split
  · exact completesOrStops_next s t
  next h => exact .inr ⟨tile, rfl, Nat.le_of_not_lt h⟩

theorem completesOrStops_storeWriteCompletion (s : State) : CompletesOrStops s (execStoreWriteCompletion s) := by
  unfold execStoreWriteCompletion
  split
  · split
    · exact completesOrStops_guardTile ..
    · exact completesOrStops_next ..
  all_goals exact completesOrStops_next ..

theorem completesOrStops_storeReadCompletion (faults : List DramFault) (s : State) :
    CompletesOrStops s (execStoreReadCompletion faults s) := by
  unfold execStoreReadCompletion
  split
  · exact completesOrStops_guardTile ..
  all_goals exact completesOrStops_next ..

theorem completes_repairBegin (s : State) : completes (execRepairBegin s) := by
  unfold execRepairBegin
  split <;> exact ⟨_, rfl⟩

theorem completes_makeLine (s : State) : completes (execMakeLine s) := by
  unfold execMakeLine
  split <;> exact ⟨_, rfl⟩

theorem completes_prefetchReadIssue (s : State) : completes (execPrefetchReadIssue s) := by
  unfold execPrefetchReadIssue
  split <;> exact ⟨_, rfl⟩

theorem completes_owedAlarmReport (s : State) : completes (execOwedAlarmReport s) := by
  unfold execOwedAlarmReport
  split <;> exact ⟨_, rfl⟩

/-- Only the two completions of a store request can stop. -/
theorem exec_completes (c : Instr) (s : State) : completes (exec c s) ∨
    ∃ n, exec c s = .fault (.noSuchTile n) ∧ s.tileCount ≤ n ∧
      (c = .storeWriteCompletion ∨ ∃ faults, c = .storeReadCompletion faults) := by
  cases c with
  | storeWriteCompletion =>
    exact (completesOrStops_storeWriteCompletion s).imp_right fun ⟨n, h, hn⟩ => ⟨n, h, hn, .inl rfl⟩
  | storeReadCompletion faults =>
    exact (completesOrStops_storeReadCompletion faults s).imp_right fun ⟨n, h, hn⟩ => ⟨n, h, hn, .inr ⟨faults, rfl⟩⟩
  | repairBegin => exact .inl (completes_repairBegin s)
  | makeLine => exact .inl (completes_makeLine s)
  | prefetchReadIssue => exact .inl (completes_prefetchReadIssue s)
  | owedAlarmReport => exact .inl (completes_owedAlarmReport s)
  | _ => exact .inl ⟨_, rfl⟩

/-- Settles O2: the dispatch answers a next state but at the guard of a tile, and no act touches the waiting commands. -/
theorem everyCommandCompletes : Obligations.EveryCommandCompletes := by
  intro c s
  refine (exec_completes c s).imp_left fun ⟨t, ht⟩ => ⟨t, ht, ?_⟩
  exact (State.pending_keptByActs s.pending).keeps_exec c s rfl t ht

/-- Settles O1: the front of the queue is what the step dispatches. -/
theorem stepRunsFrontCommand : Obligations.StepRunsFrontCommand := fun _ _ _ => rfl

end Sys2Proof.Machine
end

section
/-! PROOFS. One directive is one event: its refusal, its acceptance, and what either leaves as it was (R165 to R167). -/

namespace Sys2Proof.Machine

open Sys2Proof (Byte Instr)

/-- The event of a directive that passes R166: its own rule, and the evaluation of the holding flag. -/
theorem event_of_takes {s : State} {row : Instr} {d : Directive} (h : s.Takes row d) (act : Directive → State → State) :
    s.event (fun u => u.takeDirective row act) = s.beginStep.settle (act d s.beginStep.popInlet).evalFlag :=
  congrArg s.beginStep.settle (State.takeDirective_of_takes h act)

/-- The event of a directive that R166 refuses. -/
theorem event_of_refusal {s : State} {row : Instr} {d : Directive} {reason : Reason} (h : s.directiveOf row = some d)
    (hr : d.refusal = some reason) (act : Directive → State → State) :
    s.event (fun u => u.takeDirective row act)
      = s.beginStep.settle (s.beginStep.popInlet.refuse d reason).evalFlag :=
  congrArg s.beginStep.settle (State.takeDirective_of_refusal h hr act)

/-- What the end of a directive's event, the evaluation of the holding flag with it, leaves as it was. -/
@[simp] theorem State.settle_evalFlag_same (s u : State) :
    (s.settle u.evalFlag).pages = u.pages ∧ (s.settle u.evalFlag).store = u.store ∧
    (s.settle u.evalFlag).repair = u.repair ∧ (s.settle u.evalFlag).prefetch = u.prefetch ∧
    (s.settle u.evalFlag).screener = u.screener ∧ (s.settle u.evalFlag).schedule = u.schedule ∧
    (s.settle u.evalFlag).drive = u.drive ∧ (s.settle u.evalFlag).intake.queue = u.intake.queue ∧
    (s.settle u.evalFlag).intake.slots = u.intake.slots ∧ (s.settle u.evalFlag).intake.flow = u.intake.flow := by
  simp

/-- The end of a directive's event writes Intake and the report unit only. -/
theorem State.settle_evalFlag_eq (s u : State) :
    s.settle u.evalFlag
      = { u with intake := (s.settle u.evalFlag).intake, reports := (s.settle u.evalFlag).reports } := by
  calc s.settle u.evalFlag = { u.evalFlag with reports := (s.settle u.evalFlag).reports } := State.settle_eq _ _
    _ = _ := by rw [State.evalFlag_eq u]; simp

/-- An acceptance writes the report unit only. -/
theorem State.accept_eq (u : State) (d : Directive) (body : List Byte) :
    u.accept d body = { u with reports := (u.accept d body).reports } := by
  unfold State.accept
  split <;> rfl

/-- A directive is refused: its reply is queued, and nothing else changes but that it has left the inlet queue. -/
structure RefusedWith (s t : State) (d : Directive) (reason : Reason) (body : List Byte) : Prop where
  frame : t = { s.beginStep with intake := t.intake, reports := t.reports }
  queue : t.intake.queue = s.intake.queue.tail
  slots : t.intake.slots = s.intake.slots
  flow : t.intake.flow = s.intake.flow
  touches : s.reports.touches t.reports [] [.storeLow]
  answer : answered s t d (some reason) body

theorem refusedWith_settle (s : State) (d : Directive) (reason : Reason) (body : List Byte) :
    RefusedWith s (s.beginStep.settle (s.beginStep.popInlet.refuse d reason body).evalFlag) d reason body where
  frame := State.settle_evalFlag_eq _ _
  queue := by simp
  slots := by simp
  flow := by simp
  touches := State.settle_touches (Reports.touches_trans (b := (s.beginStep.popInlet.refuse d reason body).reports)
    (State.refuse_touches s.beginStep.popInlet d reason body [] [.storeLow])
    (State.evalFlag_touches _ [] [.storeLow] (by simp)))
  answer := answered_refuse d reason body ⟨rfl, rfl, rfl, rfl⟩ rfl

/-- What holds at the end of the event of a rule's result. -/
theorem gives_of_takes {s u : State} {row : Instr} {d : Directive} (h : s.Takes row d) {act : Directive → State → State}
    {post : State → Prop} (hact : act d s.beginStep.popInlet = u) (hp : post (s.beginStep.settle u.evalFlag)) :
    gives (.next (s.event fun u => u.takeDirective row act)) post := by
  subst hact
  exact ⟨_, congrArg _ (event_of_takes h act), hp⟩

/-- A rule that refuses gives a refusal. -/
theorem gives_refused {s : State} {row : Instr} {d : Directive} (h : s.Takes row d) {act : Directive → State → State}
    {reason : Reason} {body : List Byte}
    (hact : act d s.beginStep.popInlet = s.beginStep.popInlet.refuse d reason body) :
    gives (.next (s.event fun u => u.takeDirective row act)) fun t => RefusedWith s t d reason body :=
  gives_of_takes h hact (refusedWith_settle s d reason body)

theorem gives_mono {o : Host.Outcome State Fault Refusal} {p q : State → Prop} (h : gives o p) (hpq : ∀ t, p t → q t) :
    gives o q := by
  obtain ⟨t, ht, hp⟩ := h
  exact ⟨t, ht, hpq t hp⟩

/-- A directive is accepted with the state `u` of its own rule: that state stands, but for Intake and the report unit. -/
structure AcceptedWith (s t : State) (d : Directive) (body : List Byte) (u : State) : Prop where
  frame : t = { u with intake := t.intake, reports := t.reports }
  queue : t.intake.queue = u.intake.queue
  slots : t.intake.slots = u.intake.slots
  flow : t.intake.flow = u.intake.flow
  touches : u.reports.touches t.reports [] [.storeLow]
  answer : s.laneAs u → u.straps = s.straps → acceptedWith s t d body

theorem acceptedWith_settle (s u : State) (d : Directive) (body : List Byte) :
    AcceptedWith s (s.beginStep.settle (u.accept d body).evalFlag) d body u where
  frame := by
    calc _ = _ := State.settle_evalFlag_eq _ _
      _ = _ := by rw [State.accept_eq]
  queue := by simp
  slots := by simp
  flow := by simp
  touches := State.settle_accept_touches _ u d body
  answer := acceptedWith_accept d body

/-- A rule that accepts gives an acceptance. -/
theorem gives_accepted {s u : State} {row : Instr} {d : Directive} (h : s.Takes row d) {act : Directive → State → State}
    {body : List Byte} (hact : act d s.beginStep.popInlet = u.accept d body) :
    gives (.next (s.event fun u => u.takeDirective row act)) fun t => AcceptedWith s t d body u :=
  gives_of_takes h hact (acceptedWith_settle s u d body)

end Sys2Proof.Machine
end

section
/-! PROOFS. The refusals of the directives (R13, R15, R16, R116, R118, R120, R166). -/

namespace Sys2Proof.Machine

open Sys2Proof (Byte Instr)

/-! ## The page directives (R13, R15, R16) -/

/-- The ranges of R13. -/
theorem OpenArgs.ok_iff (a : OpenArgs) : a.ok = true ↔ (1 ≤ a.pageId ∧ a.pageId ≤ 4095) ∧
    (1 ≤ a.version ∧ a.version ≤ 255) ∧ (64 ≤ a.width ∧ a.width ≤ 16384) ∧ (1 ≤ a.height ∧ a.height ≤ 24576) ∧
    a.inkSet ≠ 0 := by
  simp [OpenArgs.ok, and_assoc]

/-- A current record of the id has an equal or higher version (R13). -/
theorem State.staleVersion_iff (s : State) (a : OpenArgs) : s.staleVersion a = true ↔
    ∃ r p, s.page? r = some p ∧ p.current = true ∧ p.pageId = a.pageId ∧ a.version ≤ p.version := by
  simp [State.staleVersion, State.mem_liveRecords, and_assoc]

theorem State.staleVersion_false_iff (s : State) (a : OpenArgs) : s.staleVersion a = false ↔
    ∀ r p, s.page? r = some p → p.current = true → p.pageId = a.pageId → p.version < a.version := by
  rw [← Bool.not_eq_true, State.staleVersion_iff]
  push Not
  rfl

theorem State.openPage_of_illegal {s : State} {d : Directive} (h : (openArgs d.payload).ok = false) :
    s.openPage d = s.refuse d .badArgument := by
  simp [State.openPage, h]

theorem State.openPage_of_stale {s : State} {d : Directive} (h : (openArgs d.payload).ok = true)
    (hv : s.staleVersion (openArgs d.payload) = true) : s.openPage d = s.refuse d .staleVersion := by
  simp [State.openPage, h, hv]

theorem State.openPage_of_full {s : State} {d : Directive} (h : (openArgs d.payload).ok = true)
    (hv : s.staleVersion (openArgs d.payload) = false) (he : s.emptyRecord = none) :
    s.openPage d = s.refuse d .tableFull := by
  simp [State.openPage, h, hv, he]

theorem State.closePage_of_unknown {s : State} {d : Directive}
    (h : s.findPage (u16 d.payload 0) (u8 d.payload 2) = none) : s.closePage d = s.refuse d .unknownPage := by
  simp [State.closePage, h]

theorem State.closePage_of_closed {s : State} {d : Directive} {r : Nat} {p : PageRecord}
    (h : s.findPage (u16 d.payload 0) (u8 d.payload 2) = some (r, p)) (hp : p.state ≠ .opened) :
    s.closePage d = s.refuse d .wrongState := by
  simp [State.closePage, h, hp]

theorem State.releasePage_of_unknown {s : State} {d : Directive}
    (h : s.findPage (u16 d.payload 0) (u8 d.payload 2) = none) : s.releasePage d = s.refuse d .unknownPage := by
  simp [State.releasePage, h]

theorem State.releasePage_of_used {s : State} {d : Directive} {r : Nat} {p : PageRecord}
    (h : s.findPage (u16 d.payload 0) (u8 d.payload 2) = some (r, p)) (hp : 0 < p.useCount) :
    s.releasePage d = s.refuse d .pageInUse := by
  simp [State.releasePage, h, hp]

/-- No record is EMPTY where every number of the table has one (R1). -/
theorem State.emptyRecord_of_full {s : State} (h : ∀ r < s.pages.length, s.page? r ≠ none) : s.emptyRecord = none := by
  rw [State.emptyRecord_none]
  exact h

/-- Settles O25: the rules test in the order of the statement's cases, and each refusal changes only what a refusal does. -/
theorem pageDirectiveRefusals : Obligations.PageDirectiveRefusals := by
  intro s d row reason ht a legal found hcase
  have finish : ∀ {o : Host.Outcome State Fault Refusal}, (gives o fun t => RefusedWith s t d reason []) →
      gives o fun t => t = { s.beginStep with intake := t.intake, reports := t.reports } ∧
        answered s t d (some reason) [] ∧ t.intake.queue = s.intake.queue.tail :=
    fun h => gives_mono h fun t hr => ⟨hr.frame, hr.answer, hr.queue⟩
  have hok : a.ok = true ↔ legal := OpenArgs.ok_iff a
  rcases hcase with ⟨rfl, hl, rfl⟩ | ⟨rfl, hl, hstale, rfl⟩ | ⟨rfl, hl, hfresh, hfull, rfl⟩ | ⟨hrow, hf, rfl⟩ |
    ⟨rfl, ⟨r, p, hf, hp⟩, rfl⟩ | ⟨rfl, ⟨r, p, hf, hp⟩, rfl⟩
  · exact finish (gives_refused ht (State.openPage_of_illegal (Bool.eq_false_iff.mpr (mt hok.mp hl))))
  · exact finish (gives_refused ht (State.openPage_of_stale (hok.mpr hl) ((State.staleVersion_iff _ _).mpr hstale)))
  · exact finish (gives_refused ht (State.openPage_of_full (hok.mpr hl) ((State.staleVersion_false_iff _ _).mpr hfresh)
      (State.emptyRecord_of_full hfull)))
  · rcases hrow with rfl | rfl
    · exact finish (gives_refused ht (State.closePage_of_unknown hf))
    · exact finish (gives_refused ht (State.releasePage_of_unknown hf))
  · exact finish (gives_refused ht (State.closePage_of_closed hf hp))
  · exact finish (gives_refused ht (State.releasePage_of_used hf hp))

/-! ## The screen load (R118, R120) -/

theorem Screener.openLoad_of_none {sc : Screener} (h : sc.load = none) : sc.openLoad = none := by
  simp [Screener.openLoad, h]

theorem State.screenData_of_closed {s : State} {d : Directive} (h : s.screener.openLoad = none) :
    s.screenData d = s.refuse d .notLoading := by
  simp [State.screenData, h]

theorem State.screenData_of_displaced {s : State} {d : Directive} {l : ScreenLoad} {tb : ScreenTable}
    (h : s.screener.openLoad = some (l, tb)) (hp : u16 d.payload 0 ≠ l.fillPoint) :
    s.screenData d = s.refuse d .outOfOrder (be32 l.fillPoint) := by
  simp [State.screenData, h, hp]

theorem State.screenData_of_misfit {s : State} {d : Directive} {l : ScreenLoad} {tb : ScreenTable}
    (h : s.screener.openLoad = some (l, tb)) (hp : u16 d.payload 0 = l.fillPoint)
    (hf : (d.payload.drop 2).length = 0 ∨ tb.w * tb.h < l.fillPoint + (d.payload.drop 2).length) :
    s.screenData d = s.refuse d .badArgument := by
  unfold State.screenData
  rw [h]
  dsimp only
  rw [if_neg (not_not_intro hp), if_pos hf]

theorem State.screenEnd_of_closed {s : State} {d : Directive} (h : s.screener.openLoad = none) :
    s.screenEnd d = s.refuse d .notLoading := by
  simp [State.screenEnd, h]

theorem State.screenEnd_of_incomplete {s : State} {d : Directive} {l : ScreenLoad} {tb : ScreenTable}
    (h : s.screener.openLoad = some (l, tb)) (hf : l.fillPoint < tb.w * tb.h) :
    s.screenEnd d = s.refuse d .incomplete (be32 l.fillPoint) := by
  simp [State.screenEnd, h, hf]

/-- Settles O32: the tests of R118 and R120 in their order. -/
theorem screenLoadRefusals : Obligations.ScreenLoadRefusals := by
  intro s d row reason body ht hcase
  have finish : ∀ {o : Host.Outcome State Fault Refusal}, (gives o fun t => RefusedWith s t d reason body) →
      gives o fun t => t = { s.beginStep with intake := t.intake, reports := t.reports } ∧
        answered s t d (some reason) body :=
    fun h => gives_mono h fun t hr => ⟨hr.frame, hr.answer⟩
  rcases hcase with ⟨hrow, hn, rfl, rfl⟩ | ⟨l, tb, ho, hcase⟩
  · have hclosed : s.beginStep.popInlet.screener.openLoad = none := Screener.openLoad_of_none hn
    rcases hrow with rfl | rfl
    · exact finish (gives_refused ht (State.screenData_of_closed hclosed))
    · exact finish (gives_refused ht (State.screenEnd_of_closed hclosed))
  · have hopen : s.beginStep.popInlet.screener.openLoad = some (l, tb) := ho
    rcases hcase with ⟨rfl, hp, rfl, rfl⟩ | ⟨rfl, hp, hf, rfl, rfl⟩ | ⟨rfl, hf, rfl, rfl⟩
    · exact finish (gives_refused ht (State.screenData_of_displaced hopen hp))
    · refine finish (gives_refused ht (State.screenData_of_misfit hopen hp ?_))
      rw [List.length_drop]
      omega
    · exact finish (gives_refused ht (State.screenEnd_of_incomplete hopen hf))

/-! ## The three tests of R166 -/

/-- A code is listed by table 10-3 beside RESTART's, exactly where the table gives it lengths (R166, test 1). -/
theorem payloadLengthOk_isSome (code n : Nat) :
    (payloadLengthOk code n).isSome = true ↔ code = 0x5F ∨ ∃ e ∈ directiveLengths, e.1 = code := by
  unfold payloadLengthOk
  split <;> simp_all [directiveLengths, eq_comm]

/-- A length passes exactly where the table gives it for the code, and every length of RESTART's (R166, test 2). -/
theorem payloadLengthOk_eq_true (code n : Nat) : payloadLengthOk code n = some true ↔
    code = 0x5F ∨ ∃ e ∈ directiveLengths, e.1 = code ∧ e.2.1 ≤ n ∧ n ≤ e.2.2 := by
  unfold payloadLengthOk
  split
  case h_19 => simp_all [directiveLengths, eq_comm]
  all_goals
    simp [directiveLengths]
    try omega

/-- The codes of a directive's fields are in their lists exactly where none is outside (R166, test 3). -/
theorem codesOk_iff (d : Directive) : codesOk d.code d.payload = true ↔ ¬ codeOutside d := by
  unfold codesOk codeOutside
  split <;> simp_all [Nat.one_le_iff_ne_zero, and_assoc]
  omega

theorem Directive.refusal_eq_none (d : Directive) :
    d.refusal = none ↔ d.code = 0x5F ∨ (lengthFits d ∧ ¬ codeOutside d) := by
  rw [← codesOk_iff]
  have hlen : payloadLengthOk d.code d.payload.length = some true ↔ d.code = 0x5F ∨ lengthFits d :=
    payloadLengthOk_eq_true ..
  have hrestart : d.code = 0x5F → codesOk d.code d.payload = true := fun h => by simp [h, codesOk]
  unfold Directive.refusal
  split
  next hc => simp_all
  next hc => simp_all
  next hc =>
    by_cases hk : codesOk d.code d.payload = true
    · simp [hk, hlen.mp hc]
    · have hne : d.code ≠ 0x5F := fun h => hk (hrestart h)
      simp [hk, hne]

/-- The listed codes are those of the directives other than RESTART. -/
theorem listed_ne_restart : ∀ e ∈ directiveLengths, e.1 ≠ 0x5F := by decide

/-- A code that table 10-3 does not list fails the first test. -/
theorem Directive.refusal_of_unlisted {d : Directive} (hr : d.code ≠ 0x5F)
    (h : ¬ ∃ e ∈ directiveLengths, e.1 = d.code) : d.refusal = some .unknownDirective := by
  have hnone : payloadLengthOk d.code d.payload.length = none := by
    rw [← Option.not_isSome_iff_eq_none, payloadLengthOk_isSome]
    exact not_or.mpr ⟨hr, h⟩
  simp [Directive.refusal, hnone]

/-- A listed code with a length that is not its own fails the second. -/
theorem Directive.refusal_of_misfit {d : Directive} (h : ∃ e ∈ directiveLengths, e.1 = d.code) (hf : ¬ lengthFits d) :
    d.refusal = some .badArgument := by
  have hne : d.code ≠ 0x5F := by
    obtain ⟨e, he, hc⟩ := h
    exact hc ▸ listed_ne_restart e he
  have hfalse : payloadLengthOk d.code d.payload.length = some false := by
    have hsome := (payloadLengthOk_isSome d.code d.payload.length).mpr (.inr h)
    have htrue := mt (payloadLengthOk_eq_true d.code d.payload.length).mp (not_or.mpr ⟨hne, hf⟩)
    obtain ⟨b, hb⟩ := Option.isSome_iff_exists.mp hsome
    cases b with
    | false => exact hb
    | true => exact absurd hb htrue
  simp [Directive.refusal, hfalse]

/-- A code outside the list of its field fails the third. -/
theorem Directive.refusal_of_outside {d : Directive} (hf : lengthFits d) (ho : codeOutside d) :
    d.refusal = some .badArgument := by
  have htrue : payloadLengthOk d.code d.payload.length = some true := (payloadLengthOk_eq_true ..).mpr (.inr hf)
  have hcodes : codesOk d.code d.payload = false :=
    Bool.eq_false_iff.mpr fun h => (codesOk_iff d).mp h ho
  simp [Directive.refusal, htrue, hcodes]

/-- A directive whose code is not RESTART's is carried out by the taking of its row. -/
theorem exec_of_directive {d : Directive} (h : d.code ≠ 0x5F) :
    ∃ act, ∀ s, exec d.row s = .next (s.event fun u => u.takeDirective d.row act) := by
  unfold Directive.row
  split
  all_goals try exact ⟨_, fun _ => rfl⟩
  · split <;> exact ⟨_, fun _ => rfl⟩
  · unfold queryRow
    split
    all_goals try exact ⟨_, fun _ => rfl⟩
    split <;> exact ⟨_, fun _ => rfl⟩
  next hc => exact absurd hc h

/-- Settles O22: what the three tests give, spelled out by table 10-3, is what the taking of every row refuses. -/
theorem refusedDirectiveChangesNothing : Obligations.RefusedDirectiveChangesNothing := by
  intro row s d hd listed refusedWith
  have hrow : d.row = row := State.row_of_directiveOf hd
  have finish : ∀ {reason : Reason}, d.code ≠ 0x5F → d.refusal = some reason → refusedWith reason := by
    intro reason hc hr
    obtain ⟨act, hact⟩ := exec_of_directive hc
    rw [hrow] at hact
    have h := refusedWith_settle s d reason []
    refine ⟨_, (hact s).trans (congrArg _ (event_of_refusal hd hr act)), h.frame, h.queue, h.slots, h.flow, h.touches,
      h.answer⟩
  have hlisted : lengthFits d → d.code ≠ 0x5F := by
    rintro ⟨e, he, hc, -⟩
    exact hc ▸ listed_ne_restart e he
  refine ⟨fun hc hl => finish hc (Directive.refusal_of_unlisted hc hl), fun hl hf => finish ?_
    (Directive.refusal_of_misfit hl hf), fun hf ho => finish (hlisted hf) (Directive.refusal_of_outside hf ho), ?_⟩
  · obtain ⟨e, he, hc⟩ := hl
    exact hc ▸ listed_ne_restart e he
  · rw [← Directive.refusal_eq_none]
    exact ⟨fun h => h.2, fun h => ⟨hd, h⟩⟩

end Sys2Proof.Machine
end

section
/-! PROOFS. The settings, the alarm directives and the queries (R19, R41, R161, R168, R179, R180). -/

namespace Sys2Proof.Machine

open Sys2Proof (Byte Instr)

/-! ## Queries (R19, R44, R125, R145, R163, R168, R169) -/

/-- The reply of a rule that accepts on the state as taken. -/
theorem AcceptedWith.reply {s t : State} {d : Directive} {body : List Byte}
    (h : AcceptedWith s t d body s.beginStep.popInlet) : acceptedWith s t d body := h.answer ⟨rfl, rfl, rfl, rfl⟩ rfl

/-- A query other than QUERY PAGE only accepts, with the body that the state at its taking gives. -/
theorem exec_query_accepts {s : State} {d : Directive} {row : Instr} {body : List Byte} (h : s.Takes row d)
    (hb : queryBodyOf s.beginStep.popInlet row = some body) :
    gives (exec row s) fun t => AcceptedWith s t d body s.beginStep.popInlet := by
  unfold queryBodyOf at hb
  split at hb
  case h_8 => cases hb
  all_goals
    cases hb
    exact gives_accepted h rfl

theorem State.queryPage_of_found {s : State} {d : Directive} {r : Nat} {p : PageRecord}
    (h : s.findPage (u16 d.payload 2) (u8 d.payload 4) = some (r, p)) : s.queryPage d = s.accept d (p.queryBody r) := by
  simp [State.queryPage, h]

theorem State.queryPage_of_unknown {s : State} {d : Directive}
    (h : s.findPage (u16 d.payload 2) (u8 d.payload 4) = none) : s.queryPage d = s.refuse d .unknownPage := by
  simp [State.queryPage, h]

/-- Settles O40: every query is an acceptance on the state as taken, but QUERY PAGE of an unknown name, a refusal. -/
theorem queriesChangeNothing : Obligations.QueriesChangeNothing := by
  intro s d row ht hrow
  rcases hrow with rfl | hsome
  · cases hf : s.findPage (u16 d.payload 2) (u8 d.payload 4) with
    | none =>
      refine gives_mono (gives_refused ht (State.queryPage_of_unknown hf)) fun t h => ?_
      refine ⟨h.frame, h.queue, h.slots, h.flow, h.touches, (fun _ hb => by cases hb), fun _ => ⟨?_, fun _ => h.answer⟩⟩
      rintro r p ⟨⟩
    | some x =>
      obtain ⟨r, p⟩ := x
      refine gives_mono (gives_accepted ht (State.queryPage_of_found hf)) fun t h => ?_
      refine ⟨h.frame, h.queue, h.slots, h.flow, h.touches, (fun _ hb => by cases hb), fun _ => ⟨?_, ?_⟩⟩
      · rintro _ _ ⟨⟩
        exact h.reply
      · rintro ⟨⟩
  · obtain ⟨body, hb⟩ := Option.isSome_iff_exists.mp hsome
    refine gives_mono (exec_query_accepts ht hb) fun t h => ?_
    refine ⟨h.frame, h.queue, h.slots, h.flow, h.touches, ?_, ?_⟩
    · rintro body' hb'
      cases hb.symm.trans hb'
      exact h.reply
    · rintro rfl
      cases hb

/-! ## The counters (R168) -/

/-- A reply at a full queue is dropped and counts; another leaves the counters (R172). -/
theorem State.accept_counters (s : State) (d : Directive) (body : List Byte) :
    (s.accept d body).reports.counters = if 32 ≤ s.reports.queue.length ∧ d.quiet = false then
      s.reports.counters.add 1 .reportsLost else s.reports.counters := by
  unfold State.accept State.report
  cases d.quiet <;> simp [Reports.enqueue_counters]

/-- An acceptance leaves the reserve cause that the evaluation after it finds (R39). -/
theorem State.evalFlag_accept_steady {s : State} (d : Directive) (body : List Byte)
    (h : s.intake.reserveCause = reservePresent s.intake.flow s.freeCount) :
    (s.accept d body).evalFlag.reports = (s.accept d body).reports := by
  apply State.evalFlag_steady
  rw [State.accept_eq]
  exact h

/-- Settles O41: the counters are cleared before the reply, which counts anew where it is dropped. -/
theorem countersCopiedThenCleared : Obligations.CountersCopiedThenCleared := by
  intro s d ht hc
  let u : State := { s.beginStep.popInlet with reports := { s.beginStep.reports with counters := Counters.zero } }
  let body := s.reports.counters.body
  have h := acceptedWith_settle s u d body
  have hcounters : (s.beginStep.settle (u.accept d body).evalFlag).reports.counters
      = if 32 ≤ s.reports.queue.length ∧ d.quiet = false then Counters.zero.add 1 .reportsLost else Counters.zero := by
    rw [(State.settle_reports _ _).2.2.2, State.evalFlag_accept_steady (s := u) d body hc]
    exact State.accept_counters u d body
  refine gives_of_takes ht (u := u.accept d body) rfl ⟨h.frame, h.answer ⟨rfl, rfl, rfl, rfl⟩ rfl,
    fun hq => ?_, fun hq hd => ?_⟩
  · exact hcounters.trans (if_neg fun hf => Nat.not_lt.mpr hf.1 hq)
  · exact hcounters.trans (if_pos ⟨hq, hd⟩)

/-! ## SET_FLOW (R41) -/

theorem u8_lt (p : List Byte) (i : Nat) : u8 p i < 256 := (p.getD i 0).isLt

/-- The ranges of R41; a one-byte timeout is at most 255. -/
theorem FlowSettings.ok_flowArgs (p : List Byte) (n : Nat) : (flowArgs p).ok n = true ↔
    (flowArgs p).resume < (flowArgs p).hold ∧ (flowArgs p).hold ≤ 96 ∧ (flowArgs p).low < (flowArgs p).high ∧
    (flowArgs p).high ≤ n ∧ 1 ≤ (flowArgs p).timeoutMs := by
  have := u8_lt p 10
  simp only [FlowSettings.ok, decide_eq_true_eq]
  have : (flowArgs p).timeoutMs < 256 := this
  omega

theorem State.setFlow_of_legal {s : State} {d : Directive} (h : (flowArgs d.payload).ok s.tileCount = true) :
    s.setFlow d = State.accept { s with intake := { s.intake with flow := flowArgs d.payload } } d := by
  simp [State.setFlow, h]

theorem State.setFlow_of_illegal {s : State} {d : Directive} (h : (flowArgs d.payload).ok s.tileCount = false) :
    s.setFlow d = s.refuse d .badArgument := by
  simp [State.setFlow, h]

/-- Intake takes no directive while the sweep runs (R30). -/
theorem State.sweep_of_takes {s : State} {row : Instr} {d : Directive} (h : s.Takes row d) : s.store.sweep = none := by
  have := (State.head_of_directiveOf h.1).1
  simp only [State.intakeTaking, Bool.and_eq_true, Option.isNone_iff_eq_none] at this
  exact this.1

/-- The evaluation that ends a directive's event is that of R38 and R39, on what the directive's rule leaves, where the rule
has moved neither the flag, nor the reserve cause, nor STORE_LOW. -/
theorem State.flagEvaluated_settle {s u : State} (hsweep : u.store.sweep = none)
    (hh : u.intake.holding = s.intake.holding) (hc : u.intake.reserveCause = s.intake.reserveCause)
    (hl : u.reports.latched .storeLow = s.reports.latched .storeLow) :
    s.FlagEvaluated (s.beginStep.settle u.evalFlag) u.intake.flow u.intake.queue.length u.freeCount :=
  (State.evalFlag_evaluated u hsweep).congr hh.symm hc.symm hl.symm (by simp) (by simp)

/-- Settles O36: the rule replaces the settings or refuses, and the evaluation takes the marks as they then stand. -/
theorem setFlowReplacesSettings : Obligations.SetFlowReplacesSettings := by
  intro s d ht f legal
  have hsweep := State.sweep_of_takes ht
  have hok : f.ok s.tileCount = true ↔ legal := FlowSettings.ok_flowArgs d.payload s.tileCount
  cases hf : f.ok s.tileCount with
  | true =>
    let u : State := { s.beginStep.popInlet with intake := { s.beginStep.popInlet.intake with flow := f } }
    have h := acceptedWith_settle s u d []
    have hrule : s.beginStep.popInlet.setFlow d = u.accept d := State.setFlow_of_legal hf
    refine gives_of_takes ht hrule ⟨h.frame, h.queue, h.slots,
      fun _ => ⟨h.flow, h.answer ⟨rfl, rfl, rfl, rfl⟩ rfl⟩, fun hn => absurd (hok.mp hf) hn, ?_, h.touches⟩
    rw [h.flow]
    have hlow : (u.accept d).reports.latched .storeLow = s.reports.latched .storeLow :=
      (State.accept_touches u d [] [] []).2.1 .storeLow (by simp) (by decide)
    have heval := State.flagEvaluated_settle (s := s) (u := u.accept d) (by simpa [u] using hsweep) (by simp [u])
      (by simp [u]) hlow
    rw [State.accept_eq] at heval ⊢
    exact heval
  | false =>
    have hrule : s.beginStep.popInlet.setFlow d = s.beginStep.popInlet.refuse d .badArgument :=
      State.setFlow_of_illegal hf
    have h := refusedWith_settle s d .badArgument []
    have hillegal : ¬ legal := fun hl => by simp [hok.mpr hl] at hf
    refine gives_of_takes ht hrule ⟨h.frame, h.queue, h.slots,
      fun hl => absurd hl hillegal, fun _ => ⟨h.flow, h.answer⟩, ?_, h.touches⟩
    rw [h.flow]
    have hlow : (s.beginStep.popInlet.refuse d .badArgument).reports.latched .storeLow = s.reports.latched .storeLow :=
      (State.refuse_touches s.beginStep.popInlet d .badArgument [] [] []).2.1 .storeLow (by simp) (by decide)
    exact State.flagEvaluated_settle (u := s.beginStep.popInlet.refuse d .badArgument) hsweep rfl rfl hlow

/-! ## RESUME_HEAD (R161) -/

theorem State.resumeHead_of_halted {s : State} {d : Directive} (h : s.drive.state = .halted) (hs : s.drive.stuck = false) :
    s.resumeHead d = s.enterUnloading.accept d [byteOf s.enterUnloading.drive.state.code] := by
  simp [State.resumeHead, h, hs]

theorem State.resumeHead_of_refused {s : State} {d : Directive} (h : s.drive.state ≠ .halted ∨ s.drive.stuck = true) :
    s.resumeHead d = s.refuse d .wrongState := by
  rcases h with h | h <;> simp [State.resumeHead, h]

/-- Settles O38: the drive enters UNLOADING, and IDLE or WAIT_PLATE at the same event with no plate mounted. -/
theorem resumeHeadLeavesHalted : Obligations.ResumeHeadLeavesHalted := by
  intro s d ht
  refine ⟨fun hh hs => ?_, fun hr => ?_⟩
  · have hu : s.beginStep.popInlet.enterUnloading = { s.beginStep.popInlet with drive := { s.beginStep.drive with
        state := if s.drive.plateReady then .unloading else if s.eligible.isSome then .waitPlate else .idle
        selected := if s.drive.plateReady then none else s.eligible.map (·.tag) } } :=
      State.enterUnloading_eq s.beginStep.popInlet
    refine gives_mono (gives_accepted ht (State.resumeHead_of_halted hh hs)) fun t h => ?_
    have hdrive : t.drive = s.beginStep.popInlet.enterUnloading.drive := by rw [h.frame]
    have hreply := h.answer (by rw [hu]; exact ⟨rfl, rfl, rfl, rfl⟩) (by rw [hu]; rfl)
    refine ⟨fun hp => ?_, fun hp => ?_, ?_, ?_, ?_, ?_, ?_⟩
    · rw [hdrive, hu]; simp [hp]
    · rw [hdrive, hu]; simp [hp]
    · rw [hdrive, hu]; rfl
    · rw [hdrive]; exact hreply
    · rw [h.frame, hu]; rfl
    · rw [h.frame, hu]; rfl
    · rw [h.frame, hu]; rfl
  · exact gives_mono (gives_refused ht (State.resumeHead_of_refused hr)) fun t h => ⟨h.frame, h.answer⟩

/-! ## SET_ALARM_MASK and CLEAR_ALARMS (R179, R180) -/

/-- With no report waiting, the end of an event queues none and leaves what is owed (R178). -/
theorem State.settle_empty {s t : State} (hq : t.reports.queue = []) :
    (s.settle t).reports.queue = [] ∧ (s.settle t).reports.owed = t.reports.owed := by
  unfold State.settle
  split
  · simp [State.boundary, Reports.boundary_nil, hq]
  · exact ⟨hq, rfl⟩

/-- A QUIET acceptance queues nothing. -/
theorem State.accept_quiet {s : State} {d : Directive} (h : d.quiet = true) (body : List Byte) : s.accept d body = s := by
  simp [State.accept, h]

/-- Any other queues its reply. -/
theorem State.accept_loud {s : State} {d : Directive} (h : d.quiet = false) (body : List Byte) :
    s.accept d body = s.report (d.reply none body) := by
  simp [State.accept, h, Directive.reply]

/-- An acceptance leaves what is owed, where the queue has room for the reply (R178). -/
theorem State.accept_owed {s : State} (d : Directive) (body : List Byte) (hq : s.reports.queue.length < 32) :
    (s.accept d body).reports.owed = s.reports.owed := by
  unfold State.accept
  split
  · rfl
  · simp [State.report, Reports.enqueue_free _ _ hq]

/-- The event has queued the reply, unless it is QUIET, and no other report but an owed one (R167, R178). -/
structure OnlyReply (s t : State) (d : Directive) (body : List Byte) : Prop where
  loud : d.quiet = false → s.reportsOnly t (d.reply none body)
  quiet : d.quiet = true → s.reports.sending.isSome = true → t.reports.queue = s.reports.queue
  empty : d.quiet = true → s.reports.queue = [] → t.reports.queue = [] ∧ t.reports.owed = s.reports.owed
  busy : s.reports.sending.isSome = true → t.reports.owed = s.reports.owed
  owed : s.reports.owed = false → t.reports.owed = false

/-- The acceptance of a directive that moves neither the lane nor the reserve cause queues its reply only. -/
theorem onlyReply_settle {s u : State} (d : Directive) (body : List Byte) (hu : s.laneAs u) (hstraps : u.straps = s.straps)
    (howed : u.reports.owed = s.reports.owed) (hc : u.intake.reserveCause = reservePresent u.intake.flow u.freeCount)
    (hroom : s.reports.queue.length < 32) :
    OnlyReply s (s.beginStep.settle (u.accept d body).evalFlag) d body := by
  have hlane := hu
  obtain ⟨hsending, -, -, hqueue⟩ := hu
  have hsteady := State.evalFlag_accept_steady d body hc
  have howedv : (u.accept d body).evalFlag.reports.owed = s.reports.owed := by
    rw [hsteady, State.accept_owed d body (hqueue ▸ hroom), howed]
  have hsame : s.reports.sending.isSome = true →
      s.beginStep.settle (u.accept d body).evalFlag = (u.accept d body).evalFlag := by
    intro hb
    apply State.settle_busy
    rw [hsteady, (State.accept_growsTo u d body).1, hsending]
    exact hb
  have hquiet : d.quiet = true → (u.accept d body).evalFlag.reports = u.reports := fun hq => by
    rw [hsteady, State.accept_quiet hq]
  refine ⟨fun hq => ?_, fun hq hb => ?_, fun hq he => ?_, fun hb => ?_, fun ho => ?_⟩
  · exact State.reportsOnly_settle hlane (by simpa using hstraps) howed
      (by rw [hsteady, State.accept_loud hq])
  · rw [hsame hb, hquiet hq, hqueue]
  · rw [← howedv]
    exact State.settle_empty (by rw [hquiet hq, hqueue, he])
  · rw [hsame hb, howedv]
  · exact State.settle_owed (howedv.trans ho)

/-- An acceptance where the queue has room writes the queue only. -/
theorem State.accept_room {s : State} (d : Directive) (body : List Byte) (hq : s.reports.queue.length < 32) :
    (s.accept d body).reports.latches = s.reports.latches ∧ (s.accept d body).reports.mask = s.reports.mask ∧
    (s.accept d body).reports.counters = s.reports.counters := by
  unfold State.accept
  split
  · exact ⟨rfl, rfl, rfl⟩
  · simp [State.report, Reports.enqueue_free _ _ hq]

/-- The end of the event of such an acceptance leaves the latches, the mask and the counters as its rule set them. -/
theorem State.settle_accept_room {s u : State} (d : Directive) (body : List Byte)
    (hc : u.intake.reserveCause = reservePresent u.intake.flow u.freeCount) (hroom : u.reports.queue.length < 32) :
    (s.settle (u.accept d body).evalFlag).reports.latches = u.reports.latches ∧
    (s.settle (u.accept d body).evalFlag).reports.mask = u.reports.mask ∧
    (s.settle (u.accept d body).evalFlag).reports.counters = u.reports.counters := by
  obtain ⟨hlatches, hmask, -, hcounters⟩ := State.settle_reports s (u.accept d body).evalFlag
  rw [hlatches, hmask, hcounters, State.evalFlag_accept_steady d body hc]
  exact State.accept_room d body hroom

/-- Settles O39: each of the two rules writes its register, and the acceptance that follows queues the reply alone. -/
theorem alarmDirectives : Obligations.AlarmDirectives := by
  intro s d hc hroom only alert
  have honly : ∀ {t : State} {body : List Byte}, OnlyReply s t d body → only t body :=
    fun h => ⟨h.loud, h.quiet, h.empty, h.busy, h.owed⟩
  refine ⟨fun ht => ?_, fun ht => ?_⟩
  · let u : State := { s.beginStep.popInlet with
      reports := { s.beginStep.reports with mask := alarmSetAt d.payload 0 } }
    let body := be16 s.reports.latches.toNat ++ be16 (alarmSetAt d.payload 0).toNat
    have h := acceptedWith_settle s u d body
    obtain ⟨hlatches, hmask, hcounters⟩ := State.settle_accept_room (s := s.beginStep) (u := u) d body hc hroom
    exact gives_of_takes ht (u := u.accept d body) rfl ⟨h.frame, h.queue, hmask, hlatches, hcounters,
      Reports.alertLow_iff _, honly (onlyReply_settle (u := u) d body ⟨rfl, rfl, rfl, rfl⟩ rfl rfl hc hroom)⟩
  · let u : State := { s.beginStep.popInlet with
      reports := { s.beginStep.reports with latches := s.reports.latches &&& ~~~alarmSetAt d.payload 0 } }
    let body := be16 (s.reports.latches &&& ~~~alarmSetAt d.payload 0).toNat ++ be16 s.reports.mask.toNat
    have h := acceptedWith_settle s u d body
    obtain ⟨hlatches, hmask, hcounters⟩ := State.settle_accept_room (s := s.beginStep) (u := u) d body hc hroom
    refine gives_of_takes ht (u := u.accept d body) rfl ⟨h.frame, h.queue, fun x => ?_, hmask, hcounters,
      Reports.alertLow_iff _, honly ?_⟩
    · have hx := x.index_lt
      rw [Reports.latched, hlatches]
      simp [Reports.latched, u, hx]
    · rw [hlatches]
      exact onlyReply_settle (u := u) d body ⟨rfl, rfl, rfl, rfl⟩ rfl rfl hc hroom

end Sys2Proof.Machine
end

section
/-! PROOFS. The directives of the Screener's tables (R114 to R123). -/

namespace Sys2Proof.Machine

open Sys2Proof (Byte Instr)

/-! ## The tables replaced (R114) -/

@[simp] theorem State.setScreener_screener (s : State) (sc : Screener) : (s.setScreener sc).screener = sc := by
  simp [State.setScreener, State.rearmInks]

/-- The replacement of the tables, and the end of its directive's event with the reply, as the arming sees them. -/
theorem State.setScreener_settle_rearms (s : State) (sc : Screener) {t : State} {d : Directive} {body : List Byte}
    (h : AcceptedWith s t d body (s.beginStep.popInlet.setScreener sc)) :
    s.Rearms t fun x => t.screener.inkReady x.ink ≠ s.screener.inkReady x.ink := by
  have hsc : t.screener = sc := by rw [h.frame]; simp
  rw [hsc]
  refine (State.setScreener_rearms s.beginStep.popInlet sc).congr rfl rfl rfl ?_ ?_ ?_ (fun _ => Iff.rfl) rfl
    (Drive.sameHold.of_eq ?_)
  all_goals rw [h.frame]

/-- What an accepted replacement of the tables leaves. -/
structure TablesReplaced (s t : State) (d : Directive) (sc : Screener) (body : List Byte) : Prop where
  tables : t.screener = sc
  reply : acceptedWith s t d body
  rearms : s.Rearms t fun x => t.screener.inkReady x.ink ≠ s.screener.inkReady x.ink
  pages : t.pages = s.pages
  store : t.store = s.store
  repair : t.repair = s.repair
  queue : t.intake.queue = s.intake.queue.tail
  same : t.schedule = (s.beginStep.popInlet.setScreener sc).schedule ∧ t.drive = (s.beginStep.popInlet.setScreener sc).drive

/-- A rule that replaces the tables and accepts gives so much. -/
theorem gives_tables {s : State} {row : Instr} {d : Directive} (ht : s.Takes row d) {act : Directive → State → State}
    {sc : Screener} {body : List Byte}
    (hact : act d s.beginStep.popInlet = (s.beginStep.popInlet.setScreener sc).accept d body) :
    gives (.next (s.event fun u => u.takeDirective row act)) fun t => TablesReplaced s t d sc body := by
  refine gives_mono (gives_accepted ht hact) fun t h => ?_
  have hlane : s.laneAs (s.beginStep.popInlet.setScreener sc) := by simp [State.laneAs, State.beginStep]
  refine ⟨?_, h.answer hlane (by simp), State.setScreener_settle_rearms s sc h, ?_, ?_, ?_, ?_, ?_, ?_⟩
  case refine_5 => rw [h.queue]; simp
  all_goals rw [h.frame]
  all_goals simp

/-- A refusal, as these directives' statements have it. -/
theorem gives_refusal {s : State} {row : Instr} {d : Directive} (ht : s.Takes row d) {act : Directive → State → State}
    {reason : Reason} (hact : act d s.beginStep.popInlet = s.beginStep.popInlet.refuse d reason) :
    gives (.next (s.event fun u => u.takeDirective row act)) fun t =>
      t = { s.beginStep with intake := t.intake, reports := t.reports } ∧ t.intake.queue = s.intake.queue.tail ∧
      answered s t d (some reason) [] :=
  gives_mono (gives_refused ht hact) fun _ h => ⟨h.frame, h.queue, h.answer⟩

/-! ## SCREEN_BEGIN (R116, R117) -/

theorem State.screenBegin_of_illegal {s : State} {d : Directive} (h : (beginArgs d.payload).ok = false) :
    s.screenBegin d = s.refuse d .badArgument := by
  simp [State.screenBegin, h]

theorem State.screenBegin_of_captured {s : State} {d : Directive} (h : (beginArgs d.payload).ok = true)
    (hc : s.screenCaptured (beginArgs d.payload).slot = true) : s.screenBegin d = s.refuse d .slotBusy := by
  simp [State.screenBegin, h, hc]

theorem State.screenBegin_of_loading {s : State} {d : Directive} (h : (beginArgs d.payload).ok = true)
    (hc : s.screenCaptured (beginArgs d.payload).slot = false)
    (hl : s.screener.loadingOther (beginArgs d.payload).slot = true) : s.screenBegin d = s.refuse d .loadInProgress := by
  simp [State.screenBegin, h, hc, hl]

theorem State.screenBegin_of_legal {s : State} {d : Directive} (h : (beginArgs d.payload).ok = true)
    (hc : s.screenCaptured (beginArgs d.payload).slot = false)
    (hl : s.screener.loadingOther (beginArgs d.payload).slot = false) :
    s.screenBegin d = (s.setScreener (s.screener.beginLoad (beginArgs d.payload))).accept d
      ([byteOf (beginArgs d.payload).slot] ++ be32 ((beginArgs d.payload).w * (beginArgs d.payload).h)) := by
  simp [State.screenBegin, h, hc, hl]

/-- The screen-load context names another slot (R116). -/
theorem Screener.loadingOther_iff (sc : Screener) (slot : Nat) :
    sc.loadingOther slot = true ↔ ∃ l, sc.load = some l ∧ l.slot ≠ slot := by
  cases h : sc.load <;> simp [Screener.loadingOther, h]

/-- A ticket that is ARMED after an arming evaluation of the inks whose readiness changes has an ink that is ready, or one
that was not ready before either. -/
theorem State.Rearms.armed_ready {s t : State} (h : s.Rearms t fun x => t.screener.inkReady x.ink ≠ s.screener.inkReady x.ink)
    {y : Ticket} (hy : y ∈ t.schedule) (ha : y.state = .armed) :
    t.screener.inkReady y.ink = true ∨ s.screener.inkReady y.ink = false := by
  by_cases hsame : t.screener.inkReady y.ink = s.screener.inkReady y.ink
  · rw [hsame]
    exact Bool.eq_false_or_eq_true _
  · obtain ⟨n, hn, hget⟩ := List.mem_iff_getElem.mp hy
    have hx : s.schedule[n]? = some (s.schedule[n]'(h.length ▸ hn)) := List.getElem?_eq_getElem _
    obtain ⟨y', hy', hstate, -, harm⟩ := h.each n _ hx
    have heq : y' = y := by
      rw [List.getElem?_eq_getElem hn, hget] at hy'
      exact (Option.some.inj hy').symm
    subst heq
    have hink : y'.ink = (s.schedule[n]'(h.length ▸ hn)).ink := by rw [hstate]
    exact .inl (((harm (by rw [ha]; decide)).1 (by rw [← hink]; exact hsame)).mp ha).2.2.2

/-- Settles O30: the three refusals in their order, and otherwise the load begins. -/
theorem screenBeginOpensLoad : Obligations.ScreenBeginOpensLoad := by
  intro s d ht a legal other refusedWith
  have hok : a.ok = true ↔ legal := decide_eq_true_iff
  have hother : s.screener.loadingOther a.slot = true ↔ other := Screener.loadingOther_iff _ _
  refine ⟨fun hl => ?_, fun hl hc => ?_, fun hl hc ho => ?_, fun hl hc ho => ?_⟩
  · exact gives_refusal ht (State.screenBegin_of_illegal (Bool.eq_false_iff.mpr (mt hok.mp hl)))
  · exact gives_refusal ht (State.screenBegin_of_captured (hok.mpr hl) hc)
  · exact gives_refusal ht (State.screenBegin_of_loading (hok.mpr hl) hc (hother.mpr ho))
  · refine gives_mono (gives_tables ht (State.screenBegin_of_legal (hok.mpr hl) hc
      (Bool.eq_false_iff.mpr (mt hother.mp ho)))) fun t h => ?_
    exact ⟨h.tables, h.reply, fun x hx ha => h.rearms.armed_ready hx ha, h.rearms, h.pages, h.store, h.repair, h.queue⟩

/-! ## SCREEN_END (R120) -/

theorem State.screenEnd_of_full {s : State} {d : Directive} {l : ScreenLoad} {tb : ScreenTable}
    (h : s.screener.openLoad = some (l, tb)) (hf : tb.w * tb.h ≤ l.fillPoint) :
    s.screenEnd d = (s.setScreener (s.screener.endLoad l tb)).accept d [byteOf l.slot] := by
  simp [State.screenEnd, h, Nat.not_lt.mpr hf]

/-- Settles O33: a full load is not refused. -/
theorem screenEndCompletesLoad : Obligations.ScreenEndCompletesLoad := by
  intro s d l tb ht ho hf
  refine gives_mono (gives_tables ht (State.screenEnd_of_full (s := s.beginStep.popInlet) ho hf)) fun t h => ?_
  exact ⟨h.tables, h.reply, h.rearms, h.pages, h.store, h.repair, h.queue⟩

/-! ## CURVE_LOAD (R121, R123) -/

theorem State.curveLoad_of_illegal {s : State} {d : Directive} (h : 8 ≤ u8 d.payload 0) :
    s.curveLoad d = s.refuse d .badArgument := by
  have : 7 < u8 d.payload 0 := h
  simp [State.curveLoad, this]

theorem State.curveLoad_of_captured {s : State} {d : Directive} (h : u8 d.payload 0 ≤ 7)
    (hlen : (d.payload.drop 1).length = 256) (hc : s.curveCaptured (u8 d.payload 0) = true) :
    s.curveLoad d = s.refuse d .slotBusy := by
  simp only [State.curveLoad, hc]
  rw [if_neg (by omega), if_pos trivial]

theorem State.curveLoad_of_legal {s : State} {d : Directive} (h : u8 d.payload 0 ≤ 7)
    (hlen : (d.payload.drop 1).length = 256) (hc : s.curveCaptured (u8 d.payload 0) = false) :
    s.curveLoad d = (s.setScreener (s.screener.loadCurve (u8 d.payload 0) (d.payload.drop 1))).accept d := by
  simp only [State.curveLoad, hc]
  rw [if_neg (by omega), if_neg (by decide)]

theorem queryRow_ne_curveLoad (kind option : Nat) : queryRow kind option ≠ .curveLoad := by
  unfold queryRow
  split
  case h_6 => split <;> decide
  all_goals decide

/-- A CURVE_LOAD that passes R166 carries 256 entries (table 10-3). -/
theorem entries_of_takes_curveLoad {s : State} {d : Directive} (h : s.Takes .curveLoad d) :
    (d.payload.drop 1).length = 256 := by
  have hcode : d.code = 0x24 := by
    have hrow := State.row_of_directiveOf h.1
    unfold Directive.row at hrow
    split at hrow
    case h_6 => split at hrow <;> cases hrow
    case h_10 => assumption
    case h_16 => exact absurd hrow (queryRow_ne_curveLoad _ _)
    all_goals cases hrow
  rcases (Directive.refusal_eq_none d).mp h.2 with hc | ⟨⟨e, he, hec, hlo, hhi⟩, -⟩
  · simp [hcode] at hc
  · have hlen : ∀ e ∈ directiveLengths, e.1 = 0x24 → e.2 = (257, 257) := by decide
    have he2 := hlen e he (hec.trans hcode)
    rw [he2] at hlo hhi
    rw [List.length_drop]
    omega

/-- Settles O34: the two refusals in their order, and otherwise the curve is replaced. -/
theorem curveLoadReplacesCurve : Obligations.CurveLoadReplacesCurve := by
  intro s d ht refusedWith
  have hlen := entries_of_takes_curveLoad ht
  refine ⟨fun h => ?_, fun h hc => ?_, fun h hc => ?_⟩
  · exact gives_refusal ht (State.curveLoad_of_illegal h)
  · exact gives_refusal ht (State.curveLoad_of_captured h hlen hc)
  · refine gives_mono (gives_tables ht (State.curveLoad_of_legal h hlen hc)) fun t h => ?_
    exact ⟨h.tables, hlen, h.reply, h.rearms, h.pages, h.store, h.repair, h.queue⟩

/-! ## SET_INK (R122) -/

theorem InkTable.get_set (t : InkTable) (i j : Ink) (b : Option InkBinding) :
    (t.set i b).get j = if j = i then b else t.get j := by
  cases i <;> cases j <;> rfl

/-- The record that SET_INK replaces bears on the readiness of its own ink only (R114). -/
theorem Screener.inkReady_setInk_other (sc : Screener) {i j : Ink} (h : j ≠ i) (b : Option InkBinding) :
    (sc.setInk i b).inkReady j = sc.inkReady j := by
  simp only [Screener.inkReady, Screener.setInk, InkTable.get_set, if_neg h]
  rfl

/-- An unbound ink is not ready (R114). -/
theorem Screener.inkReady_unbound (sc : Screener) (i : Ink) : (sc.setInk i none).inkReady i = false := by
  simp [Screener.inkReady, Screener.setInk, InkTable.get_set]

/-- With no ticket picked, an arming evaluation changes nothing. -/
theorem State.rearm_none {s : State} {f : Ticket → Bool} (h : ∀ x, f x = false) : s.rearm f = s := by
  have hsame : s.armedSchedule f = s.schedule := by simp [State.armedSchedule, h]
  simp [State.rearm, hsame]

/-- Tables that leave every ink as ready as it was are replaced with no arming evaluated. -/
theorem State.setScreener_steady {s : State} {sc : Screener} (h : ∀ i, sc.inkReady i = s.screener.inkReady i) :
    s.setScreener sc = { s with screener := sc } :=
  State.rearm_none fun x => by simp [h]

/-- The offer to a drive with a plate in context changes nothing (R148). -/
theorem State.offer_of_inContext {s : State} (h : s.drive.state.inContext = true) : s.offer = s :=
  State.offer_of_busy (by rintro hi; simp [hi, DriveState.inContext] at h)
    (by rintro hi; simp [hi, DriveState.inContext] at h)

/-- With a plate in context, an arming evaluation leaves the drive alone. -/
theorem State.rearm_drive_inContext {s : State} (f : Ticket → Bool) (h : s.drive.state.inContext = true) :
    (s.rearm f).drive = s.drive := by
  unfold State.rearm
  split
  · rfl
  · rw [State.offer_of_inContext (s := { s with schedule := s.armedSchedule f }) h]

/-- What SET_INK leaves, of either form. -/
theorem setInk_leaves {s t : State} {d : Directive} {i : Ink} {b : Option InkBinding} {body : List Byte}
    (h : TablesReplaced s t d (s.screener.setInk i b) body) :
    t.screener.inks.get i = b ∧ (∀ j, j ≠ i → t.screener.inks.get j = s.screener.inks.get j) ∧
    t.screener.screens = s.screener.screens ∧ t.screener.curves = s.screener.curves ∧
    t.screener.load = s.screener.load ∧
    (s.drive.state.inContext = true → t.drive = s.beginStep.drive) ∧
    (t.screener.inkReady i = s.screener.inkReady i → t.schedule = s.schedule ∧ t.drive = s.beginStep.drive) ∧
    s.Rearms t (fun x => x.ink = i ∧ t.screener.inkReady i ≠ s.screener.inkReady i) ∧
    t.pages = s.pages ∧ t.store = s.store ∧ t.repair = s.repair ∧ t.intake.queue = s.intake.queue.tail := by
  obtain ⟨htables, -, hrearms, hpages, hstore, hrepair, hqueue, hschedule, hdrive⟩ := h
  refine ⟨?_, fun j hj => ?_, ?_, ?_, ?_, fun hc => ?_, fun hr => ?_, ?_, hpages, hstore, hrepair, hqueue⟩
  · simp [htables, Screener.setInk, InkTable.get_set]
  · simp [htables, Screener.setInk, InkTable.get_set, hj]
  · rw [htables]; rfl
  · rw [htables]; rfl
  · rw [htables]; rfl
  · rw [hdrive]
    exact State.rearm_drive_inContext (s := { s.beginStep.popInlet with screener := s.screener.setInk i b }) _ hc
  · rw [htables] at hr
    have hsame : ∀ j, (s.screener.setInk i b).inkReady j = s.screener.inkReady j := fun j => by
      by_cases hj : j = i
      · rw [hj, hr]
      · exact Screener.inkReady_setInk_other _ hj b
    rw [hschedule, hdrive, State.setScreener_steady (s := s.beginStep.popInlet) hsame]
    exact ⟨rfl, rfl⟩
  · refine hrearms.congr rfl rfl rfl rfl rfl rfl (fun x => ?_) rfl (Drive.sameHold.of_eq rfl)
    by_cases hx : x.ink = i
    · simp [hx]
    · simp [hx, htables, Screener.inkReady_setInk_other _ hx b]

theorem State.bindInk_of_illegal {s : State} {d : Directive} {i : Ink} (hi : inkOf (u8 d.payload 0) = some i)
    (h : (bindArgs d.payload).ok = false) : s.bindInk d = s.refuse d .badArgument := by
  simp [State.bindInk, hi, h]

theorem State.bindInk_of_legal {s : State} {d : Directive} {i : Ink} (hi : inkOf (u8 d.payload 0) = some i)
    (h : (bindArgs d.payload).ok = true) : s.bindInk d = s.setInk d i (some (bindArgs d.payload)) := by
  simp [State.bindInk, hi, h]

theorem State.unbindInk_of_ink {s : State} {d : Directive} {i : Ink} (hi : inkOf (u8 d.payload 0) = some i) :
    s.unbindInk d = s.setInk d i none := by
  simp [State.unbindInk, hi]

/-- Settles O35: of the tables only the ink's own record moves, and with it that ink's readiness. -/
theorem setInkReplacesRecord : Obligations.SetInkReplacesRecord := by
  intro s d i hi b legal set
  have hok : b.ok = true ↔ legal := decide_eq_true_iff
  refine ⟨fun ht hl => ?_, fun ht hl => ?_, fun ht => ?_⟩
  · exact gives_mono (gives_refused ht (State.bindInk_of_illegal hi (Bool.eq_false_iff.mpr (mt hok.mp hl))))
      fun t h => ⟨h.frame, h.answer⟩
  · refine gives_mono (gives_tables ht (State.bindInk_of_legal hi (hok.mpr hl))) fun t h => ⟨setInk_leaves h, ?_⟩
    rw [h.tables]
    exact h.reply
  · refine gives_mono (gives_tables ht (State.unbindInk_of_ink hi)) fun t h => ⟨setInk_leaves h, ?_⟩
    have hreply := h.reply
    rw [show s.beginStep.popInlet.screener = s.screener from rfl, Screener.inkReady_unbound] at hreply
    exact hreply

end Sys2Proof.Machine
end

section
/-! PROOFS. The return lane and the alarms (R172 to R180). -/

namespace Sys2Proof.Machine

open Sys2Proof (Byte Instr CrcInit)

/-! ## The end of a report parcel (R40, R173, R178) -/

/-- What the lane begins at a boundary, once nothing is being sent. -/
theorem Reports.sendNext_lane {rp : Reports} (holding : Bool) (c : CrcInit) (hs : rp.sending = none) :
    (rp.sendNext holding c).sending = rp.queue.head? ∧
    (rp.sendNext holding c).sent
      = (rp.sendSymbol holding).sent ++ (rp.queue.head?.map fun r => LaneItem.parcel (r.parcel c)).toList ∧
    (rp.sendNext holding c).queue = rp.queue.tail := by
  cases hq : rp.queue with
  | nil => simp [Reports.sendNext_nil holding c hq, hs, hq]
  | cons r rest => simp [Reports.sendNext_cons holding c hq]

/-- A boundary whose freeing is taken first begins the same, and the owed ALARM report takes the place. -/
theorem Reports.boundary_lane {rp : Reports} (holding : Bool) (c : CrcInit) (hs : rp.sending = none) :
    (rp.boundary holding c).sending = rp.queue.head? ∧
    (rp.boundary holding c).sent
      = (rp.sendSymbol holding).sent ++ (rp.queue.head?.map fun r => LaneItem.parcel (r.parcel c)).toList ∧
    (rp.boundary holding c).queue = rp.queue.tail ++ (if rp.queue = [] then [] else rp.owedReport) ∧
    (rp.boundary holding c).owed = (rp.owed && rp.queue.isEmpty) := by
  cases hq : rp.queue with
  | nil => simp [Reports.boundary_nil holding c hq, hs, hq]
  | cons r rest => simp [Reports.boundary_cons holding c hq]

/-- The report that is owed, where some unmasked latch is set (R178). -/
theorem Reports.owedReport_of_unmasked {rp : Reports} (ho : rp.owed = true)
    (h : ∃ a : Alarm, rp.latched a = true ∧ rp.masked a = false) : rp.owedReport = [.alarm rp.latches rp.mask] := by
  simp [Reports.owedReport, ho, rp.alertLow_iff.mpr h]

/-- With every set latch masked no report is owed to the queue (R178). -/
theorem Reports.owedReport_of_masked {rp : Reports} (h : ∀ a : Alarm, rp.latched a = true → rp.masked a = true) :
    rp.owedReport = [] := by
  have hlow : rp.alertLow = false := by
    rw [← Bool.not_eq_true, rp.alertLow_iff]
    rintro ⟨a, hl, hm⟩
    simp [h a hl] at hm
  simp [Reports.owedReport, hlow]

/-! ## A latching (R172, R177, R178) -/

theorem Reports.latch_of_set {rp : Reports} {a : Alarm} (h : rp.latched a = true) : rp.latch a = rp := by
  simp [Reports.latch, h]

theorem Reports.latch_of_masked {rp : Reports} {a : Alarm} (h : rp.latched a = false) (hm : rp.masked a = true) :
    rp.latch a = { rp with latches := rp.latches ||| a.bit } := by
  simp [Reports.latch, h, hm]

theorem Reports.latch_of_await {rp : Reports} {a : Alarm} (h : rp.latched a = false) (hm : rp.masked a = false)
    (hw : rp.awaitStarted = true) : rp.latch a = { rp with latches := rp.latches ||| a.bit, owed := true } := by
  simp [Reports.latch, h, hm, hw]

theorem Reports.latch_of_loud {rp : Reports} {a : Alarm} (h : rp.latched a = false) (hm : rp.masked a = false)
    (hw : rp.awaitStarted = false) :
    rp.latch a = Reports.enqueue { rp with latches := rp.latches ||| a.bit } (.alarm (rp.latches ||| a.bit) rp.mask) := by
  simp [Reports.latch, h, hm, hw]

/-- The set with one alarm more. -/
theorem Reports.latches_or_bit {rp : Reports} {a : Alarm} {set : BitVec 14}
    (h : ∀ b : Alarm, set.getLsbD b.index = true ↔ rp.latched b = true ∨ b = a) : rp.latches ||| a.bit = set := by
  refine Alarm.set_ext fun b => ?_
  rw [BitVec.getLsbD_or, Alarm.getLsbD_bit, Bool.eq_iff_iff, h b, Bool.or_eq_true, decide_eq_true_iff, eq_comm (a := a)]
  rfl

/-- The end of a report parcel is one event, which makes no second boundary. -/
theorem exec_reportParcelEnd (s : State) (causeFirst : Bool) :
    exec (.reportParcelEnd causeFirst) s = .next (s.beginStep.parcelEnd causeFirst) := rfl

/-- The lane with nothing being sent, at the boundary that a parcel's end makes. -/
def Reports.ended (rp : Reports) : Reports := { rp with sent := [], sending := none }

/-- The lane behind that boundary. -/
def State.afterParcel (s : State) (causeFirst : Bool) : Reports :=
  if causeFirst then s.reports.ended.sendNext s.intake.holding s.straps.crcInit
  else s.reports.ended.boundary s.intake.holding s.straps.crcInit

theorem State.parcelEnd_eq {s : State} {x : Report} (h : s.reports.sending = some x) (causeFirst : Bool) :
    s.beginStep.parcelEnd causeFirst = { s.beginStep with reports := s.afterParcel causeFirst } := by
  unfold State.parcelEnd
  rw [show s.beginStep.reports.sending = some x from h]
  cases causeFirst <;> rfl

/-- Whether or not a cause is taken first, the lane begins the same (R40, R173). -/
theorem State.afterParcel_lane (s : State) (causeFirst : Bool) :
    (s.afterParcel causeFirst).sending = s.reports.queue.head? ∧
    (s.afterParcel causeFirst).sent
      = (if s.reports.lastSymbol = some (symbolFor s.intake.holding) then [] else [.symbol (symbolFor s.intake.holding)])
        ++ (s.reports.queue.head?.map fun r => LaneItem.parcel (r.parcel s.straps.crcInit)).toList ∧
    (s.afterParcel causeFirst).lastSymbol = some (symbolFor s.intake.holding) ∧
    (s.afterParcel causeFirst).latches = s.reports.latches ∧ (s.afterParcel causeFirst).mask = s.reports.mask ∧
    (s.afterParcel causeFirst).awaitStarted = s.reports.awaitStarted ∧
    (s.afterParcel causeFirst).counters = s.reports.counters := by
  have hsymbol := Reports.sendSymbol_sent s.reports.ended s.intake.holding
  cases causeFirst with
  | false =>
    obtain ⟨hsend, hsent, -, -⟩ := Reports.boundary_lane (rp := s.reports.ended) s.intake.holding s.straps.crcInit rfl
    rw [hsymbol] at hsent
    obtain ⟨hlatches, hmask, hawait, hcounters, hlast⟩ :=
      Reports.boundary_same s.reports.ended s.intake.holding s.straps.crcInit
    exact ⟨hsend, hsent, hlast, hlatches, hmask, hawait, hcounters⟩
  | true =>
    obtain ⟨hsend, hsent, -⟩ := Reports.sendNext_lane (rp := s.reports.ended) s.intake.holding s.straps.crcInit rfl
    rw [hsymbol] at hsent
    obtain ⟨hlatches, hmask, -, hawait, hcounters, hlast⟩ :=
      Reports.sendNext_same s.reports.ended s.intake.holding s.straps.crcInit
    exact ⟨hsend, hsent, hlast, hlatches, hmask, hawait, hcounters⟩

/-- Where no cause is taken first, the owed ALARM report takes the freed place. -/
theorem State.afterParcel_second (s : State) :
    (s.afterParcel false).queue
      = s.reports.queue.tail ++ (if s.reports.queue = [] then [] else s.reports.owedReport) ∧
    (s.afterParcel false).owed = (s.reports.owed && s.reports.queue.isEmpty) :=
  (Reports.boundary_lane (rp := s.reports.ended) s.intake.holding s.straps.crcInit rfl).2.2

/-- Where a cause is taken first, the place stays free. -/
theorem State.afterParcel_first (s : State) :
    (s.afterParcel true).queue = s.reports.queue.tail ∧ (s.afterParcel true).owed = s.reports.owed :=
  ⟨(Reports.sendNext_lane (rp := s.reports.ended) s.intake.holding s.straps.crcInit rfl).2.2,
    (Reports.sendNext_same s.reports.ended s.intake.holding s.straps.crcInit).2.2.1⟩

/-- A cause's own ALARM report takes the place that a parcel's end has left free. -/
theorem State.latch_afterParcel {s t : State} {a : Alarm} (ht : t.reports = s.afterParcel true)
    (hl : s.reports.latched a = false) (hm : s.reports.masked a = false) (hw : s.reports.awaitStarted = false)
    (hroom : s.reports.queue.tail.length < 32) :
    (t.latch a).reports.queue = s.reports.queue.tail ++ [.alarm (t.latch a).reports.latches s.reports.mask] ∧
    (t.latch a).reports.latched a = true ∧ (t.latch a).reports.owed = s.reports.owed := by
  obtain ⟨-, -, -, hlatches, hmask, hawait, -⟩ := s.afterParcel_lane true
  obtain ⟨hqueue, howed⟩ := s.afterParcel_first
  have hloud : t.reports.latch a = Reports.enqueue { t.reports with latches := t.reports.latches ||| a.bit }
      (.alarm (t.reports.latches ||| a.bit) t.reports.mask) :=
    Reports.latch_of_loud (by rw [ht, Reports.latched, hlatches]; exact hl)
      (by rw [ht, Reports.masked, hmask]; exact hm) (by rw [ht, hawait]; exact hw)
  have hfree : { t.reports with latches := t.reports.latches ||| a.bit }.queue.length < 32 := by
    show t.reports.queue.length < 32
    rw [ht, hqueue]
    exact hroom
  rw [Reports.enqueue_free _ _ hfree] at hloud
  refine ⟨?_, Reports.latch_latched _ _ _ (.inl rfl), ?_⟩
  · rw [State.latch_reports, hloud]
    simp [ht, hqueue, hmask]
  · rw [State.latch_reports, hloud]
    simp [ht, howed]

/-- Settles O54: the boundary as the lane makes it, with the freed place left to a cause or taken by the owed report. -/
theorem parcelEndBeginsNext : Obligations.ParcelEndBeginsNext := by
  intro s x causeFirst hsending
  obtain ⟨hsend, hsent, hlast, hlatches, hmask, -, hcounters⟩ := s.afterParcel_lane causeFirst
  refine ⟨_, (exec_reportParcelEnd s causeFirst).trans (congrArg _ (State.parcelEnd_eq hsending causeFirst)), rfl, hlast,
    hsend, ?_, hlatches, hmask, hcounters, fun hq => ?_, fun r rest hq => ⟨?_, ?_⟩⟩
  · dsimp only
    rw [hsent, hlast]
    rfl
  · cases causeFirst with
    | false => simp [State.afterParcel_second, hq]
    | true => simp [State.afterParcel_first, hq]
  · rintro rfl
    obtain ⟨hqueue, howed⟩ := s.afterParcel_second
    simp only [hq, List.tail_cons, reduceCtorEq, if_false] at hqueue
    refine ⟨by simp [howed, hq], fun ho => ?_, fun hm => ?_, fun ho hex => ?_⟩
    · simp [hqueue, Reports.owedReport_none ho]
    · simp [hqueue, Reports.owedReport_of_masked hm]
    · simp [hqueue, Reports.owedReport_of_unmasked ho hex]
  · rintro rfl
    obtain ⟨hqueue, howed⟩ := s.afterParcel_first
    refine ⟨howed, by simp [hqueue, hq], fun a hl hm hw hlen => ?_⟩
    have hroom : s.reports.queue.tail.length < 32 := by
      simp only [hq, List.length_cons, List.tail_cons] at hlen ⊢
      exact hlen
    simpa [hq] using State.latch_afterParcel (t := { s.beginStep with reports := s.afterParcel true }) rfl hl hm hw hroom

/-! ## The owed ALARM report as a command of its own (R178) -/

theorem State.owedDue_iff (s : State) : s.owedDue = true ↔
    s.reports.owed = true ∧ s.reports.queue.length < 32 ∧ s.reports.awaitStarted = false := by
  simp only [State.owedDue, Bool.and_eq_true, decide_eq_true_eq, Bool.not_eq_true', and_assoc]
  rfl

theorem exec_owedAlarmReport_idle {s : State} (h : s.owedDue = false) :
    exec .owedAlarmReport s = .next s.beginStep := by
  show execOwedAlarmReport s = _
  simp [execOwedAlarmReport, h]

/-- On a busy lane the owed report joins, and the lane goes on. -/
theorem exec_owedAlarmReport_due {s : State} (h : s.owedDue = true) (hb : s.reports.sending.isSome = true) :
    exec .owedAlarmReport s = .next { s.beginStep with reports := { s.beginStep.reports with
      owed := false, queue := s.reports.queue ++ s.reports.owedReport } } := by
  show execOwedAlarmReport s = _
  rw [execOwedAlarmReport, if_pos h, State.event, State.settle_busy (by exact hb)]
  rfl

/-- Settles O55: the command acts where a report is owed and can join, and what joins is what the latches make of it. -/
theorem owedAlarmReportJoins : Obligations.OwedAlarmReportJoins := by
  intro s
  refine ⟨fun h => exec_owedAlarmReport_idle ?_, fun ho hq hw hb => ?_⟩
  · rw [← Bool.not_eq_true, State.owedDue_iff]
    rintro ⟨ho, hq, hw⟩
    rcases h with h | h | h
    · simp [ho] at h
    · omega
    · simp [hw] at h
  · have hdue := exec_owedAlarmReport_due ((State.owedDue_iff s).mpr ⟨ho, hq, hw⟩) hb
    refine ⟨fun hex => ?_, fun hall => ?_⟩
    · rw [hdue, Reports.owedReport_of_unmasked ho hex]
    · rw [hdue, Reports.owedReport_of_masked hall, List.append_nil]
      rfl

/-! ## A full queue (R172) -/

/-- A dropped report counts once and latches REPORTS_LOST. -/
theorem Reports.drop_counts (rp : Reports) (isAlarm : Bool) :
    rp.countsOnce (rp.drop isAlarm) .reportsLost ∧ (rp.drop isAlarm).latched .reportsLost = true := by
  refine ⟨?_, ?_⟩
  · simp [Reports.countsOnce, Reports.drop, Counters.read_add]
  · simp [Reports.latched, Reports.drop, Alarm.getLsbD_bit]

/-- Settles O56: the cases of a queued report and of a latching. -/
theorem fullQueueDropsReport : Obligations.FullQueueDropsReport := by
  refine ⟨fun s r hq => ?_, fun s a => ⟨fun h => ?_, fun h set hset => ⟨fun hm => ?_, fun hm hw => ?_,
    fun hm hw hq => ?_, fun hm hw hq => ?_⟩⟩⟩
  · have hdrop := Reports.enqueue_full s.reports r hq
    obtain ⟨hcount, hlatched⟩ := s.reports.drop_counts r.isAlarm
    rw [← hdrop] at hcount hlatched
    refine ⟨by simp [hdrop, Reports.drop], by simp, hcount, hlatched, Reports.enqueue_touches .., ?_⟩
    simp [hdrop, Reports.drop, or_assoc]
  · exact congrArg (fun rp => { s with reports := rp }) (Reports.latch_of_set h)
  · rw [← Reports.latches_or_bit hset]
    exact congrArg (fun rp => { s with reports := rp }) (Reports.latch_of_masked h hm)
  · rw [← Reports.latches_or_bit hset]
    exact congrArg (fun rp => { s with reports := rp }) (Reports.latch_of_await h hm hw)
  · rw [← Reports.latches_or_bit hset]
    exact congrArg (fun rp => { s with reports := rp }) ((Reports.latch_of_loud h hm hw).trans
      (Reports.enqueue_free _ _ (by exact hq)))
  · have hdrop : (s.latch a).reports = Reports.drop { s.reports with latches := s.reports.latches ||| a.bit } true :=
      (Reports.latch_of_loud h hm hw).trans (Reports.enqueue_full _ _ (by exact hq))
    obtain ⟨hcount, hlatched⟩ :=
      Reports.drop_counts { s.reports with latches := s.reports.latches ||| a.bit } true
    rw [← hdrop] at hcount hlatched
    exact ⟨rfl, by rw [hdrop]; rfl, Reports.latch_latched _ _ _ (.inl rfl), hlatched,
      by rw [hdrop]; simp [Reports.drop], hcount, Reports.latch_touches _ _ _ _ (by simp)⟩

end Sys2Proof.Machine
end

section
/-! PROOFS. The Framer (R22 to R27, R38, R39). -/

namespace Sys2Proof.Machine

open Sys2Proof (Byte Instr CrcInit)

/-! ## The judging of the assembly buffer (R22, R23) -/

theorem judgeBuffer_unknown {buffer : List Byte} (h : kindHeaderSize (u8 buffer 0) = none) :
    judgeBuffer buffer = .malformed := by
  simp [judgeBuffer, h]

/-- The size limit is tested as soon as both bytes of the length have arrived. -/
theorem judgeBuffer_long {buffer : List Byte} (hlen : 4 ≤ buffer.length) (h : 272 < u16 buffer 2) :
    judgeBuffer buffer = .malformed := by
  unfold judgeBuffer
  split
  · rfl
  · rw [if_neg (by omega), if_pos (by exact h)]

theorem judgeBuffer_short {buffer : List Byte} {header : Nat} (hk : kindHeaderSize (u8 buffer 0) = some header)
    (h : buffer.length < 4 ∨ (u16 buffer 2 ≤ 272 ∧ buffer.length < 4 + header + u16 buffer 2 + 2)) :
    judgeBuffer buffer = .more := by
  simp only [judgeBuffer, hk]
  by_cases hlen : buffer.length < 4
  · rw [if_pos hlen]
  · rw [if_neg hlen, if_neg (by simp only [Config.maxPayload]; omega), if_neg (by omega)]

theorem judgeBuffer_whole {buffer : List Byte} {header : Nat} (hk : kindHeaderSize (u8 buffer 0) = some header)
    (hp : u16 buffer 2 ≤ 272) (hlen : buffer.length = 4 + header + u16 buffer 2 + 2) :
    judgeBuffer buffer = .complete := by
  simp only [judgeBuffer, hk]
  rw [if_neg (by omega), if_neg (by simp only [Config.maxPayload]; omega), if_pos (by omega)]

/-! ## A data byte -/

/-- The arrival of a byte is one event of the Framer. -/
theorem exec_dataByteArrival (b : Byte) (s : State) :
    exec (.dataByteArrival b) s = .next (s.beginStep.settle (s.beginStep.framerByte b)) := rfl

theorem exec_headerMalformedDrop (b : Byte) (s : State) :
    exec (.headerMalformedDrop b) s = .next (s.beginStep.settle (s.beginStep.framerByte b)) := rfl

theorem exec_parcelComplete (b : Byte) (s : State) :
    exec (.parcelComplete b) s = .next (s.beginStep.settle (s.beginStep.framerByte b)) := rfl

theorem State.framerByte_outside {s : State} (h : s.framer.assembling = false) (b : Byte) : s.framerByte b = s := by
  simp [State.framerByte, h]

theorem State.framerByte_more {s : State} {b : Byte} (h : s.framer.assembling = true)
    (hj : judgeBuffer (s.framer.buffer ++ [b]) = .more) :
    s.framerByte b = { s with framer := ⟨true, s.framer.buffer ++ [b], some s.intake.flow.timeoutMs⟩ } := by
  simp [State.framerByte, h, hj]

theorem State.framerByte_malformed {s : State} {b : Byte} (h : s.framer.assembling = true)
    (hj : judgeBuffer (s.framer.buffer ++ [b]) = .malformed) :
    s.framerByte b = State.countMalformed { s with framer := Framer.outside } := by
  simp [State.framerByte, h, hj]

theorem State.framerByte_complete {s : State} {b : Byte} (h : s.framer.assembling = true)
    (hj : judgeBuffer (s.framer.buffer ++ [b]) = .complete) :
    s.framerByte b = State.offerParcel { s with framer := Framer.outside } (s.framer.buffer ++ [b]) := by
  simp [State.framerByte, h, hj]

/-- An event that touches neither the flag nor the queue of reports is over with its own effects (R173). -/
theorem State.settle_framer (s : State) (f : Framer) : s.settle { s with framer := f } = { s with framer := f } :=
  State.settle_quiet rfl rfl

/-- Settles O4: a byte OUTSIDE does nothing, and one that leaves more to come joins the buffer. -/
theorem dataByteJoinsParcel : Obligations.DataByteJoinsParcel := by
  intro b s
  refine ⟨fun h => ?_, fun h buffer header hb hk hshort => ?_⟩
  · rw [exec_dataByteArrival, State.framerByte_outside (s := s.beginStep) h, State.settle_quiet rfl rfl]
  · subst hb
    rw [exec_dataByteArrival, State.framerByte_more (s := s.beginStep) h (judgeBuffer_short hk hshort),
      State.settle_framer]
    rfl

/-! ## A parcel that is dropped (R23 to R27) -/

/-- What a drop leaves: the Framer is OUTSIDE, and the cause is counted and latched. -/
structure Dropped (s t : State) (k : Counter) (a : Alarm) : Prop where
  frame : t = { s.beginStep with framer := ⟨false, [], none⟩, reports := t.reports }
  latched : t.reports.latched a = true
  counted : s.reports.countsOnce t.reports k
  touches : s.reports.touches t.reports [k] [a]

theorem Dropped.intake {s t : State} {k : Counter} {a : Alarm} (h : Dropped s t k a) : t.intake = s.intake := by
  rw [h.frame]
  rfl

/-- The counting and latching of a drop, with the end of its event. -/
theorem dropped_settle (s : State) {k : Counter} (a : Alarm) (hk : k ≠ .reportsLost) :
    Dropped s (s.beginStep.settle ((State.count { s.beginStep with framer := Framer.outside } k).latch a)) k a := by
  obtain ⟨hlatch, hcount, htouch⟩ := State.countLatch { s.beginStep with framer := Framer.outside } k a hk
  refine ⟨State.settle_eq _ _, ?_, State.settle_countsOnce hcount, State.settle_touches htouch⟩
  rw [State.settle_latched]
  exact hlatch

/-- Settles O5: both faults of the header are judged malformed. -/
theorem headerMalformedDropsParcel : Obligations.HeaderMalformedDropsParcel := by
  intro b s buffer h hb hbad
  subst hb
  have hj : judgeBuffer (s.framer.buffer ++ [b]) = .malformed := by
    rcases hbad with hk | ⟨hlen, hp⟩
    · exact judgeBuffer_unknown hk
    · exact judgeBuffer_long hlen hp
  have hd := dropped_settle s .parcelMalformed (k := .malformed) (by decide)
  refine ⟨_, (exec_headerMalformedDrop b s).trans (congrArg _ (by
    rw [State.framerByte_malformed (s := s.beginStep) h hj]; rfl)), hd.frame, hd.latched, hd.counted, hd.touches⟩

theorem exec_assemblyTimeout (s : State) :
    exec .assemblyTimeout s = .next (s.beginStep.settle s.beginStep.assemblyTimeout) := rfl

/-- Settles O7: the timer runs in ASSEMBLING, so its expiry drops the parcel. -/
theorem assemblyTimeoutDropsParcel : Obligations.AssemblyTimeoutDropsParcel := by
  intro s h ht
  have hact : s.beginStep.assemblyTimeout
      = (State.count { s.beginStep with framer := Framer.outside } .assemblyTimeouts).latch .assemblyTimeout := by
    unfold State.assemblyTimeout
    rw [if_pos (by simp [State.beginStep, h, ht])]
  have hd := dropped_settle s .assemblyTimeout (k := .assemblyTimeouts) (by decide)
  exact ⟨_, (exec_assemblyTimeout s).trans (congrArg _ (by rw [hact])), hd.frame, hd.latched, hd.counted, hd.touches⟩

/-! ## A complete parcel (R26, R27, R38, R39) -/

theorem crcPasses_iff (c : CrcInit) (buffer : List Byte) : crcPasses c buffer = true ↔
    buffer.drop (buffer.length - 2) = be16 (crc16 (crcInitValue c) (buffer.take (buffer.length - 2))).toNat := by
  simp [crcPasses, crcTrailer, coveredBytes]

theorem State.offerParcel_of_fail {s : State} {buffer : List Byte} (h : crcPasses s.straps.crcInit buffer = false) :
    s.offerParcel buffer = (s.count .checkFail).latch .parcelCheck := by
  simp [State.offerParcel, h]

theorem State.offerParcel_of_full {s : State} {buffer : List Byte} (h : crcPasses s.straps.crcInit buffer = true)
    (hq : 96 ≤ s.intake.queue.length) : s.offerParcel buffer = (s.count .discardedFull).latch .inletOverflow := by
  have : Config.inletCapacity ≤ s.intake.queue.length := hq
  simp [State.offerParcel, h, this]

theorem State.offerParcel_of_room {s : State} {buffer : List Byte} (h : crcPasses s.straps.crcInit buffer = true)
    (hq : s.intake.queue.length < 96) :
    s.offerParcel buffer
      = State.evalFlag { s with intake := { s.intake with queue := s.intake.queue ++ [parseParcel buffer] } } := by
  have : ¬ Config.inletCapacity ≤ s.intake.queue.length := Nat.not_le.mpr hq
  simp [State.offerParcel, h, this]

/-- While the sweep runs the flag stands (R38). -/
theorem State.evalFlag_of_sweep {s : State} (h : s.store.sweep.isSome = true) : s.evalFlag = s := by
  simp [State.evalFlag, h]

/-- Settles O6: the CRC, then the room of the queue; a parcel that joins is followed by the evaluation of the flag. -/
theorem completeParcelJoinsQueue : Obligations.CompleteParcelJoinsQueue := by
  intro b s buffer header h hb hk hp hlen passes
  subst hb
  have hcrc : crcPasses s.straps.crcInit (s.framer.buffer ++ [b]) = true ↔ passes := crcPasses_iff _ _
  have hbyte := State.framerByte_complete (s := s.beginStep) h (judgeBuffer_whole hk hp hlen)
  have hexec : ∀ {v : State},
      State.offerParcel { s.beginStep with framer := Framer.outside } (s.framer.buffer ++ [b]) = v →
      exec (.parcelComplete b) s = .next (s.beginStep.settle v) := fun hact =>
    (exec_parcelComplete b s).trans (congrArg (fun v => Host.Outcome.next (s.beginStep.settle v)) (hbyte.trans hact))
  by_cases hpass : passes
  · by_cases hq : s.intake.queue.length < 96
    · let u : State := { s.beginStep with
        framer := Framer.outside
        intake := { s.intake with queue := s.intake.queue ++ [parseParcel (s.framer.buffer ++ [b])] } }
      have hact : State.offerParcel { s.beginStep with framer := Framer.outside } (s.framer.buffer ++ [b]) = u.evalFlag :=
        State.offerParcel_of_room (hcrc.mpr hpass) hq
      refine ⟨_, hexec hact, ?_, fun hn => absurd hpass hn, fun _ hf => by omega,
        fun _ _ => ⟨?_, ?_, ?_, ?_, fun hs => ?_, fun hs => ?_⟩⟩
      · exact State.settle_evalFlag_eq s.beginStep u
      · simp [u]
      · simp [u]
      · simp [u]
      · exact State.settle_touches (State.evalFlag_touches u [] [.storeLow] (by simp))
      · have heval := State.flagEvaluated_settle (s := s) (u := u) hs rfl rfl rfl
        rw [show u.intake.queue.length = s.intake.queue.length + 1 by simp [u]] at heval
        exact heval
      · rw [State.evalFlag_of_sweep (s := u) hs]
        simp [u, State.beginStep]
        rfl
    · have hd := dropped_settle s .inletOverflow (k := .discardedFull) (by decide)
      have hact : State.offerParcel { s.beginStep with framer := Framer.outside } (s.framer.buffer ++ [b])
          = (State.count { s.beginStep with framer := Framer.outside } .discardedFull).latch .inletOverflow :=
        State.offerParcel_of_full (hcrc.mpr hpass) (Nat.not_lt.mp hq)
      refine ⟨_, hexec hact, ?_, fun hn => absurd hpass hn,
        fun _ _ => ⟨?_, hd.latched, hd.counted, hd.touches⟩, fun _ hf => absurd hf hq⟩
      · rw [hd.frame]
      · exact hd.intake
  · have hd := dropped_settle s .parcelCheck (k := .checkFail) (by decide)
    have hact : State.offerParcel { s.beginStep with framer := Framer.outside } (s.framer.buffer ++ [b])
        = (State.count { s.beginStep with framer := Framer.outside } .checkFail).latch .parcelCheck :=
      State.offerParcel_of_fail (Bool.eq_false_iff.mpr (mt hcrc.mp hpass))
    refine ⟨_, hexec hact, ?_, fun _ => ⟨?_, hd.latched, hd.counted, hd.touches⟩,
      fun hn => absurd hn hpass, fun hn => absurd hn hpass⟩
    · rw [hd.frame]
    · exact hd.intake

end Sys2Proof.Machine
end

section
/-! PROOFS. The free pool, the arbiter, the beginning of a reconstruction and the test of a tile (R45, R50, R55, R57, R68). -/

namespace Sys2Proof.Machine

open Sys2Proof (Byte Instr DramFault)

/-! ## An allocation (R45) -/

/-- Settles O11: the lowest gap of the list behind the pool is the lowest tile in it. -/
theorem allocationTakesLowestTile : Obligations.AllocationTakesLowestTile := by
  intro s t hr ht
  obtain ⟨hin, hlow⟩ := (State.lowestFree_iff hr t).mp ht
  refine ⟨hin, hlow, fun u => ?_⟩
  have hout : (insertRising t s.store.poolOut).contains u = (u == t || s.store.poolOut.contains u) := by
    rw [Bool.eq_iff_iff]
    simp [mem_insertRising]
  unfold State.inPool
  rw [show (s.takeFromPool t).store.poolOut = insertRising t s.store.poolOut from rfl, hout, Bool.not_or,
    Bool.and_comm (!(u == t)), Bool.and_assoc]
  rfl

/-! ## Prefetch, with no line to make -/

/-- With a full pool no line can be made (R86). -/
theorem State.canMakeLine_of_full {s : State} (h : 64 ≤ s.drive.pool.length) : s.canMakeLine = false := by
  rw [← Bool.not_eq_true]
  intro hc
  obtain ⟨_, _, _, _, hroom, _⟩ := State.canMakeLine_some hc
  omega

theorem State.makeLines_of_not {s : State} (h : s.canMakeLine = false) (n : Nat) : State.makeLines n s = s := by
  cases n <;> simp [State.makeLines, h]

/-- An event of Prefetch with a full pool is the prime test alone (R86, R152). -/
theorem State.prefetchEvent_of_full {s : State} (h : 64 ≤ s.drive.pool.length) : s.prefetchEvent = s.primeTest := by
  rw [State.prefetchEvent, State.makeLines_of_not (State.canMakeLine_of_full h)]

theorem State.captureOf_congr {s t : State} (h : t.prefetch.job = s.prefetch.job) (side : Side) (kind : LayerKind) :
    t.captureOf side kind = s.captureOf side kind := by
  simp [State.captureOf, h]

theorem PrefetchJob.slot_setSlot {j : PrefetchJob} {side : Side} {ps : PageSlot} (h : j.slot side = some ps)
    (ps' : PageSlot) : (j.setSlot side ps').slot side = some ps' := by
  cases side with
  | left => rfl
  | right =>
    have hr : j.right = some ps := h
    simp [PrefetchJob.setSlot, PrefetchJob.slot, hr]

theorem PageSlot.capture_setCapture (ps : PageSlot) (kind : LayerKind) (c : Capture) :
    (ps.setCapture kind c).capture kind = c := by
  cases kind <;> rfl

/-- A capture that is current has a slot in the job that holds it. -/
theorem State.captureOf_some {s : State} {side : Side} {kind : LayerKind} {c : Capture}
    (h : s.captureOf side kind = some c) :
    ∃ j ps, s.prefetch.job = some j ∧ j.slot side = some ps ∧ ps.capture kind = c := by
  simp only [State.captureOf, Option.map_eq_some_iff, Option.bind_eq_some_iff] at h
  obtain ⟨ps, ⟨j, hj, hs⟩, hc⟩ := h
  exact ⟨j, ps, hj, hs, hc⟩

theorem State.setCapture_eq {s : State} {side : Side} {kind : LayerKind} {j : PrefetchJob} {ps : PageSlot}
    (hj : s.prefetch.job = some j) (hs : j.slot side = some ps) (c : Capture) :
    s.setCapture side kind c
      = { s with prefetch := { s.prefetch with job := some (j.setSlot side (ps.setCapture kind c)) } } := by
  simp [State.setCapture, hj, hs]

/-- A current capture that is changed is the one then current. -/
theorem State.captureOf_setCapture {s : State} {side : Side} {kind : LayerKind} {c : Capture}
    (h : s.captureOf side kind = some c) (c' : Capture) :
    (s.setCapture side kind c').captureOf side kind = some c' := by
  obtain ⟨j, ps, hj, hs, -⟩ := State.captureOf_some h
  simp [State.setCapture_eq hj hs, State.captureOf, PrefetchJob.slot_setSlot hs, PageSlot.capture_setCapture]

@[simp] theorem State.primeTest_job (s : State) : s.primeTest.prefetch.job = s.prefetch.job := by
  simp

@[simp] theorem State.captureOf_modifySummary (s : State) (f : Summary → Summary) (side : Side) (kind : LayerKind) :
    (s.modifySummary f).captureOf side kind = s.captureOf side kind :=
  State.captureOf_congr (by unfold State.modifySummary; split <;> rfl) side kind

/-- The count of a store fault leaves the captures (R94). -/
@[simp] theorem State.captureOf_countStoreFault (s : State) (n : Nat) (side : Side) (kind : LayerKind) :
    (s.countStoreFault n).captureOf side kind = s.captureOf side kind := by
  unfold State.countStoreFault
  split
  · rfl
  next j hj =>
    split
    · rw [State.captureOf_modifySummary]
      cases side <;> simp [State.captureOf, hj, PrefetchJob.slot]
    · rfl

/-- The pool is not an affair of the summary or of a capture. -/
@[simp] theorem State.modifySummary_pool (s : State) (f : Summary → Summary) :
    (s.modifySummary f).drive.pool = s.drive.pool := by
  unfold State.modifySummary
  split <;> rfl

@[simp] theorem State.countStoreFault_pool (s : State) (n : Nat) : (s.countStoreFault n).drive.pool = s.drive.pool := by
  unfold State.countStoreFault
  split
  · rfl
  · split
    · rw [State.modifySummary_pool]
    · rfl

/-- The cut of a stream, the first or a later one (R92). -/
theorem Stream.cutAt_eq (u : Stream) (position : Nat) : u.cutAt position = { u with cut := some (u.cut.getD position) } := by
  cases h : u.cut with
  | none => simp [Stream.cutAt, h]
  | some x =>
    obtain ⟨⟩ := u
    simp_all [Stream.cutAt]

/-- A failed read of a current capture with a full pool cuts its stream, and no line is made (R92). -/
theorem State.prefetchFailed_of_full {s : State} {side : Side} {kind : LayerKind} {c : Capture} {u : Stream}
    (hc : s.captureOf side kind = some c) (hu : c.stream? = some u) (hpool : 64 ≤ s.drive.pool.length) (position : Nat) :
    (s.prefetchFailed side kind c.serial position).captureOf side kind = some (c.withStream (u.cutAt position)) ∧
    (s.prefetchFailed side kind c.serial position).reports = s.reports := by
  have hcut := State.captureOf_setCapture hc (c.withStream (u.cutAt position))
  unfold State.prefetchFailed
  simp only [hc, hu, if_true]
  split
  · rw [State.prefetchEvent_of_full (by simpa using hpool)]
    refine ⟨?_, by simp⟩
    rw [State.captureOf_congr (State.primeTest_job _)]
    simpa using hcut
  · rw [State.prefetchEvent_of_full (by simpa using hpool)]
    refine ⟨?_, by simp⟩
    rw [State.captureOf_congr (State.primeTest_job _)]
    simpa using hcut

/-! ## The arbiter (R50, R55) -/

/-- With nothing waiting, nothing is served. -/
theorem State.serve_idle {s : State} (hw : s.store.writeSide = []) (hr : s.store.readSide = []) (n : Nat) :
    State.serve n s = s := by
  cases n <;> simp [State.serve, nextSide, hw, hr]

/-- The one read that waits, of a tile that has been retired, completes as failed when it is served (R50). -/
theorem State.arbitrate_retired {s : State} {r : StoreRead} (h : s.store.inService = none) (hw : s.store.writeSide = [])
    (hr : s.store.readSide = [r]) (ht : r.tile ∈ s.store.retired) :
    s.arbitrate = State.deliverFailure { s with store := { s.store with readSide := [], lastSide := .read } } r := by
  rw [State.arbitrate, if_neg (by simp [h])]
  simp only [State.serve, nextSide, hw, hr, List.isEmpty_nil, List.isEmpty_cons, Bool.not_true, Bool.not_false]
  rw [if_pos (by simpa using ht)]
  exact State.serve_idle (by simp) (by simp) _

/-- Settles O17: the choice of the arbiter, and the failure of a read that is served too late. -/
theorem arbiterAlternates : Obligations.ArbiterAlternates := by
  intro s w r ws rs hidle
  refine ⟨fun hr => ⟨fun hws hrs => ⟨fun hl => ?_, fun hl => ?_⟩, fun hws hrs => ?_, fun hws hrs => ?_⟩,
    State.arbitrate_idle, fun hr hws hrs => ?_⟩
  · rw [State.arbitrate_read_first hidle hrs (.inr hl) hr]
    exact ⟨rfl, rfl, hws, rfl⟩
  · rw [State.arbitrate_write_first hidle hws (.inr hl)]
    exact ⟨rfl, rfl, rfl, hrs⟩
  · rw [State.arbitrate_write_first hidle hws (.inl hrs)]
  · rw [State.arbitrate_read_first hidle hrs (.inl hws) hr]
  · rw [State.arbitrate_retired hidle hws hrs hr]
    have htouch := State.deliverFailure_touches
      { s with store := { s.store with readSide := [], lastSide := .read } } r
    refine ⟨by simp, by simp, htouch.2.1 .tileRetired (by simp) (by simp), htouch.2.1 .storeDegraded (by simp) (by simp),
      fun hreq => ?_, fun side kind serial c u hreq hc hserial hu hpool => ?_⟩
    · simp [State.deliverFailure, hreq, State.repairFailed]
    · subst hserial
      simp only [State.deliverFailure, hreq]
      have hfail := State.prefetchFailed_of_full
        (s := { s with store := { s.store with readSide := [], lastSide := .read } }) hc hu hpool r.position
      rw [Stream.cutAt_eq] at hfail
      exact hfail

/-! ## The beginning of a reconstruction (R68, R69) -/

theorem exec_repairBegin {s : State} (h : s.canBeginRepair = true) :
    exec .repairBegin s = .next (s.beginStep.settle s.beginStep.beginRepair.arbitrate) := by
  show execRepairBegin s = _
  simp [execRepairBegin, h, State.event]

/-- The head entry's first read is issued with the accumulator cleared. -/
theorem State.beginRepair_eq {s : State} {t : LayerRef} {rest : List LayerRef} {l : LayerRecord}
    (hq : s.repair.queue = t :: rest) (hl : s.layer? t = some l) :
    s.beginRepair = { s with
      repair := { s.repair with
        queue := rest
        engine := .reading t (l.missing.headD 0) (l.nextReadSlot 0) (List.replicate 256 0) }
      store := { s.store with readSide := s.store.readSide ++ [l.repairRead (l.nextReadSlot 0)] } } := by
  unfold State.beginRepair
  rw [hq]
  dsimp only
  rw [hl]
  rfl

/-- Settles O16: the read that is issued is the only request, so the store serves it. -/
theorem repairBeginIssuesFirstRead : Obligations.RepairBeginIssuesFirstRead := by
  intro s t rest l hidle hq hrestart hl hserv hreads hwrites first hfirst
  have hcan : s.canBeginRepair = true := by simp [State.canBeginRepair, hidle, hq, hrestart]
  have hbegin := State.beginRepair_eq (s := s.beginStep) hq hl
  have harb : s.beginStep.beginRepair.arbitrate = { s.beginStep with
      repair := { s.repair with
        queue := rest
        engine := .reading t (l.missing.headD 0) (l.nextReadSlot 0) (List.replicate 256 0) }
      store := { s.store with inService := some (.read first), lastSide := .read } } := by
    have hqueue : s.store.readSide ++ [first] = first :: s.store.readSide := by rw [hreads]; rfl
    rw [hbegin]
    exact State.arbitrate_read_first hserv hqueue (.inl hwrites) hfirst
  refine ⟨_, exec_repairBegin hcan, ?_⟩
  rw [harb]
  exact State.settle_quiet rfl rfl

/-! ## The test of a tile (R57) -/

/-- A read pass over the sixteen slots, slot by slot. -/
theorem Dram.tilePasses_iff (d : Dram) (n : Nat) (pattern : Nat → List Byte) (faults : List DramFault) :
    d.tilePasses n pattern faults = true ↔ readPass d n pattern faults := by
  simp [Dram.tilePasses, readPass]

theorem State.tilePasses_iff (s : State) (n : Nat) (first second : List DramFault) :
    s.tilePasses n first second = true ↔
      readPass (s.store.dram.writeTile n testPattern) n testPattern first ∧
      readPass (s.store.dram.sweepTile n) n (fun m => (testPattern m).map fun b => ~~~b) second := by
  rw [State.tilePasses, Bool.and_eq_true, Dram.tilePasses_iff, Dram.tilePasses_iff]
  rfl

theorem slotNumber_div {n k : Nat} (hk : k < 16) : slotNumber n k / 16 = n := by
  unfold slotNumber
  omega

/-- The complement pattern, byte by byte. -/
theorem getD_sweptBytes (n : Nat) {o : Nat} (ho : o < 256) : (sweptBytes n).getD o 0 = ~~~ (testPattern n).getD o 0 := by
  have hlen : o < (testPattern n).length := by simpa [testPattern] using ho
  rw [List.getD_eq_getElem _ _ hlen, List.getD_eq_getElem _ _ (by simpa [sweptBytes] using hlen)]
  simp [sweptBytes]

/-- Without a fault both read passes find what was written. -/
theorem State.tilePasses_clean (s : State) (n : Nat) : s.tilePasses n [] [] = true := by
  rw [State.tilePasses_iff]
  refine ⟨fun k hk => ?_, fun k hk => ?_⟩
  · simp [Dram.agrees, Dram.slotAt_writeTile, slotNumber_div hk, codedCell]
    simpa [codedCell] using codedCell_passes (slotNumber n k) (testPattern (slotNumber n k))
  · simp [Dram.agrees, Dram.slotAt_sweepTile, slotNumber_div hk, codedCell]
    exact ⟨codedCell_passes (slotNumber n k) (sweptBytes (slotNumber n k)), rfl⟩

theorem State.testTile_dram (s : State) (n : Nat) (passed : Bool) :
    (s.testTile n passed).store.dram = s.store.dram.sweepTile n := by
  cases passed <;> rfl

/-- The test of a tile is one event of the sweep. -/
theorem exec_sweepTileTest (first second : List DramFault) (s : State) :
    exec (.sweepTileTest ⟨first, second⟩) s = .next (s.beginStep.settle (s.beginStep.sweepTileTest first second)) := rfl

theorem State.sweepTileTest_more {s : State} {n : Nat} (h : s.store.sweep = some n) (hn : n + 1 < s.tileCount)
    (first second : List DramFault) :
    s.sweepTileTest first second
      = { s.testTile n (s.tilePasses n first second) with
          store := { (s.testTile n (s.tilePasses n first second)).store with sweep := some (n + 1) } } := by
  simp [State.sweepTileTest, h, hn]

/-- What a test leaves of the retired set and of the pool. -/
theorem State.testTile_sets (s : State) (n : Nat) (first second : List DramFault) :
    let passes := readPass (s.store.dram.writeTile n testPattern) n testPattern first ∧
      readPass (s.store.dram.sweepTile n) n (fun m => (testPattern m).map fun b => ~~~b) second
    let t := s.testTile n (s.tilePasses n first second)
    (passes → t.store.retired = s.store.retired ∧ t.store.poolOut = s.store.poolOut) ∧
    (¬ passes → t.store.retired = insertRising n s.store.retired ∧ t.store.poolOut = insertRising n s.store.poolOut) := by
  intro passes t
  have hiff : s.tilePasses n first second = true ↔ passes := State.tilePasses_iff s n first second
  refine ⟨fun hp => ?_, fun hp => ?_⟩
  · have ht : t = s.testTile n true := congrArg (s.testTile n) (hiff.mpr hp)
    rw [ht]
    exact ⟨rfl, rfl⟩
  · have ht : t = s.testTile n false := congrArg (s.testTile n) (Bool.eq_false_iff.mpr (mt hiff.mp hp))
    rw [ht]
    exact ⟨rfl, rfl⟩

/-- Settles O18: the passes over a tile write its own slots only, and the last of them the complement. -/
theorem sweepTestsOneTile : Obligations.SweepTestsOneTile := by
  intro s first second n hsweep hn passes
  have hsets := State.testTile_sets s.beginStep n first second
  have hact := State.sweepTileTest_more (s := s.beginStep) hsweep hn first second
  have hdram := State.testTile_dram s.beginStep n (s.beginStep.tilePasses n first second)
  refine ⟨fun i j hi hj => testPattern_inj hi hj, ?_, ?_⟩
  · rintro rfl rfl
    exact (State.tilePasses_iff s n [] []).mp (s.tilePasses_clean n)
  · have hsettle : s.beginStep.settle (s.beginStep.sweepTileTest first second) = s.beginStep.sweepTileTest first second :=
      State.settle_quiet (by rw [hact]; simp) (by rw [hact]; simp)
    refine ⟨_, (exec_sweepTileTest first second s).trans (congrArg _ hsettle), ?_, fun hp => ⟨?_, ?_, ?_⟩, fun hp => ?_,
      fun a ha => ?_⟩
    all_goals rw [hact]
    · cases s.beginStep.tilePasses n first second <;> rfl
    · exact (hsets.1 hp).1
    · exact (hsets.1 hp).2
    · intro k hk
      dsimp only
      rw [hdram]
      refine ⟨?_, fun o ho => ?_⟩
      · rw [Dram.agrees, Dram.slotAt_sweepTile, if_pos (slotNumber_div hk)]
        exact codedCell_passes _ _
      · rw [Dram.readByte_sweepTile_at _ _ _ _ hk ho]
        exact getD_sweptBytes _ ho
    · exact hsets.2 hp
    · dsimp only
      rw [hdram]
      exact Dram.readByte_sweepTile _ _ _ ha

end Sys2Proof.Machine
end

section
/-! PROOFS. The end of the sweep and the resets from the pins (R57 to R60). -/

namespace Sys2Proof.Machine

open Sys2Proof (Byte Instr DramFault StoreSize CrcInit)

/-! ## STARTED is announced (R58, R174) -/

/-- Queuing STARTED touches nothing. -/
theorem State.announceStart_touches (s : State) (cause : StartCause) (cs : List Counter) (as : List Alarm) :
    s.reports.touches (s.announceStart cause).reports cs as := by
  have hqueued := Reports.enqueue_touches s.reports (s.startedReport cause none) cs as
  unfold State.announceStart
  dsimp only
  split
  · exact Reports.touches_trans hqueued (State.boundary_touches _ cs as)
  · exact hqueued

/-- On an idle lane STARTED is sent at once, behind the symbol, and the report owed from before takes its place. -/
theorem State.announceStart_lane {s : State} (cause : StartCause) (hq : s.reports.queue = [])
    (hs : s.reports.sending = none) :
    let rp := (s.announceStart cause).reports
    rp.sending = some (s.startedReport cause none) ∧
    rp.sent = (s.reports.sendSymbol s.intake.holding).sent
      ++ [.parcel ((s.startedReport cause none).parcel s.straps.crcInit)] ∧
    rp.queue = s.reports.owedReport ∧ rp.owed = false ∧ rp.awaitStarted = false ∧
    rp.latches = s.reports.latches ∧ rp.mask = s.reports.mask ∧ rp.counters = s.reports.counters := by
  intro rp
  let queued : Reports := { s.reports with queue := [s.startedReport cause none], awaitStarted := false }
  have hrp : rp = queued.boundary s.intake.holding s.straps.crcInit := by
    simp [rp, queued, State.announceStart, State.report, Reports.enqueue, hq, hs, Config.reportCapacity, State.boundary]
  obtain ⟨hsending, hsent, hqueue, howed⟩ :=
    Reports.boundary_cons (rp := queued) s.intake.holding s.straps.crcInit rfl
  rw [hrp]
  refine ⟨hsending, ?_, hqueue, howed, by simp [queued], by simp [queued], by simp [queued], by simp [queued]⟩
  rw [hsent, Reports.sendSymbol_sent, Reports.sendSymbol_sent]

/-- Until STARTED has been queued, an evaluation of the holding flag owes the ALARM report of STORE_LOW and queues
none (R177). -/
theorem State.evalFlag_awaiting {s : State} (hsweep : s.store.sweep = none) (hw : s.reports.awaitStarted = true)
    (hm : s.reports.mask = 0) :
    s.evalFlag.reports.queue = s.reports.queue ∧ s.evalFlag.reports.counters = s.reports.counters ∧
    s.evalFlag.reports.awaitStarted = true ∧
    (s.evalFlag.reports.owed = true ↔ s.reports.owed = true ∨
      (s.freeCount ≤ s.intake.flow.low ∧ s.intake.reserveCause = false ∧ s.reports.latched .storeLow = false)) := by
  have hloud : s.reports.masked .storeLow = false := by simp [Reports.masked, hm]
  unfold State.evalFlag
  rw [if_neg (by simp [hsweep])]
  dsimp only
  split
  · rename_i hlow
    simp only [Bool.and_eq_true, Bool.not_eq_true', reservePresent, decide_eq_true_eq] at hlow
    obtain ⟨hqueue, hcounters⟩ := Reports.latch_await s.reports .storeLow hw
    refine ⟨hqueue, hcounters, (Reports.latch_same s.reports .storeLow).2.1.trans hw, ?_⟩
    rw [State.latch_reports]
    cases hl : s.reports.latched .storeLow with
    | true => simp [Reports.latch_of_set hl]
    | false => simp [Reports.latch_of_await hl hloud hw, hlow]
  · rename_i hlow
    simp only [Bool.and_eq_true, Bool.not_eq_true', reservePresent, decide_eq_true_eq] at hlow
    refine ⟨rfl, rfl, hw, ?_⟩
    rw [or_iff_left fun h => hlow ⟨h.1, h.2.1⟩]

/-- With the store above its low mark an evaluation latches nothing (R39). -/
theorem State.evalFlag_above {s : State} (h : s.intake.flow.low < s.freeCount) : s.evalFlag.reports = s.reports := by
  have hp : reservePresent s.intake.flow s.freeCount = false := by simpa [reservePresent] using h
  unfold State.evalFlag
  split
  · rfl
  · simp [hp]

/-! ## The latchings of the sweep's end (R58) -/

/-- Latch an alarm where a condition holds. -/
def Reports.latchWhere (rp : Reports) (p : Prop) [Decidable p] (a : Alarm) : Reports := if p then rp.latch a else rp

section
variable (rp : Reports) (p : Prop) [Decidable p] (a : Alarm)

theorem Reports.latchWhere_touches (cs : List Counter) (as : List Alarm) (ha : a ∈ as) :
    rp.touches (rp.latchWhere p a) cs as := by
  unfold Reports.latchWhere
  split
  · exact Reports.latch_touches rp a cs as ha
  · exact Reports.touches_refl ..

/-- The latch is set where the condition holds, and otherwise as it was. -/
theorem Reports.latchWhere_latched :
    (p → (rp.latchWhere p a).latched a = true) ∧ (¬ p → (rp.latchWhere p a).latched a = rp.latched a) := by
  unfold Reports.latchWhere
  refine ⟨fun h => ?_, fun h => by rw [if_neg h]⟩
  rw [if_pos h]
  exact Reports.latch_latched _ _ _ (.inl rfl)

theorem Reports.latchWhere_sent : (rp.latchWhere p a).sending = rp.sending ∧ (rp.latchWhere p a).sent = rp.sent := by
  unfold Reports.latchWhere
  split <;> simp

/-- Where nothing is masked and a place is free, a clear latch that is set queues its ALARM report. -/
theorem Reports.latchWhere_loud (hl : rp.latched a = false) (hm : rp.mask = 0) (hw : rp.awaitStarted = false)
    (hq : rp.queue.length < 32) :
    (rp.latchWhere p a).queue = rp.queue ++ (if p then [.alarm (rp.latchWhere p a).latches 0] else []) ∧
    (rp.latchWhere p a).latches &&& ~~~a.bit = rp.latches ∧ (rp.latchWhere p a).owed = rp.owed ∧
    (rp.latchWhere p a).mask = 0 ∧ (rp.latchWhere p a).awaitStarted = false := by
  have hclear : rp.latches &&& ~~~a.bit = rp.latches := by
    refine Alarm.set_ext fun b => ?_
    rw [BitVec.getLsbD_and, BitVec.getLsbD_not, Alarm.getLsbD_bit, decide_eq_true b.index_lt, Bool.true_and]
    by_cases hab : a = b
    · subst hab
      have hbit : rp.latches.getLsbD a.index = false := hl
      simp [hbit]
    · simp [hab]
  unfold Reports.latchWhere
  split
  · rw [Reports.latch_of_loud hl (by simp [Reports.masked, hm]) hw, Reports.enqueue_free _ _ (by exact hq)]
    refine ⟨by simp [hm], ?_, rfl, hm, hw⟩
    dsimp only
    rw [BitVec.and_or_distrib_right, hclear]
    simp
  · exact ⟨by simp, hclear, rfl, hm, hw⟩

end

/-- The state with the sweep over. -/
def State.swept (s : State) : State := { s with store := { s.store with sweep := none } }

/-- The state at the sweep's end with STARTED announced, ahead of the latchings. -/
def State.sweptStart (s : State) : State := s.swept.evalFlag.announceStart .powerOn

/-- What the sweep's end leaves: STARTED with the latchings behind it. -/
theorem State.endSweep_eq (s : State) : s.endSweep = { s.sweptStart with
    reports := (s.sweptStart.reports.latchWhere (0 < s.retiredCount) .tileRetired).latchWhere
      (s.tileCount / 32 ≤ s.retiredCount) .storeDegraded } := by
  have hstart : s.sweptStart.retiredCount = s.retiredCount ∧ s.sweptStart.tileCount = s.tileCount := by
    constructor <;> simp [State.sweptStart, State.swept, State.retiredCount, State.tileCount]
  have hunfold : s.endSweep = (fun s2 : State => if s2.degradedThreshold ≤ s2.retiredCount then s2.latch .storeDegraded
      else s2) (if 0 < s.sweptStart.retiredCount then s.sweptStart.latch .tileRetired else s.sweptStart) := rfl
  have hlatched : (if 0 < s.sweptStart.retiredCount then s.sweptStart.latch .tileRetired else s.sweptStart)
      = { s.sweptStart with reports := s.sweptStart.reports.latchWhere (0 < s.retiredCount) .tileRetired } := by
    rw [hstart.1]
    unfold Reports.latchWhere
    split <;> rfl
  rw [hunfold, hlatched]
  generalize s.sweptStart.reports.latchWhere (0 < s.retiredCount) .tileRetired = rp
  show (if s.sweptStart.tileCount / 32 ≤ s.sweptStart.retiredCount then _ else _) = _
  rw [hstart.1, hstart.2]
  unfold Reports.latchWhere
  split <;> rfl

theorem State.announceStart_eq (s : State) (cause : StartCause) :
    s.announceStart cause = { s with reports := (s.announceStart cause).reports } := by
  unfold State.announceStart
  dsimp only
  split <;> rfl

/-- What the sweep's end leaves but for the flag and the report unit. -/
theorem State.endSweep_frame (s : State) :
    s.endSweep = { s.swept with intake := s.endSweep.intake, reports := s.endSweep.reports } := by
  have hstart : s.sweptStart
      = { s.swept with intake := s.sweptStart.intake, reports := s.sweptStart.reports } := by
    unfold State.sweptStart
    rw [State.announceStart_eq, State.evalFlag_eq]
  rw [s.endSweep_eq, hstart]

/-- The flag is evaluated at the sweep's end, with its mark out of the way. -/
theorem State.endSweep_intake (s : State) :
    s.endSweep.intake = s.swept.evalFlag.intake := by
  rw [s.endSweep_eq]
  simp [State.sweptStart]

/-- The report unit at the sweep's end. -/
theorem State.endSweep_reports (s : State) : s.endSweep.reports =
    (s.sweptStart.reports.latchWhere (0 < s.retiredCount) .tileRetired).latchWhere
      (s.tileCount / 32 ≤ s.retiredCount) .storeDegraded := by
  rw [s.endSweep_eq]

/-- Behind the evaluation of the flag the sweep's end touches the alarms of the retired tiles only. -/
theorem State.endSweep_touches_retired (s : State) :
    s.swept.evalFlag.reports.touches s.endSweep.reports [] [.tileRetired, .storeDegraded] := by
  rw [s.endSweep_reports]
  exact Reports.touches_trans (Reports.touches_trans (State.announceStart_touches _ _ _ _)
    (Reports.latchWhere_touches _ _ _ _ _ (by simp))) (Reports.latchWhere_touches _ _ _ _ _ (by simp))

/-- The sweep's end touches the three alarms of the store only. -/
theorem State.endSweep_touches (s : State) :
    s.reports.touches s.endSweep.reports [] [.storeLow, .tileRetired, .storeDegraded] :=
  Reports.touches_trans (State.evalFlag_touches s.swept [] _ (by simp))
    (Reports.touches_mono s.endSweep_touches_retired (by simp) (by simp))

/-- The latches of the retired tiles at the sweep's end (R53, R58). -/
theorem State.endSweep_latched (s : State) :
    (0 < s.retiredCount → s.endSweep.reports.latched .tileRetired = true) ∧
    (s.tileCount / 32 ≤ s.retiredCount → s.endSweep.reports.latched .storeDegraded = true) ∧
    (s.retiredCount = 0 → s.endSweep.reports.latched .tileRetired = s.reports.latched .tileRetired) ∧
    (s.retiredCount < s.tileCount / 32 →
      s.endSweep.reports.latched .storeDegraded = s.reports.latched .storeDegraded) := by
  have hstart : s.reports.touches s.sweptStart.reports [] [.storeLow] :=
    Reports.touches_trans (State.evalFlag_touches s.swept [] [.storeLow]
      (by simp)) (State.announceStart_touches _ _ _ _)
  rw [s.endSweep_reports]
  generalize s.sweptStart.reports = rp at hstart ⊢
  have hretired := rp.latchWhere_latched (0 < s.retiredCount) .tileRetired
  have hdegraded := (rp.latchWhere (0 < s.retiredCount) .tileRetired).latchWhere_latched
    (s.tileCount / 32 ≤ s.retiredCount) .storeDegraded
  have hkeepDegraded := rp.latchWhere_touches (0 < s.retiredCount) .tileRetired [] [.tileRetired] (by simp)
  have hkeepRetired := (rp.latchWhere (0 < s.retiredCount) .tileRetired).latchWhere_touches
    (s.tileCount / 32 ≤ s.retiredCount) .storeDegraded [] [.storeDegraded] (by simp)
  refine ⟨fun h => ?_, hdegraded.1, fun h => ?_, fun h => ?_⟩
  · rw [hkeepRetired.2.1 _ (by simp) (by simp), hretired.1 h]
  · rw [hkeepRetired.2.1 _ (by simp) (by simp), hretired.2 (by omega), hstart.2.1 _ (by simp) (by simp)]
  · rw [hdegraded.2 (by omega), hkeepDegraded.2.1 _ (by simp) (by simp), hstart.2.1 _ (by simp) (by simp)]

/-- The lane at the sweep's end: STARTED is sent, behind the symbol of the flag. -/
theorem State.endSweep_sent {s : State} (hq : s.swept.evalFlag.reports.queue = []) (hs : s.reports.sending = none)
    (hsent : s.reports.sent = []) (hlast : s.reports.lastSymbol = some .hold) :
    s.endSweep.reports.sending = some (s.startedReport .powerOn none) ∧
    s.endSweep.reports.sent = (if s.endSweep.intake.holding then [] else [.symbol .resume])
      ++ [.parcel ((s.startedReport .powerOn none).parcel s.straps.crcInit)] := by
  obtain ⟨hsending', hlast', hsent', -⟩ := s.swept.evalFlag_growsTo
  obtain ⟨hsending, hsymbol, -⟩ := State.announceStart_lane (s := s.swept.evalFlag) .powerOn hq (hsending'.trans hs)
  have hstarted : s.swept.evalFlag.startedReport .powerOn none = s.startedReport .powerOn none := by
    simp [State.startedReport, State.swept, State.tileCount, State.retiredCount]
  rw [hstarted] at hsending hsymbol
  rw [s.endSweep_reports, s.endSweep_intake, (Reports.latchWhere_sent _ _ _).1, (Reports.latchWhere_sent _ _ _).2,
    (Reports.latchWhere_sent _ _ _).1, (Reports.latchWhere_sent _ _ _).2]
  refine ⟨hsending, hsymbol.trans ?_⟩
  rw [Reports.sendSymbol_sent, hlast', hsent', show s.swept.reports.lastSymbol = some .hold from hlast,
    show s.swept.reports.sent = [] from hsent, show s.swept.evalFlag.straps = s.straps by simp [State.swept]]
  cases s.swept.evalFlag.intake.holding <;> simp [symbolFor]

/-- With nothing masked ALERT is low where any latch is set. -/
theorem Reports.alertLow_of_unmasked {rp : Reports} (h : rp.mask = 0) : rp.alertLow = true ↔ rp.latches ≠ 0 := by
  have hall : rp.latches &&& ~~~(0 : BitVec 14) = rp.latches := by
    show rp.latches &&& ~~~0#14 = _
    rw [BitVec.not_zero, BitVec.and_allOnes]
  simp only [Reports.alertLow, h, hall, Bool.not_eq_true', beq_eq_false_iff_ne]

/-- The queue at the sweep's end, with nothing masked (R177, R178): the report owed from before, and one for each alarm of
the retired tiles. -/
theorem State.endSweep_queue {s : State} (hq : s.reports.queue = []) (hs : s.reports.sending = none)
    (hw : s.reports.awaitStarted = true) (hm : s.reports.mask = 0) (hretired : s.reports.latched .tileRetired = false)
    (hdegraded : s.reports.latched .storeDegraded = false) :
    let t := s.endSweep.reports
    let beforeDegraded := t.latches &&& ~~~Alarm.storeDegraded.bit
    let beforeRetired := beforeDegraded &&& ~~~Alarm.tileRetired.bit
    s.swept.evalFlag.reports.queue = [] ∧ t.owed = false ∧
    t.queue =
      (if (s.reports.owed = true ∨ (s.freeCount ≤ s.intake.flow.low ∧ s.intake.reserveCause = false ∧
          s.reports.latched .storeLow = false)) ∧ beforeRetired ≠ 0 then [.alarm beforeRetired 0] else [])
        ++ (if 0 < s.retiredCount then [.alarm beforeDegraded 0] else [])
        ++ (if s.tileCount / 32 ≤ s.retiredCount then [.alarm t.latches 0] else []) := by
  intro t beforeDegraded beforeRetired
  obtain ⟨hqueue, -, -, howes⟩ := State.evalFlag_awaiting (s := s.swept) rfl hw hm
  have hflag := State.evalFlag_touches s.swept [] [.storeLow] (by simp)
  have hsending := s.swept.evalFlag_growsTo.1.trans hs
  obtain ⟨-, -, hstart, howed, hawait, hlatches, hmask, -⟩ :=
    State.announceStart_lane .powerOn (hqueue.trans hq) hsending
  have ht : t = _ := s.endSweep_reports
  have hmask' : s.sweptStart.reports.mask = 0 := hmask.trans (hflag.2.2.trans hm)
  have hlatched : ∀ a : Alarm, a ≠ .storeLow → a ≠ .reportsLost →
      s.sweptStart.reports.latched a = s.reports.latched a := fun a h g => by
    have hl : s.sweptStart.reports.latched a = s.swept.evalFlag.reports.latched a :=
      congrArg (fun l : BitVec 14 => l.getLsbD a.index) hlatches
    exact hl.trans (hflag.2.1 a (by simpa using h) g)
  have howedReport : s.swept.evalFlag.reports.owedReport
      = if (s.reports.owed = true ∨ (s.freeCount ≤ s.intake.flow.low ∧ s.intake.reserveCause = false ∧
          s.reports.latched .storeLow = false)) ∧ s.sweptStart.reports.latches ≠ 0
        then [.alarm s.sweptStart.reports.latches 0] else [] := by
    have halert := Reports.alertLow_of_unmasked (rp := s.swept.evalFlag.reports) (hflag.2.2.trans hm)
    rw [Reports.owedReport, show s.swept.evalFlag.reports.mask = 0 from hflag.2.2.trans hm,
      show s.sweptStart.reports.latches = s.swept.evalFlag.reports.latches from hlatches]
    simp only [Bool.and_eq_true, howes, halert]
    rfl
  have hroom : s.sweptStart.reports.queue.length ≤ 1 := by
    rw [show s.sweptStart.reports.queue = s.swept.evalFlag.reports.owedReport from hstart, howedReport]
    split <;> simp
  obtain ⟨hqueue1, hclear1, howed1, hmask1, hawait1⟩ := s.sweptStart.reports.latchWhere_loud (0 < s.retiredCount)
    .tileRetired ((hlatched _ (by simp) (by simp)).trans hretired) hmask' hawait (by omega)
  have hdegraded1 : (s.sweptStart.reports.latchWhere (0 < s.retiredCount) .tileRetired).latched .storeDegraded = false :=
    ((Reports.latchWhere_touches _ _ _ [] [.tileRetired] (by simp)).2.1 _ (by simp) (by simp)).trans
      ((hlatched _ (by simp) (by simp)).trans hdegraded)
  have hroom1 : (s.sweptStart.reports.latchWhere (0 < s.retiredCount) .tileRetired).queue.length ≤ 2 := by
    rw [hqueue1, List.length_append]
    split <;> simp <;> omega
  obtain ⟨hqueue2, hclear2, howed2, -⟩ := Reports.latchWhere_loud _ (s.tileCount / 32 ≤ s.retiredCount)
    .storeDegraded hdegraded1 hmask1 hawait1 (by omega)
  rw [← ht] at hqueue2 hclear2 howed2
  refine ⟨hqueue.trans hq, howed2.trans (howed1.trans howed), ?_⟩
  have hlatches1 : beforeDegraded = _ := hclear2
  have hlatches0 : beforeRetired = s.sweptStart.reports.latches := by rw [← hclear1, ← hlatches1]
  rw [hqueue2, hqueue1, hlatches0, hlatches1, ← howedReport]
  exact congrArg (fun q => q ++ _ ++ _) hstart

theorem State.sweepTileTest_last {s : State} {n : Nat} (h : s.store.sweep = some n) (hn : s.tileCount ≤ n + 1)
    (first second : List DramFault) :
    s.sweepTileTest first second = (s.testTile n (s.tilePasses n first second)).endSweep := by
  simp [State.sweepTileTest, h, Nat.not_lt.mpr hn]

/-- The test of a tile leaves all but the store. -/
theorem State.testTile_eq (s : State) (n : Nat) (passed : Bool) :
    s.testTile n passed = { s with store := (s.testTile n passed).store } := by
  cases passed <;> rfl

theorem tileCount_pos (s : State) : 32 ≤ s.tileCount := by
  unfold State.tileCount
  cases s.straps.size <;> decide

/-- The sweep's end, where no tile is retired and the store stands above its low mark: STARTED alone. -/
theorem State.endSweep_clean {s : State} (hretired : s.store.retired = []) (hlow : s.intake.flow.low < s.freeCount)
    (hq : s.reports.queue = []) (hs : s.reports.sending = none) (howed : s.reports.owed = false) :
    s.swept.evalFlag.reports = s.reports ∧ s.endSweep.reports.queue = [] ∧
      s.endSweep.reports.latches = s.reports.latches := by
  have hflag : s.swept.evalFlag.reports = s.reports := State.evalFlag_above (s := s.swept) hlow
  obtain ⟨-, -, hqueue, -, -, hlatches, -⟩ := State.announceStart_lane (s := s.swept.evalFlag) .powerOn
    (by rw [hflag]; exact hq) (by rw [hflag]; exact hs)
  have hcount : s.retiredCount = 0 := by rw [State.retiredCount, hretired]; rfl
  have hsize := tileCount_pos s
  have hreports : s.endSweep.reports = s.sweptStart.reports := by
    rw [s.endSweep_reports, hcount, Reports.latchWhere, if_neg (by omega), Reports.latchWhere, if_neg (by omega)]
  rw [hflag] at hqueue hlatches
  refine ⟨hflag, ?_, ?_⟩
  · rw [hreports]
    exact hqueue.trans (Reports.owedReport_none howed)
  · rw [hreports]
    exact hlatches

/-- The test of the last tile is the sweep's end over the store that the test leaves. -/
theorem exec_sweepTileTest_last {s : State} {n : Nat} (h : s.store.sweep = some n) (hn : s.tileCount ≤ n + 1)
    (first second : List DramFault) {st : Store}
    (hst : (s.beginStep.testTile n (s.beginStep.tilePasses n first second)).store = st) :
    exec (.sweepTileTest ⟨first, second⟩) s
      = .next (s.beginStep.settle (State.endSweep { s.beginStep with store := st })) := by
  rw [exec_sweepTileTest, State.sweepTileTest_last (s := s.beginStep) h hn, State.testTile_eq, hst]

/-- Settles O19: the sweep's end is an evaluation of the flag, STARTED and the latchings, in that order. -/
theorem cleanSweepEndStarts : Obligations.CleanSweepEndStarts := by
  constructor
  · intro s n hsweep hn hretired hpool hrestart hholding hroom hhigh hlow hq hs hlast howed started
    have hst : (s.beginStep.testTile n (s.beginStep.tilePasses n [] [])).store
        = { s.store with dram := s.store.dram.sweepTile n } := by
      rw [s.beginStep.tilePasses_clean n]
      rfl
    let v : State := { s.beginStep with store := { s.store with dram := s.store.dram.sweepTile n } }
    have hfree : v.freeCount = s.tileCount := by
      show s.tileCount - s.store.poolOut.length = _
      rw [hpool]
      rfl
    obtain ⟨hflag, hqueue, hlatches⟩ := State.endSweep_clean (s := v) hretired (hfree ▸ hlow) hq hs howed
    obtain ⟨hsending, hsent⟩ := State.endSweep_sent (s := v) (by rw [hflag]; exact hq) hs rfl hlast
    have hflagged := (State.evalFlag_evaluated v.swept rfl).lowered hholding
    rw [show v.swept.freeCount = s.tileCount from hfree] at hflagged
    have hlowered : v.endSweep.intake.holding = false := by
      rw [v.endSweep_intake]
      exact hflagged.mpr ⟨hroom, hhigh⟩
    have hsettled := State.settle_busy (s := s.beginStep) (t := v.endSweep) (by rw [hsending]; rfl)
    have hstarted : v.startedReport .powerOn none = started := by
      show Report.started ⟨_, _, _, s.store.retired.length, _⟩ = _
      rw [hretired]
      rfl
    rw [hstarted] at hsending hsent
    refine ⟨_, (exec_sweepTileTest_last hsweep hn [] [] hst).trans (congrArg _ hsettled), ?_, hlowered, ?_, hsending,
      ?_, hqueue, hlatches, ?_, ?_⟩
    · rw [v.endSweep_frame]; rfl
    · rw [v.endSweep_frame]
      simp [State.intakeTaking, State.swept, v, hrestart]
    · rw [hsent, hlowered]; rfl
    · rw [v.endSweep_frame]; rfl
    · rw [v.endSweep_intake]; simp [State.swept, v]
  · intro s first second n hsweep hn passes
    obtain ⟨hpasses, hfails⟩ := State.testTile_sets s.beginStep n first second
    have hexec := exec_sweepTileTest_last hsweep hn first second rfl
    generalize (s.beginStep.testTile n (s.beginStep.tilePasses n first second)).store = st at hpasses hfails hexec
    let v : State := { s.beginStep with store := st }
    obtain ⟨hset, hdegraded, hkept, hkeptDegraded⟩ := v.endSweep_latched
    have hevaluated := State.evalFlag_evaluated v.swept rfl
    have hlow := v.endSweep_touches_retired.2.1 .storeLow (by simp) (by simp)
    have htouches := State.settle_touches (s := s.beginStep) v.endSweep_touches
    have hlatched := State.settle_latched s.beginStep v.endSweep
    have hintake := v.swept.evalFlag_intake
    rw [← v.endSweep_intake] at hintake
    have hframe : s.beginStep.settle v.endSweep = { v.swept with
        intake := v.endSweep.intake, reports := (s.beginStep.settle v.endSweep).reports } := by
      rw [State.settle_eq, v.endSweep_frame]
    refine ⟨_, hexec, ?_⟩
    rw [hframe]
    obtain ⟨hinlet, hslots, hflow⟩ := hintake
    refine ⟨rfl, hpasses, hfails, ?_, ?_, ?_, ?_, ?_, htouches, ?_, ?_, hinlet, hslots, hflow, rfl, rfl, rfl,
      rfl⟩
    · exact hevaluated.congr rfl rfl rfl v.endSweep_intake ((hlatched .storeLow).trans hlow)
    · exact fun h => (hlatched .tileRetired).trans (hset h)
    · exact fun h => (hlatched .storeDegraded).trans (hdegraded h)
    · exact fun h => (hlatched .tileRetired).trans (hkept (congrArg List.length h))
    · exact fun h => (hlatched .storeDegraded).trans (hkeptDegraded h)
    · intro hq hs hlast hw hm htr hsd
      obtain ⟨hqueue, howed, hqueued⟩ := State.endSweep_queue (s := v) hq hs hw hm htr hsd
      obtain ⟨hsending, hsent⟩ := State.endSweep_sent (s := v) hqueue hs rfl hlast
      rw [State.settle_busy (s := s.beginStep) (t := v.endSweep) (by rw [hsending]; rfl)]
      exact ⟨hsending, howed, hsent, hqueued⟩
    · simp [State.intakeTaking, State.swept, v]

/-! ## The page table as a list of its records -/

theorem State.liveRecords_eq_nil {s : State} : s.liveRecords = [] ↔ ∀ r, s.page? r = none := by
  simp only [List.eq_nil_iff_forall_not_mem, Prod.forall, State.mem_liveRecords]
  exact ⟨fun h r => Option.eq_none_iff_forall_ne_some.mpr fun p => h r p, fun h r p hp => by simp [h r] at hp⟩

theorem State.page?_of_cleared {s : State} {n : Nat} (h : s.pages = List.replicate n none) (r : Nat) :
    s.page? r = none := by
  simp only [State.page?, h, List.getD, List.getElem?_replicate]
  split <;> rfl

theorem State.liveRecords_of_cleared {s : State} {n : Nat} (h : s.pages = List.replicate n none) : s.liveRecords = [] :=
  State.liveRecords_eq_nil.mpr (State.page?_of_cleared h)

/-! ## The resets (R57, R59, R60) -/

/-- Settles O20: each field at its reset value. -/
theorem powerOnResetsEveryBlock : Obligations.PowerOnResetsEveryBlock := by
  intro size crc ready s
  have hlive := State.liveRecords_of_cleared (s := { State.reset with
    pending := s.pending
    straps := ⟨size, crc⟩
    store := { State.reset.store with dram := s.tornDram }
    drive := Drive.afterReset ready
    freeIndex := s.freeIndex + 1 }) (n := Config.pageRecords) rfl
  refine ⟨_, rfl, rfl, rfl, rfl, rfl, rfl, rfl, rfl, hlive, rfl, rfl, rfl, ?_, rfl, rfl, rfl, rfl,
    fun a ha => s.readByte_tornDram a ha, rfl, rfl, rfl, rfl, rfl, rfl, ?_, ?_, rfl, rfl, rfl, rfl, rfl, ?_, rfl, rfl,
    rfl, rfl, rfl, rfl, rfl, rfl, rfl, rfl, rfl, rfl, rfl, rfl, rfl⟩
  · simp only [State.mappedCount, hlive]
    rfl
  · rintro (_ | _ | _ | _) <;> rfl
  · rintro (_ | _ | _ | _) <;> rfl
  · cases ready <;> rfl

/-- The slot of a write in service is written whole, or stands as it was, or fails its check (R56). -/
theorem State.tornDram_slot {s : State} {w : StoreWrite} (h : s.writeInService = some w) :
    let n := slotNumber w.tile w.slot
    (s.tornDram.bytesAt n = paddedSlot w.payload ∧ s.tornDram.agrees n = true) ∨
    s.tornDram.slotAt n = s.store.dram.slotAt n ∨ s.tornDram.agrees n = false := by
  intro n
  simp only [State.tornDram, h, State.cutWrite]
  split
  · rw [State.dramWrite_store]
    exact .inl ⟨by simp [n, Dram.bytesAt_write, codedCell], by simp [n, Dram.agrees_write]⟩
  · exact .inr (.inl rfl)
  · refine .inr (.inr ?_)
    rw [Dram.agrees, Dram.slotAt_write, if_pos rfl, tornCell_passes]

/-- Right after a pin reset with no sweep running, an evaluation of the flag on the mark of the free pool. -/
theorem State.afterPin_flag {s : State} (h : s.store.sweep = none) (ready : Bool) :
    (s.afterPin ready).evalFlag.intake.holding = false ↔ 512 ≤ s.tileCount - s.retiredCount := by
  have hstore : (s.afterPin ready).store.sweep = none := by simp [State.afterPin, h]
  have hfree : (s.afterPin ready).freeCount = s.tileCount - s.retiredCount := by
    simp [State.afterPin, h, State.freeCount, State.tileCount, State.retiredCount]
  have hlowered := (State.evalFlag_evaluated (s.afterPin ready) hstore).lowered rfl
  rw [hfree] at hlowered
  exact hlowered.trans ⟨fun ⟨_, hmark⟩ => hmark, fun hmark => ⟨Nat.zero_le _, hmark⟩⟩

/-- Settles O21: the reset state with the retired set, and STARTED on its idle lane. -/
theorem pinResetKeepsRetiredSet : Obligations.PinResetKeepsRetiredSet := by
  intro ready s started
  constructor
  · intro hsweep
    have hstore : (s.afterPin ready).store
        = { State.reset.store with
            sweep := none, retired := s.store.retired, poolOut := s.store.retired, dram := s.tornDram } := by
      simp [State.afterPin, hsweep]
    have hreset : s.pinReset ready = (s.afterPin ready).evalFlag.announceStart .pin := by simp [State.pinReset, hsweep]
    obtain ⟨hqueue, hcounters, -⟩ := State.evalFlag_awaiting (s := s.afterPin ready) (by rw [hstore]) rfl rfl
    obtain ⟨hsending, hlast, hsent, -⟩ := (s.afterPin ready).evalFlag_growsTo
    obtain ⟨hsending', hsent', -, -, -, -, -, hcounters'⟩ :=
      State.announceStart_lane (s := (s.afterPin ready).evalFlag) .pin hqueue hsending
    have hstarted : (s.afterPin ready).evalFlag.startedReport .pin none = started := by
      simp [State.startedReport, started, State.tileCount, State.retiredCount, hstore]
      exact ⟨rfl, rfl⟩
    have hlive := State.liveRecords_of_cleared (s := s.pinReset ready) (n := Config.pageRecords) (by rw [hreset]; simp; rfl)
    have hintake := (s.afterPin ready).evalFlag_intake
    refine ⟨_, rfl, ?_⟩
    rw [hreset] at hlive ⊢
    rw [hstarted] at hsending' hsent'
    simp only [State.announceStart_same, State.evalFlag_same, State.busySlots, hintake, hstore]
    refine ⟨rfl, trivial, trivial, trivial, hlive, rfl, rfl, rfl, rfl, rfl, hsending', hcounters'.trans hcounters, ?_,
      State.afterPin_flag hsweep ready, fun a ha => s.readByte_tornDram a ha, fun w hw => State.tornDram_slot hw⟩
    rw [hsent', Reports.sendSymbol_sent, hlast, hsent]
    simp [State.afterPin]
  · intro n hsweep
    have hreset : s.pinReset ready = (s.afterPin ready).boundary := by simp [State.pinReset, hsweep]
    have hstore : (s.afterPin ready).store
        = { State.reset.store with sweep := some 0, dram := s.tornDram } := by
      simp [State.afterPin, hsweep]; exact ⟨rfl, rfl⟩
    have hlive := State.liveRecords_of_cleared (s := s.pinReset ready) (n := Config.pageRecords) (by rw [hreset]; rfl)
    refine ⟨_, rfl, ?_⟩
    rw [hreset] at hlive ⊢
    refine ⟨rfl, ?_, ?_, ?_, rfl, rfl, rfl, rfl, ?_, rfl, hlive⟩
    · simp [hstore]
    · simp [hstore]; rfl
    · simp [State.freeCount, State.tileCount, hstore]; rfl
    · simp [State.intakeTaking, hstore]

/-! ## The reset state (R57, R164, R181) -/

/-- Settles O60. -/
theorem resetHasInvariants : Obligations.ResetHasInvariants := by
  have hpages := State.page?_of_cleared (s := State.reset) (n := Config.pageRecords) rfl
  have hlive := State.liveRecords_of_cleared (s := State.reset) (n := Config.pageRecords) rfl
  have hmapped : State.reset.mapped = [] := by simp [State.mapped, hlive]
  have hfree : State.reset.store.poolOut = [] ∧ State.reset.store.retired = [] := ⟨rfl, rfl⟩
  refine ⟨State.Bounded.reset, ?_, ?_⟩
  · refine ⟨rfl, rfl, State.wf_reset, fun t ht => ?_, fun t _ => ⟨by simp [hfree], by simp [hfree], by simp [hmapped]⟩,
      fun r p hp => ?_, fun x hx => ?_, fun n hn => ?_, fun _ _ _ _ h => ?_⟩
    · have hin : State.reset.inPool t = true := by simp [State.inPool, ht, hfree]
      simp [State.places, hin, hmapped, hfree]
    · simp [hpages] at hp
    · simp [State.reset] at hx
    · obtain rfl : n = 0 := by simpa [State.reset] using hn.symm
      exact ⟨by decide, hlive⟩
    · simp [State.reset] at h
  · have huses : ∀ r, State.reset.uses r = 0 := fun _ => rfl
    refine ⟨⟨rfl, rfl, fun _ => rfl, fun pl h => ?_, fun h => ?_, rfl⟩, List.nodup_nil, ⟨fun _ h => ?_, fun _ h => ?_⟩,
      ⟨fun r p hp => ?_, fun _ h => ?_⟩, fun _ => rfl⟩
    · simp [State.reset] at h
    · simp [State.reset] at h
    · simp [State.reset] at h
    · simp [State.reset] at h
    · simp [hpages] at hp
    · simp [State.reset] at h

end Sys2Proof.Machine
end

section
/-! PROOFS. Where the tiles stand (R44): counting a tile over the tile maps of the page table. -/

namespace Sys2Proof.Machine

open Sys2Proof (Byte)

/-! ## A layer record's tile map -/

/-- The tile-map slots of a layer record that hold a tile. -/
theorem LayerRecord.count_tiles (l : LayerRecord) (y : Nat) : l.tiles.count y = l.tileMap.count (some y) := by
  unfold LayerRecord.tiles
  induction l.tileMap with
  | nil => rfl
  | cons o os ih => cases o <;> simp [List.count_cons, ih]

theorem LayerRecord.tileAt_eq {l : LayerRecord} {k : Nat} (hk : k < l.tileMap.length) : l.tileAt k = l.tileMap[k] := by
  simp [LayerRecord.tileAt, hk]

/-- A tile-map slot takes a tile, or loses the one it held. -/
theorem LayerRecord.count_setSlot {l : LayerRecord} {k : Nat} (hk : k < l.tileMap.length) (new : Option Nat) (y : Nat) :
    (l.tileMap.set k new).count (some y) + (if l.tileAt k = some y then 1 else 0)
      = l.tileMap.count (some y) + (if new = some y then 1 else 0) := by
  rw [List.count_set hk, LayerRecord.tileAt_eq hk]
  simp only [beq_iff_eq]
  by_cases hold : l.tileMap[k] = some y
  · have hmem : 0 < l.tileMap.count (some y) := List.count_pos_iff.mpr (hold ▸ List.getElem_mem hk)
    simp only [hold, if_true]
    omega
  · simp [hold]

/-! ## A page record's layers -/

/-- The tile-map slots of the layer records of a list that hold a tile. -/
def tileCountIn (ls : List LayerRecord) (y : Nat) : Nat := (ls.map fun l => l.tileMap.count (some y)).sum

theorem PageRecord.count_tiles (p : PageRecord) (y : Nat) : p.tiles.count y = tileCountIn p.layers y := by
  unfold PageRecord.tiles tileCountIn
  rw [List.count_flatMap]
  exact congrArg List.sum (List.map_congr_left fun l _ => l.count_tiles y)

/-- With distinct layers, a change of one layer record counts once. -/
theorem tileCountIn_modify {ls : List LayerRecord} (hnd : (ls.map (·.id)).Nodup) {l : LayerRecord} {id : LayerId}
    (hl : ls.find? (fun x => x.id == id) = some l) (f : LayerRecord → LayerRecord) (y : Nat) :
    tileCountIn (ls.map fun x => if x.id == id then f x else x) y + l.tileMap.count (some y)
      = tileCountIn ls y + (f l).tileMap.count (some y) := by
  induction ls with
  | nil => simp at hl
  | cons x xs ih =>
    rw [List.map_cons, List.nodup_cons] at hnd
    obtain ⟨hx, hxs⟩ := hnd
    simp only [tileCountIn, List.map_cons, List.sum_cons]
    cases hid : x.id == id with
    | true =>
      obtain rfl : x = l := by simpa [List.find?_cons, hid] using hl
      have hrest : xs.map (fun z => if z.id == id then f z else z) = xs := by
        refine (List.map_congr_left fun z hz => ?_).trans (List.map_id xs)
        rw [if_neg]
        · rfl
        · intro heq
          rw [beq_iff_eq] at heq hid
          exact hx (List.mem_map.mpr ⟨z, hz, heq.trans hid.symm⟩)
      rw [if_pos rfl, hrest]
      omega
    | false =>
      have hrest := ih hxs (by simpa [List.find?_cons, hid] using hl)
      simp only [tileCountIn, List.map_map] at hrest
      simp only [Bool.false_eq_true, if_false, List.map_map]
      omega

/-! ## The page table -/

/-- How often record `r` maps a tile. -/
def State.mapsAt (s : State) (r y : Nat) : Nat := (s.page? r).elim 0 fun p => p.tiles.count y

theorem State.mapsAt_of_live {s : State} {r : Nat} {p : PageRecord} (h : s.page? r = some p) (y : Nat) :
    s.mapsAt r y = p.tiles.count y := by
  simp [State.mapsAt, h]

theorem State.mapsAt_of_none {s : State} {r : Nat} (h : s.page? r = none) (y : Nat) : s.mapsAt r y = 0 := by
  simp [State.mapsAt, h]

/-- A sum over a list of records, by their numbers. -/
theorem sum_range_getD (f : Option PageRecord → Nat) (h0 : f none = 0) (ps : List (Option PageRecord)) {n : Nat}
    (hn : ps.length ≤ n) : ∑ r ∈ Finset.range n, f (ps.getD r none) = (ps.map f).sum := by
  induction ps generalizing n with
  | nil => simp [h0]
  | cons o os ih =>
    obtain ⟨m, rfl⟩ : ∃ m, n = m + 1 := ⟨n - 1, by simp only [List.length_cons] at hn; omega⟩
    have htail := ih (n := m) (by simpa using hn)
    simp only [List.getD_eq_getElem?_getD] at htail
    rw [Finset.sum_range_succ']
    simp [htail, add_comm]

/-- A sum over the live records. -/
theorem sum_liveRecords (f : PageRecord → Nat) (ps : List (Option PageRecord)) (k : Nat) :
    (((ps.zipIdx k).filterMap fun (p, r) => p.map fun p => (r, p)).map fun (_, p) => f p).sum
      = (ps.map fun o => o.elim 0 f).sum := by
  induction ps generalizing k with
  | nil => rfl
  | cons o os ih => cases o <;> simp [ih]

/-- How often a tile is mapped, over record numbers up to any bound that holds the table. -/
theorem State.count_mapped (s : State) {n : Nat} (hn : s.pages.length ≤ n) (y : Nat) :
    s.mapped.count y = ∑ r ∈ Finset.range n, s.mapsAt r y := by
  have hsum := sum_range_getD (fun o => o.elim 0 fun p => p.tiles.count y) rfl s.pages hn
  unfold State.mapped
  rw [List.count_flatMap]
  exact (sum_liveRecords (fun p => p.tiles.count y) s.pages 0).trans hsum.symm

/-- A tile is mapped as often where no record maps it otherwise. -/
theorem State.count_mapped_congr {s t : State} {y : Nat} (h : ∀ r, t.mapsAt r y = s.mapsAt r y) :
    t.mapped.count y = s.mapped.count y := by
  rw [t.count_mapped (Nat.le_max_left _ s.pages.length), s.count_mapped (Nat.le_max_right t.pages.length _)]
  exact Finset.sum_congr rfl fun r _ => h r

/-- A change of one record changes how often a tile is mapped by what it changes of that record. -/
theorem State.count_mapped_change {s t : State} {r y : Nat} (h : ∀ r', r' ≠ r → t.mapsAt r' y = s.mapsAt r' y) :
    t.mapped.count y + s.mapsAt r y = s.mapped.count y + t.mapsAt r y := by
  let n := max (r + 1) (max t.pages.length s.pages.length)
  have hr : r ∈ Finset.range n := by simp [n]
  rw [t.count_mapped (n := n) (by omega), s.count_mapped (n := n) (by omega), ← Finset.add_sum_erase _ _ hr,
    ← Finset.add_sum_erase _ (fun r => s.mapsAt r y) hr]
  have hrest : ∑ x ∈ (Finset.range n).erase r, t.mapsAt x y = ∑ x ∈ (Finset.range n).erase r, s.mapsAt x y :=
    Finset.sum_congr rfl fun x hx => h x (Finset.ne_of_mem_erase hx)
  omega

/-! ## Changes of the page table record by record -/

/-- Every record of the page table changes as a relation allows; the EMPTY ones stay EMPTY. -/
def State.Pagewise (R : PageRecord → PageRecord → Prop) (s t : State) : Prop :=
  ∀ r, Option.Rel R (s.page? r) (t.page? r)

namespace State.Pagewise

variable {R : PageRecord → PageRecord → Prop} {s t u : State}

theorem of_pages (hR : ∀ p, R p p) (h : t.pages = s.pages) : s.Pagewise R t := by
  intro r
  rw [State.page?_congr h]
  cases s.page? r with
  | none => exact .none
  | some p => exact .some (hR p)

theorem trans (hR : ∀ {p q r}, R p q → R q r → R p r) (h : s.Pagewise R t) (g : t.Pagewise R u) : s.Pagewise R u := by
  intro r
  have hr := h r
  have gr := g r
  generalize s.page? r = a at hr
  generalize t.page? r = b at hr gr
  generalize u.page? r = c at gr
  cases hr with
  | none => exact gr
  | some hp =>
    cases gr with
    | some gp => exact .some (hR hp gp)

/-- A record that stands before the change stands after it. -/
theorem of_some (h : s.Pagewise R t) {r : Nat} {p : PageRecord} (hp : s.page? r = some p) :
    ∃ q, t.page? r = some q ∧ R p q := by
  have hr := h r
  rw [hp] at hr
  generalize t.page? r = b at hr
  cases hr with
  | some hk => exact ⟨_, rfl, hk⟩

/-- A record that stands after the change stood before it. -/
theorem some_of (h : s.Pagewise R t) {r : Nat} {q : PageRecord} (hq : t.page? r = some q) :
    ∃ p, s.page? r = some p ∧ R p q := by
  have hr := h r
  rw [hq] at hr
  generalize s.page? r = a at hr
  cases hr with
  | some hk => exact ⟨_, rfl, hk⟩

theorem none_of (h : s.Pagewise R t) {r : Nat} (hs : s.page? r = none) : t.page? r = none := by
  have hr := h r
  rw [hs] at hr
  generalize t.page? r = b at hr
  cases hr
  rfl

/-- A change of one record. -/
theorem of_map (hR : ∀ p, R p p) {r : Nat} {f : PageRecord → PageRecord} (hf : ∀ p, s.page? r = some p → R p (f p))
    (h : ∀ r', t.page? r' = if r' = r then (s.page? r').map f else s.page? r') : s.Pagewise R t := by
  intro r'
  rw [h r']
  split
  next heq =>
    subst heq
    cases hp : s.page? r' with
    | none => exact .none
    | some p => exact .some (hf p hp)
  · cases s.page? r' with
    | none => exact .none
    | some p => exact .some (hR p)

theorem derivePage (hR : ∀ p, R p p) (hd : ∀ p : PageRecord, R p p.afterDerivation) (s : State) (r : Nat) :
    s.Pagewise R (s.derivePage r) :=
  of_map (r := r) hR (fun p _ => hd p) fun r' => by
    rw [State.page?_derivePage]
    split
    next h => rw [h]
    · rfl

theorem evaluateLayer (hR : ∀ p, R p p) (he : ∀ (p : PageRecord) id, R p (p.afterEvaluation id)) (s : State)
    (x : LayerRef) : s.Pagewise R (s.evaluateLayer x) :=
  of_map hR (fun p _ => he p x.layer) fun r' => s.page?_evaluateLayer x r'

theorem setPage (hR : ∀ p, R p p) {r : Nat} {p q : PageRecord} (hp : s.page? r = some p) (hk : R p q) :
    s.Pagewise R (s.setPage r (some q)) :=
  of_map (f := fun _ => q) (r := r) hR (fun p' hp' => by rw [hp] at hp'; cases hp'; exact hk) fun r' => by
    rw [State.page?_setPage_of_live hp]
    split
    next h => rw [h, hp]; rfl
    · rfl

theorem modifyPage (hR : ∀ p, R p p) {r : Nat} {f : PageRecord → PageRecord}
    (hf : ∀ p, s.page? r = some p → R p (f p)) : s.Pagewise R (s.modifyPage r f) :=
  of_map hR hf fun r' => by
    rw [State.page?_modifyPage]
    split
    next h => rw [h]
    · rfl

theorem resupersede (hR : ∀ (p : PageRecord) b, R p { p with superseded := b }) (s : State) (n : Nat) :
    s.Pagewise R (s.resupersede n) := by
  intro r
  rw [State.page?_resupersede]
  cases s.page? r with
  | none => exact .none
  | some p =>
    refine .some ?_
    dsimp only
    split
    · exact hR p _
    · exact hR p p.superseded

end State.Pagewise

end Sys2Proof.Machine
end

section
/-! PROOFS. Every step keeps each tile in exactly one place, and the store well formed (R44, R45, R52). -/

namespace Sys2Proof.Machine

open Sys2Proof (Byte Instr DramFault StoreSize CrcInit)

/-! ## A page record that keeps its tiles -/

/-- A change of a page record that moves no tile and leaves the record well formed. -/
structure PageRecord.KeepsTiles (p q : PageRecord) : Prop where
  tiles : ∀ y, q.tiles.count y = p.tiles.count y
  wf : p.Wf → q.Wf

namespace PageRecord.KeepsTiles

variable {p q r : PageRecord}

theorem refl (p : PageRecord) : p.KeepsTiles p := ⟨fun _ => rfl, id⟩

theorem trans (h : p.KeepsTiles q) (g : q.KeepsTiles r) : p.KeepsTiles r :=
  ⟨fun y => (g.tiles y).trans (h.tiles y), fun w => g.wf (h.wf w)⟩

/-- The layers stand, and the record is not opened. -/
theorem of_layers (hl : q.layers = p.layers) (ho : q.state = .opened → p.state = .opened) : p.KeepsTiles q where
  tiles y := by rw [PageRecord.count_tiles, PageRecord.count_tiles, hl]
  wf w := ⟨hl ▸ w.ids, hl ▸ w.maps, hl ▸ w.lengths, fun h => hl ▸ w.opened (ho h)⟩

end PageRecord.KeepsTiles

/-- The layer identities stand under a change that keeps each layer's. -/
theorem PageRecord.modifyLayer_ids (p : PageRecord) (id : LayerId) {f : LayerRecord → LayerRecord}
    (hid : ∀ l, (f l).id = l.id) : (p.modifyLayer id f).layers.map (·.id) = p.layers.map (·.id) := by
  simp only [PageRecord.modifyLayer, List.map_map]
  refine List.map_congr_left fun l _ => ?_
  dsimp only [Function.comp]
  split
  · exact hid l
  · rfl

/-- What holds of every layer record and of its change holds of every layer record after the change. -/
theorem PageRecord.forall_modifyLayer {p : PageRecord} {id : LayerId} {f : LayerRecord → LayerRecord}
    {P : LayerRecord → Prop} (h : ∀ l ∈ p.layers, P l) (hf : ∀ l ∈ p.layers, P l → P (f l)) :
    ∀ l ∈ (p.modifyLayer id f).layers, P l := by
  simp only [PageRecord.modifyLayer, List.mem_map]
  rintro _ ⟨l, hl, rfl⟩
  split
  · exact hf l hl (h l hl)
  · exact h l hl

/-- A change of a layer record that its page's form allows. -/
structure LayerRecord.Allowed (p : PageRecord) (f : LayerRecord → LayerRecord) : Prop where
  id : ∀ l, (f l).id = l.id
  map : ∀ l, (f l).tileMap.length = l.tileMap.length
  length : ∀ l, l.length.getD 0 ≤ 65536 → (f l).length.getD 0 ≤ 65536
  opened : p.state = .opened → ∀ l, l.state = .empty ∨ l.state = .filling → (f l).state = .empty ∨ (f l).state = .filling

theorem PageRecord.Wf.modifyLayer {p : PageRecord} (w : p.Wf) (id : LayerId) {f : LayerRecord → LayerRecord}
    (hf : LayerRecord.Allowed p f) : (p.modifyLayer id f).Wf where
  ids := by rw [p.modifyLayer_ids id hf.id]; exact w.ids
  maps := PageRecord.forall_modifyLayer w.maps fun l _ h => (hf.map l).trans h
  lengths := PageRecord.forall_modifyLayer w.lengths fun l _ => hf.length l
  opened h := PageRecord.forall_modifyLayer (w.opened h) fun l _ => hf.opened h l

/-- The layer's tile map stands. -/
theorem PageRecord.KeepsTiles.modifyLayer (p : PageRecord) (id : LayerId) {f : LayerRecord → LayerRecord}
    (hf : LayerRecord.Allowed p f) (hmap : ∀ l, (f l).tileMap = l.tileMap) : p.KeepsTiles (p.modifyLayer id f) where
  tiles y := by
    rw [PageRecord.count_tiles, PageRecord.count_tiles]
    refine congrArg List.sum ?_
    simp only [PageRecord.modifyLayer, List.map_map]
    refine List.map_congr_left fun l _ => ?_
    dsimp only [Function.comp]
    split
    · rw [hmap]
    · rfl
  wf w := w.modifyLayer id hf

/-- A derivation opens no page. -/
theorem PageRecord.derived_ne_opened (p : PageRecord) : p.derived ≠ .opened := by
  unfold PageRecord.derived
  split
  · simp
  · split <;> simp

theorem PageRecord.not_closed_of_opened {p : PageRecord} (h : p.state = .opened) : p.closed = false := by
  simp [PageRecord.closed, h]

theorem PageRecord.KeepsTiles.afterDerivation (p : PageRecord) : p.KeepsTiles p.afterDerivation := by
  unfold PageRecord.afterDerivation
  split
  · exact .of_layers rfl fun h => absurd h p.derived_ne_opened
  · exact .refl p

/-- A change of a layer's state alone, in a page that is not OPEN. -/
theorem LayerRecord.allowed_state {p : PageRecord} (h : p.state ≠ .opened) (new : LayerState) :
    LayerRecord.Allowed p fun l => { l with state := new } :=
  ⟨fun _ => rfl, fun _ => rfl, fun _ h => h, fun ho => absurd ho h⟩

theorem PageRecord.KeepsTiles.afterEvaluation (p : PageRecord) (id : LayerId) : p.KeepsTiles (p.afterEvaluation id) := by
  unfold PageRecord.afterEvaluation
  split
  · exact .refl p
  · split
    next h =>
      simp only [Bool.and_eq_true] at h
      exact .modifyLayer p id (LayerRecord.allowed_state (fun ho => by simp [PageRecord.not_closed_of_opened ho] at h) _)
        fun _ => rfl
    · exact .refl p

/-! ## The page table -/

/-- Every record of the page table keeps its tiles. -/
def State.KeepsTiles (s t : State) : Prop := s.Pagewise PageRecord.KeepsTiles t

namespace State.KeepsTiles

variable {s t u : State}

theorem of_pages (h : t.pages = s.pages) : s.KeepsTiles t := State.Pagewise.of_pages .refl h

theorem trans (h : s.KeepsTiles t) (g : t.KeepsTiles u) : s.KeepsTiles u := State.Pagewise.trans (·.trans ·) h g

/-- Only use counts change. -/
theorem of_uses (h : ∀ r, (t.page? r = none ↔ s.page? r = none) ∧
    ∀ p, s.page? r = some p → ∃ u, t.page? r = some { p with useCount := u }) : s.KeepsTiles t := by
  intro r
  obtain ⟨hnone, hsome⟩ := h r
  cases hp : s.page? r with
  | none => rw [hnone.mpr hp]; exact .none
  | some p =>
    obtain ⟨u, hu⟩ := hsome p hp
    rw [hu]
    exact .some (.of_layers rfl id)

theorem mapsAt (h : s.KeepsTiles t) (r y : Nat) : t.mapsAt r y = s.mapsAt r y := by
  have hr := h r
  unfold State.mapsAt
  generalize s.page? r = a at hr ⊢
  generalize t.page? r = b at hr ⊢
  cases hr with
  | none => rfl
  | some hp => exact hp.tiles y

theorem liveRecords (h : s.KeepsTiles t) (hs : s.liveRecords = []) : t.liveRecords = [] :=
  State.liveRecords_eq_nil.mpr fun r => State.Pagewise.none_of h (State.liveRecords_eq_nil.mp hs r)

theorem wf (h : s.KeepsTiles t) (hs : ∀ r p, s.page? r = some p → p.Wf) : ∀ r p, t.page? r = some p → p.Wf := by
  intro r q hq
  obtain ⟨p, hp, hk⟩ := State.Pagewise.some_of h hq
  exact hk.wf (hs r p hp)

theorem reresolve (s : State) (n : Nat) : s.KeepsTiles (s.reresolve n) := of_uses (s.page?_reresolve n)

theorem addUse (s : State) (x : Option Resolution) (up : Bool) : s.KeepsTiles (s.addUse x up) :=
  of_uses fun r => ⟨s.page?_addUse_none x up r, s.page?_addUse x up r⟩

theorem derivePage (s : State) (r : Nat) : s.KeepsTiles (s.derivePage r) :=
  State.Pagewise.derivePage .refl .afterDerivation s r

theorem evaluateLayer (s : State) (x : LayerRef) : s.KeepsTiles (s.evaluateLayer x) :=
  State.Pagewise.evaluateLayer .refl .afterEvaluation s x

theorem setPage {r : Nat} {p q : PageRecord} (hp : s.page? r = some p) (hk : p.KeepsTiles q) :
    s.KeepsTiles (s.setPage r (some q)) := State.Pagewise.setPage .refl hp hk

theorem modifyPage {r : Nat} {f : PageRecord → PageRecord} (hf : ∀ p, s.page? r = some p → p.KeepsTiles (f p)) :
    s.KeepsTiles (s.modifyPage r f) := State.Pagewise.modifyPage .refl hf

end State.KeepsTiles

/-! ## What the invariant reads -/

theorem nodup_of_rises {l : List Nat} (h : rises l = true) : l.Nodup := by
  induction l with
  | nil => exact List.nodup_nil
  | cons x xs ih =>
    obtain ⟨hxs, hx⟩ := rises_cons h
    exact List.nodup_cons.mpr ⟨fun hmem => Nat.lt_irrefl _ (hx x hmem), ih hxs⟩

/-- A rising list counts a number once or not at all. -/
theorem count_insertRising {l : List Nat} (h : rises l = true) (x y : Nat) :
    (insertRising x l).count y = if y = x then 1 else l.count y := by
  have hn := nodup_of_rises h
  have hn' := nodup_of_rises (rises_insertRising x l h)
  rw [hn.count, hn'.count]
  by_cases hy : y = x <;> simp [mem_insertRising, hy]

/-- The free pool depends on the tile count and the list behind it only. -/
theorem State.inPool_congr {s t : State} (hs : t.straps = s.straps) (hp : t.store.poolOut = s.store.poolOut) (y : Nat) :
    t.inPool y = s.inPool y := by
  rw [State.inPool, State.inPool, State.tileCount, State.tileCount, hs, hp]

namespace State.StoreWf

variable {s t : State}

/-- The invariant where no tile moves. -/
theorem keep (h : s.StoreWf) (hpages : s.KeepsTiles t)
    (hsegment : ∀ a i k acc, t.repair.engine = .reading a i k acc → i < 256)
    (hinlet : ∀ x ∈ t.intake.queue, x.lengthOk = true) (hdram : t.store.dram.wf = true)
    (hsame : (t.straps, t.store.poolOut, t.store.retired, t.store.sweep)
      = (s.straps, s.store.poolOut, s.store.retired, s.store.sweep)) : t.StoreWf := by
  simp only [Prod.mk.injEq] at hsame
  obtain ⟨hstraps, hpool, hretired, hsweep⟩ := hsame
  have htiles : t.tileCount = s.tileCount := by rw [State.tileCount, State.tileCount, hstraps]
  have hmapped : ∀ y, t.mapped.count y = s.mapped.count y := fun y =>
    State.count_mapped_congr fun r => hpages.mapsAt r y
  refine ⟨hpool ▸ h.pool, hretired ▸ h.retired, hdram, fun y hy => ?_, fun y hy => ?_, hpages.wf h.pages, hinlet,
    fun n hn => ?_, hsegment⟩
  · have hplaces : t.places y = s.places y := by
      rw [State.places, State.inPool_congr hstraps hpool, hretired, hmapped]
      rfl
    rw [hplaces]
    exact h.onePlace y (htiles ▸ hy)
  · obtain ⟨h1, h2, h3⟩ := h.noPlace y (htiles ▸ hy)
    refine ⟨hpool ▸ h1, hretired ▸ h2, fun hmem => h3 ?_⟩
    rw [← List.count_pos_iff, ← hmapped]
    exact List.count_pos_iff.mpr hmem
  · obtain ⟨hlt, hlive⟩ := h.sweep n (hsweep ▸ hn)
    exact ⟨htiles ▸ hlt, hpages.liveRecords hlive⟩

/-- The invariant where only use counts, states and the like change of the page table. -/
theorem keepPages (h : s.StoreWf) (hpages : s.KeepsTiles t)
    (hsame : (t.repair.engine, t.straps, t.intake.queue, t.store.poolOut, t.store.retired, t.store.dram, t.store.sweep)
      = (s.repair.engine, s.straps, s.intake.queue, s.store.poolOut, s.store.retired, s.store.dram, s.store.sweep)) :
    t.StoreWf := by
  simp only [Prod.mk.injEq] at hsame
  obtain ⟨hengine, hstraps, hinlet, hpool, hretired, hdram, hsweep⟩ := hsame
  exact h.keep hpages (hengine ▸ h.segment) (hinlet ▸ h.inlet) (hdram ▸ h.dram) (by simp [hstraps, hpool, hretired, hsweep])

/-- The invariant does not read what an operation changes. -/
theorem frame (h : s.StoreWf)
    (hsame : (t.pages, t.repair.engine, t.straps, t.intake.queue, t.store.poolOut, t.store.retired, t.store.dram,
        t.store.sweep)
      = (s.pages, s.repair.engine, s.straps, s.intake.queue, s.store.poolOut, s.store.retired, s.store.dram,
        s.store.sweep)) : t.StoreWf :=
  h.keepPages (.of_pages (Prod.mk.inj hsame).1) (Prod.mk.inj hsame).2

/-! ## A store write is issued (R10, R45) -/

end State.StoreWf

/-- Where a write goes into a layer record: the tile of its tile-map slot, or the lowest free one, which leaves the
pool. -/
structure State.Allocates (s u : State) (l : LayerRecord) (k tile : Nat) : Prop where
  mapped : l.tileAt k ≠ none → u.store.poolOut = s.store.poolOut
  free : l.tileAt k = none → s.lowestFree = some tile ∧ u.store.poolOut = insertRising tile s.store.poolOut

/-- A layer record that a write has been issued into maps the tile it went into. -/
theorem LayerRecord.count_issued {l : LayerRecord} {item : Item} (hk : item.mapSlot < l.tileMap.length)
    (tile n : Nat) (pageOpen : Bool) (y : Nat) :
    (l.issued item tile n pageOpen).tileMap.count (some y)
      = l.tileMap.count (some y) + (if l.tileAt item.mapSlot = none ∧ y = tile then 1 else 0) := by
  unfold LayerRecord.issued
  dsimp only
  cases hat : l.tileAt item.mapSlot with
  | some x => simp
  | none =>
    have hset := LayerRecord.count_setSlot hk (some tile) y
    rw [hat] at hset
    simpa [eq_comm (a := tile)] using hset

theorem LayerRecord.allowed_issued (p : PageRecord) (item : Item) (tile : Nat) {n : Nat} (hn : n ≤ 65536) :
    LayerRecord.Allowed p fun l => l.issued item tile n (p.state == .opened) where
  id _ := rfl
  map l := by
    unfold LayerRecord.issued
    dsimp only
    split <;> simp
  length l hl := by
    show l.length.getD n ≤ 65536
    cases hlen : l.length with
    | none => exact hn
    | some m => simpa [hlen] using hl
  opened ho l hl := by
    unfold LayerRecord.issued
    dsimp only
    split
    · exact .inr rfl
    · exact hl

/-- The page record after the issue of a write into one of its layers (R10), ahead of the derivation. -/
def PageRecord.issued (p : PageRecord) (w : StoreWrite) (n : Nat) : PageRecord :=
  { (p.modifyLayer w.target.layer fun l => l.issued w.item w.tile n (p.state == .opened)) with
    pendingWrites := p.pendingWrites + 1 }

theorem State.page?_noteIssue (s : State) (w : StoreWrite) (n r : Nat) :
    (s.noteIssue w n).page? r
      = if r = w.target.record then (s.page? r).map fun p => (p.issued w n).afterDerivation else s.page? r := by
  unfold State.noteIssue
  rw [State.page?_derivePage]
  split
  next h =>
    rw [State.page?_modifyPage, if_pos rfl, h, Option.map_map]
    rfl
  next h => rw [State.page?_modifyPage, if_neg h]

namespace State.StoreWf

variable {s t : State}

/-- Where a write goes, and what of the free pool is left. -/
theorem inPool_allocated {u : State} (h : s.StoreWf) {l : LayerRecord} {k tile : Nat} (ha : s.Allocates u l k tile)
    (hstraps : u.straps = s.straps) (y : Nat) :
    u.inPool y = (s.inPool y && !(l.tileAt k == none && y == tile)) ∧
      (l.tileAt k = none → s.inPool tile = true) ∧ rises u.store.poolOut = true := by
  have htiles : u.tileCount = s.tileCount := by rw [State.tileCount, State.tileCount, hstraps]
  cases hat : l.tileAt k with
  | some x =>
    have hpool := ha.mapped (by simp [hat])
    exact ⟨by simp [State.inPool, htiles, hpool], fun hn => by simp at hn, hpool ▸ h.pool⟩
  | none =>
    obtain ⟨hfree, hpool⟩ := ha.free hat
    refine ⟨?_, fun _ => ((State.lowestFree_iff h.pool tile).mp hfree).1, hpool ▸ rises_insertRising _ _ h.pool⟩
    rw [State.inPool, State.inPool, htiles, hpool, Bool.eq_iff_iff]
    simp [mem_insertRising]
    tauto

/-- The issue of a write moves at most the tile it allocates, from the pool to its tile-map slot. -/
theorem noteIssue {u : State} (h : s.StoreWf) {w : StoreWrite} {n : Nat} {p : PageRecord} {l : LayerRecord}
    (hp : s.page? w.target.record = some p) (hl : p.layer? w.target.layer = some l) (hk : w.item.mapSlot < 17)
    (hn : n ≤ 65536) (halloc : s.Allocates u l w.item.mapSlot w.tile)
    (hsegment : ∀ a i k acc, u.repair.engine = .reading a i k acc → i < 256)
    (hsame : (u.pages, u.straps, u.intake.queue, u.store.retired, u.store.dram, u.store.sweep)
      = (s.pages, s.straps, s.intake.queue, s.store.retired, s.store.dram, s.store.sweep)) :
    (u.noteIssue w n).StoreWf := by
  simp only [Prod.mk.injEq] at hsame
  obtain ⟨hpages, hstraps, hinlet, hretired, hdram, hsweep⟩ := hsame
  have hwf := h.pages _ _ hp
  have htiles : (u.noteIssue w n).tileCount = s.tileCount := by simp [State.tileCount, hstraps]
  have hpage : ∀ r, (u.noteIssue w n).page? r = if r = w.target.record
      then some ((p.issued w n).afterDerivation) else s.page? r := fun r => by
    rw [State.page?_noteIssue, State.page?_congr hpages]
    split
    next heq => rw [heq, hp]; rfl
    · rfl
  have hnew : (u.noteIssue w n).page? w.target.record = some ((p.issued w n).afterDerivation) := by
    rw [hpage, if_pos rfl]
  have hmap : l.tileMap.length = 17 := hwf.maps l (PageRecord.layer?_id hl).2
  have hrecord : ∀ y, ((p.issued w n).afterDerivation).tiles.count y
      = p.tiles.count y + (if l.tileAt w.item.mapSlot = none ∧ y = w.tile then 1 else 0) := fun y => by
    have hmodify := tileCountIn_modify hwf.ids hl (fun l => l.issued w.item w.tile n (p.state == .opened)) y
    rw [LayerRecord.count_issued (by omega)] at hmodify
    have hlayers : ((p.issued w n).afterDerivation).tiles.count y = _ :=
      (PageRecord.KeepsTiles.afterDerivation (p.issued w n)).tiles y
    rw [hlayers, PageRecord.count_tiles, PageRecord.count_tiles]
    unfold PageRecord.issued PageRecord.modifyLayer
    dsimp only
    omega
  have hmapped : ∀ y, (u.noteIssue w n).mapped.count y
      = s.mapped.count y + (if l.tileAt w.item.mapSlot = none ∧ y = w.tile then 1 else 0) := fun y => by
    have hchange := State.count_mapped_change (s := s) (t := u.noteIssue w n) (r := w.target.record) (y := y)
      fun r' hr' => by rw [State.mapsAt, State.mapsAt, hpage, if_neg hr']
    rw [State.mapsAt_of_live hp, State.mapsAt_of_live hnew, hrecord] at hchange
    omega
  have hin : ∀ y, (u.noteIssue w n).inPool y = u.inPool y := State.inPool_congr (by simp) (by simp)
  have hlive : ∀ m, s.store.sweep = some m → False := fun m hm => by
    have hnone := (State.liveRecords_eq_nil.mp (h.sweep m hm).2) w.target.record
    simp [hp] at hnone
  refine ⟨?_, ?_, ?_, fun y hy => ?_, fun y hy => ?_, fun r q hq => ?_, ?_, fun m hm => ?_, ?_⟩
  · simpa using (h.inPool_allocated halloc hstraps 0).2.2
  · simpa [hretired] using h.retired
  · simpa [hdram] using h.dram
  · rw [htiles] at hy
    obtain ⟨hpool, hfree, -⟩ := h.inPool_allocated halloc hstraps y
    have hplaces := h.onePlace y hy
    have hret : (u.noteIssue w n).store.retired = s.store.retired := by simp [hretired]
    unfold State.places at hplaces ⊢
    rw [hin, hmapped, hret, hpool]
    by_cases hb : l.tileAt w.item.mapSlot = none ∧ y = w.tile
    · obtain ⟨hnone, rfl⟩ := hb
      simp only [hnone, hfree hnone] at hplaces ⊢
      simp at hplaces ⊢
      omega
    · rw [if_neg hb]
      have hb' : (l.tileAt w.item.mapSlot == none && y == w.tile) = false := by simpa using hb
      rw [hb', Bool.not_false, Bool.and_true]
      exact hplaces
  · rw [htiles] at hy
    obtain ⟨hpool, hret, hmem⟩ := h.noPlace y hy
    have hne : ¬ (l.tileAt w.item.mapSlot = none ∧ y = w.tile) := by
      rintro ⟨hnone, rfl⟩
      have hfree := (h.inPool_allocated halloc hstraps 0).2.1 hnone
      simp only [State.inPool, Bool.and_eq_true, decide_eq_true_eq] at hfree
      omega
    refine ⟨?_, by simpa [hretired] using hret, ?_⟩
    · have hstore : (u.noteIssue w n).store.poolOut = u.store.poolOut := by simp
      rw [hstore]
      by_cases hat : l.tileAt w.item.mapSlot = none
      · rw [(halloc.free hat).2, mem_insertRising]
        exact fun hy => hy.elim (fun heq => hne ⟨hat, heq⟩) hpool
      · rw [halloc.mapped hat]
        exact hpool
    · rw [← List.count_pos_iff, hmapped, if_neg hne, Nat.add_zero, List.count_pos_iff]
      exact hmem
  · rw [hpage] at hq
    split at hq
    · cases hq
      refine (PageRecord.KeepsTiles.afterDerivation _).wf ?_
      have hissued := hwf.modifyLayer w.target.layer (LayerRecord.allowed_issued p w.item w.tile hn)
      exact ⟨hissued.ids, hissued.maps, hissued.lengths, hissued.opened⟩
    · exact h.pages r q hq
  · simpa [hinlet] using h.inlet
  · exact absurd (by simpa [hsweep] using hm) (hlive m)
  · simpa using hsegment

/-! ## A record is freed (R11, R17) -/

theorem freeRecord (h : s.StoreWf) {r : Nat} {p : PageRecord} (hp : s.page? r = some p) :
    (s.freeRecord r p).StoreWf := by
  have hpage : ∀ r', (s.freeRecord r p).page? r' = if r' = r then none else s.page? r' := fun r' =>
    State.page?_setPage_of_live (s := s.giveToPool p.tiles) hp none r'
  have hmapped : ∀ y, (s.freeRecord r p).mapped.count y + p.tiles.count y = s.mapped.count y := fun y => by
    have hchange := State.count_mapped_change (s := s) (t := s.freeRecord r p) (r := r) (y := y)
      fun r' hr' => by rw [State.mapsAt, State.mapsAt, hpage, if_neg hr']
    rw [State.mapsAt_of_live hp, State.mapsAt_of_none (by rw [hpage, if_pos rfl])] at hchange
    omega
  have htiles : (s.freeRecord r p).tileCount = s.tileCount := rfl
  have hpool : (s.freeRecord r p).store.poolOut = s.store.poolOut.filter fun y => !(p.tiles.contains y) := rfl
  have hin : ∀ y, y < s.tileCount → ((s.freeRecord r p).inPool y = true ↔ s.inPool y = true ∨ y ∈ p.tiles) := fun y hy => by
    simp only [State.inPool, hpool, htiles, hy, decide_true, Bool.true_and, Bool.not_eq_true',
      ← Bool.not_eq_true, List.contains_eq_mem, decide_eq_true_eq, List.mem_filter]
    tauto
  refine ⟨hpool ▸ rises_filter _ _ h.pool, h.retired, h.dram, fun y hy => ?_, fun y hy => ?_, fun r' q hq => ?_, h.inlet,
    fun n hn => ?_, h.segment⟩
  · have hplaces := h.onePlace y hy
    have hcount := hmapped y
    have hpos : y ∈ p.tiles ↔ 0 < p.tiles.count y := List.count_pos_iff.symm
    have hiff := hin y hy
    unfold State.places at hplaces ⊢
    by_cases hmem : y ∈ p.tiles
    · rw [if_pos (hiff.mpr (.inr hmem))]
      have := hpos.mp hmem
      split at hplaces <;> simp only [show (s.freeRecord r p).store.retired = s.store.retired from rfl] <;> omega
    · have hzero : p.tiles.count y = 0 := List.count_eq_zero.mpr hmem
      have hsame : (if (s.freeRecord r p).inPool y = true then 1 else 0) = if s.inPool y = true then 1 else 0 :=
        if_congr (hiff.trans (or_iff_left hmem)) rfl rfl
      rw [hsame]
      simp only [show (s.freeRecord r p).store.retired = s.store.retired from rfl]
      omega
  · obtain ⟨h1, h2, h3⟩ := h.noPlace y hy
    refine ⟨fun hmem => h1 (List.mem_of_mem_filter hmem), h2, fun hmem => h3 ?_⟩
    rw [← List.count_pos_iff] at hmem ⊢
    have := hmapped y
    omega
  · rw [hpage] at hq
    split at hq
    · cases hq
    · exact h.pages r' q hq
  · exact absurd ((State.liveRecords_eq_nil.mp (h.sweep n hn).2) r) (by simp [hp])

/-! ## A tile is retired (R51, R57) -/

/-- A tile joins the retired set, out of the pool and out of every tile map. -/
theorem retire (h : s.StoreWf) {tile : Nat} (htile : tile < s.tileCount)
    (hmapped : ∀ y, t.mapped.count y = if y = tile then 0 else s.mapped.count y)
    (hpages : ∀ r p, t.page? r = some p → p.Wf)
    (hpool : t.store.poolOut = insertRising tile s.store.poolOut)
    (hretired : t.store.retired = insertRising tile s.store.retired) (hdram : t.store.dram.wf = true)
    (hsweep : ∀ n, t.store.sweep = some n → n < t.tileCount ∧ t.liveRecords = [])
    (hsame : (t.straps, t.intake.queue, t.repair.engine) = (s.straps, s.intake.queue, s.repair.engine)) : t.StoreWf := by
  simp only [Prod.mk.injEq] at hsame
  obtain ⟨hstraps, hinlet, hengine⟩ := hsame
  have htiles : t.tileCount = s.tileCount := by rw [State.tileCount, State.tileCount, hstraps]
  have hin : ∀ y, t.inPool y = (s.inPool y && !(y == tile)) := fun y => by
    rw [State.inPool, State.inPool, htiles, hpool, Bool.eq_iff_iff]
    simp [mem_insertRising]
    tauto
  refine ⟨hpool ▸ rises_insertRising _ _ h.pool, hretired ▸ rises_insertRising _ _ h.retired, hdram, fun y hy => ?_,
    fun y hy => ?_, hpages, hinlet ▸ h.inlet, hsweep, hengine ▸ h.segment⟩
  · rw [htiles] at hy
    have hplaces := h.onePlace y hy
    unfold State.places at hplaces ⊢
    rw [hin, hretired, hmapped, count_insertRising h.retired]
    by_cases hyt : y = tile
    · simp [hyt]
    · simpa [hyt] using hplaces
  · rw [htiles] at hy
    obtain ⟨h1, h2, h3⟩ := h.noPlace y hy
    have hne : y ≠ tile := by omega
    refine ⟨by simp [hpool, mem_insertRising, hne, h1], by simp [hretired, mem_insertRising, hne, h2], ?_⟩
    rw [← List.count_pos_iff, hmapped, if_neg hne, List.count_pos_iff]
    exact h3

end State.StoreWf

/-- With distinct layers, a layer record is the one of its identity. -/
theorem PageRecord.layer?_of_mem {p : PageRecord} (hn : (p.layers.map (·.id)).Nodup) {l : LayerRecord} (hl : l ∈ p.layers) :
    p.layer? l.id = some l := by
  cases hx : p.layer? l.id with
  | none =>
    have := List.find?_eq_none.mp hx l hl
    simp at this
  | some x =>
    obtain ⟨hid, hmem⟩ := PageRecord.layer?_id hx
    rw [List.inj_on_of_nodup_map hn hmem hl hid]

/-- The place a mapped tile stands in is a tile-map slot of a live record's layer that holds it. -/
theorem State.placeOf_some {s : State} {tile : Nat} {x : LayerRef} {k : Nat} (hw : ∀ r p, s.page? r = some p → p.Wf)
    (h : s.placeOf tile = some (x, k)) :
    ∃ p l, s.page? x.record = some p ∧ p.layer? x.layer = some l ∧ k < l.tileMap.length ∧ l.tileAt k = some tile := by
  obtain ⟨⟨r, p⟩, hp, hlayer⟩ := List.exists_of_findSome?_eq_some h
  obtain ⟨l, hl, hslot⟩ := List.exists_of_findSome?_eq_some hlayer
  obtain ⟨j, hj, heq⟩ := Option.map_eq_some_iff.mp hslot
  cases heq
  obtain ⟨hlt, hat, -⟩ := List.findIdx?_eq_some_iff_getElem.mp hj
  have hp' := (State.mem_liveRecords s r p).mp hp
  exact ⟨p, l, hp', PageRecord.layer?_of_mem (hw r p hp').ids hl, hlt, by
    rw [LayerRecord.tileAt_eq hlt]
    simpa using hat⟩

theorem State.not_mem_mapped_of_placeOf {s : State} {tile : Nat} (h : s.placeOf tile = none) : tile ∉ s.mapped := by
  intro hmem
  obtain ⟨⟨r, p⟩, hp, htiles⟩ := List.mem_flatMap.mp hmem
  obtain ⟨l, hl, hslot⟩ := List.mem_flatMap.mp htiles
  obtain ⟨o, ho, rfl⟩ := List.mem_filterMap.mp hslot
  have hlayer := List.findSome?_eq_none_iff.mp (List.findSome?_eq_none_iff.mp h _ hp) l hl
  simp only [Option.map_eq_none_iff, List.findIdx?_eq_none_iff] at hlayer
  have := hlayer _ ho
  simp at this

/-- A reading that is in hand after an operation was in hand before it. -/
def State.ReadsOn (s t : State) : Prop :=
  ∀ a i k acc, t.repair.engine = .reading a i k acc → s.repair.engine = .reading a i k acc

theorem State.readsOn_leaveRepair (s : State) (x : LayerRef) : s.ReadsOn (s.leaveRepair x) := by
  intro a i k acc h
  unfold State.leaveRepair at h
  split at h
  next t' _ _ _ heq =>
    split at h
    · simp [State.abandonRepair] at h
    · exact h
  all_goals exact h

theorem State.readsOn_joinRepair (s : State) (x : LayerRef) : s.ReadsOn (s.joinRepair x) := by
  intro a i k acc h
  unfold State.joinRepair at h
  split at h
  · exact h
  · exact h

theorem State.readsOn_evaluateLayer (s : State) (x : LayerRef) : s.ReadsOn (s.evaluateLayer x) := by
  intro a i k acc h
  unfold State.evaluateLayer State.setLayerState at h
  split at h
  · exact h
  split at h
  · exact h
  split at h
  · dsimp only at h
    split at h
    · simpa using State.readsOn_joinRepair _ _ a i k acc h
    · split at h
      · simpa using State.readsOn_leaveRepair _ _ a i k acc h
      · simpa using h
  · exact h

/-- The state with a tile in the retired set and out of the pool (R51, step 1), still in the place it stood in. -/
def State.withRetired (s : State) (tile : Nat) : State := { s with store := { s.store with
  retired := insertRising tile s.store.retired, poolOut := insertRising tile s.store.poolOut } }

theorem State.retireTile_eq (s : State) (tile : Nat) : s.retireTile tile =
    (fun s2 : State => if s2.degradedThreshold ≤ s2.retiredCount then s2.latch .storeDegraded else s2)
      (((s.withRetired tile).leavePlace tile).latch .tileRetired) := rfl

/-- The retirement of a layer's tile keeps the form of its page. -/
theorem LayerRecord.allowed_afterRetirement (p : PageRecord) (k : Nat) :
    LayerRecord.Allowed p fun l => l.afterRetirement k :=
  ⟨fun _ => rfl, fun _ => by simp [LayerRecord.afterRetirement], fun _ h => h, fun _ _ h => h⟩

namespace State.StoreWf

variable {s t : State}

theorem derivePage (h : s.StoreWf) (r : Nat) : (s.derivePage r).StoreWf :=
  h.keepPages (.derivePage s r) (by simp)
theorem reresolve (h : s.StoreWf) (n : Nat) : (s.reresolve n).StoreWf :=
  h.keepPages (.reresolve s n) (by simp)
theorem addUse (h : s.StoreWf) (x : Option Resolution) (up : Bool) : (s.addUse x up).StoreWf :=
  h.keepPages (.addUse s x up) (by simp)

theorem evaluateLayer (h : s.StoreWf) (x : LayerRef) : (s.evaluateLayer x).StoreWf :=
  h.keep (.evaluateLayer s x) (fun a i k acc he => h.segment a i k acc (s.readsOn_evaluateLayer x a i k acc he))
    (by simpa using h.inlet) (by simpa using h.dram) (by simp)

theorem evaluationEvent (h : s.StoreWf) (x : LayerRef) : (s.evaluationEvent x).StoreWf :=
  (h.evaluateLayer x).derivePage _

theorem evalFlag (h : s.StoreWf) : s.evalFlag.StoreWf := h.frame (by simp)
theorem latch (h : s.StoreWf) (a : Alarm) : (s.latch a).StoreWf := h.frame (by simp)

/-- A retired tile that was mapped is out of its tile map. -/
theorem retireMapped (h : s.StoreWf) {tile : Nat} (htile : tile < s.tileCount) {x : LayerRef} {k : Nat}
    (hx : (s.withRetired tile).placeOf tile = some (x, k)) :
    ((s.withRetired tile).modifyPage x.record fun p => p.modifyLayer x.layer fun l => l.afterRetirement k).StoreWf := by
  obtain ⟨p, l, hp, hl, hk, hat⟩ := State.placeOf_some (s := s.withRetired tile) h.pages hx
  have hwf := h.pages _ _ hp
  have hnew := State.page?_modifyPage (s.withRetired tile) x.record
  generalize ht : (s.withRetired tile).modifyPage x.record (fun p => p.modifyLayer x.layer fun l => l.afterRetirement k) = t
  have hpage : ∀ r, t.page? r = if r = x.record then some (p.modifyLayer x.layer fun l => l.afterRetirement k)
      else s.page? r := fun r => by
    rw [← ht, hnew, hp]
    rfl
  have hrecord : ∀ y, (p.modifyLayer x.layer fun l => l.afterRetirement k).tiles.count y + (if y = tile then 1 else 0)
      = p.tiles.count y := fun y => by
    have hmodify := tileCountIn_modify hwf.ids hl (fun l => l.afterRetirement k) y
    have hslot := LayerRecord.count_setSlot hk none y
    rw [hat] at hslot
    simp only [Option.some.injEq, reduceCtorEq, if_false, eq_comm (a := tile)] at hslot
    rw [PageRecord.count_tiles, PageRecord.count_tiles]
    unfold PageRecord.modifyLayer LayerRecord.afterRetirement at *
    dsimp only at *
    omega
  have hmapped : ∀ y, t.mapped.count y + (if y = tile then 1 else 0) = s.mapped.count y := fun y => by
    have hchange := State.count_mapped_change (s := s) (t := t) (r := x.record) (y := y)
      fun r' hr' => by rw [State.mapsAt, State.mapsAt, hpage, if_neg hr']
    rw [State.mapsAt_of_live (s := s) hp, State.mapsAt_of_live (by rw [hpage, if_pos rfl])] at hchange
    have := hrecord y
    omega
  refine h.retire htile (fun y => ?_) (fun r q hq => ?_) (by simp [← ht, State.withRetired])
    (by simp [← ht, State.withRetired]) (by simpa [← ht, State.withRetired] using h.dram) (fun n hn => ?_)
    (by simp [← ht, State.withRetired])
  · have hplaces := h.onePlace tile htile
    have hcount := hmapped y
    unfold State.places at hplaces
    split
    next heq =>
      subst heq
      simp only [if_true] at hcount
      omega
    next hne => simpa [hne] using hcount
  · rw [hpage] at hq
    split at hq
    · cases hq
      exact hwf.modifyLayer x.layer (LayerRecord.allowed_afterRetirement p k)
    · exact h.pages r q hq
  · have hsweep : s.store.sweep = some n := by simpa [← ht, State.withRetired] using hn
    exact absurd (State.liveRecords_eq_nil.mp (h.sweep n hsweep).2 x.record) (by
      rw [show s.page? x.record = some p from hp]
      simp)

/-- The retired tile, out of the place it stood in. -/
theorem retireTile (h : s.StoreWf) {tile : Nat} (htile : tile < s.tileCount) : (s.retireTile tile).StoreWf := by
  have hplace : ((s.withRetired tile).leavePlace tile).StoreWf := by
    unfold State.leavePlace
    split
    next hx => exact (h.retireMapped htile hx).evaluationEvent _
    next hx =>
      have hmem : tile ∉ s.mapped := State.not_mem_mapped_of_placeOf hx
      refine evalFlag (h.retire htile (fun y => ?_) h.pages rfl rfl h.dram h.sweep rfl)
      by_cases heq : y = tile
      · rw [if_pos heq, heq]
        exact List.count_eq_zero.mpr hmem
      · rw [if_neg heq]
        rfl
  rw [State.retireTile_eq]
  dsimp only
  split
  · exact (hplace.latch _).latch _
  · exact hplace.latch _

end State.StoreWf

/-! ## The schedule and the drive move use counts only -/

/-- The state with a plate ended short, ahead of what the drive enters. -/
def State.plateEnded (s : State) (outcome : PlateOutcome) : State :=
  match s.drive.plate with
  | none => s.dropPlate
  | some pl => s.dropPlate.endTicket pl outcome

theorem State.endShort_eq (s : State) (outcome : PlateOutcome) : s.endShort outcome =
    if outcome = .spoiled .halted then
      { s.plateEnded outcome with drive := { (s.plateEnded outcome).drive with state := .halted, selected := none } }
    else (s.plateEnded outcome).enterUnloading := rfl

namespace State.KeepsTiles

variable {s t : State}

theorem removeTicket (s : State) (x : Ticket) : s.KeepsTiles (s.removeTicket x) :=
  let u : State := { s with schedule := s.schedule.filter fun y => !(y.tag == x.tag) }
  ((of_pages (t := u) rfl).trans (.addUse u x.leftRes false)).trans (.addUse (u.addUse x.leftRes false) x.rightRes false)

theorem endTicket (s : State) (pl : Plate) (o : PlateOutcome) : s.KeepsTiles (s.endTicket pl o) := by
  unfold State.endTicket
  split
  · exact .of_pages rfl
  next x _ => exact (State.KeepsTiles.removeTicket s x).trans (.of_pages (by simp))

theorem endShort (s : State) (o : PlateOutcome) : s.KeepsTiles (s.endShort o) := by
  have hended : s.KeepsTiles (s.plateEnded o) := by
    unfold State.plateEnded
    split
    · exact .of_pages (by simp)
    · exact (of_pages (by simp)).trans (.endTicket s.dropPlate _ _)
  rw [State.endShort_eq]
  split
  · exact hended.trans (.of_pages rfl)
  · exact hended.trans (.of_pages (by simp))

theorem endDone (s : State) (pl : Plate) : s.KeepsTiles (s.endDone pl) :=
  let u : State := { s.dropPlate with drive := { s.dropPlate.drive with plateEnd := true } }
  ((of_pages (t := u) rfl).trans (.endTicket u pl .done)).trans (.of_pages (by simp [State.endDone, u]))

theorem haltRequest (s : State) : s.KeepsTiles s.haltRequest := by
  unfold State.haltRequest
  dsimp only
  split
  · exact (of_pages (by simp)).trans (.endShort (s.latch .headHalt) _)
  · exact .of_pages (by simp)

theorem haltSample (s : State) (high : Bool) : s.KeepsTiles (s.haltSample high) := by
  unfold State.haltSample
  dsimp only
  split
  · split
    · exact .of_pages rfl
    split
    · exact (of_pages (by simp)).trans (.haltRequest _)
    · exact .of_pages rfl
  · split
    · exact .of_pages rfl
    split
    · exact (of_pages (by rfl)).trans (.haltRequest _)
    · exact .of_pages rfl

theorem plateReadyFall (s : State) : s.KeepsTiles s.plateReadyFall := by
  unfold State.plateReadyFall
  split
  · dsimp only
    split
    · exact (of_pages (by rfl)).trans (.endShort _ _)
    · exact (of_pages (by rfl)).trans (.endShort _ _)
    · exact .of_pages (by simp)
    all_goals exact .of_pages rfl
  · exact .of_pages rfl

theorem requestLine (s : State) (pl : Plate) : s.KeepsTiles (s.requestLine pl) := by
  unfold State.requestLine
  split
  · exact .endShort s _
  split
  · exact .of_pages (by simp)
  · exact .endShort s _

theorem lineReq (s : State) : s.KeepsTiles s.lineReq := by
  unfold State.lineReq
  split
  · exact .of_pages (by simp)
  · split
    · exact .of_pages rfl
    · exact .requestLine s _
  all_goals exact .of_pages rfl

theorem completeTransfer (s : State) : s.KeepsTiles s.completeTransfer := by
  unfold State.completeTransfer
  split
  · exact .of_pages rfl
  split
  · exact .of_pages rfl
  · exact .endDone s _

theorem stallExpiry (s : State) : s.KeepsTiles s.stallExpiry := by
  unfold State.stallExpiry
  split
  · exact .endShort s _
  · exact .of_pages rfl

theorem withdrawTicket (s : State) (d : Directive) : s.KeepsTiles (s.withdrawTicket d) := by
  unfold State.withdrawTicket
  split
  · exact .of_pages (by simp)
  split
  · exact (of_pages (by simp)).trans (.endShort (s.accept _ _) _)
  · rename_i x _ _
    exact (State.KeepsTiles.removeTicket s x).trans (.of_pages (by simp))

theorem postTicket (s : State) (d : Directive) : s.KeepsTiles (s.postTicket d) := by
  unfold State.postTicket
  dsimp only
  split
  · exact .of_pages (by simp)
  split
  · exact .of_pages (by simp)
  split
  · exact .of_pages (by simp)
  split
  · exact .of_pages (by simp)
  next ink _ _ _ _ =>
    let x := s.readyTicket ((ticketArgs d.payload).ticket ink)
    exact ((State.KeepsTiles.addUse s x.leftRes true).trans (.addUse _ x.rightRes true)).trans
      (.of_pages (by simp [State.enterTicket, x]))

theorem resupersede (s : State) (n : Nat) : s.KeepsTiles (s.resupersede n) :=
  State.Pagewise.resupersede (fun _ _ => .of_layers rfl id) s n

theorem abortSchedule (s : State) : s.KeepsTiles s.abortSchedule := by
  refine trans (t := { s.dropPlate with
    schedule := [], pages := s.pages.map fun p => p.map fun p => { p with useCount := 0 } }) (fun r => ?_)
    (.of_pages (by simp [State.abortSchedule]))
  simp only [State.page?, List.getD_eq_getElem?_getD, List.getElem?_map]
  cases s.pages[r]? with
  | none => exact .none
  | some o =>
    cases o with
    | none => exact .none
    | some p => exact .some (.of_layers rfl id)

end State.KeepsTiles

namespace State.StoreWf

variable {s t : State}

/-! ## The requests of the store -/

theorem readsOn_serve (n : Nat) : ∀ s : State, s.ReadsOn (State.serve n s) := by
  induction n with
  | zero => exact fun s a i k acc h => h
  | succ n ih =>
    intro s a i k acc h
    unfold State.serve at h
    split at h
    · exact h
    · split at h <;> exact h
    · split at h
      · exact h
      split at h
      · have hrest := ih _ a i k acc h
        unfold State.deliverFailure at hrest
        split at hrest
        · simp [State.repairFailed] at hrest
        · simpa using hrest
      · exact h

theorem arbitrate (h : s.StoreWf) : s.arbitrate.StoreWf := by
  refine h.keep (.of_pages (by simp)) (fun a i k acc he => ?_) (by simpa using h.inlet) (by simpa using h.dram)
    (by simp)
  unfold State.arbitrate at he
  split at he
  · exact h.segment a i k acc he
  · exact h.segment a i k acc (readsOn_serve _ s a i k acc he)

/-- The engine may only have left its reading. -/
theorem withEngine (h : s.StoreWf) (hpages : s.KeepsTiles t) (hreads : s.ReadsOn t)
    (hsame : (t.straps, t.intake.queue, t.store.poolOut, t.store.retired, t.store.dram, t.store.sweep)
      = (s.straps, s.intake.queue, s.store.poolOut, s.store.retired, s.store.dram, s.store.sweep)) : t.StoreWf := by
  simp only [Prod.mk.injEq] at hsame
  obtain ⟨hstraps, hinlet, hpool, hretired, hdram, hsweep⟩ := hsame
  exact h.keep hpages (fun a i k acc he => h.segment a i k acc (hreads a i k acc he)) (hinlet ▸ h.inlet) (hdram ▸ h.dram)
    (by simp [hstraps, hpool, hretired, hsweep])

/-- Repair is not reading. -/
theorem notReading (h : s.StoreWf) {e : RepairEngine} (he : e.target? = none ∨ ∃ a i, e = .writing a i) :
    State.StoreWf { s with repair := { s.repair with engine := e } } := by
  refine h.withEngine (.of_pages rfl) (fun a i k acc hr => ?_) rfl
  obtain rfl : e = _ := hr
  rcases he with he | ⟨_, _, he⟩ <;> cases he

theorem repairFailed (h : s.StoreWf) : s.repairFailed.StoreWf := h.notReading (.inl rfl)

theorem deliverFailure (h : s.StoreWf) (r : StoreRead) : (s.deliverFailure r).StoreWf := by
  unfold State.deliverFailure
  split
  · exact h.repairFailed
  · exact h.frame (by simp)

end State.StoreWf

end Sys2Proof.Machine
end

section
/-! PROOFS. Every step keeps the store well formed: the requests of the store, Intake, the resets and the page directives. -/

namespace Sys2Proof.Machine

open Sys2Proof (Byte Instr DramFault StoreSize CrcInit)

theorem LayerRecord.missing_lt {l : LayerRecord} (h : l.length.getD 0 ≤ 65536) : l.missing.headD 0 < 256 := by
  have hsegments : l.segments ≤ 256 := by
    unfold LayerRecord.segments
    cases hl : l.length with
    | none => simp
    | some n =>
      simp only [hl, Option.getD_some] at h
      simp only [segmentCount, ceilDiv]
      omega
  cases hm : l.missing with
  | nil => simp
  | cons i rest =>
    have hi : i ∈ l.missing := by simp [hm]
    simp only [LayerRecord.missing, List.mem_filter, List.mem_range] at hi
    simp only [List.headD_cons]
    omega

theorem State.layer?_some {s : State} {x : LayerRef} {l : LayerRecord} (h : s.layer? x = some l) :
    ∃ p, s.page? x.record = some p ∧ p.layer? x.layer = some l := by
  simpa [State.layer?, Option.bind_eq_some_iff] using h

namespace State.StoreWf

variable {s t : State}

/-! ## Reconstruction (R68 to R72) -/

theorem layer_length (h : s.StoreWf) {x : LayerRef} {l : LayerRecord} (hl : s.layer? x = some l) :
    l.length.getD 0 ≤ 65536 := by
  obtain ⟨p, hp, hlayer⟩ := State.layer?_some hl
  exact (h.pages _ _ hp).lengths l (PageRecord.layer?_id hlayer).2

theorem beginRepair (h : s.StoreWf) : s.beginRepair.StoreWf := by
  unfold State.beginRepair
  split
  · exact h
  · dsimp only
    split
    · exact h.frame (by simp)
    next l hl =>
      refine h.keep (.of_pages rfl) (fun a i k acc he => ?_) h.inlet h.dram rfl
      cases he
      exact LayerRecord.missing_lt (h.layer_length hl)

/-- The reconstruction write is issued into the tile of its tile-map slot, or into one that has left the pool for it. -/
theorem issueReconstruction {u : State} (h : s.StoreWf) {x : LayerRef} {l : LayerRecord} (hl : s.layer? x = some l)
    {i tile : Nat} (hi : i < 256) (acc : List Byte) (ha : s.Allocates u l (i / 16) tile)
    (hu : u = { s with store := u.store }) (hstore : u.store = { s.store with poolOut := u.store.poolOut }) :
    (u.issueReconstruction x l i tile acc).StoreWf := by
  obtain ⟨p, hp, hlayer⟩ := State.layer?_some hl
  have hlen := h.layer_length hl
  unfold State.issueReconstruction
  dsimp only
  have hissue := h.noteIssue
    (u := { u with repair := { u.repair with
      engine := .writing x i
      write := some ⟨x, .segment i, tile, i % 16, acc.take (segmentLength (l.length.getD 0) i)⟩ } })
    (w := ⟨x, .segment i, tile, i % 16, acc.take (segmentLength (l.length.getD 0) i)⟩)
    hp hlayer (show i / 16 < 17 by omega) hlen ⟨ha.mapped, ha.free⟩ (fun a j k acc' he => by cases he)
    (by dsimp only; rw [hu]; dsimp only; rw [hstore])
  exact hissue.frame (by simp)

theorem reconstructionFails (h : s.StoreWf) (x : LayerRef) : (s.reconstructionFails x).StoreWf := by
  have hcount : State.StoreWf ((s.latch .storeFull).count .storeFullLosses) := h.frame (by simp)
  have hdamaged := hcount.keepPages (t := ((s.latch .storeFull).count .storeFullLosses).modifyPage x.record fun p =>
      if p.closed then p.modifyLayer x.layer fun l => { l with state := .damaged } else p) (.modifyPage fun p _ => by
    split
    next hc =>
      exact .modifyLayer p x.layer (LayerRecord.allowed_state (fun ho => by
        simp [PageRecord.not_closed_of_opened ho] at hc) _) fun _ => rfl
    · exact .refl p) (by simp)
  exact (hdamaged.notReading (.inl rfl)).derivePage _

theorem finishReconstruction (h : s.StoreWf) {x : LayerRef} {l : LayerRecord} (hl : s.layer? x = some l) {i : Nat}
    (hi : i < 256) (acc : List Byte) : (s.finishReconstruction x l i acc).StoreWf := by
  unfold State.finishReconstruction
  split
  next tile hat => exact h.issueReconstruction hl hi acc ⟨fun _ => rfl, fun hn => by simp [hat] at hn⟩ rfl rfl
  next hat =>
    split
    · exact h.reconstructionFails x
    next tile hfree =>
      exact (h.issueReconstruction (u := s.takeFromPool tile) hl hi acc ⟨fun hn => absurd hat hn, fun _ => ⟨hfree, rfl⟩⟩
        rfl rfl).evalFlag

theorem repairPassed (h : s.StoreWf) (data : List (List Byte)) : (s.repairPassed data).StoreWf := by
  unfold State.repairPassed
  split
  next x i k acc he =>
    have hi := h.segment x i k acc he
    split
    · exact h.repairFailed
    next l hl =>
      split
      · exact h.finishReconstruction hl hi _
      · refine h.keep (.of_pages rfl) (fun a j k' acc' he' => ?_) h.inlet h.dram rfl
        cases he'
        exact hi
  · exact h.repairFailed
  · exact h
  · exact h

theorem deliverData (h : s.StoreWf) (r : StoreRead) (data : List (List Byte)) : (s.deliverData r data).StoreWf := by
  unfold State.deliverData
  split
  · exact h.repairPassed data
  · exact h.frame (by simp)

theorem completeRead (h : s.StoreWf) {r : StoreRead} (htile : r.tile < s.tileCount) (faults : List DramFault) :
    (s.completeRead r faults).StoreWf := by
  have hidle : State.StoreWf { s with store := { s.store with inService := none } } := h.frame (by simp)
  unfold State.completeRead
  dsimp only
  split
  · exact ((hidle.retireTile htile).deliverFailure r).arbitrate
  · exact (hidle.deliverData r _).arbitrate

/-! ## The completion of a write (R11) -/

theorem releaseWriter (h : s.StoreWf) (ref : WriteRef) : (s.releaseWriter ref).StoreWf := by
  cases ref with
  | intake i => exact h.frame rfl
  | repair =>
    refine h.withEngine (.of_pages rfl) (fun a i k acc he => ?_) rfl
    have hengine : (s.releaseWriter .repair).repair.engine = match s.repair.engine with
      | .draining => .idle
      | .writing t i => .writing t i
      | .reading t i k a => .reading t i k a
      | .idle => .idle := rfl
    rw [hengine] at he
    cases hs : s.repair.engine <;> simp [hs] at he ⊢
    exact he

theorem dramWrite (h : s.StoreWf) (w : StoreWrite) : (s.dramWrite w).StoreWf :=
  h.keep (.of_pages (by simp)) h.segment h.inlet (s.wf_dramWrite w h.dram) (by simp)

end State.StoreWf

/-- The completion of a write keeps the form of its layer's record. -/
theorem LayerRecord.allowed_completed (p : PageRecord) (item : Item) (releasing retired : Bool) :
    LayerRecord.Allowed p fun l => l.completed item releasing retired := by
  cases item with
  | segment i => exact ⟨fun _ => rfl, fun _ => rfl, fun _ h => h, fun _ _ h => h⟩
  | parity => exact ⟨fun _ => rfl, fun _ => rfl, fun _ h => h, fun _ _ h => h⟩

theorem PageRecord.KeepsTiles.completed (p : PageRecord) (w : StoreWrite) (retired : Bool) :
    p.KeepsTiles (p.completed w retired) := by
  have hmap : ∀ l : LayerRecord, (l.completed w.item (p.state == .releasing) retired).tileMap = l.tileMap := fun l => by
    cases hw : w.item <;> rfl
  exact (PageRecord.KeepsTiles.modifyLayer p w.target.layer (LayerRecord.allowed_completed p w.item _ retired) hmap).trans
    (.of_layers rfl id)

namespace State.StoreWf

variable {s t : State}

/-- A record that is not OPEN lets its layer be REPAIRED. -/
theorem reconstructionWritten (h : s.StoreWf) {x : LayerRef} {p : PageRecord} (hp : s.page? x.record = some p)
    (ho : p.state ≠ .opened) : (s.reconstructionWritten x).StoreWf := by
  have hidle : State.StoreWf { s with repair := { s.repair with engine := .idle } } := h.notReading (.inl rfl)
  unfold State.reconstructionWritten
  dsimp only
  split
  · exact hidle
  split
  · have hrepaired := hidle.keepPages (t := State.modifyPage { s with repair := { s.repair with engine := .idle } } x.record
        fun p => p.modifyLayer x.layer fun l => { l with state := .repaired }) (.modifyPage fun p' hp' => by
      obtain rfl : p = p' := Option.some.inj (hp.symm.trans hp')
      exact .modifyLayer p x.layer (LayerRecord.allowed_state ho _) fun _ => rfl) (by simp)
    have hcounted : State.StoreWf ((State.modifyPage { s with repair := { s.repair with engine := .idle } } x.record
        fun p => p.modifyLayer x.layer fun l => { l with state := .repaired }).count .layersRepaired) := hrepaired.frame rfl
    exact hcounted.derivePage _
  · exact hidle.evaluationEvent _

theorem noteCompletion (h : s.StoreWf) (w : StoreWrite) (byRepair : Bool) : (s.noteCompletion w byRepair).StoreWf := by
  unfold State.noteCompletion
  split
  · exact h
  next p hp =>
    have hset : (s.setPage w.target.record (some (p.completed w (s.store.retired.contains w.tile)))).StoreWf :=
      h.keepPages (.setPage hp (.completed p w _)) rfl
    have hp1 : (s.setPage w.target.record (some (p.completed w (s.store.retired.contains w.tile)))).page? w.target.record
        = some (p.completed w (s.store.retired.contains w.tile)) := by
      rw [State.page?_setPage_of_live hp, if_pos rfl]
    dsimp only
    split
    · split
      · exact ((hset.freeRecord hp1).reresolve _).evalFlag
      · exact hset
    split
    · exact hset
    next ho =>
      split
      · split
        · exact hset.reconstructionWritten hp1 ho
        all_goals exact hset.evaluationEvent _
      · exact hset.evaluationEvent _

theorem completeWrite (h : s.StoreWf) (ref : WriteRef) (w : StoreWrite) : (s.completeWrite ref w).StoreWf := by
  have hidle : State.StoreWf { s with store := { s.store with inService := none } } := h.frame (by simp)
  exact (((hidle.dramWrite w).releaseWriter ref).noteCompletion w _).arbitrate

/-! ## Empty page tables (R21, R57, R60) -/

/-- With no live record every tile that is not retired stands in the pool. -/
theorem of_empty (hpages : ∀ r, t.page? r = none) (hrises : rises t.store.retired = true)
    (hpool : t.store.poolOut = t.store.retired) (hbound : ∀ y ∈ t.store.retired, y < t.tileCount)
    (hdram : t.store.dram.wf = true) (hinlet : ∀ x ∈ t.intake.queue, x.lengthOk = true)
    (hsweep : ∀ n, t.store.sweep = some n → n < t.tileCount)
    (hsegment : ∀ a i k acc, t.repair.engine = .reading a i k acc → i < 256) : t.StoreWf := by
  have hlive := State.liveRecords_eq_nil.mpr hpages
  have hmapped : t.mapped = [] := by simp [State.mapped, hlive]
  have hnodup := nodup_of_rises hrises
  refine ⟨hpool ▸ hrises, hrises, hdram, fun y hy => ?_, fun y hy => ?_, fun r p hp => ?_, hinlet,
    fun n hn => ⟨hsweep n hn, hlive⟩, hsegment⟩
  · unfold State.places State.inPool
    rw [hpool, hmapped, hnodup.count]
    by_cases hmem : y ∈ t.store.retired <;> simp [hy, hmem]
  · have hmem : y ∉ t.store.retired := fun hy' => Nat.not_lt.mpr hy (hbound y hy')
    exact ⟨hpool ▸ hmem, hmem, by simp [hmapped]⟩
  · simp [hpages] at hp

theorem retired_lt (h : s.StoreWf) : ∀ y ∈ s.store.retired, y < s.tileCount := fun y hy =>
  Nat.lt_of_not_le fun hle => (h.noPlace y hle).2.1 hy

theorem emptyTables (h : s.StoreWf) : s.emptyTables.StoreWf :=
  of_empty (State.page?_of_cleared (s := s.emptyTables) rfl) h.retired rfl h.retired_lt h.dram h.inlet
    (fun n hn => (h.sweep n hn).1) h.segment

theorem finishRestart (h : s.StoreWf) (x : RestartHold) : (s.finishRestart x).StoreWf := by
  have hflag := h.emptyTables.evalFlag
  have hreply : (s.emptyTables.evalFlag.replyRestart x).StoreWf := hflag.frame (by simp)
  exact hreply.frame rfl

theorem finishIfDue (h : s.StoreWf) : s.finishIfDue.StoreWf := by
  unfold State.finishIfDue
  split
  · exact h
  · exact h.finishRestart _

theorem finishOrHold (h : s.StoreWf) : s.finishOrHold.StoreWf := by
  unfold State.finishOrHold
  split
  · exact h.evalFlag
  · exact h.finishRestart _

/-- What the sampled straps leave of the store after a reset. -/
theorem afterPowerOn (h : s.StoreWf) (size : StoreSize) (crc : CrcInit) (ready : Bool) :
    (s.afterPowerOn size crc ready).StoreWf := by
  refine of_empty (State.page?_of_cleared (s := s.afterPowerOn size crc ready) rfl) rfl rfl (fun y hy => by cases hy)
    (s.wf_tornDram h.dram) (fun x hx => by cases hx) (fun n hn => ?_) (fun _ _ _ _ he => by cases he)
  obtain rfl : n = 0 := (Option.some.inj hn).symm
  exact lt_of_lt_of_le (by decide) (tileCount_pos _)

theorem afterPin (h : s.StoreWf) (ready : Bool) : (s.afterPin ready).StoreWf := by
  have hstore : (s.afterPin ready).store.poolOut = (s.afterPin ready).store.retired := rfl
  have hretired : (s.afterPin ready).store.retired = if s.store.sweep.isSome then [] else s.store.retired := rfl
  refine of_empty (State.page?_of_cleared (s := s.afterPin ready) rfl) ?_ hstore ?_ (s.wf_tornDram h.dram)
    (fun x hx => by cases hx) (fun n hn => ?_) (fun _ _ _ _ he => by cases he)
  · rw [hretired]
    split
    · rfl
    · exact h.retired
  · rw [hretired]
    split
    · exact fun y hy => by cases hy
    · exact h.retired_lt
  · have hn' : s.store.sweep.map (fun _ => 0) = some n := hn
    obtain ⟨_, _, rfl⟩ := Option.map_eq_some_iff.mp hn'
    exact lt_of_lt_of_le (by decide) (tileCount_pos _)

theorem pinReset (h : s.StoreWf) (ready : Bool) : (s.pinReset ready).StoreWf := by
  unfold State.pinReset
  split
  · exact (h.afterPin ready).frame (by simp)
  · exact ((h.afterPin ready).evalFlag).frame (by simp)

/-! ## The sweep (R57) -/

theorem testTile (h : s.StoreWf) {n : Nat} (hsweep : s.store.sweep = some n) (passed : Bool) :
    (s.testTile n passed).StoreWf := by
  obtain ⟨hn, hlive⟩ := h.sweep n hsweep
  have hdram : (s.testTile n passed).store.dram.wf = true := by
    rw [State.testTile_dram]
    exact Dram.wf_sweepTile _ _ h.dram
  cases passed with
  | true => exact h.keep (.of_pages rfl) h.segment h.inlet hdram rfl
  | false =>
    have hmapped : s.mapped = [] := by simp [State.mapped, hlive]
    refine h.retire hn (fun y => ?_) h.pages rfl rfl hdram h.sweep rfl
    show s.mapped.count y = _
    simp [hmapped]

theorem endSweep (h : s.StoreWf) : s.endSweep.StoreWf := by
  have hswept : s.swept.StoreWf :=
    ⟨h.pool, h.retired, h.dram, h.onePlace, h.noPlace, h.pages, h.inlet, fun _ hn => (by cases hn), h.segment⟩
  rw [State.endSweep_frame]
  exact hswept.frame (by simp [State.endSweep_intake])

theorem sweepTileTest (h : s.StoreWf) (first second : List DramFault) : (s.sweepTileTest first second).StoreWf := by
  unfold State.sweepTileTest
  split
  · exact h
  next n hsweep =>
    have htested := h.testTile hsweep (s.tilePasses n first second)
    have hkept : (s.testTile n (s.tilePasses n first second)).store.sweep = some n := by
      cases s.tilePasses n first second <;> exact hsweep
    dsimp only
    split
    next hn =>
      refine ⟨htested.pool, htested.retired, htested.dram, htested.onePlace, htested.noPlace, htested.pages, htested.inlet,
        fun m hm => ?_, htested.segment⟩
      obtain rfl : n + 1 = m := Option.some.inj hm
      exact ⟨by simpa [State.tileCount] using hn, (htested.sweep n hkept).2⟩
    · exact htested.endSweep

/-! ## Intake (R27 to R36) -/

theorem popInlet (h : s.StoreWf) : s.popInlet.StoreWf :=
  h.keep (.of_pages rfl) h.segment (fun x hx => h.inlet x (List.mem_of_mem_tail hx)) h.dram rfl

end State.StoreWf

theorem u16_lt (p : List Byte) (i : Nat) : u16 p i < 65536 := by
  have h0 := u8_lt p i
  have h1 := u8_lt p (i + 1)
  unfold u16
  omega

/-- A length field is one of two bytes. -/
theorem parseParcel_lengthOk (buffer : List Byte) : (parseParcel buffer).lengthOk = true := by
  unfold parseParcel
  split
  · rfl
  · exact decide_eq_true (u16_lt buffer 11)

/-- A parcel that is accepted names a segment of its layer (R32). -/
theorem State.judge_mapSlot {s : State} {parity : Bool} {h : SegHeader} {payload : List Byte} {r tile : Nat}
    {id : LayerId} {allocated : Bool} (hlen : h.lengthField < 65536)
    (hj : s.judge parity h payload = .accepted r id tile allocated) : (h.item parity).mapSlot < 17 := by
  cases parity with
  | true => exact (by decide : (16 : Nat) < 17)
  | false =>
    have hindex : h.index < 256 := by
      unfold State.judge at hj
      split at hj
      · cases hj
      split at hj
      · cases hj
      unfold State.judgeLayer at hj
      split at hj
      · cases hj
      next hm =>
        have hlt : h.index < segmentCount h.length := by
          simp only [malformedFor, Bool.not_eq_true, Bool.or_eq_false_iff, Bool.not_false, Bool.true_and,
            decide_eq_false_iff_not] at hm
          omega
        simp only [segmentCount, ceilDiv, SegHeader.length] at hlt
        omega
    show h.index / 16 < 17
    omega

namespace State.StoreWf

variable {s t : State}

theorem offerParcel (h : s.StoreWf) (buffer : List Byte) : (s.offerParcel buffer).StoreWf := by
  unfold State.offerParcel
  split
  · exact h.frame (by simp)
  split
  · exact h.frame (by simp)
  · refine evalFlag (h.keep (.of_pages rfl) h.segment (fun x hx => ?_) h.dram rfl)
    rcases List.mem_append.mp hx with hx | hx
    · exact h.inlet x hx
    · rw [List.mem_singleton.mp hx]
      exact parseParcel_lengthOk buffer

theorem framerByte (h : s.StoreWf) (b : Byte) : (s.framerByte b).StoreWf := by
  have houtside : State.StoreWf { s with framer := Framer.outside } := h.frame (by simp)
  unfold State.framerByte
  split
  · split
    · exact h.frame (by simp)
    · exact houtside.frame (by simp)
    · exact houtside.offerParcel _
  · exact h

/-- An accepted parcel's tile is the one it takes from the pool, or that of its tile-map slot. -/
theorem issueSegment (h : s.StoreWf) {parity allocated : Bool} {hd : SegHeader} {payload : List Byte} {r tile k : Nat}
    {id : LayerId} (hlen : hd.lengthField < 65536) (hj : s.judge parity hd payload = .accepted r id tile allocated) :
    (s.popInlet.issueSegment k ⟨⟨r, id⟩, hd.item parity, tile, (hd.item parity).tileSlot, payload⟩ hd.length
      allocated).StoreWf := by
  obtain ⟨p, l, hp, -, hl, hmapped, hfree⟩ := State.judge_accepted hj
  have hslot := State.judge_mapSlot hlen hj
  have hlength : hd.length ≤ 65536 := hlen
  let w : StoreWrite := ⟨⟨r, id⟩, hd.item parity, tile, (hd.item parity).tileSlot, payload⟩
  have hpop := h.popInlet
  cases allocated with
  | true =>
    obtain ⟨hnone, hlow⟩ := hfree rfl
    have hissue := hpop.noteIssue (u := { s.popInlet.takeFromPool tile with
      intake := { s.popInlet.intake with slots := s.popInlet.intake.slots.set k (some w) } }) (w := w) hp hl hslot
      hlength ⟨fun hn => absurd hnone hn, fun _ => ⟨hlow, rfl⟩⟩ hpop.segment rfl
    have hqueued : State.StoreWf (State.queueWrite (State.noteIssue { s.popInlet.takeFromPool tile with
      intake := { s.popInlet.intake with slots := s.popInlet.intake.slots.set k (some w) } } w hd.length) (.intake k)) :=
      hissue.frame rfl
    exact hqueued.arbitrate
  | false =>
    have hsome := hmapped rfl
    have hissue := hpop.noteIssue (u := { s.popInlet with
      intake := { s.popInlet.intake with slots := s.popInlet.intake.slots.set k (some w) } }) (w := w) hp hl hslot
      hlength ⟨fun _ => rfl, fun hn => absurd (hsome.symm.trans hn) (by simp)⟩ hpop.segment rfl
    have hqueued : State.StoreWf (State.queueWrite (State.noteIssue { s.popInlet with
      intake := { s.popInlet.intake with slots := s.popInlet.intake.slots.set k (some w) } } w hd.length) (.intake k)) :=
      hissue.frame rfl
    exact hqueued.arbitrate

theorem takeSegmentParcel (h : s.StoreWf) : s.takeSegmentParcel.StoreWf := by
  unfold State.takeSegmentParcel
  split
  next parity flags hd payload k hhead hslot =>
    split
    · have hlen : hd.lengthField < 65536 := by
        have hmem := h.inlet _ (List.mem_of_mem_head? hhead)
        simpa [Parcel.lengthOk] using hmem
      refine evalFlag ?_
      cases hj : s.judge parity hd payload with
      | accepted r id tile allocated => exact h.issueSegment hlen hj
      | unknownPage => exact h.popInlet.frame rfl
      | malformed => exact h.popInlet.frame rfl
      | duplicate => exact h.popInlet.frame rfl
      | late => exact h.popInlet.frame rfl
      | noTile => exact h.popInlet.frame rfl
    · exact h
  all_goals exact h

theorem issueRead (h : s.StoreWf) (side : Side) (kind : LayerKind) : (s.issueRead side kind).StoreWf := by
  unfold State.issueRead
  split
  · exact h
  · split
    · exact h
    · exact h.frame (by simp)

/-! ## The page directives (R14 to R16) -/

end State.StoreWf

/-- The layer identities of a page are distinct (R7). -/
theorem nodup_layerIds (inks : BitVec 4) (bands : Nat) : (layerIds inks bands).Nodup := by
  have hinks : (inksOf inks).Nodup := List.Nodup.filter _ (by decide)
  have hink : ∀ (i : Ink) (x : LayerId), x ∈ (List.range bands).flatMap
      (fun b => [⟨i, b, .line⟩, ⟨i, b, .picture⟩] : Nat → List LayerId) → x.ink = i := fun i x hx => by
    obtain ⟨b, -, hb⟩ := List.mem_flatMap.mp hx
    simp only [List.mem_cons, List.not_mem_nil, or_false] at hb
    rcases hb with rfl | rfl <;> rfl
  refine List.nodup_flatMap.mpr ⟨fun i _ => List.nodup_flatMap.mpr ⟨fun b _ => by simp, ?_⟩, ?_⟩
  · refine List.nodup_range.imp fun {a b} hab => ?_
    simp [Function.onFun, List.Disjoint, hab]
  · exact hinks.imp fun {a b} hab x ha hb => hab ((hink a x ha).symm.trans (hink b x hb))

theorem OpenArgs.record_wf (a : OpenArgs) : a.record.Wf := by
  have hfresh : ∀ l ∈ a.record.layers, ∃ id, l = LayerRecord.fresh id := fun l hl => by
    obtain ⟨id, -, rfl⟩ := List.mem_map.mp hl
    exact ⟨id, rfl⟩
  refine ⟨?_, fun l hl => ?_, fun l hl => ?_, fun _ l hl => ?_⟩
  · have hids : a.record.layers.map (·.id) = layerIds a.inkSet (bandCountOf a.height) := by
      simp only [OpenArgs.record, List.map_map]
      exact (List.map_congr_left fun _ _ => rfl).trans (List.map_id _)
    rw [hids]
    exact nodup_layerIds _ _
  · obtain ⟨id, rfl⟩ := hfresh l hl
    rfl
  · obtain ⟨id, rfl⟩ := hfresh l hl
    exact Nat.zero_le _
  · obtain ⟨id, rfl⟩ := hfresh l hl
    exact .inl rfl

theorem OpenArgs.record_tiles (a : OpenArgs) : a.record.tiles = [] := by
  refine List.flatMap_eq_nil_iff.mpr fun l hl => ?_
  obtain ⟨id, -, rfl⟩ := List.mem_map.mp hl
  rfl

namespace State.StoreWf

variable {s t : State}

/-- An EMPTY record is filled with one that maps no tile. -/
theorem setFresh (h : s.StoreWf) (hsweep : s.store.sweep = none) {r : Nat} (hr : s.page? r = none) {q : PageRecord}
    (hq : q.Wf) (htiles : q.tiles = []) : (s.setPage r (some q)).StoreWf := by
  have hmapped : ∀ y, (s.setPage r (some q)).mapped.count y = s.mapped.count y := fun y =>
    State.count_mapped_congr fun r' => by
      simp only [State.mapsAt, State.page?_setPage]
      split
      next heq => simp [heq.1, hr, htiles]
      · rfl
  refine ⟨h.pool, h.retired, h.dram, fun y hy => ?_, fun y hy => ?_, fun r' p hp => ?_, h.inlet, fun n hn => ?_, h.segment⟩
  · have hplaces := h.onePlace y hy
    unfold State.places at hplaces ⊢
    rw [hmapped]
    exact hplaces
  · obtain ⟨h1, h2, h3⟩ := h.noPlace y hy
    refine ⟨h1, h2, ?_⟩
    rw [← List.count_pos_iff, hmapped, List.count_pos_iff]
    exact h3
  · rw [State.page?_setPage] at hp
    split at hp
    · obtain rfl := Option.some.inj hp
      exact hq
    · exact h.pages r' p hp
  · have hn' : s.store.sweep = some n := hn
    rw [hsweep] at hn'
    cases hn'

theorem openPage (h : s.StoreWf) (hsweep : s.store.sweep = none) (d : Directive) : (s.openPage d).StoreWf := by
  unfold State.openPage
  dsimp only
  split
  · exact h.frame (by simp)
  split
  · exact h.frame (by simp)
  split
  · exact h.frame (by simp)
  next r hr =>
    obtain ⟨-, hnone, -⟩ := State.emptyRecord_some hr
    have hfilled := h.setFresh hsweep hnone (OpenArgs.record_wf (openArgs d.payload)) (OpenArgs.record_tiles _)
    have hsuperseded := hfilled.keepPages (.resupersede _ (openArgs d.payload).pageId) (by simp)
    exact (hsuperseded.reresolve (openArgs d.payload).pageId).frame (by simp [State.fillRecord])

theorem evaluateAll (r : Nat) (l : List LayerRecord) : ∀ {s : State}, s.StoreWf → (s.evaluateAll r l).StoreWf := by
  induction l with
  | nil => exact fun h => h
  | cons x xs ih => exact fun h => ih (h.evaluateLayer _)

theorem closePage (h : s.StoreWf) (d : Directive) : (s.closePage d).StoreWf := by
  unfold State.closePage
  split
  · exact h.frame (by simp)
  next r p hfind =>
    split
    · have hset : (s.setPage r (some { p with state := .evaluating })).StoreWf :=
        h.keepPages (.setPage (State.findPage_some hfind).1 (.of_layers rfl fun ho => by cases ho)) rfl
      have haccept : ((s.setPage r (some { p with state := .evaluating })).accept d).StoreWf := hset.frame (by simp)
      exact (haccept.evaluateAll r p.layers).derivePage r
    · exact h.frame (by simp)

theorem withdrawFromRepair (h : s.StoreWf) (r : Nat) : (s.withdrawFromRepair r).StoreWf := by
  refine h.withEngine (.of_pages (by simp)) (fun a i k acc he => ?_) (by simp)
  unfold State.withdrawFromRepair at he
  dsimp only at he
  split at he
  · exact he
  · split at he
    · simp [State.abandonRepair] at he
    · exact he

theorem releasePage (h : s.StoreWf) (d : Directive) : (s.releasePage d).StoreWf := by
  unfold State.releasePage
  split
  · exact h.frame (by simp)
  next r p hfind =>
    split
    · exact h.frame (by simp)
    · have hp : (s.withdrawFromRepair r).page? r = some p :=
        (State.page?_congr (by simp) r).trans (State.findPage_some hfind).1
      have hreleased : ((s.withdrawFromRepair r).releaseRecord r p).1.StoreWf := by
        unfold State.releaseRecord
        split
        · exact (h.withdrawFromRepair r).freeRecord hp
        · exact (h.withdrawFromRepair r).keepPages (.setPage hp (.of_layers rfl fun ho => by cases ho)) rfl
      have hsuperseded := hreleased.keepPages (.resupersede _ p.pageId) (by simp)
      exact (hsuperseded.reresolve p.pageId).frame (by simp)

theorem setFlow (h : s.StoreWf) (d : Directive) : (s.setFlow d).StoreWf := by
  unfold State.setFlow
  split
  · exact h.frame (by simp)
  · exact h.frame (by simp)

/-! ## RESTART (R170) -/

theorem restartDirective (h : s.StoreWf) : s.restartDirective.StoreWf := by
  unfold State.restartDirective
  split
  · exact h
  next d _ =>
    have haborted := h.popInlet.keepPages (.abortSchedule s.popInlet) (by simp)
    refine finishOrHold (haborted.withEngine (.of_pages rfl) (fun a i k acc he => ?_) rfl)
    cases hs : s.repair.engine <;> simp [State.takeRestart, Repair.afterRestart, hs] at he

end State.StoreWf

/-! ## The step -/

theorem State.StoreWf.keptByActs : KeptByActs State.StoreWf where
  beginStep h := h.frame (by simp)
  settle s h := h.frame (by simp)
  report r h := h.frame (by simp)
  evalFlag := .evalFlag
  popInlet := .popInlet
  startMarker h := h.frame (by simp)
  framerByte b h := h.framerByte b
  assemblyTimeout h := h.frame (by simp)
  takeSegmentParcel := .takeSegmentParcel
  completeWrite _ _ _ h := (h.completeWrite _ _).finishIfDue
  completeRead faults _ ht h := h.completeRead ht faults
  beginRepair _ h := h.beginRepair.arbitrate
  sweepTileTest first second h := h.sweepTileTest first second
  afterPowerOn size crc ready h := h.afterPowerOn size crc ready
  pinReset ready h := h.pinReset ready
  openPage d ht h := h.openPage (by simp only [State.intakeTaking, Bool.and_eq_true, Option.isNone_iff_eq_none] at ht; exact ht.1) d
  closePage d h := h.closePage d
  releasePage d h := h.releasePage d
  postTicket d _ h := h.keepPages (.postTicket _ d) (by simp)
  withdrawTicket d h := h.keepPages (.withdrawTicket _ d) (by simp)
  bindInk d h := h.frame (by simp)
  unbindInk d h := h.frame (by simp)
  screenBegin d h := h.frame (by simp)
  screenData d h := h.frame (by simp)
  screenEnd d h := h.frame (by simp)
  curveLoad d h := h.frame (by simp)
  setFlow d h := h.setFlow d
  setHead d h := h.frame (by simp)
  resumeHead d h := h.frame (by simp)
  setAlarmMask d h := h.frame (by simp)
  clearAlarms d h := h.frame (by simp)
  clearCounters d h := h.frame (by simp)
  restartDirective := .restartDirective
  finishIfDue := .finishIfDue
  makeLine _ h := h.frame (by simp)
  issueRead side kind h := (h.issueRead side kind).arbitrate
  plateReadyRise h := h.frame (by simp)
  plateReadyFall h := h.keepPages (.plateReadyFall _) (by simp)
  lineReq h := h.keepPages (.lineReq _) (by simp)
  completeTransfer h := h.keepPages (.completeTransfer _) (by simp)
  stallExpiry h := h.keepPages (.stallExpiry _) (by simp)
  haltSample high h := h.keepPages (.haltSample _ high) (by simp)
  parcelEnd causeFirst h := h.frame (by simp)
  queueOwed _ h := h.frame (by simp)

/-- Settles O58: a tile moves in one place at a time, and every act is made of such moves. -/
theorem stepsKeepStore : Obligations.StepsKeepStore := State.StoreWf.keptByActs.stepKeeps fun _ h =>
  h.frame rfl

end Sys2Proof.Machine
end

section
/-! PROOFS. Every step keeps the schedule, the drive and the page table in agreement (R4, R127, R137, R147): the plate in
context under the work of Prefetch. -/

namespace Sys2Proof.Machine

open Sys2Proof (Byte Instr DramFault)

/-! ## The plate in context -/

/-- What the drive has in context stays so, and the plate in context is that of the same ticket. -/
structure State.KeepsContext (s t : State) : Prop where
  wf : s.ContextWf → t.ContextWf
  tag : s.ContextWf → t.drive.plate.map (·.tag) = s.drive.plate.map (·.tag)

/-- A plate in context puts the drive in PRIMING or IMAGING. -/
theorem State.ContextWf.inContext {s : State} (h : s.ContextWf) {pl : Plate} (hp : s.drive.plate = some pl) :
    s.drive.state.inContext = true := by
  rw [← h.plate, hp]
  rfl

namespace State.KeepsContext

variable {s t u : State}

theorem trans (h : s.KeepsContext t) (g : t.KeepsContext u) : s.KeepsContext u :=
  ⟨fun w => g.wf (h.wf w), fun w => (g.tag (h.wf w)).trans (h.tag w)⟩

/-- The drive's state, its timer and its selection stand; a plate in context keeps its tag and its transfer, and Prefetch
its work; and with no plate the pool stands. -/
theorem of_same (hstate : t.drive.state = s.drive.state) (hstall : t.drive.stall = s.drive.stall)
    (hselected : t.drive.selected = s.drive.selected)
    (hplate : t.drive.plate.map (fun pl => (pl.tag, pl.transfer)) = s.drive.plate.map fun pl => (pl.tag, pl.transfer))
    (hjob : t.prefetch.job.isSome = s.prefetch.job.isSome)
    (hpool : s.drive.plate = none → t.drive.pool = s.drive.pool) : s.KeepsContext t := by
  have hsome : t.drive.plate.isSome = s.drive.plate.isSome := by
    have h := congrArg Option.isSome hplate
    rwa [Option.isSome_map, Option.isSome_map] at h
  refine ⟨fun w => ⟨?_, ?_, fun hs => ?_, fun pl hpl htransfer => ?_, fun hs => ?_, ?_⟩, fun _ => ?_⟩
  · rw [hsome, hstate, w.plate]
  · rw [hjob, hstate, w.job]
  · rw [hstate] at hs
    rw [hpool (by rw [← Option.isNone_iff_eq_none, ← Option.not_isSome, w.plate, hs]; rfl), w.pool hs]
  · rw [hpl] at hplate
    obtain ⟨q, hq, heq⟩ := Option.map_eq_some_iff.mp hplate.symm
    rw [hstate]
    exact w.transfer q hq (by rw [(Prod.mk.inj heq).2]; exact htransfer)
  · rw [hstate]
    exact w.stall (by rw [← hstall]; exact hs)
  · rw [hselected, hstate, w.selected]
  · have h := congrArg (Option.map Prod.fst) hplate
    simpa only [Option.map_map, Function.comp_def] using h

theorem of_eq (hd : t.drive = s.drive) (hj : t.prefetch = s.prefetch) : s.KeepsContext t :=
  of_same (by rw [hd]) (by rw [hd]) (by rw [hd]) (by rw [hd]) (by rw [hj]) fun _ => by rw [hd]

theorem refl (s : State) : s.KeepsContext s := of_eq rfl rfl

/-! ## Prefetch -/

theorem makeLine (s : State) : s.KeepsContext s.makeLine := by
  unfold State.makeLine
  split
  next pl j hp hj =>
    have hplaced : ∀ (u : State) (j' : PrefetchJob) (sm : Summary) (line : Line), u.drive = s.drive →
        s.KeepsContext (u.placeLine pl j' sm line) := fun u j' sm line hu =>
      of_same (by simp [State.placeLine, hu]) (by simp [State.placeLine, hu]) (by simp [State.placeLine, hu])
        (by simp [State.placeLine, hp]) (by simp [State.placeLine, hj]) fun hn => by simp [hp] at hn
    split
    · exact hplaced s _ _ _ rfl
    · exact hplaced _ _ _ _ (by simp)
  all_goals exact .refl s

theorem makeLines (n : Nat) : ∀ s : State, s.KeepsContext (State.makeLines n s) := by
  induction n with
  | zero => exact .refl
  | succ n ih =>
    intro s
    unfold State.makeLines
    split
    · exact (State.KeepsContext.makeLine s).trans (ih _)
    · exact .refl s

/-- The prime test puts a plate in context into IMAGING, with the stall timer running (R152). -/
theorem primeTest (s : State) : s.KeepsContext s.primeTest := by
  unfold State.primeTest
  split
  next pl j hp hj =>
    split
    next hprimed =>
      refine ⟨fun w => ⟨?_, ?_, fun hs => by simp [DriveState.inContext] at hs, fun _ _ _ => rfl, fun _ => rfl, ?_⟩,
        fun _ => rfl⟩
      · simp [hp, DriveState.inContext]
      · simp [hj, DriveState.inContext]
      · have hsel := w.selected
        rw [hprimed.1] at hsel
        simpa using hsel
    · exact .refl s
  all_goals exact .refl s

theorem prefetchEvent (s : State) : s.KeepsContext s.prefetchEvent := (makeLines _ s).trans (.primeTest _)

theorem setCapture (s : State) (side : Side) (kind : LayerKind) (c : Capture) :
    s.KeepsContext (s.setCapture side kind c) := by
  refine of_same (by simp) (by simp) (by simp) (by simp) ?_ fun _ => by simp
  unfold State.setCapture
  split
  · rfl
  next j hj => split <;> simp [hj]

theorem issueRead (s : State) (side : Side) (kind : LayerKind) : s.KeepsContext (s.issueRead side kind) := by
  unfold State.issueRead
  split
  · exact .refl s
  · split
    · exact .refl s
    · exact (State.KeepsContext.setCapture s side kind _).trans (.of_eq rfl rfl)

theorem prefetchGoOn (s : State) : s.KeepsContext s.prefetchGoOn := by
  refine of_same (by simp) (by simp) (by simp) (by simp) ?_ fun _ => by simp
  unfold State.prefetchGoOn
  split
  next hj => simp [hj]
  all_goals rfl

theorem prefetchPassed (s : State) (side : Side) (kind : LayerKind) (n : Nat) (data : List (List Byte)) :
    s.KeepsContext (s.prefetchPassed side kind n data) := by
  unfold State.prefetchPassed
  split
  · exact .refl s
  split
  · split
    · exact .refl s
    · split
      · exact .prefetchEvent s
      · exact ((State.KeepsContext.setCapture s side kind _).trans (.prefetchGoOn _)).trans (.prefetchEvent _)
  · exact .refl s

theorem modifySummary (s : State) (f : Summary → Summary) : s.KeepsContext (s.modifySummary f) := by
  unfold State.modifySummary
  split
  · exact .refl s
  next pl hp => exact of_same rfl rfl rfl (by simp [hp]) rfl fun _ => rfl

theorem countStoreFault (s : State) (n : Nat) : s.KeepsContext (s.countStoreFault n) := by
  unfold State.countStoreFault
  split
  · exact .refl s
  next j hj =>
    split
    · refine trans ?_ (.modifySummary _ _)
      exact of_same rfl rfl rfl rfl (by simp [hj]) fun _ => rfl
    · exact .refl s

theorem prefetchFailed (s : State) (side : Side) (kind : LayerKind) (n pos : Nat) :
    s.KeepsContext (s.prefetchFailed side kind n pos) := by
  unfold State.prefetchFailed
  split
  · exact .countStoreFault s n
  split
  · split
    · exact .countStoreFault s n
    · refine trans ?_ (.prefetchEvent _)
      refine trans ?_ (.countStoreFault _ n)
      split
      · exact (State.KeepsContext.setCapture s side kind _).trans (.modifySummary _ _)
      · exact .setCapture s side kind _
  · exact .countStoreFault s n

/-! ## The store's results -/

theorem deliverFailure (s : State) (r : StoreRead) : s.KeepsContext (s.deliverFailure r) := by
  unfold State.deliverFailure
  split
  · exact .of_eq rfl rfl
  · exact .prefetchFailed s _ _ _ _

theorem serve (n : Nat) : ∀ s : State, s.KeepsContext (State.serve n s) := by
  induction n with
  | zero => exact .refl
  | succ n ih =>
    intro s
    unfold State.serve
    split
    · exact .refl s
    · split
      · exact .refl s
      · exact .of_eq rfl rfl
    · split
      · exact .refl s
      · split
        · refine trans ?_ (ih _)
          refine trans ?_ (.deliverFailure _ _)
          exact .of_eq rfl rfl
        · exact .of_eq rfl rfl

theorem arbitrate (s : State) : s.KeepsContext s.arbitrate := by
  unfold State.arbitrate
  split
  · exact .refl s
  · exact .serve _ s

end State.KeepsContext

end Sys2Proof.Machine
end

section
/-! PROOFS. Every step keeps the schedule, the drive and the page table in agreement (R4, R127, R137, R147): the schedule and
the use counts, and the offer of the eligible ticket. -/

namespace Sys2Proof.Machine

open Sys2Proof (Byte Instr DramFault)

/-! ## The use counts -/

/-- A change of a page record that keeps its use count, and that it is current. -/
structure PageRecord.KeepsUse (p q : PageRecord) : Prop where
  count : q.useCount = p.useCount
  current : p.current = true → q.current = true

namespace PageRecord.KeepsUse

variable {p q r : PageRecord}

theorem refl (p : PageRecord) : p.KeepsUse p := ⟨rfl, id⟩

theorem trans (h : p.KeepsUse q) (g : q.KeepsUse r) : p.KeepsUse r :=
  ⟨g.count.trans h.count, fun hc => g.current (h.current hc)⟩

theorem modifyLayer (p : PageRecord) (id : LayerId) (f : LayerRecord → LayerRecord) : p.KeepsUse (p.modifyLayer id f) :=
  ⟨rfl, fun h => h⟩

/-- A closed page stays current under a derivation. -/
theorem derived (p : PageRecord) : p.KeepsUse { p with state := p.derived } := by
  refine ⟨rfl, fun _ => ?_⟩
  unfold PageRecord.current PageRecord.derived
  dsimp only
  split
  · rfl
  · split <;> rfl

theorem afterDerivation (p : PageRecord) : p.KeepsUse p.afterDerivation := by
  unfold PageRecord.afterDerivation
  split
  · exact ⟨rfl, (derived p).current⟩
  · exact .refl p

theorem afterEvaluation (p : PageRecord) (id : LayerId) : p.KeepsUse (p.afterEvaluation id) := by
  unfold PageRecord.afterEvaluation
  split
  · exact .refl p
  · split
    · exact .modifyLayer p id _
    · exact .refl p

end PageRecord.KeepsUse

/-- Every record of the page table keeps its use count. -/
def State.KeepsUses (s t : State) : Prop := s.Pagewise PageRecord.KeepsUse t

namespace State.KeepsUses

variable {s t u : State}

theorem of_pages (h : t.pages = s.pages) : s.KeepsUses t := State.Pagewise.of_pages .refl h

theorem trans (h : s.KeepsUses t) (g : t.KeepsUses u) : s.KeepsUses u := State.Pagewise.trans (·.trans ·) h g

theorem evaluateLayer (s : State) (x : LayerRef) : s.KeepsUses (s.evaluateLayer x) :=
  State.Pagewise.evaluateLayer .refl .afterEvaluation s x

theorem setPage {r : Nat} {p q : PageRecord} (hp : s.page? r = some p) (hk : p.KeepsUse q) :
    s.KeepsUses (s.setPage r (some q)) := State.Pagewise.setPage .refl hp hk

theorem modifyPage {r : Nat} {f : PageRecord → PageRecord} (hf : ∀ p, s.page? r = some p → p.KeepsUse (f p)) :
    s.KeepsUses (s.modifyPage r f) := State.Pagewise.modifyPage .refl hf

theorem resupersede (s : State) (n : Nat) : s.KeepsUses (s.resupersede n) :=
  State.Pagewise.resupersede (fun _ _ => ⟨rfl, id⟩) s n

end State.KeepsUses

/-- A schedule of the same resolutions uses each record as often. -/
theorem State.uses_congr {s t : State} (h : t.schedule.map Ticket.resolutions = s.schedule.map Ticket.resolutions)
    (r : Nat) : t.uses r = s.uses r := by
  simp only [State.uses, List.flatMap_def, h]

theorem State.UsesWf.keep {s t : State} (h : s.UsesWf) (hp : s.KeepsUses t)
    (hs : t.schedule.map Ticket.resolutions = s.schedule.map Ticket.resolutions) : t.UsesWf where
  counts r q hq := by
    obtain ⟨p, hpage, hk⟩ := State.Pagewise.some_of hp hq
    rw [hk.count, h.counts r p hpage, State.uses_congr hs]
  live y hy x hx := by
    have hmem : y.resolutions ∈ t.schedule.map Ticket.resolutions := List.mem_map_of_mem hy
    rw [hs] at hmem
    obtain ⟨z, hz, heq⟩ := List.mem_map.mp hmem
    obtain ⟨p, hpage, hc⟩ := h.live z hz x (heq ▸ hx)
    obtain ⟨q, hq, hk⟩ := State.Pagewise.of_some hp hpage
    exact ⟨q, hq, hk.current hc⟩

/-- A record that no ticket names. -/
theorem State.UsesWf.unused {s : State} (h : s.UsesWf) {r : Nat} (hr : s.page? r = none) : s.uses r = 0 := by
  unfold State.uses
  rw [List.length_eq_zero_iff, List.filter_eq_nil_iff]
  intro x hx hrec
  obtain ⟨y, hy, hxy⟩ := List.mem_flatMap.mp hx
  obtain ⟨p, hp, -⟩ := h.live y hy x hxy
  rw [beq_iff_eq.mp hrec, hr] at hp
  cases hp

/-! ## What the invariant reads -/

namespace State.ScheduleWf

variable {s t : State}

theorem keep (h : s.ScheduleWf) (hc : s.KeepsContext t) (hp : s.KeepsUses t)
    (hsame : (t.schedule, t.restart) = (s.schedule, s.restart)) : t.ScheduleWf := by
  simp only [Prod.mk.injEq] at hsame
  obtain ⟨hschedule, hrestart⟩ := hsame
  have htag := hc.tag h.context
  refine ⟨hc.wf h.context, ?_, ⟨fun x hx hi => ?_, fun pl hpl => ?_⟩, h.uses.keep hp (by rw [hschedule]),
    fun hr => hschedule.trans (h.held (hrestart ▸ hr))⟩
  · unfold State.TagsDistinct
    rw [hschedule]
    exact h.tags
  · rw [hschedule] at hx
    obtain ⟨pl, hpl, heq⟩ := h.imaging.inContext x hx hi
    rw [hpl] at htag
    obtain ⟨q, hq, hqt⟩ := Option.map_eq_some_iff.mp htag
    exact ⟨q, hq, hqt.trans heq⟩
  · rw [hpl] at htag
    obtain ⟨q, hq, hqt⟩ := Option.map_eq_some_iff.mp htag.symm
    rw [hschedule]
    obtain ⟨x, hx, hxt, hxi⟩ := h.imaging.imaging q hq
    exact ⟨x, hx, hxt.trans hqt, hxi⟩

/-- Only page records change, and they keep their use counts. -/
theorem keepPages (h : s.ScheduleWf) (hp : s.KeepsUses t)
    (hsame : (t.schedule, t.drive, t.prefetch, t.restart) = (s.schedule, s.drive, s.prefetch, s.restart)) :
    t.ScheduleWf := by
  simp only [Prod.mk.injEq] at hsame
  obtain ⟨hschedule, hdrive, hprefetch, hrestart⟩ := hsame
  exact h.keep (.of_eq hdrive hprefetch) hp (by rw [hschedule, hrestart])

/-- Prefetch goes on with its work. -/
theorem goOn (h : s.ScheduleWf) (hc : s.KeepsContext t)
    (hsame : (t.pages, t.schedule, t.restart) = (s.pages, s.schedule, s.restart)) : t.ScheduleWf :=
  h.keep hc (.of_pages (Prod.mk.inj hsame).1) (Prod.mk.inj hsame).2

/-- The invariant does not read what an operation changes. -/
theorem frame (h : s.ScheduleWf)
    (hsame : (t.pages, t.schedule, t.drive, t.prefetch, t.restart)
      = (s.pages, s.schedule, s.drive, s.prefetch, s.restart)) : t.ScheduleWf :=
  h.keepPages (.of_pages (Prod.mk.inj hsame).1) (Prod.mk.inj hsame).2

/-- With no plate in context no ticket is IMAGING. -/
theorem none_imaging (h : s.ScheduleWf) (hc : s.drive.state.inContext = false) :
    ∀ x ∈ s.schedule, x.state ≠ .imaging := by
  intro x hx hi
  obtain ⟨pl, hpl, -⟩ := h.imaging.inContext x hx hi
  rw [h.context.inContext hpl] at hc
  cases hc

/-- With no plate in context the drive holds none, and Prefetch has no work. -/
theorem parked (h : s.ScheduleWf) (hc : s.drive.state.inContext = false) :
    s.drive.plate = none ∧ s.prefetch.job = none ∧ s.drive.pool = [] ∧ s.drive.stall = none := by
  refine ⟨?_, ?_, h.context.pool hc, ?_⟩
  · rw [← Option.not_isSome_iff_eq_none, h.context.plate, hc]
    simp
  · rw [← Option.not_isSome_iff_eq_none, h.context.job, hc]
    simp
  · rw [← Option.not_isSome_iff_eq_none]
    intro hs
    rw [h.context.stall hs] at hc
    cases hc

end State.ScheduleWf

/-! ## No plate in context -/

/-- The schedule and the tables agree, with no plate in context: whatever the drive is to enter. -/
structure State.Parked (s : State) : Prop where
  plate : s.drive.plate = none
  job : s.prefetch.job = none
  pool : s.drive.pool = []
  stall : s.drive.stall = none
  tags : s.TagsDistinct
  imaging : ∀ x ∈ s.schedule, x.state ≠ .imaging
  uses : s.UsesWf
  held : s.restart.isSome = true → s.schedule = []

namespace State.Parked

variable {s t : State}

theorem of_wf (h : s.ScheduleWf) (hc : s.drive.state.inContext = false) : s.Parked := by
  obtain ⟨hplate, hjob, hpool, hstall⟩ := h.parked hc
  exact ⟨hplate, hjob, hpool, hstall, h.tags, h.none_imaging hc, h.uses, h.held⟩

/-- In a state without a plate, with a ticket selected in WAIT_PLATE only. -/
theorem wf (h : s.Parked) (hc : s.drive.state.inContext = false)
    (hs : s.drive.selected.isSome = decide (s.drive.state = .waitPlate)) : s.ScheduleWf :=
  ⟨⟨by rw [h.plate, hc]; rfl, by rw [h.job, hc]; rfl, fun _ => h.pool, fun _ hp => by simp [h.plate] at hp,
    fun hst => by simp [h.stall] at hst, hs⟩, h.tags,
    ⟨fun x hx hi => absurd hi (h.imaging x hx), fun _ hp => by simp [h.plate] at hp⟩, h.uses, h.held⟩

/-- The drive enters another state. -/
theorem withDrive (h : s.Parked) {d : Drive} (hplate : d.plate = none) (hpool : d.pool = []) (hstall : d.stall = none) :
    State.Parked { s with drive := d } :=
  ⟨hplate, h.job, hpool, hstall, h.tags, h.imaging, h.uses.keep (.of_pages rfl) rfl, h.held⟩

end State.Parked

/-! ## The capture of a plate context and the offer (R137, R148, R150) -/

theorem State.plateFor_some {s : State} {x : Ticket} {pl : Plate} (h : s.plateFor x = some pl) :
    pl.tag = x.tag ∧ pl.transfer = none := by
  unfold State.plateFor at h
  split at h
  · split at h
    · cases h; exact ⟨rfl, rfl⟩
    · split at h
      · cases h
      · cases h; exact ⟨rfl, rfl⟩
  all_goals cases h

namespace State.ScheduleWf

variable {s t : State}

/-- The eligible ticket is taken up: it is the one IMAGING ticket. -/
theorem capturePlate (h : s.ScheduleWf) (hc : s.drive.state.inContext = false) : s.capturePlate.ScheduleWf := by
  unfold State.capturePlate
  split
  · exact h
  next x hx =>
    split
    · exact h
    next pl hpl =>
      obtain ⟨htag, htransfer⟩ := State.plateFor_some hpl
      obtain ⟨hmem, -⟩ := eligibleIn_some hx
      have himaging := h.none_imaging hc
      let u : State := { s.modifyTicket x.tag fun t => { t with state := .imaging } with
        drive := { (s.modifyTicket x.tag fun t => { t with state := .imaging }).drive with
          state := .priming, selected := none, pool := [], stall := none } }
      have hschedule : (u.startPrefetch pl).schedule = imagingSchedule s.schedule x.tag := rfl
      have hstarted : (u.startPrefetch pl).ScheduleWf := by
        refine ⟨⟨rfl, rfl, fun hs => (by cases hs), fun q hq ht => ?_, fun hs => (by cases hs), rfl⟩, ?_,
          ⟨fun y hy hi => ?_, fun q hq => ?_⟩, h.uses.keep (.of_pages (by simp [u])) ?_, fun hr => ?_⟩
        · obtain rfl := Option.some.inj hq
          simp [htransfer] at ht
        · unfold State.TagsDistinct
          rw [hschedule, imagingSchedule_tags]
          exact h.tags
        · rw [hschedule] at hy
          obtain ⟨z, hz, rfl⟩ := List.mem_map.mp hy
          split at hi
          next heq =>
            rw [if_pos heq]
            exact ⟨_, rfl, htag.trans (beq_iff_eq.mp heq).symm⟩
          · exact absurd hi (himaging z hz)
        · obtain rfl := Option.some.inj hq
          rw [hschedule]
          exact ⟨{ x with state := .imaging }, List.mem_map.mpr ⟨x, hmem, by simp⟩, htag.symm, rfl⟩
        · rw [hschedule]
          unfold imagingSchedule
          rw [List.map_map]
          refine List.map_congr_left fun y _ => ?_
          dsimp only [Function.comp]
          split <;> rfl
        · have hempty := h.held hr
          rw [hempty] at hmem
          cases hmem
      show ((u.startPrefetch pl).prefetchEvent).ScheduleWf
      exact hstarted.goOn (.prefetchEvent _) (by simp)

/-- The drive takes up what it is offered. -/
theorem selectTicket (h : s.ScheduleWf) (hc : s.drive.state.inContext = false) (tag : Nat) :
    (s.selectTicket tag).ScheduleWf := by
  have hselected : State.ScheduleWf { s with drive := { s.drive with state := .waitPlate, selected := some tag } } := by
    obtain ⟨hplate, -, hpool, hstall⟩ := h.parked hc
    exact ((State.Parked.of_wf h hc).withDrive (d := { s.drive with state := .waitPlate, selected := some tag })
      hplate hpool hstall).wf rfl rfl
  unfold State.selectTicket
  dsimp only
  split
  · exact hselected.capturePlate rfl
  · exact hselected

theorem offer (h : s.ScheduleWf) : s.offer.ScheduleWf := by
  unfold State.offer
  split
  next hs =>
    split
    · exact h
    · exact h.selectTicket (by rw [hs]; rfl) _
  next hs =>
    have hc : s.drive.state.inContext = false := by rw [hs]; rfl
    split
    · obtain ⟨hplate, -, hpool, hstall⟩ := h.parked hc
      exact ((State.Parked.of_wf h hc).withDrive (d := { s.drive with state := .idle, selected := none })
        hplate hpool hstall).wf rfl rfl
    · exact h.selectTicket hc _
  all_goals exact h

/-- An arming evaluation changes no IMAGING ticket and makes none. -/
theorem armedSchedule (h : s.ScheduleWf) (f : Ticket → Bool) :
    State.ScheduleWf { s with schedule := s.armedSchedule f } := by
  have harmed : ∀ x : Ticket, s.armedState x = .imaging ↔ x.state = .imaging := fun x => by
    unfold State.armedState
    cases hx : x.state <;> simp only [reduceCtorEq, iff_false]
    · split <;> simp
    · split <;> simp
  have heach : ∀ x : Ticket, (if f x then { x with state := s.armedState x } else x).tag = x.tag ∧
      ((if f x then { x with state := s.armedState x } else x).state = .imaging ↔ x.state = .imaging) := fun x => by
    split
    · exact ⟨rfl, harmed x⟩
    · exact ⟨rfl, Iff.rfl⟩
  have hkeeps : s.KeepsContext { s with schedule := s.armedSchedule f } := .of_eq rfl rfl
  refine ⟨hkeeps.wf h.context, ?_, ⟨fun y hy hi => ?_, fun pl hpl => ?_⟩, h.uses.keep (.of_pages rfl) ?_, fun hr => ?_⟩
  · have htags : (s.armedSchedule f).map (·.tag) = s.schedule.map (·.tag) := by
      unfold State.armedSchedule
      rw [List.map_map]
      exact List.map_congr_left fun x _ => (heach x).1
    show ((s.armedSchedule f).map (·.tag)).Nodup
    rw [htags]
    exact h.tags
  · obtain ⟨x, hx, rfl⟩ := List.mem_map.mp hy
    rw [(heach x).1]
    exact h.imaging.inContext x hx ((heach x).2.mp hi)
  · obtain ⟨x, hx, htag, hi⟩ := h.imaging.imaging pl hpl
    exact ⟨_, List.mem_map.mpr ⟨x, hx, rfl⟩, (heach x).1.trans htag, (heach x).2.mpr hi⟩
  · show (s.armedSchedule f).map Ticket.resolutions = _
    unfold State.armedSchedule
    rw [List.map_map]
    refine List.map_congr_left fun x _ => ?_
    dsimp only [Function.comp]
    split <;> rfl
  · show s.armedSchedule f = []
    rw [State.armedSchedule, h.held hr]
    rfl

theorem rearm (h : s.ScheduleWf) (f : Ticket → Bool) : (s.rearm f).ScheduleWf := by
  unfold State.rearm
  split
  · exact h
  · exact (h.armedSchedule f).offer

end State.ScheduleWf

end Sys2Proof.Machine
end

section
/-! PROOFS. Every step keeps the schedule, the drive and the page table in agreement (R4, R10 to R12, R17, R129, R130): the
page table, Repair and the resolutions. -/

namespace Sys2Proof.Machine

open Sys2Proof (Byte Instr DramFault)

/-! ## Records that no ticket names -/

theorem State.uses_eq_zero {s : State} {r : Nat} :
    s.uses r = 0 ↔ ∀ y ∈ s.schedule, ∀ x ∈ y.resolutions, x.record ≠ r := by
  unfold State.uses
  rw [List.length_eq_zero_iff, List.filter_eq_nil_iff]
  simp only [List.mem_flatMap, beq_iff_eq, forall_exists_index, and_imp]
  exact ⟨fun h y hy x hx => h x y hy hx, fun h x y hy hx => h y hy x hx⟩

/-- A record that is not current is named by no ticket. -/
theorem State.UsesWf.not_current {s : State} (h : s.UsesWf) {r : Nat} {p : PageRecord} (hp : s.page? r = some p)
    (hc : p.current = false) : s.uses r = 0 :=
  State.uses_eq_zero.mpr fun y hy x hx hr => by
    obtain ⟨q, hq, hcur⟩ := h.live y hy x hx
    rw [hr, hp, Option.some_inj] at hq
    rw [hq, hcur] at hc
    cases hc

/-- A record that no ticket names is replaced by one that no ticket uses. -/
theorem State.UsesWf.setUnused {s : State} (h : s.UsesWf) {r : Nat} (hr : s.uses r = 0) {x : Option PageRecord}
    (hx : ∀ q, x = some q → q.useCount = 0) : (s.setPage r x).UsesWf where
  counts r' q hq := by
    rw [State.page?_setPage] at hq
    split at hq
    next heq => rw [hx q hq, heq.1]; exact hr.symm
    · exact h.counts r' q hq
  live y hy z hz := by
    obtain ⟨p, hp, hc⟩ := h.live y hy z hz
    rw [State.page?_setPage, if_neg fun heq => State.uses_eq_zero.mp hr y hy z hz heq.1]
    exact ⟨p, hp, hc⟩

namespace State.ScheduleWf

variable {s t : State}

/-- Only page records change, and the schedule agrees with them. -/
theorem withUses (h : s.ScheduleWf) (huses : t.UsesWf)
    (hsame : (t.schedule, t.drive, t.prefetch, t.restart) = (s.schedule, s.drive, s.prefetch, s.restart)) :
    t.ScheduleWf := by
  simp only [Prod.mk.injEq] at hsame
  obtain ⟨hschedule, hdrive, hprefetch, hrestart⟩ := hsame
  have hkeeps : s.KeepsContext t := .of_eq hdrive hprefetch
  refine ⟨hkeeps.wf h.context, ?_, ⟨?_, ?_⟩, huses, ?_⟩
  · unfold State.TagsDistinct
    rw [hschedule]
    exact h.tags
  · rw [hschedule, hdrive]
    exact h.imaging.inContext
  · rw [hschedule, hdrive]
    exact h.imaging.imaging
  · rw [hschedule, hrestart]
    exact h.held

theorem freeRecord (h : s.ScheduleWf) {r : Nat} (hr : s.uses r = 0) (p : PageRecord) : (s.freeRecord r p).ScheduleWf :=
  have hgiven : (s.giveToPool p.tiles).ScheduleWf := h.frame rfl
  hgiven.withUses (hgiven.uses.setUnused hr fun _ hq => by cases hq) rfl

/-! ## The page table (R61 to R66) -/

theorem noteDamage (h : s.ScheduleWf) {r : Nat} {p : PageRecord} (hp : s.page? r = some p) :
    (s.noteDamage r p).ScheduleWf := by
  unfold State.noteDamage
  split
  · exact (h.keepPages (.setPage (q := { p with damageNoted := true }) hp ⟨rfl, id⟩) rfl).frame (by simp)
  · exact h

theorem pageChanged (h : s.ScheduleWf) {r : Nat} {p q : PageRecord} (hp : s.page? r = some p) (hk : p.KeepsUse q) :
    (s.pageChanged r q).ScheduleWf := by
  have hset : (s.setPage r (some q)).ScheduleWf := h.keepPages (.setPage hp hk) rfl
  unfold State.pageChanged
  dsimp only
  refine rearm ?_ _
  split
  · have hpage : ((s.setPage r (some q)).report (q.report r)).page? r = some q :=
      (State.page?_setPage_of_live hp _ _).trans (if_pos rfl)
    exact (hset.frame (t := (s.setPage r (some q)).report (q.report r)) (by simp)).noteDamage hpage
  · exact hset

theorem derivePage (h : s.ScheduleWf) (r : Nat) : (s.derivePage r).ScheduleWf := by
  unfold State.derivePage
  split
  · exact h
  next p hp =>
    split
    · exact h
    · exact h.pageChanged hp (.derived p)

theorem evaluateLayer (h : s.ScheduleWf) (x : LayerRef) : (s.evaluateLayer x).ScheduleWf :=
  h.keepPages (.evaluateLayer s x) (by simp)

theorem evaluationEvent (h : s.ScheduleWf) (x : LayerRef) : (s.evaluationEvent x).ScheduleWf :=
  (h.evaluateLayer x).derivePage _

theorem evaluateAll (r : Nat) (l : List LayerRecord) : ∀ {s : State}, s.ScheduleWf → (s.evaluateAll r l).ScheduleWf := by
  induction l with
  | nil => exact fun h => h
  | cons x xs ih => exact fun h => ih (h.evaluateLayer _)

theorem noteIssue (h : s.ScheduleWf) (w : StoreWrite) (n : Nat) : (s.noteIssue w n).ScheduleWf := by
  unfold State.noteIssue
  refine derivePage ?_ _
  exact h.keepPages (.modifyPage fun _ _ => ⟨rfl, id⟩) (by simp)

theorem evalFlag (h : s.ScheduleWf) : s.evalFlag.ScheduleWf := h.frame (by simp)

theorem latch (h : s.ScheduleWf) (a : Alarm) : (s.latch a).ScheduleWf := h.frame (by simp)

/-! ## The resolutions (R129, R130) -/

end State.ScheduleWf

/-- The state with the bindings that name a page id computed again, ahead of the arming that follows (R130). -/
def State.recomputedAll (s : State) (n : Nat) : State :=
  { s.schedule.foldl (fun acc t => acc.moveUse t (s.recomputeTicket n t)) s with
    schedule := s.schedule.map (s.recomputeTicket n) }

theorem State.reresolve_eq (s : State) (n : Nat) : s.reresolve n = (s.recomputedAll n).rearm fun t =>
    ((s.schedule.filter fun t => Ticket.moved t (s.recomputeTicket n t)).map (·.tag)).contains t.tag := rfl

theorem State.page?_recomputedAll {s : State} {r : Nat} {p : PageRecord} (n : Nat) (hp : s.page? r = some p) :
    ∃ u, (s.recomputedAll n).page? r = some { p with useCount := u } := by
  obtain ⟨u, hu⟩ := (s.page?_reresolve n r).2 p hp
  refine ⟨u, ?_⟩
  rw [← hu, State.reresolve_eq]
  exact (State.page?_congr (by simp) r).symm

/-- A binding resolves to a current record. -/
theorem State.resolve_current {s : State} {b : Binding} {x : Resolution} (h : s.resolve b = some x) :
    ∃ p, s.page? x.record = some p ∧ p.current = true := by
  obtain ⟨p, hp, hfits, -⟩ := (s.resolvesTo_resolve b).2 x h
  exact ⟨p, hp, hfits.1⟩

theorem Ticket.mem_resolutions {y : Ticket} {x : Resolution} :
    x ∈ y.resolutions ↔ y.leftRes = some x ∨ y.rightRes = some x := by
  simp [Ticket.resolutions]

/-- A resolution computed again is an old one of the ticket, or that of a binding as the table stands. -/
theorem State.mem_recomputeTicket {s : State} {n : Nat} {y : Ticket} {x : Resolution}
    (h : x ∈ (s.recomputeTicket n y).resolutions) : x ∈ y.resolutions ∨ ∃ b, s.resolve b = some x := by
  have hone : ∀ b old, s.recomputed n b old = some x → old = some x ∨ ∃ b, s.resolve b = some x := fun b old hb => by
    unfold State.recomputed at hb
    split at hb
    · exact .inr ⟨b, hb⟩
    · exact .inl hb
  unfold State.recomputeTicket at h
  split at h
  · exact .inl h
  all_goals
    rw [Ticket.mem_resolutions] at h ⊢
    rcases h with h | h
    · exact (hone _ _ h).imp_left .inl
    · cases hr : y.right with
      | none => exact .inl (.inr (by simpa [hr] using h))
      | some b =>
        simp only [hr, Option.elim_some] at h
        exact (hone _ _ h).imp_left .inr

theorem State.UsesWf.recomputedAll {s : State} (h : s.UsesWf) (n : Nat) : (s.recomputedAll n).UsesWf where
  counts := by
    have hcounts : s.UseCounts fun r => namingsIn s.schedule r + 0 := fun r p hp =>
      (h.counts r p hp).trans (s.uses_eq r)
    refine State.UseCounts.congr (f := fun r => namingsIn (s.schedule.map (s.recomputeTicket n)) r + 0) ?_
      fun r => (State.uses_eq (s.recomputedAll n) r).symm
    exact fun r p hp => State.UseCounts.moveAll (s.recomputeTicket n) s.schedule s (fun _ => 0) hcounts r p hp
  live y hy x hx := by
    obtain ⟨z, hz, rfl⟩ := List.mem_map.mp hy
    have hcurrent : ∃ p, s.page? x.record = some p ∧ p.current = true := by
      rcases State.mem_recomputeTicket hx with hold | ⟨b, hb⟩
      · exact h.live z hz x hold
      · exact State.resolve_current hb
    obtain ⟨p, hp, hc⟩ := hcurrent
    obtain ⟨u, hu⟩ := State.page?_recomputedAll n hp
    exact ⟨_, hu, hc⟩

namespace State.ScheduleWf

variable {s t : State}

theorem recomputedAll (h : s.ScheduleWf) (n : Nat) : (s.recomputedAll n).ScheduleWf := by
  have hdrive : (s.recomputedAll n).drive = s.drive := by simp [State.recomputedAll]
  have hprefetch : (s.recomputedAll n).prefetch = s.prefetch := by simp [State.recomputedAll]
  have hrestart : (s.recomputedAll n).restart = s.restart := by simp [State.recomputedAll]
  have hschedule : (s.recomputedAll n).schedule = s.schedule.map (s.recomputeTicket n) := rfl
  have hsame : ∀ x, (s.recomputeTicket n x).tag = x.tag ∧ (s.recomputeTicket n x).state = x.state := fun x => by
    rw [State.recomputeTicket_eq]
    exact ⟨rfl, rfl⟩
  have hkeeps : s.KeepsContext (s.recomputedAll n) := .of_eq hdrive hprefetch
  refine ⟨hkeeps.wf h.context, ?_, ⟨fun y hy hi => ?_, fun pl hpl => ?_⟩, h.uses.recomputedAll n, fun hr => ?_⟩
  · have htags : (s.recomputedAll n).schedule.map (·.tag) = s.schedule.map (·.tag) := by
      rw [hschedule, List.map_map]
      exact List.map_congr_left fun x _ => (hsame x).1
    unfold State.TagsDistinct
    rw [htags]
    exact h.tags
  · obtain ⟨x, hx, rfl⟩ := List.mem_map.mp hy
    rw [hdrive, (hsame x).1]
    exact h.imaging.inContext x hx ((hsame x).2 ▸ hi)
  · rw [hdrive] at hpl
    obtain ⟨x, hx, htag, hi⟩ := h.imaging.imaging pl hpl
    exact ⟨_, List.mem_map.mpr ⟨x, hx, rfl⟩, (hsame x).1.trans htag, (hsame x).2.trans hi⟩
  · rw [hschedule, h.held (hrestart ▸ hr)]
    rfl

theorem reresolve (h : s.ScheduleWf) (n : Nat) : (s.reresolve n).ScheduleWf := by
  rw [State.reresolve_eq]
  exact (h.recomputedAll n).rearm _

/-! ## Writes, reads and Repair (R10 to R12, R68 to R74) -/

theorem reconstructionWritten (h : s.ScheduleWf) (x : LayerRef) : (s.reconstructionWritten x).ScheduleWf := by
  unfold State.reconstructionWritten
  dsimp only
  have hidle : State.ScheduleWf { s with repair := { s.repair with engine := .idle } } := h.frame rfl
  split
  · exact hidle
  · split
    · refine derivePage ?_ _
      have hrepaired := hidle.keepPages (.modifyPage (r := x.record) fun p _ =>
        .modifyLayer p x.layer fun l => { l with state := .repaired }) (by simp)
      exact hrepaired.frame rfl
    · exact hidle.evaluationEvent x

theorem noteCompletion (h : s.ScheduleWf) (w : StoreWrite) (byRepair : Bool) :
    (s.noteCompletion w byRepair).ScheduleWf := by
  unfold State.noteCompletion
  split
  · exact h
  next p hp =>
    dsimp only
    have hcompleted : p.KeepsUse (p.completed w (s.store.retired.contains w.tile)) :=
      ⟨rfl, id⟩
    have hset := h.keepPages (t := s.setPage w.target.record
      (some (p.completed w (s.store.retired.contains w.tile)))) (.setPage hp hcompleted) rfl
    split
    next hreleasing =>
      split
      · have hunused : s.uses w.target.record = 0 :=
          h.uses.not_current hp (by simp [PageRecord.current, hreleasing])
        exact ((hset.freeRecord hunused _).reresolve _).evalFlag
      · exact hset
    · split
      · exact hset
      · split
        · split
          · exact hset.reconstructionWritten _
          all_goals exact hset.evaluationEvent _
        · exact hset.evaluationEvent _

theorem leavePlace (h : s.ScheduleWf) (tile : Nat) : (s.leavePlace tile).ScheduleWf := by
  unfold State.leavePlace
  split
  · refine evaluationEvent ?_ _
    exact h.keepPages (.modifyPage fun p _ => .modifyLayer p _ _) (by simp)
  · exact h.evalFlag

theorem retireTile (h : s.ScheduleWf) (tile : Nat) : (s.retireTile tile).ScheduleWf := by
  have hleft : ((s.withRetired tile).leavePlace tile).ScheduleWf := (h.frame (t := s.withRetired tile) rfl).leavePlace tile
  rw [State.retireTile_eq]
  dsimp only
  split
  · exact (hleft.latch _).latch _
  · exact hleft.latch _

theorem issueReconstruction (h : s.ScheduleWf) (x : LayerRef) (l : LayerRecord) (i tile : Nat) (acc : List Byte) :
    (s.issueReconstruction x l i tile acc).ScheduleWf := by
  unfold State.issueReconstruction
  dsimp only
  have hissue := noteIssue (s := { s with repair := { s.repair with
      engine := .writing x i
      write := some ⟨x, .segment i, tile, i % 16, acc.take (segmentLength (l.length.getD 0) i)⟩ } }) (h.frame rfl)
    ⟨x, .segment i, tile, i % 16, acc.take (segmentLength (l.length.getD 0) i)⟩ (l.length.getD 0)
  exact hissue.frame rfl

theorem reconstructionFails (h : s.ScheduleWf) (x : LayerRef) : (s.reconstructionFails x).ScheduleWf := by
  have hcount : State.ScheduleWf ((s.latch .storeFull).count .storeFullLosses) := h.frame (by simp)
  have hdamaged := hcount.keepPages (t := ((s.latch .storeFull).count .storeFullLosses).modifyPage x.record fun p =>
      if p.closed then p.modifyLayer x.layer fun l => { l with state := .damaged } else p) (.modifyPage fun p _ => by
    split
    · exact .modifyLayer p x.layer _
    · exact .refl p) (by simp)
  exact derivePage (hdamaged.frame (by rfl)) _

theorem repairPassed (h : s.ScheduleWf) (data : List (List Byte)) : (s.repairPassed data).ScheduleWf := by
  unfold State.repairPassed
  split
  next x i k acc _ =>
    split
    · exact h.frame rfl
    · split
      · unfold State.finishReconstruction
        split
        · exact h.issueReconstruction _ _ _ _ _
        · split
          · exact h.reconstructionFails x
          · exact (issueReconstruction (s := s.takeFromPool _) (h.frame rfl) _ _ _ _ _).evalFlag
      · exact h.frame rfl
  · exact h.frame rfl
  · exact h
  · exact h

theorem deliverData (h : s.ScheduleWf) (r : StoreRead) (data : List (List Byte)) :
    (s.deliverData r data).ScheduleWf := by
  unfold State.deliverData
  split
  · exact h.repairPassed data
  · exact h.goOn (.prefetchPassed _ _ _ _ _) (by simp)

theorem deliverFailure (h : s.ScheduleWf) (r : StoreRead) : (s.deliverFailure r).ScheduleWf :=
  h.goOn (.deliverFailure _ _) (by simp)

theorem arbitrate (h : s.ScheduleWf) : s.arbitrate.ScheduleWf := h.goOn (.arbitrate _) (by simp)

theorem completeRead (h : s.ScheduleWf) (r : StoreRead) (faults : List DramFault) :
    (s.completeRead r faults).ScheduleWf := by
  have hidle : State.ScheduleWf { s with store := { s.store with inService := none } } := h.frame rfl
  unfold State.completeRead
  dsimp only
  split
  · exact ((hidle.retireTile r.tile).deliverFailure r).arbitrate
  · exact (hidle.deliverData r _).arbitrate

theorem releaseWriter (h : s.ScheduleWf) (ref : WriteRef) : (s.releaseWriter ref).ScheduleWf := by
  cases ref <;> exact h.frame rfl

theorem completeWrite (h : s.ScheduleWf) (ref : WriteRef) (w : StoreWrite) : (s.completeWrite ref w).ScheduleWf :=
  ((releaseWriter (s := ({ s with store := { s.store with inService := none } } : State).dramWrite w)
    (h.frame rfl) ref).noteCompletion w _).arbitrate

theorem beginRepair (h : s.ScheduleWf) : s.beginRepair.ScheduleWf := by
  unfold State.beginRepair
  split
  · exact h
  · dsimp only
    split
    · exact h.frame rfl
    · exact h.frame rfl

/-! ## The page directives (R13 to R18) -/

theorem openPage (h : s.ScheduleWf) (d : Directive) : (s.openPage d).ScheduleWf := by
  unfold State.openPage
  dsimp only
  split
  · exact h.frame (by simp)
  split
  · exact h.frame (by simp)
  split
  · exact h.frame (by simp)
  next r hr =>
    obtain ⟨-, hnone, -⟩ := State.emptyRecord_some hr
    have hfilled : (s.setPage r (some (openArgs d.payload).record)).ScheduleWf :=
      h.withUses (h.uses.setUnused (h.uses.unused hnone) fun q hq => by obtain rfl := Option.some.inj hq; rfl) rfl
    have hsuperseded := hfilled.keepPages (.resupersede _ (openArgs d.payload).pageId) (by simp)
    exact (hsuperseded.reresolve (openArgs d.payload).pageId).frame (by simp [State.fillRecord])

theorem closePage (h : s.ScheduleWf) (d : Directive) : (s.closePage d).ScheduleWf := by
  unfold State.closePage
  split
  · exact h.frame (by simp)
  next r p hfind =>
    split
    · have hset : (s.setPage r (some { p with state := .evaluating })).ScheduleWf :=
        h.keepPages (.setPage (State.findPage_some hfind).1 ⟨rfl, fun _ => rfl⟩) rfl
      have haccept : ((s.setPage r (some { p with state := .evaluating })).accept d).ScheduleWf := hset.frame (by simp)
      exact (haccept.evaluateAll r p.layers).derivePage r
    · exact h.frame (by simp)

theorem releasePage (h : s.ScheduleWf) (d : Directive) : (s.releasePage d).ScheduleWf := by
  unfold State.releasePage
  split
  · exact h.frame (by simp)
  next r p hfind =>
    split
    · exact h.frame (by simp)
    next hcount =>
      have hp := (State.findPage_some hfind).1
      have hunused : s.uses r = 0 := by
        rw [← h.uses.counts r p hp]
        exact Nat.eq_zero_of_not_pos hcount
      have hwithdrawn : (s.withdrawFromRepair r).ScheduleWf := h.frame (by simp)
      have huses : (s.withdrawFromRepair r).uses r = 0 := (State.uses_congr (by simp) r).trans hunused
      have hreleased : ((s.withdrawFromRepair r).releaseRecord r p).1.ScheduleWf := by
        unfold State.releaseRecord
        split
        · exact hwithdrawn.freeRecord huses p
        · refine hwithdrawn.withUses (hwithdrawn.uses.setUnused huses fun q hq => ?_) rfl
          obtain rfl := Option.some.inj hq
          exact Nat.eq_zero_of_not_pos hcount
      have hsuperseded := hreleased.keepPages (.resupersede _ p.pageId) (by simp)
      exact (hsuperseded.reresolve p.pageId).frame (by simp)

end State.ScheduleWf

end Sys2Proof.Machine
end

section
/-! PROOFS. Every step keeps the schedule, the drive and the page table in agreement (R131, R139, R142, R147, R157, R170): the
tickets, the drive, RESTART and the resets. -/

namespace Sys2Proof.Machine

open Sys2Proof (Byte Instr DramFault StoreSize CrcInit)

/-! ## Tickets that join and leave -/

/-- The resolutions of a ticket that leaves the schedule, and those that stay. -/
theorem namingsIn_remove {l : List Ticket} {x : Ticket} (htags : (l.map (·.tag)).Nodup) (hx : x ∈ l) (r : Nat) :
    namingsIn l r = namingsIn (l.filter fun y => !(y.tag == x.tag)) r + x.namings r := by
  induction l with
  | nil => cases hx
  | cons y ys ih =>
    obtain ⟨hy, hys⟩ := List.nodup_cons.mp htags
    simp only [namingsIn, List.map_cons, List.sum_cons] at ih ⊢
    rcases List.mem_cons.mp hx with rfl | hmem
    · have hrest : ys.filter (fun y => !(y.tag == x.tag)) = ys := List.filter_eq_self.mpr fun z hz => by
        simpa using fun heq => hy (List.mem_map.mpr ⟨z, hz, heq⟩)
      rw [List.filter_cons_of_neg (by simp), hrest]
      omega
    · have hne : y.tag ≠ x.tag := fun heq => hy (List.mem_map.mpr ⟨x, hmem, heq.symm⟩)
      rw [List.filter_cons_of_pos (by simpa using hne), ih hys hmem, List.map_cons, List.sum_cons]
      omega

theorem insertTicket_perm (front : Bool) (x : Ticket) (l : List Ticket) : (insertTicket front x l).Perm (x :: l) := by
  induction l with
  | nil => exact .refl _
  | cons y ys ih =>
    unfold insertTicket
    split
    · exact .refl _
    · exact (ih.cons y).trans (.swap x y ys)

theorem State.page?_addUse_twice {s : State} {r : Nat} {p : PageRecord} (hp : s.page? r = some p)
    (a b : Option Resolution) (up : Bool) :
    ∃ u, ((s.addUse a up).addUse b up).page? r = some { p with useCount := u } := by
  obtain ⟨u, hu⟩ := State.page?_addUse s a up r p hp
  obtain ⟨v, hv⟩ := State.page?_addUse (s.addUse a up) b up r _ hu
  exact ⟨v, hv⟩

theorem State.UsesWf.removeTicket {s : State} (h : s.UsesWf) (htags : s.TagsDistinct) {x : Ticket}
    (hx : x ∈ s.schedule) : (s.removeTicket x).UsesWf where
  counts := by
    let u : State := { s with schedule := s.schedule.filter fun y => !(y.tag == x.tag) }
    have hcounts : u.UseCounts fun r => namingsIn s.schedule r := fun r p hp => (h.counts r p hp).trans (s.uses_eq r)
    refine ((hcounts.addUse x.leftRes false).addUse x.rightRes false).congr fun r => ?_
    have hsplit := namingsIn_remove htags hx r
    have huses : (s.removeTicket x).uses r = namingsIn (s.schedule.filter fun y => !(y.tag == x.tag)) r := by
      rw [State.uses_eq]
      simp [State.removeTicket]
    rw [huses]
    simp only [Bool.false_eq_true, if_false]
    unfold Ticket.namings at hsplit
    omega
  live y hy z hz := by
    have hmem : y ∈ s.schedule := by
      simp only [State.removeTicket, State.addUse_same] at hy
      exact List.mem_of_mem_filter hy
    obtain ⟨p, hp, hc⟩ := h.live y hmem z hz
    obtain ⟨u, hu⟩ := State.page?_addUse_twice
      (s := { s with schedule := s.schedule.filter fun y => !(y.tag == x.tag) }) hp x.leftRes x.rightRes false
    exact ⟨_, hu, hc⟩

/-- The use counts of the records that a ticket names rise as it enters the schedule. -/
theorem State.UsesWf.enter {s t : State} (h : s.UsesWf) {x : Ticket} (front : Bool)
    (hx : ∀ z ∈ x.resolutions, ∃ p, s.page? z.record = some p ∧ p.current = true)
    (hpages : t.pages = ((s.addUse x.leftRes true).addUse x.rightRes true).pages)
    (hschedule : t.schedule = insertTicket front x s.schedule) : t.UsesWf where
  counts r p hp := by
    have hcounts : s.UseCounts fun r => namingsIn s.schedule r := fun r p hp => (h.counts r p hp).trans (s.uses_eq r)
    rw [State.page?_congr hpages] at hp
    rw [((hcounts.addUse x.leftRes true).addUse x.rightRes true) r p hp, State.uses_eq, hschedule]
    have hsum : namingsIn (insertTicket front x s.schedule) r = namingsIn (x :: s.schedule) r :=
      ((insertTicket_perm front x s.schedule).map _).sum_eq
    rw [hsum]
    simp only [if_true, namingsIn, List.map_cons, List.sum_cons, Ticket.namings]
    omega
  live y hy z hz := by
    rw [hschedule, (insertTicket_perm front x s.schedule).mem_iff, List.mem_cons] at hy
    have hcurrent : ∃ p, s.page? z.record = some p ∧ p.current = true := by
      rcases hy with rfl | hy
      · exact hx z hz
      · exact h.live y hy z hz
    obtain ⟨p, hp, hc⟩ := hcurrent
    obtain ⟨u, hu⟩ := State.page?_addUse_twice hp x.leftRes x.rightRes true
    rw [State.page?_congr hpages]
    exact ⟨_, hu, hc⟩

namespace State.Parked

variable {s t : State}

theorem enterIdle (h : s.Parked) : s.enterIdle.ScheduleWf :=
  State.ScheduleWf.offer ((h.withDrive (d := { s.drive with state := .idle, selected := none }) h.plate h.pool h.stall).wf
    rfl rfl)

theorem enterUnloading (h : s.Parked) : s.enterUnloading.ScheduleWf := by
  unfold State.enterUnloading
  split
  · exact (h.withDrive (d := { s.drive with state := .unloading, selected := none }) h.plate h.pool h.stall).wf rfl rfl
  · exact h.enterIdle

theorem halted (h : s.Parked) :
    State.ScheduleWf { s with drive := { s.drive with state := .halted, selected := none } } :=
  (h.withDrive (d := { s.drive with state := .halted, selected := none }) h.plate h.pool h.stall).wf rfl rfl

end State.Parked

namespace State.ScheduleWf

variable {s t : State}

/-- A ticket leaves the schedule: every IMAGING one that stays is that of the plate in context. -/
theorem removeTicket_tags (h : s.ScheduleWf) (x : Ticket) : (s.removeTicket x).TagsDistinct := by
  unfold State.TagsDistinct
  simp only [State.removeTicket, State.addUse_same]
  exact h.tags.sublist (List.filter_sublist.map _)

theorem removeTicket (h : s.ScheduleWf) {x : Ticket} (hx : x ∈ s.schedule) (hi : x.state ≠ .imaging) :
    (s.removeTicket x).ScheduleWf := by
  have hschedule : (s.removeTicket x).schedule = s.schedule.filter fun y => !(y.tag == x.tag) := by
    simp [State.removeTicket]
  have hdrive : (s.removeTicket x).drive = s.drive := by simp
  have hkeeps : s.KeepsContext (s.removeTicket x) := .of_eq hdrive (by simp)
  refine ⟨hkeeps.wf h.context, h.removeTicket_tags x, ⟨fun y hy hyi => ?_, fun pl hpl => ?_⟩,
    h.uses.removeTicket h.tags hx, fun hr => ?_⟩
  · rw [hschedule] at hy
    rw [hdrive]
    exact h.imaging.inContext y (List.mem_of_mem_filter hy) hyi
  · rw [hdrive] at hpl
    obtain ⟨y, hy, htag, hyi⟩ := h.imaging.imaging pl hpl
    refine ⟨y, ?_, htag, hyi⟩
    rw [hschedule, List.mem_filter]
    refine ⟨hy, ?_⟩
    simp only [Bool.not_eq_true', beq_eq_false_iff_ne]
    intro heq
    exact hi (List.inj_on_of_nodup_map h.tags hy hx heq ▸ hyi)
  · rw [hschedule, h.held (by simpa using hr)]
    rfl

/-! ## The end of a plate (R142, R154, R157) -/

/-- The plate has left the context, and its ticket ends. -/
theorem endTicket (h : s.ScheduleWf) {pl q : Plate} (hpl : s.drive.plate = some pl) (htag : q.tag = pl.tag)
    (o : PlateOutcome) (hsame : (t.pages, t.schedule, t.restart) = (s.pages, s.schedule, s.restart))
    (hdropped : (t.drive.plate, t.drive.pool, t.drive.stall, t.prefetch.job) = (none, [], none, none)) :
    (t.endTicket q o).Parked := by
  simp only [Prod.mk.injEq] at hsame hdropped
  obtain ⟨hpages, hschedule, hrestart⟩ := hsame
  obtain ⟨hplate, hpool, hstall, hjob⟩ := hdropped
  have htags : t.TagsDistinct := by unfold State.TagsDistinct; rw [hschedule]; exact h.tags
  have huses : t.UsesWf := h.uses.keep (.of_pages hpages) (by rw [hschedule])
  obtain ⟨z, hz, hztag, -⟩ := h.imaging.imaging pl hpl
  have hsome : (t.ticket? q.tag).isSome = true := by
    rw [Option.isSome_iff_ne_none, Ne, State.ticket?_none]
    intro hnone
    exact hnone z (hschedule ▸ hz) (hztag.trans htag.symm)
  obtain ⟨x, hx⟩ := Option.isSome_iff_exists.mp hsome
  obtain ⟨hxtag, hmem⟩ := State.ticket?_some hx
  have hleft : (t.endTicket q o).schedule = s.schedule.filter fun y => !(y.tag == pl.tag) := by
    rw [State.endTicket_schedule, hschedule, htag]
  refine ⟨by simpa using hplate, by simpa using hjob, by simpa using hpool, by simpa using hstall, ?_, fun y hy hi => ?_,
    ?_, fun hr => ?_⟩
  · unfold State.TagsDistinct
    rw [hleft]
    exact h.tags.sublist (List.filter_sublist.map _)
  · rw [hleft, List.mem_filter] at hy
    obtain ⟨p, hp, hptag⟩ := h.imaging.inContext y hy.1 hi
    rw [hpl, Option.some_inj] at hp
    simp [hp, hptag] at hy
  · rw [State.endTicket_of_some hx]
    exact (huses.removeTicket htags hmem).keep (.of_pages (by simp)) (by simp)
  · rw [hleft, h.held (by simpa [hrestart] using hr)]
    rfl

theorem plateEnded (h : s.ScheduleWf) (o : PlateOutcome) : (s.plateEnded o).Parked := by
  unfold State.plateEnded
  split
  next hnone =>
    have hc : s.drive.state.inContext = false := by rw [← h.context.plate, hnone]; rfl
    obtain ⟨-, -, -, -⟩ := h.parked hc
    exact ⟨rfl, rfl, rfl, rfl, h.tags, h.none_imaging hc, h.uses.keep (.of_pages rfl) rfl, h.held⟩
  next pl hpl => exact h.endTicket hpl rfl o rfl rfl

theorem endShort (h : s.ScheduleWf) (o : PlateOutcome) : (s.endShort o).ScheduleWf := by
  rw [State.endShort_eq]
  split
  · exact (h.plateEnded o).halted
  · exact (h.plateEnded o).enterUnloading

theorem endDone (h : s.ScheduleWf) {pl q : Plate} (hpl : s.drive.plate = some pl) (htag : q.tag = pl.tag) :
    (s.endDone q).ScheduleWf := by
  unfold State.endDone
  dsimp only
  exact State.Parked.enterUnloading (h.endTicket hpl htag .done (by rfl) (by rfl))

/-! ## The drive's events (R147 to R160) -/

theorem haltRequest (h : s.ScheduleWf) : s.haltRequest.ScheduleWf := by
  have hlatched := h.latch .headHalt
  unfold State.haltRequest
  dsimp only
  split
  · exact hlatched.endShort _
  next hc => exact (State.Parked.of_wf hlatched (Bool.eq_false_iff.mpr hc)).halted

/-- The halt line moves. -/
theorem withDrive (h : s.ScheduleWf) {d : Drive}
    (hsame : (d.state, d.stall, d.selected, d.plate, d.pool)
      = (s.drive.state, s.drive.stall, s.drive.selected, s.drive.plate, s.drive.pool)) :
    State.ScheduleWf { s with drive := d } := by
  simp only [Prod.mk.injEq] at hsame
  obtain ⟨hstate, hstall, hselected, hplate, hpool⟩ := hsame
  exact h.keep (t := { s with drive := d })
    (.of_same hstate hstall hselected (by dsimp only; rw [hplate]) rfl fun _ => hpool) (.of_pages rfl) rfl

theorem haltSample (h : s.ScheduleWf) (high : Bool) : (s.haltSample high).ScheduleWf := by
  unfold State.haltSample
  dsimp only
  split
  · split
    · exact h.withDrive rfl
    · split
      · exact (latch (h.withDrive (by rfl)) _).haltRequest
      · exact h.withDrive rfl
  · split
    · exact h.withDrive rfl
    · split
      · exact haltRequest (h.withDrive (by rfl))
      · exact h.withDrive rfl

theorem plateReadyRise (h : s.ScheduleWf) : s.plateReadyRise.ScheduleWf := by
  unfold State.plateReadyRise
  dsimp only
  split
  · exact h
  · split
    next hs => exact capturePlate (h.withDrive (by rfl)) (by simp [hs, DriveState.inContext])
    · exact h.withDrive rfl

theorem plateReadyFall (h : s.ScheduleWf) : s.plateReadyFall.ScheduleWf := by
  unfold State.plateReadyFall
  dsimp only
  split
  · have hlow : State.ScheduleWf { s with drive := { s.drive with plateReady := false } } := h.withDrive rfl
    split
    · exact hlow.endShort _
    · exact hlow.endShort _
    next hs => exact (State.Parked.of_wf hlow (by simp [hs, DriveState.inContext])).enterIdle
    all_goals exact hlow
  · exact h

/-- In IMAGING the plate in context changes in its transfer and its counts, and the timer runs. -/
theorem transferMoves (h : s.ScheduleWf) {pl q : Plate} (hpl : s.drive.plate = some pl) (htag : q.tag = pl.tag)
    (hs : s.drive.state = .imaging) {d : Drive}
    (hsame : (d.plate, d.state, d.selected) = (some q, s.drive.state, s.drive.selected)) :
    State.ScheduleWf { s with drive := d } := by
  simp only [Prod.mk.injEq] at hsame
  obtain ⟨hplate, hstate, hselected⟩ := hsame
  have hc : d.state.inContext = true := by rw [hstate, hs]; rfl
  have hkeeps : s.KeepsContext { s with drive := d } := by
    refine ⟨fun w => ⟨?_, ?_, fun hout => ?_, fun _ _ _ => hstate.trans hs, fun _ => hstate.trans hs, ?_⟩, fun _ => ?_⟩
    · rw [hplate, hc]; rfl
    · rw [w.job, hstate]
    · rw [hc] at hout; cases hout
    · rw [hselected, hstate, w.selected]
    · rw [hplate, hpl, Option.map_some, Option.map_some, htag]
  exact h.keep hkeeps (.of_pages rfl) rfl

theorem requestLine (h : s.ScheduleWf) {pl : Plate} (hpl : s.drive.plate = some pl) (hs : s.drive.state = .imaging) :
    (s.requestLine pl).ScheduleWf := by
  unfold State.requestLine
  split
  · exact h.endShort _
  · split
    next line rest _ =>
      have hstarted : (s.startTransfer pl line rest).ScheduleWf :=
        h.transferMoves hpl (q := { pl with transfer := some line, requested := pl.requested + 1 }) rfl hs rfl
      exact hstarted.goOn (.prefetchEvent _) (by simp)
    · exact h.endShort _

theorem lineReq (h : s.ScheduleWf) : s.lineReq.ScheduleWf := by
  unfold State.lineReq
  split
  · exact h.frame (by simp)
  next hs =>
    split
    · exact h
    next pl hpl => exact h.requestLine hpl hs
  all_goals exact h

theorem completeTransfer (h : s.ScheduleWf) : s.completeTransfer.ScheduleWf := by
  unfold State.completeTransfer
  split
  · exact h
  next pl htransferring =>
    unfold Drive.transferring at htransferring
    split at htransferring
    next hs =>
      have hpl : s.drive.plate = some pl := (Option.filter_eq_some_iff.mp htransferring).1
      split
      · exact h.transferMoves hpl (q := pl.lineSent) rfl hs rfl
      · exact h.endDone hpl rfl
    · cases htransferring

theorem stallExpiry (h : s.ScheduleWf) : s.stallExpiry.ScheduleWf := by
  unfold State.stallExpiry
  split
  · exact h.endShort _
  · exact h

/-! ## The ticket and settings directives (R131, R132, R139, R161, R162) -/

theorem withdrawTicket (h : s.ScheduleWf) (d : Directive) : (s.withdrawTicket d).ScheduleWf := by
  unfold State.withdrawTicket
  split
  · exact h.frame (by simp)
  next x hx =>
    split
    · exact endShort (h.frame (by simp)) _
    next hi =>
      exact ((h.removeTicket (State.ticket?_some hx).2 hi).offer).frame (by simp)

theorem enterTicket (h : s.ScheduleWf) (hrestart : s.restart = none) (front : Bool) {x : Ticket}
    (hfresh : ∀ y ∈ s.schedule, y.tag ≠ x.tag) (hi : x.state ≠ .imaging)
    (hx : ∀ z ∈ x.resolutions, ∃ p, s.page? z.record = some p ∧ p.current = true) :
    (s.enterTicket front x).ScheduleWf := by
  have hmem : ∀ {y}, y ∈ insertTicket front x s.schedule → y.state = .imaging → y ∈ s.schedule := fun hy hyi => by
    rw [(insertTicket_perm front x s.schedule).mem_iff, List.mem_cons] at hy
    exact hy.resolve_left fun heq => hi (heq ▸ hyi)
  let u : State := { (s.addUse x.leftRes true).addUse x.rightRes true with schedule := insertTicket front x s.schedule }
  have hdrive : u.drive = s.drive := by simp [u]
  have hkeeps : s.KeepsContext u := .of_eq hdrive (by simp [u])
  have hentered : u.ScheduleWf := by
    refine ⟨hkeeps.wf h.context, ?_, ⟨fun y hy hyi => ?_, fun pl hpl => ?_⟩,
      h.uses.enter front hx rfl rfl, fun hr => ?_⟩
    · show ((insertTicket front x s.schedule).map (·.tag)).Nodup
      rw [((insertTicket_perm front x s.schedule).map _).nodup_iff, List.map_cons, List.nodup_cons]
      refine ⟨fun hin => ?_, h.tags⟩
      obtain ⟨y, hy, htag⟩ := List.mem_map.mp hin
      exact hfresh y hy htag
    · rw [hdrive]
      exact h.imaging.inContext y (hmem hy hyi) hyi
    · rw [hdrive] at hpl
      obtain ⟨y, hy, htag, hyi⟩ := h.imaging.imaging pl hpl
      exact ⟨y, (insertTicket_perm front x s.schedule).mem_iff.mpr (List.mem_cons_of_mem _ hy), htag, hyi⟩
    · have hnone : u.restart = none := by simp [u, hrestart]
      simp [hnone] at hr
  exact hentered.offer


end State.ScheduleWf

end Sys2Proof.Machine
end

section
/-! PROOFS. Every step keeps the schedule, the drive and the page table in agreement (R4, R127, R137, R147, R170): the
directives, RESTART, the resets, and the step. -/

namespace Sys2Proof.Machine

open Sys2Proof (Byte Instr DramFault StoreSize CrcInit)

theorem Ticket.resolve_current {s : State} {y : Ticket} {z : Resolution} (h : z ∈ (s.resolveTicket y).resolutions) :
    ∃ p, s.page? z.record = some p ∧ p.current = true := by
  rcases Ticket.mem_resolutions.mp h with hleft | hright
  · exact State.resolve_current hleft
  · obtain ⟨b, -, hb⟩ := Option.bind_eq_some_iff.mp hright
    exact State.resolve_current hb

theorem State.readyTicket_not_imaging (s : State) {y : Ticket} (h : y.state ≠ .imaging) :
    (s.readyTicket y).state ≠ .imaging := by
  show s.armedState (s.resolveTicket y) ≠ .imaging
  rw [State.armedState_eq (show (s.resolveTicket y).state ≠ .imaging from h)]
  split <;> simp

/-- An empty schedule, over records that no ticket uses, with no plate in context. -/
theorem State.Parked.of_empty {s : State} (hplate : s.drive.plate = none) (hjob : s.prefetch.job = none)
    (hpool : s.drive.pool = []) (hstall : s.drive.stall = none) (hschedule : s.schedule = [])
    (hpages : ∀ r p, s.page? r = some p → p.useCount = 0) : s.Parked where
  plate := hplate
  job := hjob
  pool := hpool
  stall := hstall
  tags := by simp [State.TagsDistinct, hschedule]
  imaging := by simp [hschedule]
  uses := ⟨fun r p hp => by simp [hpages r p hp, State.uses, hschedule], by simp [hschedule]⟩
  held _ := hschedule

/-- A drive after a reset holds no plate (R164). -/
theorem State.Parked.afterReset {s : State} (h : s.Parked) {ready : Bool} (hd : s.drive = Drive.afterReset ready) :
    s.ScheduleWf := h.wf (by rw [hd]; cases ready <;> rfl) (by rw [hd]; cases ready <;> rfl)

namespace State.ScheduleWf

variable {s t : State}

/-! ## Directives and parcels -/

theorem postTicket (h : s.ScheduleWf) (hrestart : s.restart = none) (d : Directive) : (s.postTicket d).ScheduleWf := by
  unfold State.postTicket
  dsimp only
  split
  · exact h.frame (by simp)
  next ink _ =>
    split
    · exact h.frame (by simp)
    split
    · exact h.frame (by simp)
    next hfresh =>
      split
      · exact h.frame (by simp)
      · exact (h.enterTicket hrestart (ticketArgs d.payload).front (x := s.readyTicket ((ticketArgs d.payload).ticket ink))
          (State.ticket?_none.mp (Option.not_isSome_iff_eq_none.mp hfresh)) (s.readyTicket_not_imaging (by simp [TicketArgs.ticket]))
          fun z hz => Ticket.resolve_current hz).frame (by simp)

theorem setHead (h : s.ScheduleWf) (d : Directive) : (s.setHead d).ScheduleWf := by
  unfold State.setHead
  dsimp only
  split
  · exact h.frame (by simp)
  split
  · exact h.frame (by simp)
  · have hset : State.ScheduleWf { s with drive := { s.drive with settings := headArgs d.payload } } := h.withDrive rfl
    have haccept := hset.frame (t := State.accept { s with drive := { s.drive with settings := headArgs d.payload } } d) (by simp)
    split
    · exact haccept
    · exact haccept.offer

theorem resumeHead (h : s.ScheduleWf) (d : Directive) : (s.resumeHead d).ScheduleWf := by
  unfold State.resumeHead
  split
  next hs => exact (State.Parked.enterUnloading (.of_wf h (by rw [hs.1]; rfl))).frame (by simp)
  · exact h.frame (by simp)

theorem setScreener (h : s.ScheduleWf) (sc : Screener) : (s.setScreener sc).ScheduleWf :=
  rearm (s := { s with screener := sc }) (h.frame rfl) _

theorem acceptScreener (h : s.ScheduleWf) (sc : Screener) (d : Directive) (body : List Byte) :
    ((s.setScreener sc).accept d body).ScheduleWf :=
  frame (s := s.setScreener sc) (h.setScreener sc) (by simp)

theorem screenBegin (h : s.ScheduleWf) (d : Directive) : (s.screenBegin d).ScheduleWf := by
  unfold State.screenBegin
  dsimp only
  split
  · exact h.frame (by simp)
  split
  · exact h.frame (by simp)
  split
  · exact h.frame (by simp)
  · exact h.acceptScreener _ d _

theorem screenEnd (h : s.ScheduleWf) (d : Directive) : (s.screenEnd d).ScheduleWf := by
  unfold State.screenEnd
  split
  · exact h.frame (by simp)
  · split
    · exact h.frame (by simp)
    · exact h.acceptScreener _ d _

theorem curveLoad (h : s.ScheduleWf) (d : Directive) : (s.curveLoad d).ScheduleWf := by
  unfold State.curveLoad
  split
  · exact h.frame (by simp)
  split
  · exact h.frame (by simp)
  · exact h.acceptScreener _ d _

theorem setInk (h : s.ScheduleWf) (d : Directive) (i : Ink) (b : Option InkBinding) : (s.setInk d i b).ScheduleWf :=
  h.acceptScreener _ d _

theorem bindInk (h : s.ScheduleWf) (d : Directive) : (s.bindInk d).ScheduleWf := by
  unfold State.bindInk
  split
  · exact h.frame (by simp)
  · split
    · exact h.setInk d _ _
    · exact h.frame (by simp)

theorem unbindInk (h : s.ScheduleWf) (d : Directive) : (s.unbindInk d).ScheduleWf := by
  unfold State.unbindInk
  split
  · exact h.frame (by simp)
  · exact h.setInk d _ _

theorem issueSegment (h : s.ScheduleWf) (slot : Nat) (w : StoreWrite) (n : Nat) (allocated : Bool) :
    (s.issueSegment slot w n allocated).ScheduleWf := by
  have hslot : ∀ u : State, u.ScheduleWf →
      State.ScheduleWf { u with intake := { u.intake with slots := u.intake.slots.set slot (some w) } } :=
    fun _ hu => hu.frame rfl
  unfold State.issueSegment
  dsimp only
  refine arbitrate (frame (noteIssue (hslot _ ?_) w n) (by rfl))
  split
  · exact h.frame rfl
  · exact h

theorem takeSegmentParcel (h : s.ScheduleWf) : s.takeSegmentParcel.ScheduleWf := by
  unfold State.takeSegmentParcel
  split
  next parity flags hd payload k _ _ =>
    split
    · have hpop : s.popInlet.ScheduleWf := h.frame rfl
      refine evalFlag ?_
      cases s.judge parity hd payload with
      | accepted r id tile allocated => exact hpop.issueSegment _ _ _ _
      | unknownPage => exact hpop.frame rfl
      | malformed => exact hpop.frame rfl
      | duplicate => exact hpop.frame rfl
      | late => exact hpop.frame rfl
      | noTile => exact hpop.frame rfl
    · exact h
  all_goals exact h

/-! ## RESTART (R170, R171) -/

/-- With an empty schedule a RESTART may be taken in hand, and left. -/
theorem withRestart (h : s.ScheduleWf) (hs : s.schedule = []) (x : Option RestartHold) :
    State.ScheduleWf { s with restart := x } := by
  have hkeeps : s.KeepsContext { s with restart := x } := .of_eq rfl rfl
  exact ⟨hkeeps.wf h.context, h.tags, ⟨h.imaging.inContext, h.imaging.imaging⟩, h.uses.keep (.of_pages rfl) rfl,
    fun _ => hs⟩

theorem finishRestart (h : s.ScheduleWf) (hr : s.restart.isSome = true) (x : RestartHold) :
    (s.finishRestart x).ScheduleWf := by
  have hs := h.held hr
  have huses : s.emptyTables.UsesWf := by
    refine ⟨fun r p hp => ?_, fun y hy => ?_⟩
    · rw [State.page?_of_cleared (s := s.emptyTables) rfl] at hp
      cases hp
    · rw [show s.emptyTables.schedule = s.schedule from rfl, hs] at hy
      cases hy
  have hempty : s.emptyTables.ScheduleWf := h.withUses huses rfl
  have hreplied : (s.emptyTables.evalFlag.replyRestart x).ScheduleWf := hempty.evalFlag.frame (by simp)
  have hstarted := hreplied.frame (t := (s.emptyTables.evalFlag.replyRestart x).report
    ((s.emptyTables.evalFlag.replyRestart x).startedReport .restart x.aborted)) (by simp)
  exact hstarted.withRestart (by simpa [State.emptyTables] using hs) none

theorem restartDue_some {x : RestartHold} (h : s.restartDue = some x) : s.restart.isSome = true := by
  unfold State.restartDue at h
  split at h
  · cases h
  · rw [h]; rfl

theorem finishIfDue (h : s.ScheduleWf) : s.finishIfDue.ScheduleWf := by
  unfold State.finishIfDue
  split
  · exact h
  next x hx => exact h.finishRestart (restartDue_some hx) x

theorem finishOrHold (h : s.ScheduleWf) : s.finishOrHold.ScheduleWf := by
  unfold State.finishOrHold
  split
  · exact h.evalFlag
  next x hx => exact h.finishRestart (restartDue_some hx) x

end State.ScheduleWf

theorem State.abortSchedule_schedule (s : State) : s.abortSchedule.schedule = [] := by
  rw [State.abortSchedule, State.enterUnloading_eq]

theorem State.abortSchedule_wf (s : State) : s.abortSchedule.ScheduleWf := by
  refine State.Parked.enterUnloading (.of_empty rfl rfl rfl rfl rfl fun r p hp => ?_)
  simp only [State.page?, List.getD_eq_getElem?_getD, List.getElem?_map, Option.getD_eq_iff] at hp
  rcases hp with hp | hp
  · obtain ⟨x, -, hx⟩ := Option.map_eq_some_iff.mp hp
    obtain ⟨q, -, rfl⟩ := Option.map_eq_some_iff.mp hx
    rfl
  · cases hp.2

theorem State.takeRestart_wf (s : State) (d : Directive) : (s.takeRestart d).ScheduleWf :=
  (s.abortSchedule_wf.withRestart s.abortSchedule_schedule (some ⟨d.tag, d.quiet, s.drive.abortedTag⟩)).frame rfl

namespace State.ScheduleWf

variable {s : State}

theorem restartDirective (h : s.ScheduleWf) : s.restartDirective.ScheduleWf := by
  unfold State.restartDirective
  split
  · exact h
  · exact (s.popInlet.takeRestart_wf _).finishOrHold

/-! ## The resets (R20, R146, R164) -/

theorem afterPowerOn (s : State) (size : StoreSize) (crc : CrcInit) (ready : Bool) :
    (s.afterPowerOn size crc ready).ScheduleWf := by
  refine State.Parked.afterReset (ready := ready) (.of_empty ?_ rfl ?_ ?_ rfl fun r p hp => ?_) rfl
  · cases ready <;> rfl
  · cases ready <;> rfl
  · cases ready <;> rfl
  · rw [State.page?_of_cleared (s := s.afterPowerOn size crc ready) rfl] at hp
    cases hp

theorem afterPin (s : State) (ready : Bool) : (s.afterPin ready).ScheduleWf := by
  refine State.Parked.afterReset (ready := ready) (.of_empty ?_ rfl ?_ ?_ rfl fun r p hp => ?_) rfl
  · cases ready <;> rfl
  · cases ready <;> rfl
  · cases ready <;> rfl
  · rw [State.page?_of_cleared (s := s.afterPin ready) rfl] at hp
    cases hp

theorem pinReset (s : State) (ready : Bool) : (s.pinReset ready).ScheduleWf := by
  unfold State.pinReset
  split
  · exact (afterPin s ready).frame (by simp)
  · exact (afterPin s ready).evalFlag.frame (by simp)

/-! ## The step -/

theorem keptByActs : KeptByActs State.ScheduleWf where
  beginStep {s} h := (h.withDrive (d := { s.drive with plateEnd := false }) rfl).frame rfl
  settle s h := h.frame (by simp)
  report r h := h.frame (by simp)
  evalFlag := .evalFlag
  popInlet h := h.frame rfl
  startMarker h := h.frame (by simp)
  framerByte b h := h.frame (by simp)
  assemblyTimeout h := h.frame (by simp)
  takeSegmentParcel := .takeSegmentParcel
  completeWrite _ _ _ h := (h.completeWrite _ _).finishIfDue
  completeRead faults _ _ h := h.completeRead _ faults
  beginRepair _ h := h.beginRepair.arbitrate
  sweepTileTest first second h := h.frame (by simp)
  afterPowerOn size crc ready _ := afterPowerOn _ size crc ready
  pinReset ready _ := pinReset _ ready
  openPage d _ h := h.openPage d
  closePage d h := h.closePage d
  releasePage d h := h.releasePage d
  postTicket d ht h := h.postTicket (by
    simp only [State.intakeTaking, Bool.and_eq_true, Option.isNone_iff_eq_none] at ht
    exact ht.2) d
  withdrawTicket d h := h.withdrawTicket d
  bindInk d h := h.bindInk d
  unbindInk d h := h.unbindInk d
  screenBegin d h := h.screenBegin d
  screenData d h := h.frame (by simp)
  screenEnd d h := h.screenEnd d
  curveLoad d h := h.curveLoad d
  setFlow d h := h.frame (by simp)
  setHead d h := h.setHead d
  resumeHead d h := h.resumeHead d
  setAlarmMask d h := h.frame (by simp)
  clearAlarms d h := h.frame (by simp)
  clearCounters d h := h.frame (by simp)
  restartDirective := .restartDirective
  finishIfDue := .finishIfDue
  makeLine _ h := h.goOn ((State.KeepsContext.makeLine _).trans (.primeTest _)) (by simp)
  issueRead side kind h := h.goOn ((State.KeepsContext.issueRead _ side kind).trans (.arbitrate _)) (by simp)
  plateReadyRise := .plateReadyRise
  plateReadyFall := .plateReadyFall
  lineReq := .lineReq
  completeTransfer := .completeTransfer
  stallExpiry := .stallExpiry
  haltSample high h := h.haltSample high
  parcelEnd causeFirst h := h.frame (by simp)
  queueOwed _ h := h.frame (by simp)

end State.ScheduleWf

/-- Settles O59: the plate in context is carried through what Prefetch and the drive do, and the use counts through every
ticket that enters, leaves or is resolved anew. -/
theorem stepsKeepSchedule : Obligations.StepsKeepSchedule :=
  State.ScheduleWf.keptByActs.stepKeeps fun _ h => h.frame rfl

end Sys2Proof.Machine
end

section
/-! PROOFS. RESTART: its taking, and its finish as a command of its own (R170, R171). -/

namespace Sys2Proof.Machine

open Sys2Proof (Byte Instr)

/-! ## The ALARM reports of an event -/

/-- All that an event has queued are ALARM reports; on an idle lane the sending of the first report may have begun. -/
def Reports.AlarmsJoin (a b : Reports) : Prop :=
  ∃ more : List Report, (∀ r ∈ more, r.isAlarm = true) ∧
    ((b.sending = a.sending ∧ b.queue = a.queue ++ more) ∨
      (a.sending = none ∧ ∃ r, b.sending = some r ∧ r :: b.queue = a.queue ++ more))

theorem Reports.owedReport_isAlarm (rp : Reports) : ∀ r ∈ rp.owedReport, r.isAlarm = true := by
  unfold Reports.owedReport
  split <;> simp [Report.isAlarm]

/-- A latching queues at most one ALARM report (R177). -/
theorem Reports.latch_alarms (rp : Reports) (a : Alarm) :
    ∃ more : List Report, (∀ r ∈ more, r.isAlarm = true) ∧ (rp.latch a).sending = rp.sending ∧
      (rp.latch a).queue = rp.queue ++ more := by
  unfold Reports.latch
  split
  · exact ⟨[], by simp⟩
  split
  · exact ⟨[], by simp⟩
  split
  · exact ⟨[], by simp⟩
  · unfold Reports.enqueue Reports.drop
    split
    · exact ⟨[], by simp⟩
    · exact ⟨[.alarm (rp.latches ||| a.bit) rp.mask], by simp [Report.isAlarm]⟩

/-- An evaluation of the holding flag queues at most the ALARM report of STORE_LOW (R39). -/
theorem State.evalFlag_alarms (s : State) :
    ∃ more : List Report, (∀ r ∈ more, r.isAlarm = true) ∧ s.evalFlag.reports.sending = s.reports.sending ∧
      s.evalFlag.reports.queue = s.reports.queue ++ more := by
  unfold State.evalFlag
  split
  · exact ⟨[], by simp⟩
  · dsimp only
    split
    · exact s.reports.latch_alarms _
    · exact ⟨[], by simp⟩

/-- The end of an event adds at most the owed ALARM report (R178). -/
theorem State.settle_alarms {s t : State} {a : Reports} {more : List Report} (halarm : ∀ r ∈ more, r.isAlarm = true)
    (hsending : t.reports.sending = a.sending) (hqueue : t.reports.queue = a.queue ++ more) :
    a.AlarmsJoin (s.settle t).reports := by
  unfold State.settle
  split
  next hboundary =>
    have hidle : t.reports.sending = none := by
      simp only [State.boundaryAfter, Bool.and_eq_true, Option.isNone_iff_eq_none] at hboundary
      exact hboundary.1
    obtain ⟨hnext, -, hleft, -⟩ := Reports.boundary_lane t.intake.holding t.straps.crcInit hidle
    cases hq : t.reports.queue with
    | nil =>
      refine ⟨more, halarm, .inl ⟨?_, ?_⟩⟩
      · simpa [State.boundary, hq, ← hsending, hidle] using hnext
      · rw [← hqueue, hq]
        simpa [State.boundary, hq] using hleft
    | cons r rest =>
      refine ⟨more ++ t.reports.owedReport, fun x hx => ?_, .inr ⟨hsending ▸ hidle, r, ?_, ?_⟩⟩
      · exact (List.mem_append.mp hx).elim (halarm x) (t.reports.owedReport_isAlarm x)
      · simpa [State.boundary, hq] using hnext
      · rw [← List.append_assoc, ← hqueue, hq]
        simpa [State.boundary, hq] using hleft
  · exact ⟨more, halarm, .inl ⟨hsending, hqueue⟩⟩

/-! ## The taking (R170) -/

/-- The state a RESTART that is taken leaves, ahead of its finish or its being held. -/
theorem State.takeRestart_eq (s : State) (d : Directive) : s.takeRestart d =
    { s with
      drive := { s.drive with
        plate := none, pool := [], stall := none, state := if s.drive.plateReady then .unloading else .idle
        selected := none }
      prefetch := { s.prefetch with job := none }
      schedule := []
      pages := s.pages.map fun p => p.map fun p => { p with useCount := 0 }
      repair := s.repair.afterRestart
      screener := s.screener.afterRestart
      restart := some ⟨d.tag, d.quiet, s.drive.abortedTag⟩ } := by
  have hnone : ∀ mode, eligibleIn mode [] = none := fun mode => by cases mode <;> rfl
  unfold State.takeRestart State.abortSchedule
  rw [State.enterUnloading_eq]
  simp only [State.eligible, hnone, Option.map_none, Option.isSome_none, Bool.false_eq_true, if_false, ite_self]
  rfl

theorem State.takeRestart_useCount {s : State} {d : Directive} {r : Nat} {p : PageRecord}
    (h : (s.takeRestart d).page? r = some p) : p.useCount = 0 := by
  have huses := (s.takeRestart_wf d).uses.counts r p h
  rw [huses, State.uses_eq_zero]
  simp [State.takeRestart_eq]

theorem Screener.screen_afterRestart (sc : Screener) (n : Nat) :
    sc.afterRestart.screen n = (sc.screen n).afterRestart := by
  simp only [Screener.screen, Screener.afterRestart, List.getD_eq_getElem?_getD, List.getElem?_map]
  cases sc.screens[n]? <;> rfl

/-- Settles O42: the taking leaves one state, and the finish or the holding of it keeps what both cases state. -/
theorem restartAbortsPlate : Obligations.RestartAbortsPlate := by
  intro s d ht hold
  let u : State := s.beginStep.popInlet.takeRestart d
  have hu : u = _ := State.takeRestart_eq s.beginStep.popInlet d
  have hevent : exec .restart s = .next (s.beginStep.settle u.finishOrHold) := by
    show Host.Outcome.next (s.event State.restartDirective) = _
    unfold State.event
    rw [State.restartDirective_of_takes (s := s.beginStep) (d := d) ht]
  have hsweep : s.store.sweep = none := State.sweep_of_takes ht
  have hrestart : u.restart = some hold := by rw [hu]; rfl
  have hwrites : u.writesInFlight = s.writesInFlight := by rw [hu]; rfl
  have huses : ∀ r p, (s.beginStep.settle u.finishOrHold).page? r = some p → p.useCount = 0 := fun r p hp => by
    rcases u.finishOrHold_cases with ⟨heq, -⟩ | ⟨h, -, -, heq⟩
    · rw [State.page?_congr (t := s.beginStep.settle u.finishOrHold) (s := u) (by simp [heq])] at hp
      exact State.takeRestart_useCount hp
    · rw [State.page?_of_cleared (n := Config.pageRecords) (by simp [heq])] at hp
      cases hp
  have hqueue : u.finishOrHold.repair.queue = [] ∧ u.finishOrHold.intake.flow = s.intake.flow ∧
      u.finishOrHold.intake.queue = s.intake.queue.tail ∧ u.finishOrHold.intake.slots = s.intake.slots := by
    rcases u.finishOrHold_cases with ⟨heq, -⟩ | ⟨h, -, -, heq⟩
    · rw [heq]
      simp [hu, Repair.afterRestart, State.popInlet]
    · rw [heq]
      simp [hu, State.popInlet]
  obtain ⟨hrepair, hflow, hinlet, hslots⟩ := hqueue
  have hscreen : ∀ n, u.screener.screen n = (s.screener.screen n).afterRestart := fun n => by
    rw [hu]
    exact Screener.screen_afterRestart s.screener n
  refine ⟨_, hevent, ?_⟩
  simp only [State.settle_same, State.finishOrHold_same, hrepair, hflow, hinlet, hslots, hscreen]
  refine ⟨by rw [hu], by rw [hu], by rw [hu], by rw [hu]; rfl, by rw [hu]; rfl, by rw [hu], trivial, by rw [hu]; rfl, huses,
    by rw [hu]; rfl, by rw [hu]; rfl, fun n tb h => by rw [h]; rfl, fun n tb h => by rw [h]; rfl,
    fun n h => by rw [h]; rfl, by rw [hu]; rfl, trivial, trivial, trivial, fun hw => ?_, fun hw => ?_⟩
  · have hheld : u.finishOrHold = u.evalFlag := by
      rcases u.finishOrHold_cases with ⟨heq, -⟩ | ⟨h, hno, -⟩
      · exact heq
      · rw [hwrites, hw] at hno; cases hno
    have hreports : u.reports = s.beginStep.reports := by rw [hu]; rfl
    have htouches : s.reports.touches (s.beginStep.settle u.evalFlag).reports [] [.storeLow] :=
      State.settle_touches (Reports.touches_trans (b := u.reports)
        (by rw [hreports]; exact Reports.touches_of_eq rfl rfl rfl _ _)
        (u.evalFlag_touches [] [.storeLow] (by simp)))
    obtain ⟨more, halarm, hsending, hq⟩ := u.evalFlag_alarms
    rw [hheld]
    refine ⟨by simp [hrestart], by simp [State.intakeTaking, hrestart], by simp [hu], ?_, htouches,
      State.settle_alarms halarm (hsending.trans (by rw [hreports]; rfl)) (hq.trans (by rw [hreports]; rfl))⟩
    exact htouches.1 .platesSpoiled (by simp) (by simp)
  · have hfinished : u.finishOrHold = u.finishRestart hold := by
      rcases u.finishOrHold_cases with ⟨-, hno | hno⟩ | ⟨h, -, hr, heq⟩
      · rw [hwrites, hw] at hno; cases hno
      · rw [hrestart] at hno; cases hno
      · rw [heq, Option.some.inj (hr.symm.trans hrestart)]
    have hstore : u.store = s.store := by rw [hu]; rfl
    have hstraps : u.straps = s.straps := by rw [hu]; rfl
    have hflag := State.finishRestart_flag hold (s := u) (by rw [hstore, hsweep])
    rw [hfinished]
    refine ⟨State.finishRestart_finished hold hstraps (by rw [hstore]) (by rw [hstore, hsweep]) (by rw [hu]; rfl)
      (by rw [hu]; rfl) (by rw [hu]; rfl) fun hlow _ => by rw [hu]; exact hlow, by simp [hstore], ?_⟩
    have hintake : u.intake = { s.intake with queue := s.intake.queue.tail } := by rw [hu]; rfl
    have hfree : u.tileCount - u.retiredCount = s.tileCount - s.retiredCount := by
      simp [State.tileCount, State.retiredCount, hstore, hstraps]
    rw [hfree] at hflag
    refine ⟨fun h => ?_, fun h => ?_⟩
    · simpa [hintake] using hflag.raised (by rw [hintake]; exact h)
    · simpa [hintake] using hflag.lowered (by rw [hintake]; exact h)

/-! ## RESTART_FINISH (R171) -/

/-- Settles O43: the command finishes what is due, and otherwise nothing happens. -/
theorem restartFinishEmptiesTables : Obligations.RestartFinishEmptiesTables := by
  refine ⟨fun s hidle => ?_, fun s h hr hsweep hw => ?_⟩
  · have hsame : s.beginStep.finishIfDue = s.beginStep := by
      rcases s.beginStep.finishIfDue_cases with ⟨heq, -⟩ | ⟨h, hw, hr, -⟩
      · exact heq
      · rcases hidle with hidle | hidle
        · exact absurd (hw.symm.trans hidle) (by simp)
        · exact absurd (hr.symm.trans hidle) (by simp)
    show Host.Outcome.next (s.event State.finishIfDue) = _
    unfold State.event
    rw [hsame, State.settle_quiet rfl rfl]
  · have hfinished : s.beginStep.finishIfDue = s.beginStep.finishRestart h := by
      rcases s.beginStep.finishIfDue_cases with ⟨-, hno | hno⟩ | ⟨x, -, hx, heq⟩
      · exact absurd (hno.symm.trans hw) (by simp)
      · exact absurd (hno.symm.trans hr) (by simp)
      · rw [heq, Option.some.inj (hx.symm.trans hr)]
    refine ⟨_, congrArg (fun u => Host.Outcome.next (s.beginStep.settle u)) hfinished, ?_⟩
    have hflag := State.finishRestart_flag h (s := s.beginStep) hsweep
    refine ⟨State.finishRestart_finished h rfl rfl hsweep rfl rfl rfl fun hlow _ => hlow, by simp, ⟨fun hh => ?_,
      fun hh => ?_⟩, by simp, by simp, by simp, by simp, by simp, by simp, by simp, by simp, by simp⟩
    · rw [(State.settle_same _ _).2.2.2.1]; exact hflag.raised hh
    · rw [(State.settle_same _ _).2.2.2.1]; exact hflag.lowered hh

end Sys2Proof.Machine
end

section
/-! PROOFS. The unpacker, the dot arithmetic, and the issue of a read by Prefetch (R80, R81, R90, R101 to R107). -/

namespace Sys2Proof.Machine

open Sys2Proof (Byte Instr)

/-! ## The unpacker (R80, R81) -/

/-- A row under construction is short of the row width, or is full with operand bytes of an overrun literal to come. -/
def RowState.UnderWay (r : RowState) (width : Nat) : Prop :=
  (r.placed.length < width ∧ ∀ k, r.op ≠ .skip k) ∨ (r.placed.length = width ∧ ∃ k, r.op = .skip k)

/-- What one byte leaves: a row under way, or a complete row of the row width. -/
def RowStep.Fits (x : RowStep) (width : Nat) : Prop :=
  (∀ r, x = .more r → r.UnderWay width) ∧ ∀ row overrun, x = .complete row overrun → row.length = width

theorem RowStep.fits_more {width : Nat} {r : RowState} (h : r.UnderWay width) : RowStep.Fits (.more r) width := by
  refine ⟨fun r' hr => ?_, fun _ _ hc => (by cases hc)⟩
  cases hr
  exact h

theorem RowStep.fits_complete {width : Nat} {row : List Byte} {overrun : Bool} (h : row.length = width) :
    RowStep.Fits (.complete row overrun) width := by
  refine ⟨fun _ hc => (by cases hc), fun row' _ hr => ?_⟩
  cases hr
  exact h

theorem opOfCode_ne_skip (c k : Nat) : opOfCode c ≠ .skip k := by
  unfold opOfCode
  split
  · simp
  split
  · simp
  split <;> simp

/-- An output that holds its size, or what is left of the row, fits. -/
theorem placeOutput_fits {width : Nat} {placed chunk : List Byte} {k : Nat} (hsize : chunk.length ≤ k)
    (hreach : width ≤ placed.length + k → width ≤ placed.length + chunk.length) :
    (placeOutput width placed chunk k).Fits width := by
  unfold placeOutput
  split
  · exact RowStep.fits_more (.inl ⟨by simp; omega, by simp⟩)
  · exact RowStep.fits_complete (by simp; omega)

theorem eatByte_fits {width : Nat} {previous : List Byte} (hp : previous.length = width) {r : RowState}
    (h : r.UnderWay width) (b : Byte) : (eatByte width previous r b).Fits width := by
  rcases h with ⟨hlen, hop⟩ | ⟨hlen, k, hop⟩
  · unfold eatByte
    split
    next k hk => exact absurd hk (hop k)
    next => exact RowStep.fits_more (.inl ⟨hlen, opOfCode_ne_skip _⟩)
    next k _ =>
      split
      · exact RowStep.fits_more (.inl ⟨by simp; omega, by split <;> simp⟩)
      · split
        · exact RowStep.fits_complete (by simp; omega)
        · exact RowStep.fits_more (.inr ⟨by simp; omega, _, rfl⟩)
    next k _ => exact placeOutput_fits (by simp) (by simp)
    next => exact placeOutput_fits (by simp) (by simp; omega)
    next => exact RowStep.fits_complete (by simp; omega)
  · unfold eatByte
    rw [hop]
    dsimp only
    split
    · exact RowStep.fits_complete hlen
    · exact RowStep.fits_more (.inr ⟨hlen, _, rfl⟩)

/-- A completed row has the row width, and has taken some of the bytes. -/
theorem eatBytes_complete {width : Nat} {previous : List Byte} (hp : previous.length = width) (bytes : List Byte) :
    ∀ {r : RowState} {row rest : List Byte} {overrun : Bool}, r.UnderWay width →
      eatBytes width previous r bytes = .complete row overrun rest →
      row.length = width ∧ rest.length < bytes.length ∧ ∃ used, bytes = used ++ rest := by
  induction bytes with
  | nil => exact fun _ h => by cases h
  | cons b bs ih =>
    intro r row rest overrun hr h
    have hfits := eatByte_fits hp hr b
    unfold eatBytes at h
    cases hstep : eatByte width previous r b with
    | more r' =>
      rw [hstep] at h
      obtain ⟨hrow, hlt, used, rfl⟩ := ih (hfits.1 r' hstep) h
      exact ⟨hrow, Nat.lt_succ_of_lt hlt, b :: used, rfl⟩
    | complete row' overrun' =>
      rw [hstep] at h
      cases h
      exact ⟨hfits.2 row overrun hstep, by simp, [b], rfl⟩

theorem eatBytes_more {width : Nat} {previous bs : List Byte} {r r' : RowState} {b : Byte}
    (h : eatByte width previous r b = .more r') :
    eatBytes width previous r (b :: bs) = eatBytes width previous r' bs := by
  rw [eatBytes, h]

theorem eatBytes_done {width : Nat} {previous bs row : List Byte} {r : RowState} {overrun : Bool} {b : Byte}
    (h : eatByte width previous r b = .complete row overrun) :
    eatBytes width previous r (b :: bs) = .complete row overrun bs := by
  rw [eatBytes, h]

/-- The operand bytes of an overrun literal are consumed, and the row is complete with the last of them. -/
theorem eatBytes_skip (width : Nat) (previous row rest : List Byte) (args : List Byte) : args ≠ [] →
    eatBytes width previous ⟨row, .skip args.length⟩ (args ++ rest) = .complete row true rest := by
  induction args with
  | nil => exact fun h => absurd rfl h
  | cons b bs ih =>
    intro _
    rw [List.cons_append]
    cases bs with
    | nil => exact eatBytes_done (by simp [eatByte])
    | cons b' bs' =>
      rw [eatBytes_more (r' := ⟨row, .skip (b' :: bs').length⟩) (by simp [eatByte])]
      exact ih (by simp)

/-- A literal places its bytes, cut at the row end. -/
theorem eatBytes_literal {width : Nat} (previous rest : List Byte) (args : List Byte) : ∀ {placed : List Byte},
    placed.length < width → args ≠ [] →
    (placed.length + args.length < width →
      eatBytes width previous ⟨placed, .literal args.length⟩ (args ++ rest)
        = eatBytes width previous ⟨placed ++ args, .code⟩ rest) ∧
    (width ≤ placed.length + args.length →
      eatBytes width previous ⟨placed, .literal args.length⟩ (args ++ rest)
        = .complete ((placed ++ args).take width) (decide (width < placed.length + args.length)) rest) := by
  induction args with
  | nil => exact fun _ h => absurd rfl h
  | cons b bs ih =>
    intro placed hlen _
    rw [List.cons_append, List.length_cons]
    by_cases hroom : placed.length + 1 < width
    · cases bs with
      | nil =>
        refine ⟨fun _ => ?_, fun hfull => absurd hroom (by simpa using hfull)⟩
        rw [eatBytes_more (r' := ⟨placed ++ [b], .code⟩) (by simp [eatByte, hroom])]
        rfl
      | cons b' bs' =>
        have hstep : eatBytes width previous ⟨placed, .literal ((b' :: bs').length + 1)⟩ (b :: (b' :: bs' ++ rest))
            = eatBytes width previous ⟨placed ++ [b], .literal (b' :: bs').length⟩ (b' :: bs' ++ rest) :=
          eatBytes_more (by simp [eatByte, hroom])
        obtain ⟨hshort, hfull⟩ := ih (placed := placed ++ [b]) (by simpa using hroom) (by simp)
        rw [hstep]
        simp only [List.length_append, List.length_cons, List.length_nil, List.append_assoc, List.cons_append,
          List.nil_append] at hshort hfull ⊢
        exact ⟨fun hlt => hshort (by omega), fun hle => by
          rw [hfull (by omega), Nat.add_assoc, Nat.add_comm 1]⟩
    · refine ⟨fun hlt => absurd hlt (by omega), fun _ => ?_⟩
      have hcut : ∀ more : List Byte, (placed ++ b :: more).take width = (placed ++ [b]).take width := fun more => by
        rw [List.append_cons, List.take_append_of_le_length (by simp; omega)]
      cases bs with
      | nil => rw [eatBytes_done (overrun := false) (row := (placed ++ [b]).take width) (by simp [eatByte, hroom])]; simp; omega
      | cons b' bs' =>
        rw [eatBytes_more (r' := ⟨(placed ++ [b]).take width, .skip (b' :: bs').length⟩) (by simp [eatByte, hroom]),
          eatBytes_skip width previous _ rest (b' :: bs') (by simp), hcut (b' :: bs')]
        rw [decide_eq_true (by simp only [List.length_cons]; omega)]

/-- An output whose size is known when its operand byte is consumed. -/
theorem eatBytes_placed {width : Nat} {previous placed chunk rest : List Byte} {op : UnpackOp} {b : Byte} {size : Nat}
    (h : eatByte width previous ⟨placed, op⟩ b = placeOutput width placed chunk size) :
    (placed.length + size < width →
      eatBytes width previous ⟨placed, op⟩ (b :: rest) = eatBytes width previous ⟨placed ++ chunk, .code⟩ rest) ∧
    (width ≤ placed.length + size →
      eatBytes width previous ⟨placed, op⟩ (b :: rest)
        = .complete ((placed ++ chunk).take width) (decide (width < placed.length + size)) rest) :=
  ⟨fun hlt => eatBytes_more (h.trans (if_pos hlt)), fun hle => eatBytes_done (h.trans (if_neg (by omega)))⟩

theorem eatBytes_code (width : Nat) (previous placed rest : List Byte) (c : Byte) :
    eatBytes width previous ⟨placed, .code⟩ (c :: rest)
      = eatBytes width previous ⟨placed, opOfCode c.toNat⟩ rest := by
  rw [eatBytes, eatByte]

/-- Settles O46: a row under way stays so byte by byte, and each code is one case of the unpacker. -/
theorem completeRowHasRowWidth : Obligations.CompleteRowHasRowWidth := by
  refine ⟨fun width previous bytes row rest r overrun hp hr h => eatBytes_complete hp bytes hr h, ?_⟩
  intro width previous placed args chunk rest c size hp hlen hcode
  have hbegin : ∀ op, opOfCode c.toNat = op → eatBytes width previous ⟨placed, .code⟩ (c :: args ++ rest)
      = eatBytes width previous ⟨placed, op⟩ (args ++ rest) := fun op hop =>
    hop ▸ eatBytes_code width previous placed (args ++ rest) c
  rcases hcode with ⟨hc, hargs, hsize, hchunk⟩ | ⟨v, hge, hlt, hargs, hsize, hchunk⟩ |
    ⟨n, hc, hargs, hsize, hchunk⟩ | ⟨v, hc, hargs, hsize, hchunk⟩
  · rw [hchunk, hsize, ← hargs, hbegin (.literal args.length) (by rw [opOfCode, if_pos hc, hargs])]
    exact eatBytes_literal previous rest args hlen (List.ne_nil_of_length_pos (by omega))
  · rw [hbegin (.run (c.toNat - 125)) (by simp [opOfCode, hlt, Nat.not_lt.mpr hge]), ← hsize, hchunk, hargs]
    exact eatBytes_placed rfl
  · subst hargs hchunk
    rw [hbegin .verticalCopy (by simp [opOfCode, hc]), hsize]
    exact eatBytes_placed rfl
  · subst hargs hchunk
    rw [hbegin .rowFill (by simp [opOfCode, hc]), hsize]
    refine ⟨fun hlt => absurd hlt (by omega), fun _ => ?_⟩
    have hlength : (placed ++ List.replicate (width - placed.length) v).length = width := by simp; omega
    rw [List.take_of_length_le (by omega)]
    exact eatBytes_done (by simp [eatByte]; omega)

/-! ## The value of one dot (R98 to R107) -/

theorem screenedDot_iff {t : ScreenTable} {curve : List Byte} {floor ceiling : Nat} {picture : List Byte} {px x y v n : Nat}
    (hv : tone curve (u8 picture (px / 4)) = v) (hn : toned floor ceiling v = n) :
    screenedDot t curve floor ceiling picture px x y = true ↔ threshold t x y ≤ n := by
  rw [screenedDot, hv, hn, decide_eq_true_iff]

/-- A threshold of a screen whose entries lie in 1..255 (R104). -/
theorem threshold_pos {t : ScreenTable} (hw : 0 < t.w) (hh : 0 < t.h) (hlen : t.entries.length = t.w * t.h)
    (hentries : ∀ b ∈ t.entries, b ≠ 0) (x y : Nat) : 0 < threshold t x y := by
  have hlt : thresholdPosition t x y < t.entries.length := by
    rw [hlen, thresholdPosition, Nat.mul_comm t.w t.h]
    calc y % t.h * t.w + (x + y / t.h * t.sh) % t.w < y % t.h * t.w + t.w := Nat.add_lt_add_left (Nat.mod_lt _ hw) _
      _ = (y % t.h + 1) * t.w := by rw [Nat.add_mul, Nat.one_mul]
      _ ≤ t.h * t.w := Nat.mul_le_mul_right _ (Nat.mod_lt _ hh)
  rw [threshold, List.getD_eq_getElem _ _ hlt, Nat.pos_iff_ne_zero]
  exact fun hzero => hentries _ (List.getElem_mem hlt) (BitVec.eq_of_toNat_eq hzero)

theorem lineWorkBit_bytes (b : List Byte) (px x y : Nat) :
    lineWorkBit (.bytes b) px x y = (b.getD (px / 8) 0).getLsbD (7 - px % 8) := by
  have hbit : px % 8 < 8 := Nat.mod_lt _ (by decide)
  rw [lineWorkBit, BitVec.getMsbD_eq_getLsbD]
  simp only [hbit, decide_true, Bool.true_and]

/-- Settles O47, clause by clause of the arithmetic. -/
theorem extremeTonesIgnoreScreen : Obligations.ExtremeTonesIgnoreScreen := by
  intro t curve floor ceiling rows px x y v entry screened dot
  have hv : tone curve (u8 rows.picture (px / 4)) = v := rfl
  have hdot : ∀ n, toned floor ceiling v = n → (screened = true ↔ entry ≤ n) := fun n hn => screenedDot_iff hv hn
  have hstands : v = 0 ∨ v = 255 → (screened = true ↔ entry ≤ v) := fun h => hdot v (if_pos h)
  refine ⟨fun hw hh hlen hentries => ⟨fun hzero => ?_, fun hfull => ?_⟩, hstands, fun h1 h2 hf => hdot _ ?_,
    fun h1 h2 hf hc => hdot _ ?_, fun h1 h2 hf hc => hdot _ ?_, fun b hb => ?_, fun hm => ?_,
    fun pl other hx hfloor hceiling => ⟨fun hleft hpx => ?_, fun page hright hpx hwidth => ?_⟩⟩
  · have hpos : 0 < entry := threshold_pos hw hh hlen hentries x y
    rw [← Bool.not_eq_true, hstands (.inl hzero)]
    omega
  · have hle : entry < 256 := (t.entries.getD _ 0).isLt
    rw [hstands (.inr hfull)]
    omega
  · simp only [toned]
    rw [if_neg (by omega), if_pos hf]
  · simp only [toned]
    rw [if_neg (by omega), if_neg (by omega), if_pos hc]
  · simp only [toned]
    rw [if_neg (by omega), if_neg (by omega), if_neg (by omega)]
  · show pageDot t curve floor ceiling rows px x y = true ↔ _
    rw [pageDot, hb, lineWorkBit_bytes, Bool.or_eq_true]
  · show pageDot t curve floor ceiling rows px x y = true ↔ _
    rw [pageDot, hm, Bool.or_eq_true]
    simp [lineWorkBit, damageMark]
    rfl
  · subst hpx
    rw [getD_imageLine, decide_eq_true hx, Bool.true_and]
    unfold plateDot
    rw [if_pos hleft, hfloor, hceiling]
  · have hcolumn : x - (pl.left.width + pl.gutter) = px := by omega
    rw [getD_imageLine, decide_eq_true hx, Bool.true_and]
    unfold plateDot
    rw [if_neg (by omega), hright]
    dsimp only
    rw [if_pos (by omega), hfloor, hceiling, hcolumn]

/-! ## The issue of a read (R90) -/

/-- A stream that may issue has slots left, no cut, and room. -/
theorem State.streamIssues_iff {s : State} {side : Side} {kind : LayerKind} {c : Capture} {u : Stream}
    (hc : s.captureOf side kind = some c) (hu : c.stream? = some u) :
    s.streamIssues side kind = true ↔
      u.issued < u.slotCount ∧ u.cut = none ∧ 0 < u.room ∧ s.outstanding side kind < Config.maxOutstanding := by
  simp [State.streamIssues, hc, hu, and_assoc]

/-- What the issue of a read by a stream leaves, ahead of the arbiter. -/
theorem State.issueRead_eq {s : State} {side : Side} {kind : LayerKind} {c : Capture} {u : Stream}
    (hc : s.captureOf side kind = some c) (hu : c.stream? = some u) : s.issueRead side kind =
      { s.setCapture side kind (c.withStream { u with issued := u.issued + u.nextSlots.length }) with
        store := { s.store with readSide := s.store.readSide ++ [u.nextRead side kind c.serial] } } := by
  simp [State.issueRead, hc, hu]

/-- Settles O45: the stream that may issue names the next slots of its tile, and the idle store serves the read. -/
theorem prefetchIssuesRead : Obligations.PrefetchIssuesRead := by
  intro s side kind c u hissuing hc hu hidle hreads hwrites r count hretired
  have hissues : s.streamIssues side kind = true := by
    have hfound := List.find?_some hissuing
    exact hfound
  obtain ⟨hleft, -, hroom, -⟩ := (State.streamIssues_iff hc hu).mp hissues
  have hslots : u.slotCount = (u.length + 255) / 256 := rfl
  have hcount : u.nextSlots.length = count := by
    simp [Stream.nextSlots, Stream.leftInTile, count, hslots]
  have hissued := State.issueRead_eq (s := s.beginStep) (side := side) (kind := kind) hc hu
  have hserved : (s.beginStep.issueRead side kind).arbitrate = { s.beginStep.issueRead side kind with
      store := { s.store with inService := some (.read r), lastSide := .read } } := by
    have hstore : (s.beginStep.issueRead side kind).store = { s.store with readSide := [r] } := by
      rw [hissued]
      simp [hreads, r]
    rw [State.arbitrate_read_first (rs := []) (r := r) (by rw [hstore]; exact hidle) (by rw [hstore])
      (.inl (by rw [hstore]; exact hwrites)) (by rw [hstore]; exact hretired), hstore]
    simp [hreads]
  have hexec : exec .prefetchReadIssue s
      = .next (s.beginStep.settle (s.beginStep.issueRead side kind).arbitrate) := by
    show execPrefetchReadIssue s = _
    simp only [execPrefetchReadIssue, hissuing]
    rfl
  refine ⟨_, hexec, ?_⟩
  have hquiet : s.beginStep.settle (s.beginStep.issueRead side kind).arbitrate
      = (s.beginStep.issueRead side kind).arbitrate := State.settle_quiet (by simp) (by rw [hserved]; simp)
  rw [hquiet, hserved]
  refine ⟨rfl, rfl, rfl, rfl, ?_, hcount, ?_, ?_, fun k hk => ?_, ?_, ?_, by simp, by simp, by simp, by simp⟩
  · simp [r, Stream.nextRead, Stream.nextSlots, Stream.leftInTile, count, hslots]
  · show 0 < u.nextSlots.length
    rw [hcount]
    omega
  · show u.nextSlots.length ≤ u.room
    rw [hcount]
    omega
  · have hmem : k ∈ u.nextSlots := hk
    simp only [Stream.nextSlots, Stream.leftInTile, List.mem_map, List.mem_range] at hmem
    obtain ⟨i, hi, rfl⟩ := hmem
    omega
  · show u.issued + u.nextSlots.length ≤ u.slotCount
    rw [hcount]
    omega
  · have hset := State.captureOf_setCapture (s := s.beginStep) (side := side) (kind := kind) hc
      (c.withStream { u with issued := u.issued + u.nextSlots.length })
    refine (State.captureOf_congr ?_ side kind).trans hset
    show (s.beginStep.issueRead side kind).prefetch.job = _
    rw [hissued]

end Sys2Proof.Machine
end

section
/-! PROOFS. The capture of a plate context, and the offer that leads to it (R85, R86, R137, R148, R150, R152). -/

namespace Sys2Proof.Machine

open Sys2Proof (Byte Instr)

/-! ## Prefetch makes every line it can (R86) -/

/-- With as many lines to make as the pool has places, no line can be made after them. -/
theorem State.makeLines_exhausts (n : Nat) : ∀ {s : State}, 64 ≤ n + s.drive.pool.length →
    (State.makeLines n s).canMakeLine = false := by
  induction n with
  | zero => exact fun h => State.canMakeLine_of_full (s := _) (by simpa [State.makeLines] using h)
  | succ n ih =>
    intro s h
    unfold State.makeLines
    split
    next hc =>
      obtain ⟨pl, j, hp, hj, -⟩ := State.canMakeLine_some hc
      obtain ⟨line, sm, j', hdrive, -⟩ := State.makeLine_spec hp hj
      exact ih (by rw [hdrive]; simp; omega)
    next hc => exact Bool.eq_false_iff.mpr hc

/-- The prime test leaves nothing to make that was not there (R152). -/
theorem State.primeTest_canMakeLine (s : State) : s.primeTest.canMakeLine = s.canMakeLine := by
  unfold State.primeTest
  split
  next pl j hp hj =>
    split
    next h => simp [State.canMakeLine, hp, hj, h.1, DriveState.inContext]
    next => rfl
  all_goals rfl

/-- After an event of Prefetch no line can be made. -/
theorem State.prefetchEvent_exhausts (s : State) : s.prefetchEvent.canMakeLine = false :=
  (State.primeTest_canMakeLine _).trans (State.makeLines_exhausts _ (by simp [Config.poolCapacity]))

/-! ## The plate context of a ticket (R97, R100, R150) -/

/-- The plate page that a resolution gives stands for its record. -/
theorem State.platePage_eq {s : State} {a : Resolution} {p : PageRecord} (h : s.page? a.record = some p) :
    s.platePage a = some ⟨a.record, a.version, p.width, p.height⟩ := by
  rw [State.platePage, h]
  rfl

theorem State.platePage_some {s : State} {a : Resolution} {g : PlatePage} (h : s.platePage a = some g) :
    ∃ p, s.page? a.record = some p ∧ g = ⟨a.record, a.version, p.width, p.height⟩ := by
  obtain ⟨p, hp, rfl⟩ := Option.map_eq_some_iff.mp h
  exact ⟨p, hp, rfl⟩

/-- What a plate context of a ticket is made of. -/
theorem State.plateFor_made {s : State} {x : Ticket} {pl : Plate} (h : s.plateFor x = some pl) :
    ∃ l right b, x.leftRes.bind s.platePage = some l ∧ s.screener.inks.get x.ink = some b ∧
      (x.right = none → right = none) ∧
      (x.right.isSome = true → ∃ r, x.rightRes.bind s.platePage = some r ∧ right = some r) ∧
      pl = s.plateOf x l right b := by
  unfold State.plateFor at h
  split at h
  next l b hl hb =>
    split at h
    next hr =>
      cases h
      exact ⟨l, none, b, hl, hb, fun _ => rfl, fun hs => by simp [hr] at hs, rfl⟩
    next hr =>
      split at h
      · cases h
      next r hres =>
        cases h
        exact ⟨l, some r, b, hl, hb, fun hn => by simp [hr] at hn, fun _ => ⟨r, hres, rfl⟩, rfl⟩
  all_goals cases h

/-- The pages, the ink record and the settings give a plate context. -/
theorem State.plateFor_of_stand {s : State} {x : Ticket} {b : InkBinding} {a : Resolution} {l : PageRecord}
    (hb : s.screener.inks.get x.ink = some b) (ha : x.leftRes = some a) (hl : s.page? a.record = some l)
    (hr : x.right.isSome = true → ∃ c r, x.rightRes = some c ∧ s.page? c.record = some r) :
    ∃ pl, s.plateFor x = some pl := by
  have hleft : x.leftRes.bind s.platePage = some ⟨a.record, a.version, l.width, l.height⟩ := by
    rw [ha]
    exact State.platePage_eq hl
  unfold State.plateFor
  rw [hleft, hb]
  cases hright : x.right with
  | none => exact ⟨_, rfl⟩
  | some bd =>
    obtain ⟨c, r, hc, hp⟩ := hr (by rw [hright]; rfl)
    have hpage : x.rightRes.bind s.platePage = some ⟨c.record, c.version, r.width, r.height⟩ := by
      rw [hc]
      exact State.platePage_eq hp
    dsimp only
    rw [hpage]
    exact ⟨_, rfl⟩

/-- A plate context of a ticket is the one R150 gives. -/
theorem State.plateFor_contextOf {s : State} {x : Ticket} {pl : Plate} (h : s.plateFor x = some pl) :
    s.ContextOf x pl := by
  obtain ⟨l, right, b, hl, hb, halone, hright, rfl⟩ := State.plateFor_made h
  obtain ⟨a, ha, hpage⟩ := Option.bind_eq_some_iff.mp hl
  obtain ⟨p, hp, rfl⟩ := State.platePage_some hpage
  refine ⟨⟨rfl, rfl, rfl, rfl⟩, hb, rfl, ⟨a, p, ha, hp, rfl⟩, halone, fun hs => ?_, fun hn => ?_, fun r hr => ?_, ⟨rfl, rfl, rfl⟩⟩
  · obtain ⟨r, hres, hr⟩ := hright hs
    obtain ⟨c, hc, hpage'⟩ := Option.bind_eq_some_iff.mp hres
    obtain ⟨q, hq, rfl⟩ := State.platePage_some hpage'
    exact ⟨c, q, hc, hq, hr⟩
  · obtain rfl : right = none := hn
    exact ⟨by simp [State.plateOf, plateLineCount], decide_eq_true_iff⟩
  · obtain rfl : right = some r := hr
    exact ⟨by simp [State.plateOf, plateLineCount], decide_eq_true_iff⟩

/-- A plate context begins with nothing counted but the clipping (R100). -/
theorem State.plateFor_summary {s : State} {x : Ticket} {pl : Plate} (h : s.plateFor x = some pl) :
    ∃ clipped, pl.summary = ⟨0, 0, 0, 0, clipped⟩ := by
  obtain ⟨l, right, b, -, -, -, -, rfl⟩ := State.plateFor_made h
  exact ⟨_, rfl⟩

/-! ## Prefetch's start -/

/-- A band capture depends on the page table only. -/
theorem State.CapturesBand.congr {s t : State} {ps : PageSlot} {ink : Ink} {b : Nat} (h : s.CapturesBand ps ink b)
    (hp : t.pages = s.pages) : t.CapturesBand ps ink b := by
  have hpage : ∀ r, t.page? r = s.page? r := fun r => by simp [State.page?, hp]
  simpa only [State.CapturesBand, State.Captures, hpage] using h

/-- A slot at Prefetch's start, past the page lines made at once. -/
theorem State.startsSlot (s : State) (ink : Ink) (n serial : Nat) (p : PlatePage) :
    s.StartsSlot ink n p ((s.captureBand (PageSlot.fresh p) ink 0 serial).past n) :=
  ⟨rfl, rfl, rfl, rfl, rfl, s.captureBand_captures (PageSlot.fresh p) ink 0 serial (.inr rfl)⟩

theorem State.StartsSlot.congr {s t : State} {ink : Ink} {n : Nat} {p : PlatePage} {ps : PageSlot}
    (h : s.StartsSlot ink n p ps) (hp : t.pages = s.pages) : t.StartsSlot ink n p ps := by
  obtain ⟨h1, h2, h3, h4, h5, h6⟩ := h
  exact ⟨h1, h2, h3, h4, h5, h6.congr hp⟩

/-- A line that Prefetch's start makes: off in the margin, and otherwise of marked rows and held rows of zeros. -/
theorem State.fillLine_spec (s : State) (pl : Plate) (j : PrefetchJob) (y : Nat) :
    (s.fillLine pl j y).length = pl.headWidth ∧
      (y < pl.margin → ∀ n, (s.fillLine pl j y).getD n false = false) ∧
      (pl.margin ≤ y → s.fillLine pl j y = imageLine pl (s.screener.screenTable pl.settings.screen)
        (s.screener.curveTable pl.settings.curve) (fillRows j.left.height j.left.held (y - pl.margin))
        (j.right.bind fun ps => fillRows ps.height ps.held (y - pl.margin)) y) := by
  unfold State.fillLine
  by_cases h : y < pl.margin
  · rw [if_pos h]
    exact ⟨by simp, fun _ n => getD_marginLine pl n, fun hle => absurd h (by omega)⟩
  · rw [if_neg h]
    exact ⟨by simp, fun hlt => absurd hlt h, fun _ => rfl⟩

/-! ## The capture (R150) -/

/-- The state from which Prefetch starts for the ticket `x`: it is IMAGING, and the drive has begun to prime. -/
def State.priming (s : State) (x : Ticket) : State :=
  { s.modifyTicket x.tag fun t => { t with state := .imaging } with
    drive := { s.drive with state := .priming, selected := none, pool := [], stall := none } }

theorem State.capturePlate_eq {s : State} {x : Ticket} {pl : Plate} (he : s.eligible = some x)
    (hpl : s.plateFor x = some pl) : s.capturePlate = ((s.priming x).startPrefetch pl).prefetchEvent := by
  unfold State.capturePlate
  rw [he]
  dsimp only
  rw [hpl]
  rfl

/-- What else the capture leaves: the tables, the straps and the reports, and the ticket IMAGING. -/
theorem State.capturePlate_frame {s : State} {x : Ticket} {pl : Plate} (he : s.eligible = some x)
    (hpl : s.plateFor x = some pl) :
    s.capturePlate.drive.plateReady = s.drive.plateReady ∧ s.capturePlate.drive.settings = s.drive.settings ∧
      s.capturePlate.schedule = imagingSchedule s.schedule x.tag := by
  have hstart : ((s.priming x).startPrefetch pl).schedule = imagingSchedule s.schedule x.tag := rfl
  have hgoes := State.prefetchEvent_goesOn ((s.priming x).startPrefetch pl)
  rw [State.capturePlate_eq he hpl]
  exact ⟨hgoes.ready, hgoes.settings, by simp only [State.prefetchEvent_same]; exact hstart⟩

/-- What an event of Prefetch leaves of a drive that is PRIMING with every line made in the pool (R86, R152). -/
theorem State.prefetchEvent_prime {s : State} {pl : Plate} {j : PrefetchJob} (hp : s.drive.plate = some pl)
    (hj : s.prefetch.job = some j) (hstate : s.drive.state = .priming) (hnext : j.nextLine = s.drive.pool.length)
    (hroom : s.drive.pool.length ≤ 64) (hleft : j.nextLine ≤ pl.lineCount) :
    let t := s.prefetchEvent
    let made := t.drive.pool.length
    (s.drive.settings.prime ≤ made ∨ pl.lineCount ≤ made →
      t.drive.state = .imaging ∧ t.drive.stall = some s.drive.settings.stallMs) ∧
    (¬ (s.drive.settings.prime ≤ made ∨ pl.lineCount ≤ made) →
      t.drive.state = .priming ∧ t.drive.stall = s.drive.stall) ∧
    t.drive.selected = s.drive.selected ∧ made ≤ 64 ∧ made ≤ pl.lineCount := by
  intro t made
  obtain ⟨lines, sm, j', -, -, -, hroom', hleft', hcases⟩ := State.prefetchEvent_spec hp hj
  have hfit := hroom' hroom
  have hend := hleft' hleft
  rw [hnext] at hcases hend
  rcases hcases with ⟨-, hprimed, hdrive⟩ | ⟨hnot, hdrive⟩
  · have hmade : made = s.drive.pool.length + lines.length := by simp [made, t, hdrive]
    rw [hmade]
    exact ⟨fun _ => by simp [t, hdrive], fun hno => absurd hprimed hno, by simp [t, hdrive], hfit, hend⟩
  · have hmade : made = s.drive.pool.length + lines.length := by simp [made, t, hdrive]
    rw [hmade]
    exact ⟨fun hyes => absurd ⟨hstate, hyes⟩ hnot, fun _ => by simp [t, hdrive, hstate], by simp [t, hdrive], hfit, hend⟩

/-- The drive after the capture: PRIMING, or IMAGING where the prime test is met (R147, R152). -/
theorem State.capturePlate_primed {s : State} {x : Ticket} {pl : Plate} (he : s.eligible = some x)
    (hpl : s.plateFor x = some pl) :
    let made := s.capturePlate.drive.pool.length
    (s.drive.settings.prime ≤ made ∨ pl.lineCount ≤ made →
      s.capturePlate.drive.state = .imaging ∧ s.capturePlate.drive.stall = some s.drive.settings.stallMs) ∧
    (¬ (s.drive.settings.prime ≤ made ∨ pl.lineCount ≤ made) →
      s.capturePlate.drive.state = .priming ∧ s.capturePlate.drive.stall = none) ∧
    s.capturePlate.drive.selected = none ∧ made ≤ 64 ∧ made ≤ pl.lineCount := by
  have hprime := State.prefetchEvent_prime (s := (s.priming x).startPrefetch pl) rfl rfl rfl rfl (Nat.zero_le _)
    (Nat.zero_le _)
  rw [← State.capturePlate_eq he hpl] at hprime
  exact hprime

/-- The summary at Prefetch's start counts the fill captures of band 0, and nothing else (R94). -/
theorem Summary.addFills_start (l : PageSlot) (r : Option PageSlot) (clipped : Bool) :
    let sm := r.elim ((⟨0, 0, 0, 0, clipped⟩ : Summary).addFills l) ((⟨0, 0, 0, 0, clipped⟩ : Summary).addFills l).addFills
    sm.lineMarked = (if l.line.isFill then 1 else 0) + r.elim 0 (fun ps => if ps.line.isFill then 1 else 0) ∧
    sm.pictureHeld = (if l.picture.isFill then 1 else 0) + r.elim 0 (fun ps => if ps.picture.isFill then 1 else 0) ∧
    sm.unpackFaults = 0 ∧ sm.storeFaults = 0 ∧ sm.clipped = clipped := by
  cases r <;> simp [Summary.addFills]

/-- The capture of the eligible ticket's plate context leaves all that R150 and R85 say. -/
theorem State.capturePlate_captured {s : State} {x : Ticket} {pl : Plate} (he : s.eligible = some x)
    (hpl : s.plateFor x = some pl) : s.capturePlate.PlateCaptured x := by
  obtain ⟨-, hsettings, -⟩ := State.capturePlate_frame he hpl
  obtain ⟨hprimed, hpriming, hselected, hroom, hlines⟩ := State.capturePlate_primed he hpl
  obtain ⟨m, sm, hplate, hsm, hpool, hjob⟩ := State.startPrefetch_event (s.priming x) pl
  have hexhausted := State.prefetchEvent_exhausts ((s.priming x).startPrefetch pl)
  obtain ⟨hpages, hscreener⟩ : s.capturePlate.pages = s.pages ∧ s.capturePlate.screener = s.screener := by simp
  obtain ⟨htag, hink, hmargin, hgutter⟩ := (State.plateFor_contextOf hpl).ticket
  obtain ⟨clipped, hsummary⟩ := State.plateFor_summary hpl
  rw [← State.capturePlate_eq he hpl] at *
  have hmade : s.capturePlate.drive.pool.length = m := by
    rw [hpool]
    simp [State.priming]
  subst hmade
  rw [hsummary] at hsm
  obtain ⟨hmarked, hheld, hfaults, hstore, hclipped⟩ :=
    Summary.addFills_start ((s.priming x).startJob pl).left ((s.priming x).startJob pl).right clipped
  rw [← hsm] at hmarked hheld hfaults hstore hclipped
  have hcontext : s.capturePlate.ContextOf x { pl with summary := sm } :=
    (State.plateFor_contextOf hpl).congr (fun r p hp => ⟨p, by simpa [State.page?, hpages] using hp, rfl, rfl⟩)
      (by rw [hscreener]) hsettings rfl (by rw [hclipped, hsummary])
  have hslot : ∀ p n, s.capturePlate.StartsSlot x.ink (s.capturePlate.drive.pool.length - x.margin) p
      (((s.priming x).captureBand (PageSlot.fresh p) pl.ink 0 n).past (s.capturePlate.drive.pool.length - pl.margin)) := fun p n => by
    rw [← hink, ← hmargin]
    exact ((s.priming x).startsSlot pl.ink _ n p).congr hpages
  refine ⟨{ pl with summary := sm }, ((s.priming x).startJob pl).past pl.margin _, hplate, hcontext, hselected, hjob,
    rfl, rfl, hslot pl.left _, fun hnone => ?_, fun r hr => ?_, hmarked.trans ?_, hheld.trans ?_, hfaults, hstore,
    fun y line hline => ?_, hroom, hlines, hexhausted, fun hp => ?_, fun hn => ?_⟩
  · show (pl.right.map _).map _ = none
    rw [show pl.right = none from hnone]
    rfl
  · refine ⟨_, ?_, hslot r ((s.priming x).prefetch.serial + 2)⟩
    show (pl.right.map _).map _ = _
    rw [show pl.right = some r from hr]
    rfl
  · dsimp only [PrefetchJob.past]
    cases ((s.priming x).startJob pl).right <;> rfl
  · dsimp only [PrefetchJob.past]
    cases ((s.priming x).startJob pl).right <;> rfl
  · obtain ⟨hlength, hmarginLine, himage⟩ :=
      (s.priming x).fillLine_spec { pl with summary := sm } ((s.priming x).startJob pl) y
    have hmade : line = (s.priming x).fillLine { pl with summary := sm } ((s.priming x).startJob pl) y := by
      rw [hpool, show (s.priming x).drive.pool = [] from rfl, List.nil_append, List.getElem?_map] at hline
      obtain ⟨k, hk, rfl⟩ := Option.map_eq_some_iff.mp hline
      obtain ⟨hlt, hk'⟩ := List.getElem?_eq_some_iff.mp hk
      rw [List.getElem_range] at hk'
      rw [hk']
    rw [hmade]
    refine ⟨hlength, fun hlt => hmarginLine (hmargin ▸ hlt), fun hle => (himage (hmargin ▸ hle)).trans ?_⟩
    rw [hscreener, ← hmargin]
    congr 1
    show (pl.right.map _).bind _ = pl.right.bind _
    cases pl.right <;> rfl
  · rw [hsettings] at hp
    obtain ⟨hstate, hstall⟩ := hprimed hp
    exact ⟨hstate, by rw [Drive.exposeHigh, hstate]; rfl, by rw [hstall, hsettings]⟩
  · rw [hsettings] at hn
    obtain ⟨hstate, hstall⟩ := hpriming hn
    exact ⟨hstate, by rw [Drive.exposeHigh, hstate]; rfl, hstall⟩

/-- A captured plate context stands with the drive, Prefetch, the page table and the tables. -/
theorem State.PlateCaptured.congr {s t : State} {x : Ticket} (h : s.PlateCaptured x) (hd : t.drive = s.drive)
    (hj : t.prefetch = s.prefetch) (hp : t.pages = s.pages) (hs : t.screener = s.screener) : t.PlateCaptured x := by
  obtain ⟨q, j, hplate, hcontext, hselected, hjob, hnext, hfaulted, hleft, halone, hright, hmarked, hheld, hfaults, hstore,
    hlines, hroom, hcount, hexhausted, hprimed, hpriming⟩ := h
  have hpage : ∀ r p, s.page? r = some p → ∃ p', t.page? r = some p' ∧ p'.width = p.width ∧ p'.height = p.height :=
    fun r p hr => ⟨p, by simpa [State.page?, hp] using hr, rfl, rfl⟩
  have hmake : t.canMakeLine = s.canMakeLine := by simp [State.canMakeLine, hd, hj]
  unfold State.PlateCaptured
  rw [hd, hj, hs, hmake]
  exact ⟨q, j, hplate, hcontext.congr hpage (by rw [hs]) (by rw [hd]) rfl rfl, hselected, hjob, hnext, hfaulted,
    hleft.congr hp, halone, fun r hr => (hright r hr).imp fun _ h => ⟨h.1, h.2.congr hp⟩, hmarked, hheld, hfaults, hstore,
    hlines, hroom, hcount, hexhausted, hprimed, hpriming⟩

/-- The drive is then PRIMING or IMAGING. -/
theorem State.PlateCaptured.inContext {t : State} {x : Ticket} (h : t.PlateCaptured x) :
    t.drive.state.inContext = true := by
  obtain ⟨q, j, -, -, -, -, -, -, -, -, -, -, -, -, -, -, -, -, -, hprimed, hpriming⟩ := h
  by_cases hp : t.drive.settings.prime ≤ t.drive.pool.length ∨ q.lineCount ≤ t.drive.pool.length
  · rw [(hprimed hp).1]
    rfl
  · rw [(hpriming hp).1]
    rfl

/-! ## The offer (R135, R148) -/

/-- The offer of an eligible ticket that meets the four conditions, with a plate mounted, captures its plate context. -/
theorem State.offer_captures {s : State} {x : Ticket} (h : s.Open) (hr : s.drive.plateReady = true)
    (he : IsEligible s.drive.settings.mode s.schedule x) (hm : s.MeetsArming x) :
    s.offer.PlateCaptured x ∧ s.offer.drive.plateReady = true ∧ s.offer.drive.settings = s.drive.settings ∧
      s.offer.schedule = imagingSchedule s.schedule x.tag ∧ s.offer.reports = s.reports := by
  have heligible := (s.eligible_iff x).mpr he
  rw [State.offer_of_high h hr heligible]
  obtain ⟨pl, hpl⟩ := Option.isSome_iff_exists.mp hm.plateFor
  have hstand : State.plateFor { s with drive := { s.drive with state := .waitPlate, selected := some x.tag } } x = some pl :=
    hpl
  obtain ⟨hready, hsettings, hschedule⟩ := State.capturePlate_frame
    (s := { s with drive := { s.drive with state := .waitPlate, selected := some x.tag } }) heligible hstand
  exact ⟨State.capturePlate_captured heligible hstand, hready.trans hr, hsettings, hschedule, by simp⟩

/-- Settles O28, by the model's own tests of the order modes and of the four conditions. -/
theorem armedExactlyWhenReady : Obligations.ArmedExactlyWhenReady := by
  refine ⟨State.eligible_iff, fun s t ht => ?_⟩
  rw [State.armedState_eq ht]
  have harm : (s.armingFailure t).isNone = true ↔ s.MeetsArming t := State.armingFailure_isNone s t
  by_cases hm : s.MeetsArming t
  · rw [if_pos (harm.mpr hm)]
    exact ⟨⟨fun _ => hm, fun _ => rfl⟩, fun hne => absurd rfl hne⟩
  · rw [if_neg (hm ∘ harm.mp)]
    exact ⟨⟨fun he => (by cases he), fun hmet => absurd hmet hm⟩, fun _ => rfl⟩

/-- The offer leaves the settings and the level of PLATE_READY. -/
theorem State.offer_settings (s : State) :
    s.offer.drive.settings = s.drive.settings ∧ s.offer.drive.plateReady = s.drive.plateReady := by
  have hcapture : ∀ u : State, u.capturePlate.drive.settings = u.drive.settings ∧
      u.capturePlate.drive.plateReady = u.drive.plateReady := fun u => by
    rcases u.capturePlate_cases with h | ⟨x, pl, lines, -, -, -, -, -, -, -, -, -, -, hready, -, -, -, hsettings, -⟩
    · rw [h]
      exact ⟨rfl, rfl⟩
    · exact ⟨hsettings, hready⟩
  have hselect : ∀ n, (s.selectTicket n).drive.settings = s.drive.settings ∧
      (s.selectTicket n).drive.plateReady = s.drive.plateReady := fun n => by
    unfold State.selectTicket
    dsimp only
    split
    · exact hcapture _
    · exact ⟨rfl, rfl⟩
  unfold State.offer
  repeat' split
  any_goals exact hselect _
  all_goals exact ⟨rfl, rfl⟩

/-! ## SET_HEAD (R162) -/

/-- An accepted directive whose rule then queues no report ahead of the reply is answered. -/
theorem acceptedWith_of_grows {s u v : State} {d : Directive} {body : List Byte} (hu : s.laneAs u)
    (hs : v.straps = s.straps) (hv : (u.accept d body).reports.growsTo v.reports) :
    acceptedWith s (s.beginStep.settle v.evalFlag) d body := by
  intro hq
  rw [State.accept, hq] at hv
  exact State.reportsFirst_settle hu (by simpa using hs) (Reports.growsTo_trans hv (State.evalFlag_growsTo _))

theorem State.setHead_of_illegal {s : State} {d : Directive} (h : (headArgs d.payload).ok = false) :
    s.setHead d = s.refuse d .badArgument := by
  simp [State.setHead, h]

theorem State.setHead_of_inContext {s : State} {d : Directive} (h : (headArgs d.payload).ok = true)
    (hc : s.drive.state.inContext = true) : s.setHead d = s.refuse d .wrongState := by
  simp [State.setHead, h, hc]

/-- The drive with the settings of a SET_HEAD, the reply queued. -/
def State.withHead (s : State) (d : Directive) : State :=
  State.accept { s with drive := { s.drive with settings := headArgs d.payload } } d

theorem State.setHead_of_legal {s : State} {d : Directive} (h : (headArgs d.payload).ok = true)
    (hc : s.drive.state.inContext = false) :
    s.setHead d = if (headArgs d.payload).mode = s.drive.settings.mode then s.withHead d else (s.withHead d).offer := by
  simp [State.setHead, h, hc, State.withHead]

/-- Settles O37: a changed order mode is an offer with the settings in force. -/
theorem setHeadReplacesSettings : Obligations.SetHeadReplacesSettings := by
  intro s d ht hd legal refusedWith
  have hok : hd.ok = true ↔ legal := decide_eq_true_iff
  refine ⟨fun hl => ?_, fun hl hc => ?_, fun hl hc => ?_⟩
  · exact gives_refusal ht (State.setHead_of_illegal (Bool.eq_false_iff.mpr (mt hok.mp hl)))
  · exact gives_refusal ht (State.setHead_of_inContext (hok.mpr hl) hc)
  · have hrule := State.setHead_of_legal (s := s.beginStep.popInlet) (hok.mpr hl) hc
    have hdrive : (s.beginStep.popInlet.withHead d).drive = { s.beginStep.drive with settings := hd } := by
      simp [State.withHead]
      rfl
    split at hrule
    next hmode =>
      refine gives_mono (gives_accepted ht hrule) fun t h => ?_
      refine ⟨by rw [h.frame], h.answer ⟨rfl, rfl, rfl, rfl⟩ rfl, fun hne => absurd hmode hne, by rw [h.frame]; rfl,
        by rw [h.frame]; rfl, by rw [h.frame]; rfl, by rw [h.frame]; rfl, h.queue⟩
    next hmode =>
      refine gives_of_takes ht hrule ?_
      obtain ⟨hsettings, -⟩ := (s.beginStep.popInlet.withHead d).offer_settings
      obtain ⟨hpages, hstore, hscreener, hreports, hqueue⟩ :
          (s.beginStep.popInlet.withHead d).offer.pages = s.pages ∧
          (s.beginStep.popInlet.withHead d).offer.store = s.store ∧
          (s.beginStep.popInlet.withHead d).offer.screener = s.screener ∧
          (s.beginStep.popInlet.withHead d).offer.reports = (s.beginStep.popInlet.withHead d).reports ∧
          (s.beginStep.popInlet.withHead d).offer.intake.queue = s.intake.queue.tail := by
        simp [State.withHead]
      have hschedule : (s.beginStep.popInlet.withHead d).schedule = s.schedule := by simp [State.withHead]
      obtain ⟨hsame1, hsame2, -, hsame4, hsame5, hsame6, hsame7, hsame8, -⟩ :=
        State.settle_evalFlag_same s.beginStep (s.beginStep.popInlet.withHead d).offer
      refine ⟨by rw [hsame7, hsettings, hdrive], ?_, fun _ hopen => ⟨fun hlow => ?_, fun hhigh x hx hm => ?_⟩,
        hsame1.trans hpages, hsame2.trans hstore, hsame5.trans hscreener, ?_, hsame8.trans hqueue⟩
      · refine acceptedWith_of_grows (u := { s.beginStep.popInlet with
          drive := { s.beginStep.popInlet.drive with settings := hd } }) ⟨rfl, rfl, rfl, rfl⟩ (by simp [State.withHead]) ?_
        exact Reports.growsTo_same hreports
      · have hselects := State.offer_selects (s := s.beginStep.popInlet.withHead d) (by rw [State.Open, hdrive]; exact hopen)
          (by rw [hdrive]; exact hlow)
        exact hselects.congr hsame6 (.of_eq hsame7)
      · have heligible : IsEligible (s.beginStep.popInlet.withHead d).drive.settings.mode
            (s.beginStep.popInlet.withHead d).schedule x := by
          rw [hdrive, hschedule]
          exact hx
        obtain ⟨hcaptured, -, -, himaging, -⟩ := State.offer_captures (by rw [State.Open, hdrive]; exact hopen)
          (by rw [hdrive]; exact hhigh) heligible (hm.congr (by simp [State.withHead]) (by simp [State.withHead]) rfl)
        have hcontext := hcaptured.congr hsame7 hsame4 hsame1 hsame5
        refine ⟨hcontext.inContext, hcontext, ?_⟩
        rw [hsame6, himaging, hschedule]
        obtain ⟨-, before, after, hsplit, -⟩ := hx
        exact List.mem_map.mpr ⟨x, by simp [hsplit], by simp⟩
      · rw [hsame6, State.offer_tags, hschedule]

end Sys2Proof.Machine
end

section
/-! PROOFS. The head drive's events: requests, transfers, the ends of a plate, and HALT (R147 to R160). -/

namespace Sys2Proof.Machine

open Sys2Proof (Byte Instr)

/-! ## The end of a plate short (R142 to R144, R157) -/

/-- The drive with its plate ended, ahead of what it enters. -/
theorem State.plateEnded_drive (s : State) (o : PlateOutcome) :
    (s.plateEnded o).drive = { s.drive with plate := none, pool := [], stall := none } := by
  unfold State.plateEnded
  split
  · rfl
  · simp [State.dropPlate]

theorem State.plateEnded_same (s : State) (o : PlateOutcome) :
    (s.plateEnded o).straps = s.straps ∧ (s.plateEnded o).store = s.store ∧
      (s.plateEnded o).screener = s.screener ∧ (s.plateEnded o).intake = s.intake ∧
      (s.plateEnded o).prefetch.job = none := by
  unfold State.plateEnded
  split
  · exact ⟨rfl, rfl, rfl, rfl, rfl⟩
  · simp [State.dropPlate]

theorem State.plateEnded_of_some {s : State} {pl : Plate} (h : s.drive.plate = some pl) (o : PlateOutcome) :
    s.plateEnded o = s.dropPlate.endTicket pl o := by
  rw [State.plateEnded, h]

/-- What the end of a plate with the reason `r` leaves of its ticket, of the reports and of the counters. -/
structure SpoiltWith (s t : State) (r : SpoilReason) : Prop where
  ticket : ∀ pl x, s.drive.plate = some pl → s.ticket? pl.tag = some x →
    t.schedule = (s.schedule.filter fun y => !(y.tag == pl.tag)) ∧
    s.reportsFirst t (x.plateReport (.spoiled r) pl.sent pl.summary) ∧
    t.reports.latched .plateSpoiled = true ∧ s.reports.countsOnce t.reports .platesSpoiled ∧
    s.reports.touches t.reports [.platesSpoiled] [.plateSpoiled]

/-- An event that ends the plate short of the state `u`, which has the schedule and the reports that the event found. -/
theorem spoiltWith_settle {s u v : State} {r : SpoilReason} (hplate : u.drive.plate = s.drive.plate)
    (hschedule : u.schedule = s.schedule) (hreports : u.reports = s.beginStep.reports)
    (hv : v.schedule = (u.plateEnded (.spoiled r)).schedule) (hvr : v.reports = (u.plateEnded (.spoiled r)).reports)
    (hvs : v.straps = s.straps) : SpoiltWith s (s.beginStep.settle v) r := by
  refine ⟨fun pl x hp hx => ?_⟩
  rw [State.plateEnded_of_some (hplate.trans hp)] at hv hvr
  have hticket : u.dropPlate.ticket? pl.tag = some x := by
    rw [← hx]
    simp [State.ticket?, hschedule]
  have hbegin : u.dropPlate.reports = s.beginStep.reports := by simp [hreports]
  obtain ⟨hlatched, hcounts, htouches⟩ := State.endTicket_spoiled hticket r
  rw [← hvr] at hlatched hcounts htouches
  rw [hbegin] at hcounts htouches
  refine ⟨by simp [hv, State.endTicket_schedule, hschedule], ?_, by simp [hlatched], State.settle_countsOnce hcounts,
    State.settle_touches htouches⟩
  have hlane : s.laneAs (u.dropPlate.removeTicket x) := by
    simp [State.laneAs, hreports]
  refine State.reportsFirst_settle hlane hvs ?_
  rw [hvr, State.endTicket_of_some hticket]
  exact State.tallyOutcome_growsTo _ _

/-- The drive after an event that ends a plate short, of a reason but a halt. -/
theorem State.endShort_spoilt {s : State} {r : SpoilReason} (hr : r ≠ .halted) :
    s.endShort (.spoiled r) = (s.plateEnded (.spoiled r)).enterUnloading := by
  rw [State.endShort_eq, if_neg (by simpa using hr)]

/-- What an event that ends the plate of `u` short leaves, of a reason but a halt. -/
structure EndedShort (s u t : State) (r : SpoilReason) : Prop extends SpoiltWith s t r where
  drive : t.drive = { u.drive with
    plate := none, pool := [], stall := none
    state := if u.drive.plateReady then .unloading else if t.eligible.isSome then .waitPlate else .idle
    selected := if u.drive.plateReady then none else t.eligible.map (·.tag) }
  job : t.prefetch.job = none
  same : t.store = u.store ∧ t.screener = u.screener ∧ t.intake = u.intake

theorem endedShort_settle {s u : State} {r : SpoilReason} (hr : r ≠ .halted) (hplate : u.drive.plate = s.drive.plate)
    (hschedule : u.schedule = s.schedule) (hreports : u.reports = s.beginStep.reports) (hstraps : u.straps = s.straps) :
    EndedShort s u (s.beginStep.settle (u.endShort (.spoiled r))) r := by
  rw [State.endShort_spoilt hr]
  obtain ⟨hended1, hended2, hended3, hended4, hended5⟩ := u.plateEnded_same (.spoiled r)
  have henter := State.enterUnloading_eq (u.plateEnded (.spoiled r))
  have heligible : (s.beginStep.settle (u.plateEnded (.spoiled r)).enterUnloading).eligible
      = (u.plateEnded (.spoiled r)).eligible := by
    unfold State.eligible
    rw [(State.settle_eq s.beginStep (u.plateEnded (.spoiled r)).enterUnloading), henter]
  have hspoilt : SpoiltWith s (s.beginStep.settle (u.plateEnded (.spoiled r)).enterUnloading) r :=
    spoiltWith_settle hplate hschedule hreports (by rw [henter]) (by rw [henter])
      (by rw [henter]; exact hended1.trans hstraps)
  refine { hspoilt with drive := ?_, job := ?_, same := ?_ }
  · rw [heligible]
    simp [henter, State.plateEnded_drive]
  · simp [henter, hended5]
  · simp [hended2, hended3, hended4]

/-! ## PLATE_READY falls (R149, R156) -/

/-- PLATE_READY falls: the level alone. -/
def State.fallen (s : State) : State := { s with drive := { s.drive with plateReady := false } }

theorem State.plateReadyFall_of_inContext {s : State} (hr : s.drive.plateReady = true)
    (h : s.drive.state.inContext = true) : s.plateReadyFall = s.fallen.endShort (.spoiled .plateLost) := by
  unfold State.plateReadyFall
  rw [if_pos hr]
  cases hs : s.drive.state <;> simp [hs, DriveState.inContext] at h <;> rfl

theorem State.plateReadyFall_of_unloading {s : State} (hr : s.drive.plateReady = true)
    (h : s.drive.state = .unloading) : s.plateReadyFall = s.fallen.enterIdle := by
  unfold State.plateReadyFall
  rw [if_pos hr, h]
  rfl

theorem State.plateReadyFall_of_other {s : State} (hr : s.drive.plateReady = true)
    (h : s.drive.state = .idle ∨ s.drive.state = .waitPlate ∨ s.drive.state = .halted) :
    s.plateReadyFall = s.fallen := by
  unfold State.plateReadyFall
  rw [if_pos hr]
  rcases h with h | h | h <;> rw [h] <;> rfl

theorem exec_plateReadyFall (s : State) :
    exec .plateReadyFall s = .next (s.beginStep.settle s.beginStep.plateReadyFall) := rfl

/-- Settles O49, by the drive's state: in context the plate is ended, UNLOADING ends, and otherwise the level falls. -/
theorem plateReadyFallEndsPlate : Obligations.PlateReadyFallEndsPlate := by
  intro s hready
  by_cases hcontext : s.drive.state.inContext = true
  · have hact := State.plateReadyFall_of_inContext (s := s.beginStep) hready hcontext
    have hended := endedShort_settle (s := s) (u := s.beginStep.fallen) (r := .plateLost) (by decide) rfl rfl rfl rfl
    rw [← hact] at hended
    obtain ⟨hstore, hscreener, -⟩ := hended.same
    refine ⟨_, exec_plateReadyFall s, by rw [hended.drive]; rfl, fun _ => ?_, fun hu => ?_, fun ho => ?_,
      by rw [hended.drive]; rfl, hstore, hscreener⟩
    · rw [hended.drive]
      exact ⟨rfl, rfl, rfl, hended.job, rfl, hended.ticket⟩
    · rw [hu] at hcontext
      cases hcontext
    · rcases ho with ho | ho | ho <;> rw [ho] at hcontext <;> cases hcontext
  by_cases hunloading : s.drive.state = .unloading
  · have hact := (State.plateReadyFall_of_unloading (s := s.beginStep) hready hunloading).trans
      (State.enterIdle_of_low (s := s.beginStep.fallen) rfl)
    have hsettle : s.beginStep.settle s.beginStep.plateReadyFall = s.beginStep.plateReadyFall := by
      rw [hact]
      exact State.settle_quiet rfl rfl
    refine ⟨_, exec_plateReadyFall s, ?_⟩
    rw [hsettle, hact]
    exact ⟨rfl, fun hc => absurd hc hcontext, fun _ => ⟨rfl, rfl, rfl, rfl⟩, fun ho => by simp [hunloading] at ho,
      rfl, rfl, rfl⟩
  · have hother : s.drive.state = .idle ∨ s.drive.state = .waitPlate ∨ s.drive.state = .halted := by
      cases hs : s.drive.state <;> simp [hs, DriveState.inContext] at hcontext hunloading ⊢
    have hact := State.plateReadyFall_of_other (s := s.beginStep) hready hother
    have hsettle : s.beginStep.settle s.beginStep.plateReadyFall = s.beginStep.fallen := by
      rw [hact]
      exact State.settle_quiet rfl rfl
    refine ⟨_, exec_plateReadyFall s, ?_⟩
    rw [hsettle]
    exact ⟨rfl, fun hc => absurd hc hcontext, fun hu => absurd hu hunloading, fun _ => rfl, rfl, rfl, rfl⟩

/-! ## The spoiling events of the head (R153, R155) -/

/-- Settles O51: each of the three events is the end of the plate short, with its reason. -/
theorem spoilingEventsEndPlate : Obligations.SpoilingEventsEndPlate := by
  intro s c pl x reason himaging hplate hticket hready hevent
  have hreason : reason ≠ .halted := by
    rcases hevent with ⟨-, -, rfl⟩ | ⟨-, -, -, rfl⟩ | ⟨-, -, rfl⟩ <;> decide
  have hexec : exec c s = .next (s.beginStep.settle (s.beginStep.endShort (.spoiled reason))) := by
    have hrequest : s.beginStep.lineReq = s.beginStep.requestLine pl := by
      simp [State.lineReq, himaging, hplate]
    rcases hevent with ⟨rfl, htransfer, rfl⟩ | ⟨rfl, htransfer, hpool, rfl⟩ | ⟨rfl, hstall, rfl⟩
    · show Host.Outcome.next (s.beginStep.settle s.beginStep.lineReq) = _
      rw [hrequest, State.requestLine, if_pos htransfer]
    · show Host.Outcome.next (s.beginStep.settle s.beginStep.lineReq) = _
      rw [hrequest, State.requestLine, if_neg (by simp [htransfer]), show s.beginStep.drive.pool = [] from hpool]
    · show Host.Outcome.next (s.beginStep.settle s.beginStep.stallExpiry) = _
      rw [State.stallExpiry, if_pos ⟨himaging, hstall⟩]
  have hended := endedShort_settle (s := s) (u := s.beginStep) hreason rfl rfl rfl rfl
  obtain ⟨hstore, hscreener, hintake⟩ := hended.same
  obtain ⟨hschedule, hreport, hlatched, hcounts, htouches⟩ := hended.ticket pl x hplate hticket
  refine ⟨_, hexec, ?_, by rw [hended.drive], by rw [hended.drive], by rw [hended.drive], by rw [hended.drive]; rfl,
    hended.job, hschedule, hreport, hlatched, hcounts, htouches, hstore, hscreener, hintake⟩
  rw [hended.drive]
  exact if_pos hready

/-! ## The completion of a transfer (R154) -/

theorem State.completeTransfer_of_more {s : State} {pl : Plate} (h : s.drive.transferring = some pl)
    (hmore : pl.sent + 1 < pl.lineCount) :
    s.completeTransfer = { s with drive := { s.drive with plate := some pl.lineSent } } := by
  simp [State.completeTransfer, h, hmore]

theorem State.completeTransfer_of_last {s : State} {pl : Plate} (h : s.drive.transferring = some pl)
    (hlast : pl.lineCount ≤ pl.sent + 1) : s.completeTransfer = s.endDone pl.lineSent := by
  simp [State.completeTransfer, h, Nat.not_lt.mpr hlast]

/-- The counter of a plate that is DONE is no matter of the report queue: it may count first. -/
theorem State.report_count_platesDone (s : State) (r : Report) :
    (s.report r).count .platesDone = (s.count .platesDone).report r := by
  unfold State.report Reports.enqueue State.count
  dsimp only
  split <;> rfl

/-- The state of a plate that ends DONE, ahead of the end of its ticket (R154). -/
def State.plateDone (s : State) : State :=
  { s.dropPlate with drive := { s.dropPlate.drive with plateEnd := true } }

theorem State.endDone_eq {s : State} {pl : Plate} {x : Ticket} (h : s.ticket? pl.tag = some x) :
    s.endDone pl = (((s.plateDone.removeTicket x).count .platesDone).report
      (x.plateReport .done pl.sent pl.summary)).enterUnloading := by
  have hticket : s.plateDone.ticket? pl.tag = some x := h
  show (s.plateDone.endTicket pl .done).enterUnloading = _
  rw [State.endTicket_of_some hticket, ← State.report_count_platesDone]
  rfl

/-- Settles O52: the last line ends the plate DONE, and the PLATE report is the only one of the event. -/
theorem transferCompletionEndsPlate : Obligations.TransferCompletionEndsPlate := by
  intro s pl himaging hplate htransfer
  have htransferring : s.beginStep.drive.transferring = some pl := by
    simp [Drive.transferring, himaging, hplate, htransfer, Option.filter]
  have hexec : exec .lineTransferCompletion s = .next (s.beginStep.settle s.beginStep.completeTransfer) := rfl
  refine ⟨fun hmore => ?_, fun x hlast hticket hready => ?_⟩
  · rw [hexec, State.completeTransfer_of_more htransferring hmore]
    exact congrArg _ (State.settle_quiet rfl rfl)
  · rw [hexec, State.completeTransfer_of_last htransferring hlast]
    have hticket' : s.beginStep.plateDone.ticket? pl.lineSent.tag = some x := hticket
    have hdone : s.beginStep.endDone pl.lineSent = (s.beginStep.plateDone.endTicket pl.lineSent .done).enterUnloading := rfl
    have hend := hdone.trans (State.enterUnloading_eq _)
    have hdrive : (s.beginStep.plateDone.endTicket pl.lineSent .done).drive = s.beginStep.plateDone.drive := by simp
    have hready' : s.beginStep.plateDone.drive.plateReady = true := hready
    have hreports : (s.beginStep.endDone pl.lineSent).reports
        = (s.beginStep.plateDone.endTicket pl.lineSent .done).reports := by rw [hend]
    obtain ⟨hcounts, htouches⟩ := State.endTicket_done hticket'
    rw [← hreports] at hcounts htouches
    have honly : s.reportsOnly (s.beginStep.settle (s.beginStep.endDone pl.lineSent))
        (x.plateReport .done pl.lineSent.sent pl.lineSent.summary) := by
      refine State.reportsOnly_settle (u := (s.beginStep.plateDone.removeTicket x).count .platesDone) ?_ ?_ ?_ ?_
      · simp [State.laneAs, State.plateDone]
      · rw [hend]
        simp [State.plateDone]
      · simp [State.plateDone]
      · rw [State.endDone_eq (s := s.beginStep) (pl := pl.lineSent) hticket]
        simp
    refine ⟨_, rfl, ?_, ?_, ?_, ?_, ?_, State.settle_countsOnce hcounts, State.settle_touches htouches, honly,
      ?_, ?_, ?_⟩ <;> rw [State.settle_eq, hend] <;> dsimp only
    · rw [hdrive]
      rfl
    · rw [hdrive]
      exact if_pos hready'
    · rw [hdrive]
      rfl
    · simp [State.plateDone, State.dropPlate]
    · exact State.endTicket_schedule _ _ _
    · simp [State.plateDone]
    · simp [State.plateDone]
    · simp [State.plateDone]

/-! ## A line request (R152, R153) -/

/-- Settles O50: the transfer starts in IMAGING, and Prefetch's event follows the line that has left the pool. -/
theorem lineRequestStartsTransfer : Obligations.LineRequestStartsTransfer := by
  intro s
  have hexec : exec .lineReq s = .next (s.beginStep.settle s.beginStep.lineReq) := rfl
  refine ⟨fun pl j line rest himaging hplate hjob htransfer hpool hroom => ?_, fun hpriming => ?_, fun hout => ?_⟩
  · have hact : s.beginStep.lineReq = (s.beginStep.startTransfer pl line rest).prefetchEvent := by
      simp [State.lineReq, himaging, hplate, State.requestLine, htransfer, hpool]
    obtain ⟨lines, sm, j', hj', hnext, hlength, hfit, -, hcases⟩ :=
      State.prefetchEvent_spec (s := s.beginStep.startTransfer pl line rest) rfl hjob
    have hdrive : (s.beginStep.startTransfer pl line rest).prefetchEvent.drive = { s.beginStep.drive with
          pool := rest ++ lines
          plate := some { pl with transfer := some line, requested := pl.requested + 1, summary := sm }
          stall := if pl.requested + 1 < pl.lineCount then some s.drive.settings.stallMs else none } := by
      rcases hcases with ⟨hp, -⟩ | ⟨-, hd⟩
      · rw [show (s.beginStep.startTransfer pl line rest).drive.state = .imaging from himaging] at hp
        cases hp
      · exact hd
    refine ⟨_, hexec.trans (by rw [hact]), lines, sm, ?_⟩
    have htouches := State.prefetchEvent_touches (s.beginStep.startTransfer pl line rest)
    have hmake := State.prefetchEvent_exhausts (s.beginStep.startTransfer pl line rest)
    refine ⟨by simpa using hdrive, by simp [Drive.dotLanes, hdrive], hfit (Nat.le_of_lt hroom), hlength, ⟨j', by simpa using hj', hnext⟩,
      ?_, State.settle_touches htouches, ?_⟩
    · rw [State.settle_eq]
      exact hmake
    · simp
  · have hact : s.beginStep.lineReq = s.beginStep.count .earlyLineRequests := by
      simp [State.lineReq, hpriming]
    have hsettle : s.beginStep.settle (s.beginStep.count .earlyLineRequests) = s.beginStep.count .earlyLineRequests :=
      State.settle_quiet rfl rfl
    refine ⟨_, hexec.trans (by rw [hact, hsettle]), rfl, ?_, ?_⟩
    · simp [Reports.countsOnce, State.count, Counters.read_add]
    · exact Reports.count_touches _ 1 .earlyLineRequests _ _ (by simp)
  · have hact : s.beginStep.lineReq = s.beginStep := by
      cases hs : s.drive.state <;> simp [hs, DriveState.inContext] at hout <;> simp [State.lineReq, hs]
    rw [hexec, hact]
    exact congrArg _ (State.settle_quiet rfl rfl)

/-! ## HALT (R159, R160) -/

theorem Reports.latch_length_le (rp : Reports) (a : Alarm) : (rp.latch a).queue.length ≤ rp.queue.length + 1 := by
  unfold Reports.latch
  repeat' split
  any_goals exact Nat.le_succ _
  unfold Reports.enqueue
  split
  · exact Nat.le_succ _
  · simp

/-- At most `n` ALARM reports have joined the queue, and no plate has been spoiled. -/
structure Reports.AlarmsAhead (a b : Reports) (n : Nat) : Prop where
  sending : b.sending = a.sending
  spoiled : b.counters.read .platesSpoiled = a.counters.read .platesSpoiled
  queue : ∃ before, b.queue = a.queue ++ before ∧ before.length ≤ n ∧ ∀ r ∈ before, r.isAlarm = true

theorem State.beginStep_alarmsAhead (s : State) (n : Nat) : s.reports.AlarmsAhead s.beginStep.reports n :=
  ⟨rfl, rfl, [], (List.append_nil _).symm, Nat.zero_le _, by simp⟩

/-- A latching queues at most one ALARM report (R177). -/
theorem Reports.AlarmsAhead.latch {a b : Reports} {n : Nat} (h : a.AlarmsAhead b n) (x : Alarm) :
    a.AlarmsAhead (b.latch x) (n + 1) := by
  obtain ⟨before, hqueue, hlength, halarm⟩ := h.queue
  obtain ⟨more, hmore, hsending, hjoined⟩ := Reports.latch_alarms b x
  have hcounters := (Reports.latch_touches b x [] [x] (by simp)).1 .platesSpoiled (by simp) (by simp)
  have hone : more.length ≤ 1 := by
    have hlen := congrArg List.length hjoined
    have hle := Reports.latch_length_le b x
    rw [List.length_append] at hlen
    omega
  refine ⟨hsending.trans h.sending, hcounters.trans h.spoiled, before ++ more, by rw [hjoined, hqueue, List.append_assoc],
    by rw [List.length_append]; omega, fun r hr => ?_⟩
  rcases List.mem_append.mp hr with hr | hr
  · exact halarm r hr
  · exact hmore r hr

/-- What a halt request leaves of the drive, the ticket and the reports (R160). -/
structure Halted (s t : State) : Prop where
  state : t.drive.state = .halted ∧ t.drive.selected = none ∧ t.reports.latched .headHalt = true
  plate : s.drive.state.inContext = true → t.drive.plate = none ∧ t.drive.pool = [] ∧ t.drive.stall = none ∧
    t.prefetch.job = none ∧ t.drive.plateEnd = false ∧
    ∀ pl x, s.drive.plate = some pl → s.ticket? pl.tag = some x →
      t.schedule = (s.schedule.filter fun y => !(y.tag == pl.tag)) ∧
      t.reports.latched .plateSpoiled = true ∧ s.reports.countsOnce t.reports .platesSpoiled ∧
      (s.reports.sending.isSome = true → s.reports.queue.length + 2 < 32 → ∃ before after,
        t.reports.queue
          = s.reports.queue ++ before ++ x.plateReport (.spoiled .halted) pl.sent pl.summary :: after ∧
        before.length ≤ 2 ∧ ∀ r ∈ before, r.isAlarm = true)
  alone : s.drive.state.inContext = false → t.schedule = s.schedule ∧ t.pages = s.pages
  same : t.store = s.store ∧ t.screener = s.screener ∧ t.intake = s.intake

/-- A state of the event of a halt request, ahead of the request: the drive holds what it held, and at most one ALARM
report has been queued. -/
structure State.HaltComes (s u : State) : Prop where
  drive : u.drive = { s.drive with
    haltRun := u.drive.haltRun, lastSample := u.drive.lastSample, stuck := u.drive.stuck, plateEnd := false }
  tables : u.schedule = s.schedule ∧ u.pages = s.pages ∧ u.store = s.store ∧ u.screener = s.screener ∧
    u.intake = s.intake
  reports : s.reports.AlarmsAhead u.reports 1

/-- The end of the ticket of a plate that a halt spoils, on a busy lane with room for the alarms ahead of it. -/
theorem State.endTicket_queue {s : State} {pl : Plate} {x : Ticket} (h : s.ticket? pl.tag = some x) (o : PlateOutcome)
    (hroom : s.reports.queue.length < 32) :
    ∃ after, (s.endTicket pl o).reports.queue = s.reports.queue ++ x.plateReport o pl.sent pl.summary :: after := by
  rw [State.endTicket_of_some h]
  obtain ⟨-, -, -, after, hafter⟩ :=
    State.tallyOutcome_growsTo ((s.removeTicket x).report (x.plateReport o pl.sent pl.summary)) o
  refine ⟨after, hafter.trans ?_⟩
  have hreports : (s.removeTicket x).reports = s.reports := by simp
  rw [State.report_reports, hreports, Reports.enqueue_free _ _ hroom]
  simp

theorem State.haltRequest_of_inContext {s : State} (h : s.drive.state.inContext = true) :
    s.haltRequest = { (s.latch .headHalt).plateEnded (.spoiled .halted) with
      drive := { ((s.latch .headHalt).plateEnded (.spoiled .halted)).drive with state := .halted, selected := none } } := by
  unfold State.haltRequest
  dsimp only
  rw [if_pos (by simpa using h)]
  rfl

theorem State.haltRequest_of_none {s : State} (h : s.drive.state.inContext = false) :
    s.haltRequest = { s.latch .headHalt with
      drive := { (s.latch .headHalt).drive with state := .halted, selected := none } } := by
  unfold State.haltRequest
  dsimp only
  rw [if_neg (by simp [h])]

/-- A halt request keeps the discriminator, and every latch that is set. -/
theorem State.haltRequest_keeps (s : State) : s.haltRequest.drive.haltRun = s.drive.haltRun ∧
    s.haltRequest.drive.stuck = s.drive.stuck ∧
    ∀ a, (s.latch .headHalt).reports.latched a = true → s.haltRequest.reports.latched a = true := by
  cases hc : s.drive.state.inContext with
  | true =>
    rw [State.haltRequest_of_inContext hc]
    refine ⟨by simp [State.plateEnded_drive], by simp [State.plateEnded_drive], fun a ha => ?_⟩
    show ((s.latch .headHalt).plateEnded (.spoiled .halted)).reports.latched a = true
    unfold State.plateEnded
    split
    · exact ha
    · exact State.endTicket_keeps (s := (s.latch .headHalt).dropPlate) a ha _ _
  | false =>
    rw [State.haltRequest_of_none hc]
    exact ⟨rfl, rfl, fun _ ha => ha⟩

/-- A halt request leaves the drive HALTED, and spoils the plate in context, its ALARM reports ahead (R160). -/
theorem State.HaltComes.halted {s u : State} (h : s.HaltComes u) : Halted s (s.beginStep.settle u.haltRequest) := by
  obtain ⟨hschedule, hpages, hstore, hscreener, hintake⟩ := h.tables
  obtain ⟨-, -, hkeeps⟩ := u.haltRequest_keeps
  have hstate : u.drive.state = s.drive.state := by rw [h.drive]
  have hlatched := hkeeps .headHalt (Reports.latch_latched _ _ _ (.inl rfl))
  have hahead := h.reports.latch .headHalt
  cases hc : s.drive.state.inContext with
  | false =>
    have hact := State.haltRequest_of_none (s := u) (by rw [hstate]; exact hc)
    refine ⟨⟨?_, ?_, by simpa using hlatched⟩, fun hn => (by rw [hc] at hn; cases hn), fun _ => ⟨?_, ?_⟩, ?_, ?_, ?_⟩ <;>
      rw [State.settle_eq, hact]
    · exact hschedule
    · exact hpages
    · exact hstore
    · exact hscreener
    · exact hintake
  | true =>
    have hact := State.haltRequest_of_inContext (s := u) (by rw [hstate]; exact hc)
    obtain ⟨-, hended2, hended3, hended4, hended5⟩ := (u.latch .headHalt).plateEnded_same (.spoiled .halted)
    have hdrive := (u.latch .headHalt).plateEnded_drive (.spoiled .halted)
    have hplateEnd : u.drive.plateEnd = false := by rw [h.drive]
    refine ⟨⟨?_, ?_, by simpa using hlatched⟩, fun _ => ⟨?_, ?_, ?_, ?_, ?_, fun pl x hp hx => ?_⟩,
      fun hn => (by rw [hc] at hn; cases hn), ?_⟩
    · rw [State.settle_eq, hact]
    · rw [State.settle_eq, hact]
    · rw [State.settle_eq, hact, hdrive]
    · rw [State.settle_eq, hact, hdrive]
    · rw [State.settle_eq, hact, hdrive]
    · rw [State.settle_eq, hact]
      exact hended5
    · rw [State.settle_eq, hact, hdrive]
      exact hplateEnd
    · have hplate : (u.latch .headHalt).drive.plate = some pl := (congrArg Drive.plate h.drive).trans hp
      rw [State.plateEnded_of_some hplate] at hact
      have hticket : (u.latch .headHalt).dropPlate.ticket? pl.tag = some x := by
        rw [← hx]
        simp [State.ticket?, hschedule]
      obtain ⟨hspoiled, hcounts, -⟩ := State.endTicket_spoiled hticket .halted
      have hreports : u.haltRequest.reports = ((u.latch .headHalt).dropPlate.endTicket pl (.spoiled .halted)).reports := by
        rw [hact]
      refine ⟨?_, ?_, ?_, fun hbusy hroom => ?_⟩
      · rw [State.settle_eq, hact]
        exact (State.endTicket_schedule _ _ _).trans (by simp [hschedule])
      · simpa [hreports] using hspoiled
      · refine State.settle_countsOnce ?_
        rw [hreports]
        unfold Reports.countsOnce at hcounts ⊢
        rw [hcounts]
        exact congrArg (fun n => min Config.counterMax (n + 1)) hahead.spoiled
      · obtain ⟨before, hqueue, hlength, halarm⟩ := hahead.queue
        have hqueue' : (u.latch .headHalt).dropPlate.reports.queue = s.reports.queue ++ before := hqueue
        obtain ⟨after, hafter⟩ := State.endTicket_queue hticket (.spoiled .halted)
          (by rw [hqueue', List.length_append]; omega)
        obtain ⟨hsent, -⟩ := State.endTicket_growsTo (u.latch .headHalt).dropPlate pl (.spoiled .halted)
        have hsending : u.haltRequest.reports.sending.isSome = true := by
          rw [hreports, hsent]
          exact (congrArg Option.isSome hahead.sending).trans hbusy
        refine ⟨before, after, ?_, hlength, halarm⟩
        rw [State.settle_busy hsending, hreports, hafter, hqueue']
    · rw [State.settle_eq, hact]
      exact ⟨hended2.trans hstore, hended3.trans hscreener, hended4.trans hintake⟩

/-- A high sample that is not the seventh of its run (R159). -/
theorem State.haltSample_high {s : State} (hrun : s.drive.haltRun ≤ 7) (hne : s.drive.haltRun ≠ 6) :
    s.haltSample true
      = { s with drive := { s.drive with haltRun := min 7 (s.drive.haltRun + 1), lastSample := true } } := by
  unfold State.haltSample
  dsimp only
  rw [if_pos rfl]
  by_cases hlt : s.drive.haltRun < 6
  · rw [if_pos hlt, Nat.min_eq_right (by omega)]
  · have hseven : s.drive.haltRun = 7 := by omega
    rw [if_neg hlt, if_neg hne, hseven]
    simp [← hseven]

/-- A low sample that ends no pulse (R159). -/
theorem State.haltSample_low {s : State} (h : s.drive.haltRun < 4 ∨ s.drive.haltRun = 7) :
    s.haltSample false = { s with drive := { s.drive with
      haltRun := 0, lastSample := false, stuck := (if s.drive.haltRun = 7 then false else s.drive.stuck) } } := by
  unfold State.haltSample
  dsimp only
  rw [if_neg (by simp)]
  rcases h with hlow | hseven
  · rw [if_pos hlow, if_neg (by omega)]
  · rw [if_neg (by simp [hseven]), if_neg (by simp [hseven]), if_pos hseven]

/-- Settles O53, sample by sample. -/
theorem haltSamples : Obligations.HaltSamples := by
  intro s hrun halted
  have hhalted : ∀ t, Halted s t → halted t := fun t h => by
    obtain ⟨hstate, hselected, hlatched⟩ := h.state
    exact ⟨hstate, hselected, hlatched, h.plate, h.alone, h.same⟩
  have hsettle : ∀ d : Drive, s.beginStep.settle { s.beginStep with drive := d } = { s.beginStep with drive := d } :=
    fun d => State.settle_quiet rfl rfl
  have hpulse : ∀ n lifted, State.HaltComes s { s.beginStep with
      drive := { s.beginStep.drive with haltRun := n, lastSample := false, stuck := lifted } } := fun n lifted =>
    ⟨rfl, ⟨rfl, rfl, rfl, rfl, rfl⟩, s.beginStep_alarmsAhead 1⟩
  refine ⟨fun hlow hhigh => ?_, fun hsix => ?_, fun hne => ?_, fun hlow => ?_⟩
  · have hact : s.beginStep.haltSample false = State.haltRequest { s.beginStep with
        drive := { s.beginStep.drive with haltRun := 0, lastSample := false } } := by
      simp [State.haltSample, Nat.not_lt.mpr hlow, Nat.lt_succ_of_le hhigh]
    obtain ⟨hzero, hstuck, -⟩ := State.haltRequest_keeps { s.beginStep with
      drive := { s.beginStep.drive with haltRun := 0, lastSample := false } }
    refine ⟨_, congrArg (fun u => Host.Outcome.next (s.beginStep.settle u)) hact, ?_, ?_,
      hhalted _ (hpulse 0 s.drive.stuck).halted⟩
    · simpa using hzero
    · simpa using hstuck
  · have hact : s.beginStep.haltSample true = State.haltRequest (State.latch { s.beginStep with
        drive := { s.beginStep.drive with haltRun := 7, stuck := true, lastSample := true } } .haltLineStuck) := by
      simp [State.haltSample, hsix]
    have hcomes : State.HaltComes s (State.latch { s.beginStep with
        drive := { s.beginStep.drive with haltRun := 7, stuck := true, lastSample := true } } .haltLineStuck) :=
      ⟨rfl, ⟨rfl, rfl, rfl, rfl, rfl⟩, (s.beginStep_alarmsAhead 0).latch .haltLineStuck⟩
    obtain ⟨hseven, hstuck, hkeeps⟩ := State.haltRequest_keeps (State.latch { s.beginStep with
      drive := { s.beginStep.drive with haltRun := 7, stuck := true, lastSample := true } } .haltLineStuck)
    have hlatched := hkeeps .haltLineStuck (Reports.latch_latched _ _ _ (.inr (Reports.latch_latched _ _ _ (.inl rfl))))
    refine ⟨_, congrArg (fun u => Host.Outcome.next (s.beginStep.settle u)) hact, ?_, ?_, ?_, hhalted _ hcomes.halted⟩
    · simpa using hseven
    · simpa using hstuck
    · simpa using hlatched
  · exact (congrArg (fun u => Host.Outcome.next (s.beginStep.settle u))
      (State.haltSample_high (s := s.beginStep) hrun hne)).trans (congrArg _ (hsettle _))
  · exact (congrArg (fun u => Host.Outcome.next (s.beginStep.settle u))
      (State.haltSample_low (s := s.beginStep) hlow)).trans (congrArg _ (hsettle _))

end Sys2Proof.Machine
end

section
/-! PROOFS. WITHDRAW_TICKET (R4, R139, R140). -/

namespace Sys2Proof.Machine

open Sys2Proof (Byte Instr)

/-! ## The use counts that a ticket's resolutions move (R4) -/

theorem State.page?_addUse_map (s : State) (o : Option Resolution) (up : Bool) (r : Nat) :
    (s.addUse o up).page? r = (s.page? r).map fun p =>
      { p with useCount := if up then p.useCount + namings o r else p.useCount - namings o r } := by
  unfold State.addUse namings
  cases o with
  | none => cases s.page? r <;> simp
  | some x =>
    dsimp only
    rw [State.page?_modifyPage]
    by_cases hr : r = x.record
    · subst hr
      simp
    · rw [if_neg hr]
      have hne : (x.record == r) = false := by simpa using fun h => hr h.symm
      cases s.page? r <;> simp [hne]

/-- The resolutions of a ticket that name a record. -/
theorem length_naming (x : Ticket) (r : Nat) :
    (x.resolutions.filter fun z => z.record == r).length = Machine.namings x.leftRes r + Machine.namings x.rightRes r := by
  unfold Ticket.resolutions namings
  rw [List.filter_append, List.length_append]
  congr 1
  · cases x.leftRes with
    | none => rfl
    | some z => cases h : z.record == r <;> simp [h]
  · cases x.rightRes with
    | none => rfl
    | some z => cases h : z.record == r <;> simp [h]

/-- The use counts after those of both resolutions of a ticket have moved. -/
theorem State.page?_addUse_both (s : State) (x : Ticket) (up : Bool) (r : Nat) :
    ((s.addUse x.leftRes up).addUse x.rightRes up).page? r = (s.page? r).map fun p =>
      { p with useCount := if up then p.useCount + (x.resolutions.filter fun z => z.record == r).length
          else p.useCount - (x.resolutions.filter fun z => z.record == r).length } := by
  rw [State.page?_addUse_map, State.page?_addUse_map, length_naming, Option.map_map]
  congr 1
  funext p
  cases up
  · simp [Nat.sub_sub]
  · simp [Nat.add_assoc]

/-- The record table after a ticket has left the schedule (R139). -/
theorem State.page?_removeTicket (s : State) (x : Ticket) (r : Nat) :
    (s.removeTicket x).page? r = (s.page? r).map fun p =>
      { p with useCount := p.useCount - (x.resolutions.filter fun z => z.record == r).length } :=
  State.page?_addUse_both { s with schedule := s.schedule.filter fun y => !(y.tag == x.tag) } x false r

theorem State.removeTicket_schedule (s : State) (x : Ticket) :
    (s.removeTicket x).schedule = s.schedule.filter fun y => !(y.tag == x.tag) := by
  simp [State.removeTicket]

/-- The tags that are left when a ticket leaves a schedule. -/
theorem tags_of_removed (l : List Ticket) (tag : Nat) :
    (l.filter fun y => !(y.tag == tag)).map (·.tag) = (l.map (·.tag)).filter (· != tag) := by
  rw [List.filter_map]
  rfl

/-! ## WITHDRAW_TICKET (R139, R140) -/

theorem State.withdrawTicket_of_none {s : State} {d : Directive} (h : s.ticket? (u16 d.payload 0) = none) :
    s.withdrawTicket d = s.refuse d .unknownTicket := by
  simp [State.withdrawTicket, h]

theorem State.withdrawTicket_of_imaging {s : State} {d : Directive} {x : Ticket}
    (h : s.ticket? (u16 d.payload 0) = some x) (hx : x.state = .imaging) :
    s.withdrawTicket d = ((s.accept d x.withdrawnBody).plateEnded .withdrawn).enterUnloading := by
  simp [State.withdrawTicket, h, hx, State.endShort_eq]

theorem State.withdrawTicket_of_waiting {s : State} {d : Directive} {x : Ticket}
    (h : s.ticket? (u16 d.payload 0) = some x) (hx : x.state ≠ .imaging) :
    s.withdrawTicket d = ((s.removeTicket x).offer.accept d x.withdrawnBody).report
      (x.plateReport .withdrawn 0 ⟨0, 0, 0, 0, false⟩) := by
  simp [State.withdrawTicket, h, hx]

/-- The reply to a directive and a report behind it. -/
structure RepliedAndReported (s t : State) (d : Directive) (body : List Byte) (q : Report) : Prop where
  accepted : acceptedWith s t d body
  both : d.quiet = false → s.reportsTwo t (d.reply none body) q
  quiet : d.quiet = true → s.reportsFirst t q
  touches : s.reports.touches t.reports [] [.storeLow]

theorem repliedAndReported_settle {s v : State} {d : Directive} {body : List Byte} {q : Report}
    (hs : v.straps = s.straps) (hv : v.reports = ((s.beginStep.popInlet.accept d body).report q).reports) :
    RepliedAndReported s (s.beginStep.settle v.evalFlag) d body q := by
  have hlane : s.laneAs s.beginStep.popInlet := ⟨rfl, rfl, rfl, rfl⟩
  have hstraps : v.evalFlag.straps = s.straps := by simpa using hs
  refine ⟨acceptedWith_of_grows hlane hs ?_, fun hq => ?_, fun hq => ?_, ?_⟩
  · rw [hv]
    exact Reports.enqueue_growsTo _ _
  · refine State.reportsTwo_settle hlane hstraps ?_
    rw [State.accept, hq] at hv
    exact Reports.growsTo_trans (Reports.growsTo_same hv) (State.evalFlag_growsTo _)
  · refine State.reportsFirst_settle hlane hstraps ?_
    rw [State.accept, hq] at hv
    exact Reports.growsTo_trans (Reports.growsTo_same hv) (State.evalFlag_growsTo _)
  · have htouches : s.beginStep.popInlet.reports.touches v.reports [] [.storeLow] := by
      rw [hv]
      exact Reports.touches_trans (State.accept_touches s.beginStep.popInlet d body [] [.storeLow])
        (Reports.enqueue_touches _ _ _ _)
    exact State.settle_touches (Reports.touches_trans htouches (State.evalFlag_touches _ [] [.storeLow] (by simp)))

/-- What WITHDRAW_TICKET leaves, ahead of the end of its event. -/
structure Withdrawn (s v : State) (x : Ticket) (body : List Byte) (d : Directive) (q : Report) : Prop where
  schedule : v.schedule.map (·.tag) = (s.schedule.map (·.tag)).filter (· != x.tag)
  pages : ∀ r, v.page? r = (s.page? r).map fun p =>
    { p with useCount := p.useCount - (x.resolutions.filter fun z => z.record == r).length }
  reports : v.reports = ((s.beginStep.popInlet.accept d body).report q).reports
  same : v.straps = s.straps ∧ v.store = s.store ∧ v.repair = s.repair ∧ v.screener = s.screener ∧
    v.intake.queue = s.intake.queue.tail

theorem withdrawn_waiting (s : State) (d : Directive) (x : Ticket) :
    Withdrawn s (((s.beginStep.popInlet.removeTicket x).offer.accept d x.withdrawnBody).report
      (x.plateReport .withdrawn 0 ⟨0, 0, 0, 0, false⟩)) x x.withdrawnBody d
      (x.plateReport .withdrawn 0 ⟨0, 0, 0, 0, false⟩) where
  schedule := by
    simp [State.removeTicket_schedule, tags_of_removed]
  pages r := by
    rw [State.page?_congr (s := s.beginStep.popInlet.removeTicket x) (by simp), State.page?_removeTicket]
    rfl
  reports := by
    have hreports : (s.beginStep.popInlet.removeTicket x).offer.reports = s.beginStep.popInlet.reports := by simp
    simp only [State.report_reports, State.accept]
    split <;> simp
  same := by simp

theorem withdrawn_imaging {s : State} (d : Directive) {x : Ticket} {pl : Plate} (hp : s.drive.plate = some pl)
    (htag : pl.tag = x.tag) (hx : s.ticket? x.tag = some x) :
    Withdrawn s ((s.beginStep.popInlet.accept d x.withdrawnBody).plateEnded .withdrawn).enterUnloading x
      x.withdrawnBody d (x.plateReport .withdrawn pl.sent pl.summary) := by
  have hended : (s.beginStep.popInlet.accept d x.withdrawnBody).plateEnded .withdrawn
      = ((s.beginStep.popInlet.accept d x.withdrawnBody).dropPlate.removeTicket x).report
        (x.plateReport .withdrawn pl.sent pl.summary) := by
    have hticket : (s.beginStep.popInlet.accept d x.withdrawnBody).dropPlate.ticket? pl.tag = some x := by
      rw [htag, ← hx]
      simp [State.ticket?]
    rw [State.plateEnded_of_some (pl := pl) (by simpa using hp), State.endTicket_of_some hticket]
    rfl
  refine ⟨?_, fun r => ?_, ?_, ?_⟩
  · rw [State.enterUnloading_eq, hended]
    simp [State.removeTicket_schedule, tags_of_removed]
  · rw [State.page?_congr (s := (s.beginStep.popInlet.accept d x.withdrawnBody).dropPlate.removeTicket x)
      (by rw [hended]; simp), State.page?_removeTicket]
    congr 1
    exact State.page?_congr (by simp) r
  · rw [State.enterUnloading_eq, hended]
    simp
  · rw [hended]
    simp

/-- Settles O29: a ticket that waits leaves the schedule, and an IMAGING one ends its plate. -/
theorem withdrawEndsTicket : Obligations.WithdrawEndsTicket := by
  intro s d ht
  refine ⟨fun hnone => ?_, fun x sent sm hx hcase => ?_⟩
  · exact gives_mono (gives_refused ht (State.withdrawTicket_of_none hnone)) fun t h => ⟨h.frame, h.answer⟩
  · have htag : x.tag = u16 d.payload 0 := (State.ticket?_some hx).1
    obtain ⟨v, hact, hw, hplate⟩ : ∃ v, s.beginStep.popInlet.withdrawTicket d = v ∧
        Withdrawn s v x x.withdrawnBody d (x.plateReport .withdrawn sent sm) ∧
        (x.state = .imaging → v.drive.plate = none ∧ v.drive.pool = [] ∧ v.prefetch.job = none ∧
          v.drive.state.inContext = false ∧ v.drive.plateEnd = false) := by
      rcases hcase with ⟨hstate, rfl, rfl⟩ | ⟨hstate, pl, hp, hpl, rfl, rfl⟩
      · exact ⟨_, State.withdrawTicket_of_waiting (s := s.beginStep.popInlet) hx hstate, withdrawn_waiting s d x,
          fun hn => absurd hn hstate⟩
      · refine ⟨_, State.withdrawTicket_of_imaging (s := s.beginStep.popInlet) hx hstate,
          withdrawn_imaging d hp hpl (htag ▸ hx), fun _ => ?_⟩
        obtain ⟨-, -, -, -, hjob⟩ := (s.beginStep.popInlet.accept d x.withdrawnBody).plateEnded_same .withdrawn
        have hdrive := (s.beginStep.popInlet.accept d x.withdrawnBody).plateEnded_drive .withdrawn
        rw [State.enterUnloading_eq, hdrive]
        refine ⟨rfl, rfl, hjob, ?_, by simp⟩
        dsimp only
        (repeat' split) <;> rfl
    obtain ⟨hstraps, hstore, hrepair, hscreener, hqueue⟩ := hw.same
    have hreplied := repliedAndReported_settle hstraps hw.reports
    obtain ⟨hsame1, hsame2, hsame3, hsame4, hsame5, hsame6, hsame7, hsame8, -⟩ := State.settle_evalFlag_same s.beginStep v
    have htags : (s.beginStep.settle v.evalFlag).schedule.map (·.tag) = (s.schedule.map (·.tag)).filter (· != x.tag) := by
      rw [hsame6, hw.schedule]
    refine gives_of_takes ht hact ⟨fun y hy hyx => ?_, htags, fun r => ?_, hreplied.accepted, hreplied.both,
      hreplied.quiet, hreplied.touches, fun hi => ?_, hsame2.trans hstore, hsame3.trans hrepair, hsame5.trans hscreener,
      hsame8.trans hqueue⟩
    · have hmem : x.tag ∈ (s.beginStep.settle v.evalFlag).schedule.map (·.tag) := List.mem_map.mpr ⟨y, hy, hyx⟩
      rw [htags] at hmem
      simp at hmem
    · exact (State.page?_congr hsame1 r).trans (hw.pages r)
    · rw [hsame7, hsame4]
      exact hplate hi

end Sys2Proof.Machine
end

section
/-! PROOFS. POST_TICKET (R129 to R133). -/

namespace Sys2Proof.Machine

open Sys2Proof (Byte Instr)

/-! ## The place of a posted ticket (R132) -/

/-- A ticket is placed at the tail, or immediately before the first ticket that is not IMAGING. -/
theorem insertTicket_split (front : Bool) (x : Ticket) (l : List Ticket) : ∃ before after, l = before ++ after ∧
    insertTicket front x l = before ++ x :: after ∧ (front = false → after = []) ∧
    (front = true → (∀ y ∈ before, y.state = .imaging) ∧ ∀ y, after.head? = some y → y.state ≠ .imaging) := by
  induction l with
  | nil => exact ⟨[], [], rfl, rfl, fun _ => rfl, fun _ => by simp⟩
  | cons y ys ih =>
    obtain ⟨before, after, hsplit, hinsert, htail, hfront⟩ := ih
    unfold insertTicket
    split
    next hc =>
      simp only [Bool.and_eq_true, Bool.not_eq_true', beq_eq_false_iff_ne] at hc
      exact ⟨[], y :: ys, rfl, rfl, fun hf => by simp [hf] at hc, fun _ => ⟨by simp, fun z hz => by cases hz; exact hc.2⟩⟩
    next hc =>
      refine ⟨y :: before, after, by rw [hsplit]; rfl, by rw [hinsert]; rfl, htail, fun hf => ?_⟩
      obtain ⟨hbefore, hafter⟩ := hfront hf
      refine ⟨fun z hz => ?_, hafter⟩
      rcases List.mem_cons.mp hz with rfl | hz
      · simpa [hf] using hc
      · exact hbefore z hz

/-- The position of a ticket whose tag no ticket ahead of it has (R132). -/
theorem positionOf_split {before after : List Ticket} {x : Ticket} (h : ∀ y ∈ before, y.tag ≠ x.tag) :
    positionOf x.tag (before ++ x :: after) = before.length + 1 := by
  unfold positionOf
  congr 1
  induction before with
  | nil => simp [List.findIdx_cons]
  | cons y ys ih =>
    have hy : (y.tag == x.tag) = false := by simpa using h y (by simp)
    simp [List.findIdx_cons, hy, ih fun z hz => h z (by simp [hz])]

/-! ## What the use counts have no part in -/

/-- The page table with other use counts. -/
def State.Recounts (s t : State) (f : Nat → PageRecord → Nat) : Prop :=
  ∀ r, t.page? r = (s.page? r).map fun p => { p with useCount := f r p }

theorem State.Recounts.some {s t : State} {f : Nat → PageRecord → Nat} (h : s.Recounts t f) {r : Nat} {p : PageRecord}
    (hp : s.page? r = some p) : t.page? r = Option.some { p with useCount := f r p } := by
  rw [h r, hp]
  rfl

/-- The conditions of R133 name no use count, and no state of the ticket. -/
theorem State.Recounts.meetsArming {s t : State} {f : Nat → PageRecord → Nat} (h : s.Recounts t f)
    (hs : t.screener = s.screener) (x : Ticket) (st : TicketState) :
    t.MeetsArming { x with state := st } ↔ s.MeetsArming x := by
  unfold State.MeetsArming
  rw [hs]
  refine and_congr_right fun _ => and_congr_right fun _ => and_congr_left fun _ => forall₂_congr fun z _ => ?_
  rw [h z.record]
  cases s.page? z.record with
  | none => simp
  | some p => simp

/-- Nor does the resolution of a binding (R129). -/
theorem State.Recounts.sameNames {s t : State} {f : Nat → PageRecord → Nat} (h : s.Recounts t f) : s.sameNames t := by
  intro r
  rw [h r]
  cases s.page? r <;> rfl

/-! ## POST_TICKET's refusals (R131) -/

/-- The arguments that R131 accepts, the ink among them. -/
theorem TicketArgs.legal_iff (a : TicketArgs) : (∃ i, inkOf a.ink = some i ∧ a.ok = true) ↔
    1 ≤ a.tag ∧ a.ink < 4 ∧ a.margin ≤ 4095 ∧ a.gutter ≤ 2048 ∧ (1 ≤ a.left.pageId ∧ a.left.pageId ≤ 4095) ∧
      ∀ b, a.right = some b → 1 ≤ b.pageId ∧ b.pageId ≤ 4095 := by
  have hink : (∃ i, inkOf a.ink = some i) ↔ a.ink < 4 := by
    rcases hn : a.ink with _ | _ | _ | _ | n <;> simp [inkOf]
  have hright : (match a.right with | none => true | some b => b.ok) = true ↔
      ∀ b, a.right = some b → 1 ≤ b.pageId ∧ b.pageId ≤ 4095 := by
    cases a.right <;> simp [Binding.ok]
  rw [exists_and_right, hink, TicketArgs.ok]
  simp only [Bool.and_eq_true, decide_eq_true_eq, Binding.ok]
  tauto

theorem State.postTicket_of_illegal {s : State} {d : Directive}
    (h : ¬ ∃ i, inkOf (ticketArgs d.payload).ink = some i ∧ (ticketArgs d.payload).ok = true) :
    s.postTicket d = s.refuse d .badArgument := by
  unfold State.postTicket
  dsimp only
  split
  · rfl
  next i hi => rw [if_pos (by simpa using fun hok => h ⟨i, hi, hok⟩)]

/-- POST_TICKET with legal arguments. -/
theorem State.postTicket_of_legal {s : State} {d : Directive} {i : Ink} (hi : inkOf (ticketArgs d.payload).ink = some i)
    (hok : (ticketArgs d.payload).ok = true) : s.postTicket d =
      if (s.ticket? (ticketArgs d.payload).tag).isSome then s.refuse d .duplicateTag
      else if Config.scheduleCapacity ≤ s.schedule.length then s.refuse d .scheduleFull
      else (s.enterTicket (ticketArgs d.payload).front (s.readyTicket ((ticketArgs d.payload).ticket i))).accept d
        [byteOf (positionOf (ticketArgs d.payload).tag (insertTicket (ticketArgs d.payload).front
            (s.readyTicket ((ticketArgs d.payload).ticket i)) s.schedule)),
          byteOf (s.readyTicket ((ticketArgs d.payload).ticket i)).state.code] := by
  unfold State.postTicket
  dsimp only
  rw [hi]
  dsimp only
  rw [hok]
  rfl

/-! ## A ticket enters the schedule (R132) -/

/-- The schedule and the use counts with a ticket entered, ahead of the offer. -/
def State.posting (s : State) (front : Bool) (x : Ticket) : State :=
  { (s.addUse x.leftRes true).addUse x.rightRes true with schedule := insertTicket front x s.schedule }

theorem State.enterTicket_eq (s : State) (front : Bool) (x : Ticket) :
    s.enterTicket front x = (s.posting front x).offer := rfl

@[simp] theorem State.posting_same (s : State) (front : Bool) (x : Ticket) :
    (s.posting front x).straps = s.straps ∧ (s.posting front x).intake = s.intake ∧
    (s.posting front x).store = s.store ∧ (s.posting front x).repair = s.repair ∧
    (s.posting front x).screener = s.screener ∧ (s.posting front x).drive = s.drive ∧
    (s.posting front x).reports = s.reports := by
  simp [State.posting]

theorem State.posting_recounts (s : State) (front : Bool) (x : Ticket) : s.Recounts (s.posting front x) fun r p =>
    p.useCount + (x.resolutions.filter fun z => z.record == r).length :=
  fun r => State.page?_addUse_both s x true r

/-- An offer leaves the ticket with a tag of its own as it is, or takes it up where it is ARMED. -/
theorem State.offer_ticket {s : State} {x : Ticket} {before after : List Ticket} (hs : s.schedule = before ++ x :: after)
    (hne : ∀ y ∈ before ++ after, y.tag ≠ x.tag) :
    ∃ y ∈ s.offer.schedule, y = { x with state := y.state } ∧
      (y.state = x.state ∨ (y.state = .imaging ∧ x.state = .armed)) := by
  rcases s.offer_schedule with hsame | ⟨z, hz, -, himaging⟩
  · exact ⟨x, by rw [hsame, hs]; simp, rfl, .inl rfl⟩
  · rw [himaging, hs]
    by_cases htag : x.tag = z.tag
    · obtain ⟨hmem, harmed⟩ := eligibleIn_some hz
      rw [hs] at hmem
      obtain rfl : z = x := by
        by_contra hzx
        refine hne z ?_ htag.symm
        simp only [List.mem_append, List.mem_cons, hzx, false_or] at hmem
        exact List.mem_append.mpr hmem
      refine ⟨{ z with state := .imaging }, List.mem_map.mpr ⟨z, by simp, by simp⟩, rfl, .inr ⟨rfl, harmed⟩⟩
    · exact ⟨x, List.mem_map.mpr ⟨x, by simp, if_neg (by simpa using htag)⟩, rfl, .inl rfl⟩

/-- A captured plate context is that of the ticket whatever the ticket's state. -/
theorem State.PlateCaptured.ofTicket {t : State} {x : Ticket} (h : t.PlateCaptured x) (st : TicketState) :
    t.PlateCaptured { x with state := st } := by
  obtain ⟨q, j, hplate, hcontext, hrest⟩ := h
  exact ⟨q, j, hplate, hcontext.congr (fun r p hp => ⟨p, hp, rfl, rfl⟩) rfl rfl rfl rfl, hrest⟩

/-- The ticket that POST_TICKET enters: resolved, and ARMED exactly where the four conditions hold (R129, R133). -/
theorem State.readyTicket_spec (s : State) (a : TicketArgs) (i : Ink) :
    let x := s.readyTicket (a.ticket i)
    x.tag = a.tag ∧ x.ink = i ∧ x.margin = a.margin ∧ x.gutter = a.gutter ∧ x.left = a.left ∧ x.right = a.right ∧
      x.policy = a.policy ∧ s.ResolvesTo a.left x.leftRes ∧ (∀ b, a.right = some b → s.ResolvesTo b x.rightRes) ∧
      (a.right = none → x.rightRes = none) ∧ (x.state = .armed ↔ s.MeetsArming x) ∧
      (x.state = .armed ∨ x.state = .posted) := by
  intro x
  have hstate : x.state = if (s.armingFailure (s.resolveTicket (a.ticket i))).isNone then .armed else .posted :=
    State.armedState_eq (s := s) (x := s.resolveTicket (a.ticket i)) (by simp [State.resolveTicket, TicketArgs.ticket])
  have harming : (s.armingFailure (s.resolveTicket (a.ticket i))).isNone = true ↔ s.MeetsArming x :=
    State.armingFailure_isNone s (s.resolveTicket (a.ticket i))
  refine ⟨rfl, rfl, rfl, rfl, rfl, rfl, rfl, s.resolvesTo_resolve a.left, fun b hb => ?_, fun hn => ?_, ?_, ?_⟩
  · show s.ResolvesTo b (a.right.bind s.resolve)
    rw [hb]
    exact s.resolvesTo_resolve b
  · show a.right.bind s.resolve = none
    rw [hn]
    rfl
  · rw [← harming, hstate]
    split <;> simp_all
  · rw [hstate]
    split <;> simp

/-- What POST_TICKET of a new tag leaves of a schedule with room, ahead of the evaluation of the holding flag. -/
theorem State.posting_offer {s : State} {a : TicketArgs} (i : Ink) (hnew : ∀ x ∈ s.schedule, x.tag ≠ a.tag) :
    let x := s.readyTicket (a.ticket i)
    let u := (s.posting a.front x).offer
    ∃ before after, s.schedule = before ++ after ∧ (a.front = false → after = []) ∧
      (a.front = true → (∀ y ∈ before, y.state = .imaging) ∧ ∀ y, after.head? = some y → y.state ≠ .imaging) ∧
      u.schedule.map (·.tag) = before.map (·.tag) ++ a.tag :: after.map (·.tag) ∧
      positionOf a.tag (insertTicket a.front x s.schedule) = before.length + 1 ∧
      s.Recounts u (fun r p => p.useCount + (x.resolutions.filter fun z => z.record == r).length) ∧
      (∃ y ∈ u.schedule, y = { x with state := y.state } ∧
        (y.state = x.state ∨ (y.state = .imaging ∧ x.state = .armed)) ∧
        (s.Open → s.drive.plateReady = true → IsEligible s.drive.settings.mode (before ++ x :: after) x →
          y.state = .imaging ∧ u.PlateCaptured y)) ∧
      (s.Open → s.drive.plateReady = false → u.Selects) := by
  intro x u
  obtain ⟨before, after, hsplit, hinsert, htail, hfront⟩ := insertTicket_split a.front x s.schedule
  have hne : ∀ y ∈ before ++ after, y.tag ≠ x.tag := fun y hy => hnew y (hsplit ▸ hy)
  have hschedule : (s.posting a.front x).schedule = before ++ x :: after := hinsert
  have hrecounts := s.posting_recounts a.front x
  have hdrive : (s.posting a.front x).drive = s.drive := by simp
  obtain ⟨-, -, -, -, -, -, -, -, -, -, harmed, -⟩ := s.readyTicket_spec a i
  refine ⟨before, after, hsplit, htail, hfront, ?_, ?_, ?_, ?_, fun hopen hlow => ?_⟩
  · rw [State.offer_tags, hschedule, List.map_append]
    rfl
  · rw [hinsert]
    exact positionOf_split fun y hy => hne y (List.mem_append_left _ hy)
  · exact fun r => (State.page?_congr (by simp [u]) r).trans (hrecounts r)
  · by_cases hcapture : s.Open ∧ s.drive.plateReady = true ∧ IsEligible s.drive.settings.mode (before ++ x :: after) x
    · obtain ⟨hopen, hhigh, heligible⟩ := hcapture
      have hmeets : (s.posting a.front x).MeetsArming x :=
        (hrecounts.meetsArming (by simp) x x.state).mpr (harmed.mp heligible.1)
      obtain ⟨hcaptured, -, -, himaging, -⟩ := State.offer_captures (s := s.posting a.front x)
        (by rw [State.Open, hdrive]; exact hopen) (by rw [hdrive]; exact hhigh)
        (by rw [hdrive, hschedule]; exact heligible) hmeets
      refine ⟨{ x with state := .imaging }, ?_, rfl, .inr ⟨rfl, heligible.1⟩, fun _ _ _ => ⟨rfl, hcaptured.ofTicket _⟩⟩
      rw [himaging, hschedule]
      exact List.mem_map.mpr ⟨x, by simp, by simp⟩
    · obtain ⟨y, hy, hyx, hstate⟩ := State.offer_ticket hschedule hne
      exact ⟨y, hy, hyx, hstate, fun hopen hhigh he => absurd ⟨hopen, hhigh, he⟩ hcapture⟩
  · exact State.offer_selects (by rw [State.Open, hdrive]; exact hopen) (by rw [hdrive]; exact hlow)

/-- Settles O27: the refusals in their order, and otherwise the ticket enters and the drive is made its offer. -/
theorem postTicketEntersSchedule : Obligations.PostTicketEntersSchedule := by
  intro s d ht a named legal refusedWith
  have hlegal : (∃ i, inkOf a.ink = some i ∧ a.ok = true) ↔ legal := a.legal_iff
  have hticket : ∀ tag, s.beginStep.popInlet.ticket? tag = s.ticket? tag := fun _ => rfl
  refine ⟨fun hl => gives_refusal ht (State.postTicket_of_illegal (mt hlegal.mp hl)), fun hl hdup => ?_,
    fun hl hnew hfull => ?_, fun hl hnew hroom => ?_⟩ <;> obtain ⟨i, hi, hok⟩ := hlegal.mpr hl
  · refine gives_refusal ht ((State.postTicket_of_legal hi hok).trans (if_pos ?_))
    rw [hticket, Option.isSome_iff_ne_none]
    intro hn
    obtain ⟨x, hx, htag⟩ := hdup
    exact State.ticket?_none.mp hn x hx htag
  · have hnone : s.ticket? a.tag = none := State.ticket?_none.mpr hnew
    refine gives_refusal ht ((State.postTicket_of_legal hi hok).trans ?_)
    rw [hticket, if_neg (by simp [a] at hnone; simp [hnone]), if_pos (show Config.scheduleCapacity ≤ s.beginStep.popInlet.schedule.length from hfull)]
  · have hnone : s.ticket? a.tag = none := State.ticket?_none.mpr hnew
    have hrule := State.postTicket_of_legal (s := s.beginStep.popInlet) hi hok
    rw [hticket, if_neg (by simp [a] at hnone; simp [hnone]), 
      if_neg (show ¬ Config.scheduleCapacity ≤ s.beginStep.popInlet.schedule.length from Nat.not_le.mpr hroom)] at hrule
    refine gives_mono (gives_accepted ht hrule) fun t h => ?_
    obtain ⟨before, after, hsplit, htail, hfront, htags, hposition, hrecounts, hentered, hselects⟩ :=
      State.posting_offer (s := s.beginStep.popInlet) i hnew
    obtain ⟨xtag, xink, xmargin, xgutter, xleft, xright, xpolicy, xleftRes, xrightRes, xalone, xarmed, xfirst⟩ :=
      s.beginStep.popInlet.readyTicket_spec a i
    obtain ⟨y, hy, hyx, hstate, hcaptures⟩ := hentered
    have hframe := h.frame
    rw [State.enterTicket_eq] at hframe
    have hpages : ∀ r, t.page? r = _ := fun r => (State.page?_congr (by rw [hframe]) r).trans (hrecounts r)
    have hrecounts' : s.beginStep.popInlet.Recounts t _ := hpages
    have hscreener : t.screener = s.screener := by rw [hframe]; simp
    have hdrive : t.drive = ((s.beginStep.popInlet.posting a.front
      (s.beginStep.popInlet.readyTicket (a.ticket i))).offer).drive := by rw [hframe]
    refine ⟨before, after, hsplit, htail, hfront, by rw [hframe]; exact htags,
      ⟨y, by rw [hframe]; exact hy, ?_⟩, fun hopen hlow => ?_, by rw [hframe]; simp, by rw [hframe]; simp, hscreener, ?_⟩
    · obtain ⟨st, rfl⟩ : ∃ st, y = { s.beginStep.popInlet.readyTicket (a.ticket i) with state := st } := ⟨_, hyx⟩
      refine ⟨xtag, by rw [xink]; exact hi, xmargin, xgutter, xleft, xright, xpolicy, xleftRes.congr hrecounts'.sameNames,
        fun b hb => (xrightRes b hb).congr hrecounts'.sameNames, xalone, hpages,
        (s.beginStep.popInlet.readyTicket (a.ticket i)).state,
        xarmed.trans (hrecounts'.meetsArming hscreener _ st).symm, xfirst, hstate, fun hopen hhigh he => ?_, ?_⟩
      · obtain ⟨himaging, hcaptured⟩ := hcaptures hopen hhigh he
        exact ⟨himaging, hcaptured.congr hdrive (by rw [hframe]) (by rw [hframe]) (by rw [hframe])⟩
      · have hreply := h.answer (by simp [State.laneAs, State.enterTicket_eq]) (by simp [State.enterTicket_eq])
        have hposition' : positionOf (ticketArgs d.payload).tag (insertTicket (ticketArgs d.payload).front
            (s.beginStep.popInlet.readyTicket ((ticketArgs d.payload).ticket i)) s.beginStep.popInlet.schedule)
              = before.length + 1 := hposition
        rw [hposition'] at hreply
        exact hreply
    · exact (hselects hopen hlow).congr (by rw [hframe]) (.of_eq hdrive)
    · rw [h.queue]
      simp [State.enterTicket_eq]

end Sys2Proof.Machine
end

section
/-! PROOFS. OPEN_PAGE and RELEASE_PAGE (R3, R13, R14, R16 to R18, R74, R129, R130). -/

namespace Sys2Proof.Machine

open Sys2Proof (Byte Instr)

/-! ## The superseded indicators (R3) and the records at an event of a page id -/

/-- The superseded indicators of an id, worked out again: a current record of the id has it exactly where another has a
higher version; nothing else of a record changes. -/
theorem State.resupersede_record {s : State} {r : Nat} {p : PageRecord} (a : Nat) (h : s.page? r = some p) :
    ∃ b, (s.resupersede a).page? r = some { p with superseded := b } ∧
      (p.current = true ∧ p.pageId = a → (b = true ↔ ∃ x z, s.page? x = some z ∧ z.current = true ∧ z.pageId = a ∧
        p.version < z.version)) ∧
      (¬ (p.current = true ∧ p.pageId = a) → b = p.superseded) := by
  have hany : (s.liveRecords.any fun (_, q) => q.current && q.pageId == a && decide (p.version < q.version)) = true ↔
      ∃ x z, s.page? x = some z ∧ z.current = true ∧ z.pageId = a ∧ p.version < z.version := by
    simp [State.mem_liveRecords, and_assoc]
  rw [State.page?_resupersede, h, Option.map_some]
  by_cases hc : p.current = true ∧ p.pageId = a
  · rw [if_pos (by simpa using hc)]
    exact ⟨_, rfl, fun _ => hany, fun hn => absurd hc hn⟩
  · rw [if_neg (by simpa using hc)]
    exact ⟨_, rfl, fun hy => absurd hy hc, fun _ => rfl⟩

/-- The records after the indicators of an id and its bindings have been worked out again (R3, R130). -/
theorem State.resolvedAnew_record {s : State} {r : Nat} {p : PageRecord} (a : Nat) (h : s.page? r = some p) :
    ∃ u b, ((s.resupersede a).reresolve a).page? r = some { p with useCount := u, superseded := b } ∧
      (p.current = true ∧ p.pageId = a → (b = true ↔ ∃ x z, s.page? x = some z ∧ z.current = true ∧ z.pageId = a ∧
        p.version < z.version)) ∧
      (¬ (p.current = true ∧ p.pageId = a) → b = p.superseded) := by
  obtain ⟨b, hb, hsuperseded, hother⟩ := State.resupersede_record a h
  obtain ⟨u, hu⟩ := ((s.resupersede a).page?_reresolve a r).2 _ hb
  exact ⟨u, b, hu, hsuperseded, hother⟩

theorem State.resolvedAnew_none {s : State} {r : Nat} (a : Nat) (h : s.page? r = none) :
    ((s.resupersede a).reresolve a).page? r = none :=
  ((s.resupersede a).page?_reresolve a r).1.mpr (by rw [State.page?_resupersede, h]; rfl)

/-- An event of a page id, from a state `u` of the schedule that the event found. -/
theorem State.resolvedAnew_reresolves {s u t : State} {a : Nat} (hschedule : u.schedule = s.schedule)
    (huses : s.UsesWf → u.UsesWf) (ht : t.schedule = ((u.resupersede a).reresolve a).schedule)
    (hpages : t.pages = ((u.resupersede a).reresolve a).pages)
    (hscreener : t.screener = ((u.resupersede a).reresolve a).screener) : s.Reresolves t a :=
  ((u.resupersede a).reresolve_reresolves a).congr (u := s) (by simpa using hschedule.symm)
    (fun h => (huses h).keep (.resupersede u a) (by simp)) ht hpages hscreener

/-! ## OPEN_PAGE (R13, R14) -/

/-- OPEN_PAGE fills the EMPTY record of the lowest number (R1). -/
theorem State.emptyRecord_of_lowest {s : State} {r : Nat} (hlt : r < s.pages.length) (hr : s.page? r = none)
    (hlow : ∀ r' < r, s.page? r' ≠ none) : s.emptyRecord = some r := by
  cases he : s.emptyRecord with
  | none => exact absurd hr (State.emptyRecord_none.mp he r hlt)
  | some r' =>
    obtain ⟨-, hr', hlow'⟩ := State.emptyRecord_some he
    rcases Nat.lt_trichotomy r r' with hcmp | rfl | hcmp
    · exact absurd hr (hlow' r hcmp)
    · rfl
    · exact absurd hr' (hlow r' hcmp)

theorem State.openPage_of_legal {s : State} {d : Directive} {r : Nat} (h : (openArgs d.payload).ok = true)
    (hv : s.staleVersion (openArgs d.payload) = false) (he : s.emptyRecord = some r) :
    s.openPage d = (s.fillRecord r (openArgs d.payload)).accept d [byteOf r, byteOf (bandCountOf (openArgs d.payload).height)] := by
  simp [State.openPage, h, hv, he]

theorem OpenArgs.record_ids (a : OpenArgs) : a.record.layers.map (·.id) = layerIds a.inkSet a.record.bandCount := by
  simp only [OpenArgs.record, List.map_map]
  exact List.map_id _

/-- Settles O23: the record is filled, and the id's indicators and bindings are worked out again. -/
theorem openPageFillsRecord : Obligations.OpenPageFillsRecord := by
  intro s d r ht a hid hversion hwidth hheight hinks hnewest hlt hempty hlow
  have hok : a.ok = true := a.ok_iff.mpr ⟨hid, hversion, hwidth, hheight, hinks⟩
  have hrule := State.openPage_of_legal (s := s.beginStep.popInlet) hok
    ((State.staleVersion_false_iff s.beginStep.popInlet a).mpr hnewest)
    (State.emptyRecord_of_lowest (s := s.beginStep.popInlet) hlt hempty hlow)
  have hfilled : ∀ r', (s.beginStep.popInlet.setPage r (some a.record)).page? r' = if r' = r then some a.record else s.page? r' :=
    fun r' => by
      rw [State.page?_setPage]
      simp only [show r < s.beginStep.popInlet.pages.length from hlt, and_true]
      rfl
  refine gives_mono (gives_accepted ht hrule) fun t h => ?_
  obtain ⟨-, hstraps, hframer, hintake, hstore, hrepair, hscreener, -, hreports, -⟩ :=
    s.beginStep.popInlet.fillRecord_same r a
  have hpage : ∀ r', t.page? r' = (s.beginStep.popInlet.fillRecord r a).page? r' := State.page?_congr (by rw [h.frame])
  refine ⟨?_, fun r' p hne hp => ?_, ?_, ?_, ?_, ?_, ?_, ?_, ?_, ?_⟩
  · obtain ⟨u, b, hrecord, hsuperseded, -⟩ := State.resolvedAnew_record a.pageId (by rw [hfilled, if_pos rfl])
    have hb : b = false := by
      rw [← Bool.not_eq_true, hsuperseded ⟨rfl, rfl⟩]
      rintro ⟨x, z, hz, hcurrent, hzid, hzv⟩
      rw [hfilled] at hz
      split at hz
      · cases hz
        exact Nat.lt_irrefl _ hzv
      · exact absurd (hnewest x z hz hcurrent hzid) (Nat.lt_asymm hzv)
    subst hb
    exact ⟨_, (hpage r).trans hrecord, rfl, rfl, rfl, rfl, rfl, rfl, rfl, rfl, rfl, rfl,
      a.record_ids, by simp [OpenArgs.record, LayerRecord.fresh]⟩
  · obtain ⟨u, b, hrecord, hsuperseded, hother⟩ :=
      State.resolvedAnew_record (s := s.beginStep.popInlet.setPage r (some a.record)) (r := r') a.pageId
        (by rw [hfilled, if_neg hne]; exact hp)
    refine ⟨u, b, (hpage r').trans hrecord, fun hcurrent => (hsuperseded hcurrent).mpr ?_, hother⟩
    exact ⟨r, a.record, by rw [hfilled, if_pos rfl], rfl, rfl, hnewest r' p hp hcurrent.1 hcurrent.2⟩
  · refine State.resolvedAnew_reresolves (u := s.beginStep.popInlet.setPage r (some a.record)) rfl (fun huses => ?_)
      (by rw [h.frame]; rfl) (by rw [h.frame]; rfl) (by rw [h.frame]; rfl)
    have hsame : s.beginStep.popInlet.UsesWf := huses.keep (.of_pages rfl) rfl
    exact hsame.setUnused (hsame.unused hempty) fun q hq => by cases hq; rfl
  · exact h.answer (by simp [State.laneAs]) hstraps
  · rw [h.frame]
    exact hstore
  · rw [h.frame]
    exact hrepair
  · rw [h.frame]
    exact hscreener
  · rw [h.frame]
    exact hframer
  · exact h.queue.trans (congrArg (·.queue) hintake)
  · have htouches := h.touches
    rw [show (s.beginStep.popInlet.fillRecord r (openArgs d.payload)).reports = _ from hreports] at htouches
    exact htouches

/-! ## RELEASE_PAGE (R16 to R18) -/

/-- The state with a record released, ahead of the resolutions, and the reply's body (R16, R17). -/
def State.released (s : State) (r : Nat) (p : PageRecord) : State × List Byte := (s.withdrawFromRepair r).releaseRecord r p

theorem State.releasePage_of_unused {s : State} {d : Directive} {r : Nat} {p : PageRecord}
    (h : s.findPage (u16 d.payload 0) (u8 d.payload 2) = some (r, p)) (hp : p.useCount = 0) :
    s.releasePage d = ((((s.released r p).1.resupersede p.pageId).reresolve p.pageId).accept d (s.released r p).2) := by
  simp [State.releasePage, h, hp, State.released]

/-- A record that is withdrawn from repair has no entry, and no reconstruction (R74). -/
theorem State.withdrawFromRepair_repair (s : State) (r : Nat) :
    (∀ x ∈ (s.withdrawFromRepair r).repair.queue, x.record ≠ r) ∧
      ∀ x, (s.withdrawFromRepair r).repair.engine.target? = some x → x.record ≠ r := by
  unfold State.withdrawFromRepair
  dsimp only
  split
  next hnone =>
    refine ⟨fun x hx => by simpa using (List.mem_filter.mp hx).2, fun x hx => ?_⟩
    rw [show s.repair.engine.target? = none from hnone] at hx
    cases hx
  next t ht =>
    split
    next hr =>
      refine ⟨fun x hx => by simpa using (List.mem_filter.mp hx).2, fun x hx => ?_⟩
      cases hx
    next hr =>
      refine ⟨fun x hx => by simpa using (List.mem_filter.mp hx).2, fun x hx => ?_⟩
      rw [show s.repair.engine.target? = some t from ht] at hx
      cases hx
      exact hr

/-- The record of a released page: EMPTY, or RELEASING while writes are pending (R17). -/
def PageRecord.released (p : PageRecord) : Option PageRecord :=
  if p.pendingWrites = 0 then none else some { p with state := .releasing }

theorem PageRecord.released_some {p q : PageRecord} (h : p.released = some q) :
    q = { p with state := .releasing } ∧ q.current = false := by
  unfold PageRecord.released at h
  split at h
  · cases h
  · cases h
    exact ⟨rfl, rfl⟩

/-- What a release leaves, ahead of the resolutions. -/
theorem State.released_spec {s : State} {r : Nat} {p : PageRecord} (hp : s.page? r = some p) :
    (∀ r', (s.released r p).1.page? r' = if r' = r then p.released else s.page? r') ∧
    (s.released r p).1.repair = (s.withdrawFromRepair r).repair ∧
    (s.released r p).1.store = (if p.pendingWrites = 0 then
      { s.store with poolOut := s.store.poolOut.filter fun n => !(p.tiles.contains n) } else s.store) ∧
    (s.released r p).2 = (if p.pendingWrites = 0 then [0] ++ be16 p.tiles.length else [5] ++ be16 0) := by
  have hpage : (s.withdrawFromRepair r).page? r = some p := by
    rw [← hp]
    exact State.page?_congr (by simp) r
  have hother : ∀ r', (s.withdrawFromRepair r).page? r' = s.page? r' := State.page?_congr (by simp)
  unfold State.released State.releaseRecord PageRecord.released
  split
  · refine ⟨fun r' => ?_, by simp, ?_, rfl⟩
    · show ((State.giveToPool _ _).setPage r none).page? r' = _
      rw [State.page?_setPage_of_live (p := p) (by rw [← hpage]; exact State.page?_congr (by simp) r)]
      split
      · rfl
      · exact (State.page?_congr (by simp) r').trans (hother r')
    · simp [State.freeRecord, State.giveToPool]
  · refine ⟨fun r' => ?_, by simp, by simp, rfl⟩
    rw [State.page?_setPage_of_live hpage, hother]

/-- The use counts after a release agree with the bindings, where no binding names the record (R4, R16). -/
theorem State.released_usesWf {s : State} {r : Nat} {p : PageRecord} (h : s.UsesWf) (hp : s.page? r = some p)
    (hunused : p.useCount = 0) : (s.released r p).1.UsesWf := by
  have hzero : s.uses r = 0 := (h.counts r p hp).symm.trans hunused
  have hset : (s.setPage r p.released).UsesWf := h.setUnused hzero fun q hq => by
    obtain ⟨rfl, -⟩ := PageRecord.released_some hq
    exact hunused
  have hpage : ∀ r', (s.released r p).1.page? r' = (s.setPage r p.released).page? r' := fun r' => by
    rw [(State.released_spec hp).1, State.page?_setPage_of_live hp]
  have hschedule : (s.released r p).1.schedule = s.schedule := by simp [State.released]
  refine ⟨fun r' q hq => ?_, fun y hy x hx => ?_⟩
  · rw [hset.counts r' q (by rw [← hpage]; exact hq)]
    exact (State.uses_congr (by rw [hschedule]; rfl) r').symm
  · obtain ⟨q, hq, hc⟩ := hset.live y (by rw [hschedule] at hy; exact hy) x hx
    exact ⟨q, (hpage _).trans hq, hc⟩

/-- Settles O26: the record is freed or held, and the id's indicators and bindings are worked out again. -/
theorem releasePageFreesOrHolds : Obligations.ReleasePageFreesOrHolds := by
  intro s d r p ht hfound hunused
  obtain ⟨hp, hcurrent, -, -⟩ := State.findPage_some hfound
  have hrule := State.releasePage_of_unused (s := s.beginStep.popInlet) hfound hunused
  obtain ⟨hpages, hrepair, hstore, hbody⟩ := State.released_spec (s := s.beginStep.popInlet) (p := p) hp
  obtain ⟨hqueue, hengine⟩ := s.beginStep.popInlet.withdrawFromRepair_repair r
  obtain ⟨hreports, hstraps, hintake, hscreener, hschedule⟩ :
      (s.beginStep.popInlet.released r p).1.reports = s.beginStep.popInlet.reports ∧
      (s.beginStep.popInlet.released r p).1.straps = s.straps ∧
      (s.beginStep.popInlet.released r p).1.intake = s.beginStep.popInlet.intake ∧
      (s.beginStep.popInlet.released r p).1.screener = s.screener ∧
      (s.beginStep.popInlet.released r p).1.schedule = s.schedule := by
    simp [State.released]
  refine gives_mono (gives_accepted ht hrule) fun t h => ?_
  have hpage : ∀ r', t.page? r' = (((s.beginStep.popInlet.released r p).1.resupersede p.pageId).reresolve p.pageId).page? r' :=
    State.page?_congr (by rw [h.frame])
  have htrepair : t.repair = (s.beginStep.popInlet.withdrawFromRepair r).repair := by
    rw [h.frame]
    simp [hrepair]
  have htstore : t.store = (s.beginStep.popInlet.released r p).1.store := by
    rw [h.frame]
    simp
  have hreply := h.answer (by simp [State.laneAs, hreports]) (by simp [hstraps])
  have hown : (s.beginStep.popInlet.released r p).1.page? r = p.released := (hpages r).trans (if_pos rfl)
  refine ⟨by rw [htrepair]; exact hqueue, by rw [htrepair]; exact hengine, fun hnone => ⟨?_, ?_, ?_⟩,
    fun hsome => ⟨?_, ?_, ?_⟩, fun r' q hne hq => ?_, fun r' hne hq => ?_, ?_, ?_, ?_, ?_, ?_⟩
  · rw [hpage]
    exact State.resolvedAnew_none _ (hown.trans (if_pos hnone))
  · rw [htstore, hstore, if_pos hnone]
    rfl
  · rw [hbody, if_pos hnone] at hreply
    exact hreply
  · obtain ⟨u, b, hrecord, -, hother⟩ := State.resolvedAnew_record p.pageId (hown.trans (if_neg (Nat.ne_of_gt hsome)))
    have hb : b = p.superseded := hother fun hc => by simp [PageRecord.current] at hc
    exact ⟨_, (hpage r).trans hrecord, rfl, rfl, rfl, hb⟩
  · rw [htstore, hstore, if_neg (Nat.ne_of_gt hsome)]
    rfl
  · rw [hbody, if_neg (Nat.ne_of_gt hsome)] at hreply
    exact hreply
  · obtain ⟨u, b, hrecord, hsuperseded, hother⟩ := State.resolvedAnew_record (r := r') p.pageId
      ((hpages r').trans ((if_neg hne).trans hq))
    refine ⟨u, b, (hpage r').trans hrecord, fun hc => (hsuperseded hc).trans ?_, hother⟩
    constructor
    · rintro ⟨x, z, hz, hzc, hzid, hzv⟩
      have hx : x ≠ r := by
        rintro rfl
        rw [hown] at hz
        rw [(PageRecord.released_some hz).2] at hzc
        cases hzc
      exact ⟨x, z, hx, by rw [hpages, if_neg hx] at hz; exact hz, hzc, hzid, hzv⟩
    · rintro ⟨x, z, hx, hz, hzc, hzid, hzv⟩
      exact ⟨x, z, (hpages x).trans ((if_neg hx).trans hz), hzc, hzid, hzv⟩
  · rw [hpage]
    exact State.resolvedAnew_none _ ((hpages r').trans ((if_neg hne).trans hq))
  · refine State.resolvedAnew_reresolves hschedule (fun huses => ?_) (by rw [h.frame]) (by rw [h.frame]) (by rw [h.frame])
    have hsame : s.beginStep.popInlet.UsesWf := huses.keep (.of_pages rfl) rfl
    exact State.released_usesWf hsame hp hunused
  · rw [htstore, hstore]
    split <;> rfl
  · rw [htstore, hstore]
    split <;> rfl
  · rw [h.frame]
    simp [hscreener]
  · rw [h.queue]
    simp [hintake]

end Sys2Proof.Machine
end

section
/-! PROOFS. CLOSE_PAGE: the evaluation of every layer of a page, and the derivation of its state (R15, R61 to R67). -/

namespace Sys2Proof.Machine

open Sys2Proof (Byte Instr)

/-! ## One evaluation (R61, R62) -/

/-- A layer of a closed page after an event of evaluation. -/
def LayerRecord.reevaluated (l : LayerRecord) : LayerRecord := if l.settled then { l with state := l.evaluated } else l

@[simp] theorem LayerRecord.reevaluated_id (l : LayerRecord) : l.reevaluated.id = l.id := by
  unfold LayerRecord.reevaluated
  split <;> rfl

theorem LayerRecord.evaluatedAs_reevaluated (l : LayerRecord) : l.EvaluatedAs l.reevaluated := by
  unfold LayerRecord.EvaluatedAs LayerRecord.reevaluated
  rw [← LayerRecord.settled_iff]
  split
  next hs => exact ⟨rfl, fun _ => l.evaluatesTo_evaluated, fun hn => absurd hs hn⟩
  next hs => exact ⟨rfl, fun h => absurd h hs, fun _ => rfl⟩

/-- A page with the layers that a test picks evaluated. -/
def PageRecord.reevaluate (p : PageRecord) (f : LayerId → Bool) : PageRecord :=
  { p with layers := p.layers.map fun y => if f y.id then y.reevaluated else y }

theorem PageRecord.reevaluate_ids (p : PageRecord) (f : LayerId → Bool) :
    (p.reevaluate f).layers.map (·.id) = p.layers.map (·.id) := by
  simp only [PageRecord.reevaluate, List.map_map]
  refine List.map_congr_left fun y _ => ?_
  dsimp only [Function.comp]
  split
  · exact y.reevaluated_id
  · rfl

theorem PageRecord.reevaluate_reevaluate (p : PageRecord) {f g : LayerId → Bool} (h : ∀ id, f id = true → g id = false) :
    (p.reevaluate f).reevaluate g = p.reevaluate fun id => f id || g id := by
  unfold PageRecord.reevaluate
  congr 1
  rw [List.map_map]
  refine List.map_congr_left fun y _ => ?_
  dsimp only [Function.comp]
  by_cases hf : f y.id = true
  · simp [hf, h y.id hf]
  · simp [hf]

/-- An evaluation of one of the distinct layers of a closed page. -/
theorem PageRecord.afterEvaluation_eq {p : PageRecord} (hc : p.closed = true) (hids : (p.layers.map (·.id)).Nodup)
    {l : LayerRecord} (hl : l ∈ p.layers) : p.afterEvaluation l.id = p.reevaluate (· == l.id) := by
  have hunique : ∀ y ∈ p.layers, y.id = l.id → y = l := fun y hy hyl => List.inj_on_of_nodup_map hids hy hl hyl
  unfold PageRecord.afterEvaluation PageRecord.reevaluate PageRecord.modifyLayer
  rw [PageRecord.layer?_of_mem hids hl, hc]
  dsimp only
  split
  next hs =>
    congr 1
    refine List.map_congr_left fun y hy => ?_
    by_cases hyl : y.id = l.id
    · obtain rfl := hunique y hy hyl
      simp only [Bool.true_and] at hs
      simp [LayerRecord.reevaluated, hs]
    · simp [hyl]
  next hs =>
    have hsame : (p.layers.map fun y => if (y.id == l.id) = true then y.reevaluated else y) = p.layers := by
      refine (List.map_congr_left fun y hy => ?_).trans (List.map_id _)
      by_cases hyl : y.id = l.id
      · obtain rfl := hunique y hy hyl
        simp only [Bool.true_and, Bool.not_eq_true] at hs
        simp [LayerRecord.reevaluated, hs]
      · simp [hyl]
    rw [hsame]

/-- A layer that an evaluation makes REPAIRING joins the repair queue: it stands there not, and is not being reconstructed
(R62, R67). -/
def State.repairJoins (s : State) (r : Nat) (l : LayerRecord) : Bool :=
  l.settled && (l.evaluated == .repairing) && !(s.repair.queue.contains ⟨r, l.id⟩) &&
    !(s.repair.engine.target? == some ⟨r, l.id⟩)

/-- An evaluation of a layer that was not REPAIRING. -/
theorem State.evaluateLayer_repair {s : State} {r : Nat} {p : PageRecord} {l : LayerRecord} (hp : s.page? r = some p)
    (hc : p.closed = true) (hl : p.layer? l.id = some l) (hne : l.state ≠ .repairing) :
    (s.evaluateLayer ⟨r, l.id⟩).repair = { s.repair with
      queue := s.repair.queue ++ if s.repairJoins r l then [⟨r, l.id⟩] else [] } := by
  unfold State.evaluateLayer State.repairJoins
  rw [show s.page? (LayerRef.mk r l.id).record = some p from hp]
  dsimp only
  rw [hl]
  dsimp only
  rw [hc]
  cases hs : l.settled
  · simp
  · simp only [Bool.and_true, if_true, Bool.true_and]
    unfold State.setLayerState
    by_cases hr : l.evaluated = .repairing
    · simp only [hr, if_true, beq_self_eq_true, Bool.true_and]
      unfold State.joinRepair
      cases hq : s.repair.queue.contains (LayerRef.mk r l.id) <;>
        cases ht : s.repair.engine.target? == some (LayerRef.mk r l.id) <;> simp_all
    · simp [hr, hne]

theorem State.repairJoins_iff (s : State) (r : Nat) {l : LayerRecord} (hne : l.state ≠ .repairing) :
    s.repairJoins r l = true ↔ l.reevaluated.state = .repairing ∧ ⟨r, l.id⟩ ∉ s.repair.queue ∧
      s.repair.engine.target? ≠ some ⟨r, l.id⟩ := by
  unfold State.repairJoins LayerRecord.reevaluated
  cases l.settled <;> simp [hne, and_assoc]

/-- Of two layers, whether one joins the repair queue does not turn on the entry of the other. -/
theorem State.repairJoins_congr {s t : State} {r : Nat} {x y : LayerRecord} (hne : y.id ≠ x.id)
    {joins : Bool} (ht : t.repair = { s.repair with queue := s.repair.queue ++ if joins then [⟨r, x.id⟩] else [] }) :
    t.repairJoins r y = s.repairJoins r y := by
  unfold State.repairJoins
  rw [ht]
  cases joins <;> simp [hne]

/-! ## The evaluation of every layer (R15) -/

/-- The evaluation of distinct layers of a closed page, none of them REPAIRING, in their order. -/
theorem State.evaluateAll_spec {r : Nat} (l : List LayerRecord) : ∀ {s : State} {p : PageRecord}, s.page? r = some p →
    p.closed = true → (p.layers.map (·.id)).Nodup → (l.map (·.id)).Nodup →
    (∀ x ∈ l, x ∈ p.layers ∧ x.state ≠ .repairing) →
    (s.evaluateAll r l).page? r = some (p.reevaluate fun id => (l.map (·.id)).contains id) ∧
    (∀ r', r' ≠ r → (s.evaluateAll r l).page? r' = s.page? r') ∧
    (s.evaluateAll r l).repair = { s.repair with
      queue := s.repair.queue ++ (l.filter (s.repairJoins r)).map fun x => ⟨r, x.id⟩ } := by
  induction l with
  | nil =>
    intro s p hp _ _ _ _
    refine ⟨hp.trans (congrArg some ?_), fun _ _ => rfl, by simp [State.evaluateAll]⟩
    simp [PageRecord.reevaluate]
  | cons x xs ih =>
    intro s p hp hc hids hdistinct hl
    obtain ⟨hx, hstate⟩ := hl x (by simp)
    obtain ⟨hnew, hdistinct'⟩ := List.nodup_cons.mp hdistinct
    have hne : ∀ y ∈ xs, y.id ≠ x.id := fun y hy heq => hnew (List.mem_map.mpr ⟨y, hy, heq⟩)
    have hpage : (s.evaluateLayer ⟨r, x.id⟩).page? r = some (p.reevaluate (· == x.id)) := by
      rw [State.page?_evaluateLayer, if_pos rfl, hp, Option.map_some, PageRecord.afterEvaluation_eq hc hids hx]
    have hrepair := State.evaluateLayer_repair hp hc (PageRecord.layer?_of_mem hids hx) hstate
    have hkept : ∀ y ∈ xs, y ∈ (p.reevaluate (· == x.id)).layers ∧ y.state ≠ .repairing := fun y hy => by
      obtain ⟨hmem, hnot⟩ := hl y (by simp [hy])
      exact ⟨List.mem_map.mpr ⟨y, hmem, if_neg (by simpa using hne y hy)⟩, hnot⟩
    obtain ⟨hpage', hother, hrepair'⟩ := ih (s := s.evaluateLayer ⟨r, x.id⟩) hpage hc
      (by rw [PageRecord.reevaluate_ids]; exact hids) hdistinct' hkept
    refine ⟨hpage'.trans (congrArg some ?_), fun r' hr' => ?_, hrepair'.trans ?_⟩
    · refine PageRecord.reevaluate_reevaluate _ fun id hid => ?_
      rw [beq_iff_eq.mp hid]
      simpa using hnew
    · rw [show (s.evaluateAll r (x :: xs)).page? r' = ((s.evaluateLayer ⟨r, x.id⟩).evaluateAll r xs).page? r' from rfl,
        hother r' hr', State.page?_evaluateLayer, if_neg hr']
    · have hjoins : xs.filter ((s.evaluateLayer ⟨r, x.id⟩).repairJoins r) = xs.filter (s.repairJoins r) :=
        List.filter_congr fun y hy => State.repairJoins_congr (hne y hy) hrepair
      rw [hjoins, hrepair, List.filter_cons]
      cases s.repairJoins r x <;> simp

/-! ## The derivation (R64, R65) -/

theorem PageRecord.derived_cases (p : PageRecord) :
    p.derived = .evaluating ∨ p.derived = .complete ∨ p.derived = .damaged := by
  unfold PageRecord.derived
  (repeat' split) <;> simp

/-- The first damage of a page is latched (R65). -/
theorem State.derivePage_damaged {s : State} {r : Nat} {p : PageRecord} (hp : s.page? r = some p)
    (hne : p.state ≠ .damaged) (hd : p.afterDerivation.state = .damaged) (hn : p.damageNoted = false) :
    (s.derivePage r).reports.latched .pageDamaged = true := by
  have hchanged : (p.closed && !(p.derived == p.state)) = true := by
    by_contra hc
    rw [PageRecord.afterDerivation, if_neg hc] at hd
    exact hne hd
  rw [PageRecord.afterDerivation, if_pos hchanged] at hd
  have hderived : p.derived = .damaged := hd
  unfold State.derivePage
  rw [hp]
  dsimp only
  rw [if_neg (by simpa using hchanged)]
  unfold State.pageChanged State.noteDamage
  simp only [hderived, or_true, if_true, hn, beq_self_eq_true, Bool.not_false, Bool.and_self,
    State.rearm_same]
  exact Reports.latch_latched _ _ _ (.inl rfl)

/-! ## CLOSE_PAGE (R15) -/

/-- The state with a page closed and the reply queued, ahead of the evaluations. -/
def State.closing (s : State) (d : Directive) (r : Nat) (p : PageRecord) : State :=
  (s.setPage r (some { p with state := .evaluating })).accept d

theorem State.closePage_of_opened {s : State} {d : Directive} {r : Nat} {p : PageRecord}
    (h : s.findPage (u16 d.payload 0) (u8 d.payload 2) = some (r, p)) (hp : p.state = .opened) :
    s.closePage d = ((s.closing d r p).evaluateAll r p.layers).derivePage r := by
  simp [State.closePage, h, hp, State.closing]

/-- The record of a closed page with every layer evaluated, ahead of the derivation. -/
def PageRecord.closing (p : PageRecord) : PageRecord :=
  PageRecord.reevaluate { p with state := .evaluating } fun id => (p.layers.map (·.id)).contains id

theorem PageRecord.closing_layers (p : PageRecord) : p.closing.layers = p.layers.map LayerRecord.reevaluated := by
  refine List.map_congr_left fun y hy => if_pos ?_
  exact List.contains_iff_mem.mpr (List.mem_map.mpr ⟨y, hy, rfl⟩)

theorem State.accept_reports_congr {s t : State} (h : t.reports = s.reports) (d : Directive) (body : List Byte) :
    (t.accept d body).reports = (s.accept d body).reports := by
  unfold State.accept
  split
  · exact h
  · simp [h]

/-- Settles O24: the layers are evaluated in their order, and then the page's state is derived. -/
theorem closePageEvaluatesLayers : Obligations.ClosePageEvaluatesLayers := by
  intro s d r p ht hfound hopened hwf
  obtain ⟨hp, -, -, -⟩ := State.findPage_some hfound
  have hact := State.closePage_of_opened (s := s.beginStep.popInlet) (d := d) hfound hopened
  have hnot : ∀ x ∈ p.layers, x ∈ p.layers ∧ x.state ≠ .repairing := fun x hx => by
    rcases hwf.opened hopened x hx with h | h <;> simp [hx, h]
  have hclosing : ∀ r', (s.beginStep.popInlet.closing d r p).page? r'
      = if r' = r then some { p with state := .evaluating } else s.page? r' := fun r' =>
    (State.page?_congr (by simp [State.closing]) r').trans
      (State.page?_setPage_of_live (s := s.beginStep.popInlet) hp _ r')
  obtain ⟨hpage, hother, hrepair⟩ := State.evaluateAll_spec p.layers ((hclosing r).trans (if_pos rfl)) rfl hwf.ids hwf.ids hnot
  have hpage' : ((s.beginStep.popInlet.closing d r p).evaluateAll r p.layers).page? r = some p.closing := hpage
  obtain ⟨hustore, huscreener, huintake, hudrive, huschedule, hureports, hustraps⟩ :
      ((s.beginStep.popInlet.closing d r p).evaluateAll r p.layers).store = s.store ∧
      ((s.beginStep.popInlet.closing d r p).evaluateAll r p.layers).screener = s.screener ∧
      ((s.beginStep.popInlet.closing d r p).evaluateAll r p.layers).intake = s.beginStep.popInlet.intake ∧
      ((s.beginStep.popInlet.closing d r p).evaluateAll r p.layers).drive = s.beginStep.drive ∧
      ((s.beginStep.popInlet.closing d r p).evaluateAll r p.layers).schedule = s.schedule ∧
      ((s.beginStep.popInlet.closing d r p).evaluateAll r p.layers).reports = (s.beginStep.popInlet.accept d).reports ∧
      ((s.beginStep.popInlet.closing d r p).evaluateAll r p.layers).straps = s.straps := by
    refine ⟨by simp [State.closing], by simp [State.closing], by simp [State.closing], by simp [State.closing],
      by simp [State.closing], ?_, by simp [State.closing]⟩
    simp only [State.evaluateAll_same]
    exact State.accept_reports_congr (by simp) d []
  have hclosingRepair : (s.beginStep.popInlet.closing d r p).repair = s.repair := by simp [State.closing]
  rw [hclosingRepair] at hrepair
  have hjoins : ∀ x, (s.beginStep.popInlet.closing d r p).repairJoins r x = s.repairJoins r x := fun x => by
    simp [State.repairJoins, hclosingRepair]
  generalize (s.beginStep.popInlet.closing d r p).evaluateAll r p.layers = u at *
  obtain ⟨hsame1, hsame2, hsame3, hsame4, hsame5, hsame6, hsame7, hsame8, -⟩ :=
    State.settle_evalFlag_same s.beginStep (u.derivePage r)
  have hrecord : ∀ r', (s.beginStep.settle (u.derivePage r).evalFlag).page? r'
      = if r' = r then some p.closing.afterDerivation else s.page? r' := fun r' => by
    rw [State.page?_congr hsame1, State.page?_derivePage, hpage']
    by_cases hr : r' = r
    · rw [if_pos hr, if_pos hr]
      rfl
    · rw [if_neg hr, if_neg hr, hother r' hr, hclosing, if_neg hr]
  have hids : p.closing.layers.map (·.id) = p.layers.map (·.id) := PageRecord.reevaluate_ids _ _
  have hevaluating : p.closing.state = .evaluating := rfl
  have hlane : s.laneAs s.beginStep.popInlet := ⟨rfl, rfl, rfl, rfl⟩
  have hvstraps : (u.derivePage r).straps = s.straps := by simp [hustraps]
  have hvstraps' : (u.derivePage r).evalFlag.straps = s.straps := by simp [hustraps]
  have hgrows := u.derivePage_growsTo r
  rw [hureports] at hgrows
  refine gives_of_takes ht hact ⟨⟨p.closing.afterDerivation, (hrecord r).trans (if_pos rfl), by simp; rfl, by simp; rfl,
    by simp; rfl, by simp; rfl, by simp [hids], fun l hl => ?_, PageRecord.afterDerivation_derives rfl, ?_, fun hne => ?_,
    fun hd hn => ?_, ?_⟩, fun r' hr' => (hrecord r').trans (if_neg hr'), acceptedWith_of_grows hlane hvstraps hgrows,
    ?_, ?_, ?_⟩
  · have hmem : l.reevaluated ∈ p.closing.layers := by
      rw [PageRecord.closing_layers]
      exact List.mem_map.mpr ⟨l, hl, rfl⟩
    have hlayer := PageRecord.layer?_of_mem (by rw [hids]; exact hwf.ids) hmem
    rw [LayerRecord.reevaluated_id] at hlayer
    exact ⟨l.reevaluated, (PageRecord.layer?_afterDerivation _ _).trans hlayer, l.evaluatedAs_reevaluated⟩
  · refine ⟨(p.layers.filter (s.repairJoins r)).map fun x => ⟨r, x.id⟩, ?_, ?_, fun m hm => ?_⟩
    · rw [hsame3]
      simp only [State.derivePage_same, hrepair, funext hjoins]
    · have hrefs : (p.closing.afterDerivation.layers.map fun m => LayerRef.mk r m.id)
          = p.layers.map fun x => LayerRef.mk r x.id := by
        simp [PageRecord.closing_layers]
      rw [hrefs]
      exact List.filter_sublist.map _
    · obtain ⟨l, hl, rfl⟩ : ∃ l ∈ p.layers, l.reevaluated = m := by
        simpa [PageRecord.closing_layers] using hm
      have hunique : LayerRef.mk r l.reevaluated.id ∈ (p.layers.filter (s.repairJoins r)).map (fun x => LayerRef.mk r x.id) ↔
          s.repairJoins r l = true := by
        rw [List.mem_map]
        constructor
        · rintro ⟨x, hx, hxl⟩
          obtain ⟨hmem, hj⟩ := List.mem_filter.mp hx
          obtain rfl : x = l := List.inj_on_of_nodup_map hwf.ids hmem hl (by simpa using hxl)
          exact hj
        · exact fun hj => ⟨l, List.mem_filter.mpr ⟨hl, hj⟩, by simp⟩
      rw [hunique, LayerRecord.reevaluated_id]
      exact State.repairJoins_iff s r (hnot l hl).2
  · have hreport := State.derivePage_pageReport hpage' (by rw [hevaluating]; exact hne) (by
      rw [PageRecord.state_afterDerivation rfl] at hne ⊢
      exact (PageRecord.derived_cases _).resolve_left hne)
    have hchain := Reports.growsTo_trans hreport (State.evalFlag_growsTo _)
    rw [State.report_reports, hureports] at hchain
    refine ⟨fun hq => State.reportsTwo_settle hlane hvstraps' ?_, fun hq => State.reportsFirst_settle hlane hvstraps' ?_⟩ <;>
      rw [State.accept, hq] at hchain <;> exact hchain
  · have hlatched := State.derivePage_damaged hpage' (by rw [hevaluating]; simp) hd hn
    have htouches := (State.evalFlag_touches (u.derivePage r) [] [.storeLow] (by simp)).2.1 .pageDamaged (by simp) (by simp)
    rw [State.settle_latched, htouches, hlatched]
  · have hrearms := State.derivePage_rearms hpage'
    rw [hevaluating] at hrearms
    exact hrearms.congr huschedule.symm (by rw [hudrive]; rfl) (by rw [hudrive]; rfl) hsame6 hsame1 hsame5 (fun _ => Iff.rfl)
      (by rw [hudrive]; rfl) (.of_eq hsame7)
  · rw [hsame2]
    simp [hustore]
  · rw [hsame5]
    simp [huscreener]
  · rw [hsame8]
    simp [huintake]

end Sys2Proof.Machine
end

section
/-! PROOFS. The judging of a segment or parity parcel: the discards, and the acceptance (R31 to R36). -/

namespace Sys2Proof.Machine

open Sys2Proof (Byte Instr)

/-! ## The tests of the judging, in their order -/

/-- The tests of R32 on a layer that the parcel names. -/
theorem malformedFor_iff {p : PageRecord} {parity : Bool} {h : SegHeader} {payload : List Byte} {id : LayerId}
    {l : LayerRecord} (hid : h.layerId? = some id) (hl : p.layer? id = some l) :
    malformedFor p l h parity payload = true ↔ fieldsContradict p parity h payload := by
  obtain ⟨i, hi, k, hk, rfl⟩ : ∃ i, inkOf h.ink = some i ∧ ∃ k, layerKindOf h.layer = some k ∧ id = ⟨i, h.band, k⟩ := by
    unfold SegHeader.layerId? at hid
    split at hid
    next i k hi hk => exact ⟨i, hi, k, hk, (Option.some.inj hid).symm⟩
    all_goals simp at hid
  have hpayload : h.payloadLength parity = if parity = true ∨ h.index + 1 < segmentCount h.length then 256
      else h.length - 256 * (segmentCount h.length - 1) := by
    cases parity <;> simp [SegHeader.payloadLength, segmentLength]
  simp only [malformedFor, fieldsContradict, Bool.or_eq_true, hpayload, (PageRecord.layer?_id hl).1, hid, hi, hk,
    Option.bind_some, hl]
  cases hlen : l.length <;> simp [hlen, or_assoc]

theorem holds_iff (l : LayerRecord) (parity : Bool) (h : SegHeader) :
    l.holds (h.item parity) = true ↔ holdsParcel l parity h := by
  cases parity <;> simp [LayerRecord.holds, SegHeader.item, holdsParcel]

theorem wants_iff (l : LayerRecord) (parity : Bool) (h : SegHeader) :
    l.wants (h.item parity) = true ↔ repairSegment l parity h := by
  cases parity <;> simp [LayerRecord.wants, SegHeader.item, repairSegment, or_comm]

theorem mapSlot_item (parity : Bool) (h : SegHeader) : (h.item parity).mapSlot = slotOf parity h := by
  cases parity <;> rfl

section

variable {s : State} {parity : Bool} {h : SegHeader} {payload : List Byte} {r : Nat} {p : PageRecord}

/-- A parcel whose fields contradict the page, or that names no layer of it, is malformed (R32). -/
theorem State.judge_malformed (hf : s.findPage h.pageId h.version = some (r, p))
    (hc : fieldsContradict p parity h payload) : s.judge parity h payload = .malformed := by
  unfold State.judge
  rw [hf]
  dsimp only
  cases hb : h.layerId?.bind p.layer? with
  | none => rfl
  | some l =>
    obtain ⟨id, hid, hl⟩ := Option.bind_eq_some_iff.mp hb
    dsimp only
    rw [State.judgeLayer, if_pos ((malformedFor_iff hid hl).mpr hc)]

/-- The parcel names a layer, and its fields contradict nothing: the tests R33 to R35 remain. -/
theorem State.judge_wellFormed {id : LayerId} {l : LayerRecord} (hf : s.findPage h.pageId h.version = some (r, p))
    (hid : h.layerId? = some id) (hl : p.layer? id = some l) (hc : ¬ fieldsContradict p parity h payload) :
    s.judge parity h payload =
      if l.holds (h.item parity) then .duplicate
      else if p.state != .opened && !l.wants (h.item parity) then .late
      else s.placeItem r l (h.item parity) := by
  unfold State.judge
  rw [hf]
  dsimp only
  rw [Option.bind_eq_some_iff.mpr ⟨id, hid, hl⟩]
  dsimp only
  rw [State.judgeLayer, if_neg (fun hm => hc ((malformedFor_iff hid hl).mp hm))]

/-- A parcel that passes R31 to R34 is placed (R35). -/
theorem State.judge_passes {id : LayerId} {l : LayerRecord} (hp : passesTests s parity h payload r id p l) :
    s.judge parity h payload = s.placeItem r l (h.item parity) := by
  obtain ⟨hf, hid, hl, hc, hh, hw⟩ := hp
  rw [State.judge_wellFormed hf hid hl hc, if_neg (fun hx => hh ((holds_iff l parity h).mp hx)), if_neg]
  rw [Bool.and_eq_true, not_and, bne_iff_ne, Bool.not_eq_true', Bool.not_eq_false]
  exact fun hne => (wants_iff l parity h).mpr (hw.resolve_left hne)

end

/-! ## A discard (R31 to R35) -/

/-- What is counted and latched for a discarded parcel. -/
def State.discarded (s : State) (c : Counter) (alarm : Option Alarm) : State :=
  match alarm with
  | none => s.count c
  | some a => (s.count c).latch a

/-- A discarded parcel is acted on by its counter and its alarm. -/
theorem State.act_discards {s : State} {parity : Bool} {h : SegHeader} {payload : List Byte} {c : Counter}
    {alarm : Option Alarm} (hr : rises s.store.poolOut = true) (hd : discards s parity h payload c alarm) (u : State)
    (k : Nat) :
    u.actOnJudged k h parity payload (s.judge parity h payload) = u.discarded c alarm ∧
      c ≠ .reportsLost ∧ ∀ a, alarm = some a → a ≠ .storeLow ∧ a ≠ .reportsLost := by
  rcases hd with ⟨hf, rfl, rfl⟩ | ⟨r, p, hf, ⟨hc, rfl, rfl⟩ | ⟨id, l, hid, hl, hc, hlayer⟩⟩
  · rw [State.judge_unknownPage ((State.findPage_none s _ _).mp hf)]
    exact ⟨rfl, by decide, by simp⟩
  · rw [State.judge_malformed hf hc]
    exact ⟨rfl, by decide, by simp⟩
  · rcases hlayer with ⟨hh, rfl, rfl⟩ | ⟨hh, ho, hw, rfl, rfl⟩ | ⟨hp, hat, hnone, rfl, rfl⟩
    · rw [State.judge_wellFormed hf hid hl hc, if_pos ((holds_iff l parity h).mpr hh)]
      exact ⟨rfl, by decide, by simp⟩
    · have hwants : l.wants (h.item parity) = false := by
        rw [← Bool.not_eq_true, wants_iff]
        exact hw
      rw [State.judge_wellFormed hf hid hl hc, if_neg (fun hx => hh ((holds_iff l parity h).mp hx)), if_pos (by simp [ho, hwants])]
      exact ⟨rfl, by decide, by simp⟩
    · rw [State.judge_passes hp, State.placeItem, mapSlot_item, hat, (State.lowestFree_none hr).mpr hnone]
      exact ⟨rfl, by decide, by simp⟩

/-- A discard writes the report unit only: it counts once, latches its alarm, and nothing else. -/
theorem State.discarded_spec (s : State) {c : Counter} (hc : c ≠ .reportsLost) (alarm : Option Alarm) :
    s.discarded c alarm = { s with reports := (s.discarded c alarm).reports } ∧
    s.reports.countsOnce (s.discarded c alarm).reports c ∧
    (∀ a, alarm = some a → (s.discarded c alarm).reports.latched a = true) ∧
    s.reports.touches (s.discarded c alarm).reports [c] alarm.toList ∧
    (alarm = none → (s.discarded c alarm).reports.latches = s.reports.latches) := by
  cases alarm with
  | none =>
    exact ⟨rfl, s.count_countsOnce c, by simp, Reports.count_touches s.reports 1 c [c] [] (by simp), fun _ => rfl⟩
  | some a =>
    obtain ⟨hlatch, hcount, htouch⟩ := State.countLatch s c a hc
    exact ⟨rfl, hcount, fun b hb => Option.some.inj hb ▸ hlatch, htouch, by simp⟩

/-- Settles O9: each verdict of the judging has its counter and its alarm; the evaluation of the holding flag follows. -/
theorem discardCountsOnce : Obligations.DiscardCountsOnce := by
  intro s parity flags h payload rest c alarm ht hq hf hr hd
  obtain ⟨k, hk⟩ := Option.isSome_iff_exists.mp hf
  obtain ⟨hact, hc, hother⟩ := State.act_discards hr hd s.beginStep.popInlet k
  have htake := State.takeSegmentParcel_of_head ht hq hk
  rw [hact] at htake
  obtain ⟨hframe, hcount, hlatch, htouch, hnone⟩ := State.discarded_spec s.beginStep.popInlet hc alarm
  have hintake : (s.beginStep.popInlet.discarded c alarm).intake = s.beginStep.popInlet.intake := by rw [hframe]
  have hflag := State.evalFlag_touches (s.beginStep.popInlet.discarded c alarm) [] [.storeLow] (by simp)
  generalize s.beginStep.popInlet.discarded c alarm = u at *
  obtain ⟨-, -, -, -, -, -, -, hqueue, hslots, hflow⟩ := State.settle_evalFlag_same s.beginStep u
  refine ⟨_, congrArg (fun v => Host.Outcome.next (s.beginStep.settle v)) htake, ?_, ?_, ?_, ?_,
    State.settle_countsOnce ?_, fun a ha => ?_, State.settle_touches ?_, fun ha hsteady => ?_⟩
  · refine (State.settle_evalFlag_eq _ _).trans ?_
    rw [hframe]
    rfl
  · rw [hqueue, hintake]
    exact congrArg List.tail hq
  · rw [hslots, hintake]
    rfl
  · rw [hflow, hintake]
    rfl
  · exact (hflag.1 c (by simp) hc).trans hcount
  · rw [State.settle_latched]
    exact (hflag.2.1 a (by simpa using (hother a ha).1) (hother a ha).2).trans (hlatch a ha)
  · exact Reports.touches_trans (Reports.touches_mono htouch (by simp) (by simp))
      (Reports.touches_mono hflag (by simp) (by simp))
  · have hsame : u.evalFlag.reports = u.reports := State.evalFlag_steady u (by rw [hframe]; exact hsteady)
    rw [(State.settle_reports _ _).1, hsame]
    exact hnone ha

/-! ## An acceptance (R10, R35, R36) -/

/-- A record that can be found by name is OPEN or closed. -/
theorem PageRecord.closed_of_current {p : PageRecord} (hc : p.current = true) (ho : p.state ≠ .opened) :
    p.closed = true := by
  unfold PageRecord.current at hc
  unfold PageRecord.closed
  cases hs : p.state <;> simp_all

/-- The state of a record into which a write has been issued (R10, R64). -/
theorem PageRecord.issued_state {p : PageRecord} (hc : p.current = true) (w : StoreWrite) (n : Nat) :
    (p.issued w n).afterDerivation.state = if p.state = .opened then .opened else .evaluating := by
  split
  next ho =>
    rw [PageRecord.afterDerivation_of_open (p := p.issued w n) (show p.closed = false by simp [PageRecord.closed, ho])]
    exact ho
  next ho =>
    rw [PageRecord.state_afterDerivation (p := p.issued w n) (show p.closed = true from PageRecord.closed_of_current hc ho)]
    simp [PageRecord.derived, PageRecord.issued]

/-- The layer record into which a write has been issued (R10). -/
theorem PageRecord.issued_layer {p : PageRecord} {id : LayerId} {l : LayerRecord} (hl : p.layer? id = some l)
    {w : StoreWrite} (hw : w.target.layer = id) (n : Nat) :
    (p.issued w n).afterDerivation.layer? id = some (l.issued w.item w.tile n (p.state == .opened)) := by
  rw [PageRecord.layer?_afterDerivation]
  refine (PageRecord.layer?_modifyLayer p w.target.layer id
    (fun l => l.issued w.item w.tile n (p.state == .opened)) fun _ => rfl).trans ?_
  rw [hw, if_pos rfl, hl]
  rfl

/-- The issue of a write evaluates the arming that the record's state bears on (R66). -/
theorem State.noteIssue_rearms {s : State} {w : StoreWrite} {p : PageRecord} (hp : s.page? w.target.record = some p)
    (n : Nat) : s.Rearms (s.noteIssue w n) fun x =>
      (p.issued w n).afterDerivation.state ≠ p.state ∧ ∃ z ∈ x.resolutions, z.record = w.target.record := by
  unfold State.noteIssue
  have hmodified := (State.page?_modifyPage s w.target.record w.target.record fun p => p.issued w n).trans (if_pos rfl)
  rw [hp] at hmodified
  exact (State.derivePage_rearms (p := p.issued w n) hmodified).congr (by simp) (by simp) (by simp) rfl rfl rfl
    (fun _ => Iff.rfl) (by simp) (.of_eq rfl)

/-- The write slot and the tile are taken, ahead of the issue (R35, R36). -/
def State.filling (s : State) (k : Nat) (w : StoreWrite) (allocated : Bool) : State :=
  { s with
    store := { s.store with poolOut := if allocated then insertRising w.tile s.store.poolOut else s.store.poolOut }
    intake := { s.intake with slots := s.intake.slots.set k (some w) } }

theorem State.issueSegment_eq (s : State) (k : Nat) (w : StoreWrite) (n : Nat) (allocated : Bool) :
    s.issueSegment k w n allocated = (((s.filling k w allocated).noteIssue w n).queueWrite (.intake k)).arbitrate := by
  cases allocated <;> rfl

/-- Settles O8: the verdict names the tile; the issue of the write is an update of the record and of its layer, with the
derivation and the arming that follow, and the arbiter's choice and the evaluation of the holding flag touch none of it. -/
theorem acceptedSegmentIsIssued : Obligations.AcceptedSegmentIsIssued := by
  intro s parity flags h payload rest k r id p l tile ht hq hk hrises hpass htile
  have hpasses := hpass
  obtain ⟨hf, hid, hl, -, -, -⟩ := hpasses
  obtain ⟨hp, hcurrent, -, -⟩ := State.findPage_some hf
  have hjudge : s.judge parity h payload = .accepted r id tile (l.tileAt (slotOf parity h)).isNone := by
    rw [State.judge_passes hpass, State.placeItem, mapSlot_item, (PageRecord.layer?_id hl).1]
    rcases htile with hat | ⟨hat, hlow⟩
    · rw [hat]
      rfl
    · rw [hat, (State.lowestFree_iff hrises tile).mpr hlow]
      rfl
  have htake := State.takeSegmentParcel_of_head ht hq hk
  rw [hjudge, State.actOnJudged, State.issueSegment_eq] at htake
  obtain ⟨w, hw⟩ : ∃ w, w = StoreWrite.mk ⟨r, id⟩ (h.item parity) tile (h.item parity).tileSlot payload := ⟨_, rfl⟩
  obtain ⟨hrecord, hlayer, hitem, hwtile⟩ : w.target.record = r ∧ w.target.layer = id ∧ w.item = h.item parity ∧
      w.tile = tile := by
    rw [hw]
    exact ⟨rfl, rfl, rfl, rfl⟩
  rw [← hw] at htake
  obtain ⟨f, hfill⟩ : ∃ f, f = s.beginStep.popInlet.filling k w (l.tileAt (slotOf parity h)).isNone := ⟨_, rfl⟩
  rw [← hfill] at htake
  have hfpage : ∀ r', f.page? r' = s.page? r' := fun r' => State.page?_congr (by rw [hfill]; rfl) r'
  have hrearms := State.noteIssue_rearms (s := f) (w := w) (by rw [hrecord, hfpage]; exact hp) h.length
  obtain ⟨v, hv⟩ : ∃ v, v = ((f.noteIssue w h.length).queueWrite (.intake k)).arbitrate := ⟨_, rfl⟩
  have hhold : (f.noteIssue w h.length).drive.sameHold v.drive := by
    rw [hv]
    exact (State.arbitrate_goesOn ((f.noteIssue w h.length).queueWrite (.intake k))).hold
  have hwrite : .intake k ∈ v.store.writeSide ∨ v.store.inService = some (.write (.intake k)) := by
    rw [hv]
    exact State.arbitrate_write _ _ (by simp)
  obtain ⟨hpages, hschedule, hscreener, hframer, hstraps, hrestart, hintake, hpool, hdram, hretired⟩ :
      v.pages = (f.noteIssue w h.length).pages ∧ v.schedule = (f.noteIssue w h.length).schedule ∧
      v.screener = f.screener ∧ v.framer = f.framer ∧ v.straps = f.straps ∧ v.restart = f.restart ∧
      v.intake = f.intake ∧ v.store.poolOut = f.store.poolOut ∧ v.store.dram = f.store.dram ∧
      v.store.retired = f.store.retired := by
    rw [hv]
    simp
  rw [← hv] at htake
  obtain ⟨hsame1, hsame2, hsame3, hsame4, hsame5, hsame6, hsame7, hsame8, hsame9, hsame10⟩ :=
    State.settle_evalFlag_same s.beginStep v
  have hpage : ∀ r', (s.beginStep.settle v.evalFlag).page? r'
      = if r' = r then some (p.issued w h.length).afterDerivation else s.page? r' := fun r' => by
    rw [State.page?_congr (hsame1.trans hpages), State.page?_noteIssue, hrecord]
    split
    next heq => rw [heq, hfpage, hp]; rfl
    next => exact hfpage r'
  have hlayer' := PageRecord.issued_layer hl hlayer h.length
  rw [hitem, hwtile] at hlayer'
  have hstate := PageRecord.issued_state hcurrent w h.length
  refine ⟨_, congrArg (fun v => Host.Outcome.next (s.beginStep.settle v)) htake, ?_, ?_, ?_, ?_, ?_, ?_, ?_,
    ⟨(p.issued w h.length).afterDerivation, _, (hpage r).trans (if_pos rfl), by simp; rfl, by simp; rfl, by simp; rfl,
      by simp; rfl, hstate, hlayer', rfl, rfl, rfl, fun i => ?_, ?_, ?_, ?_, ?_⟩,
    fun r' hr' => (hpage r').trans (if_neg hr'), ?_, ?_, ?_, ?_⟩
  · rw [hsame8, hintake, hfill]
    exact congrArg List.tail hq
  · rw [hsame10, hintake, hfill]
    rfl
  · rw [hsame9, hintake, hfill, hw]
    cases parity <;> rfl
  · rw [hsame2, hpool, hfill]
    cases hat : l.tileAt (slotOf parity h) <;> simp [State.filling, hwtile, State.popInlet]
  · rw [hsame2, hdram, hfill]
    rfl
  · rw [hsame2, hretired, hfill]
    rfl
  · rw [hsame2]
    exact hwrite
  · cases parity <;> simp [LayerRecord.issued, SegHeader.item, mem_insertRising, or_comm]
  · cases parity <;> simp [LayerRecord.issued, SegHeader.item]
  · simp [LayerRecord.issued]
  · cases hat : l.tileAt (slotOf parity h) <;> simp [LayerRecord.issued, mapSlot_item, hat]
  · rw [hrecord] at hrearms
    exact hrearms.congr (by rw [hfill]; rfl) (by rw [hfill]; rfl) (by rw [hfill]; rfl) (hsame6.trans hschedule)
      (hsame1.trans hpages) (by simp [hscreener]) (fun _ => Iff.rfl) (by rw [hfill]; rfl) (by rw [hsame7]; exact hhold)
  · simp [hframer, hfill, State.filling]
  · simp [hstraps, hfill, State.filling]
  · simp [hscreener, hfill, State.filling]
  · simp [hrestart, hfill, State.filling]

end Sys2Proof.Machine
end

section
/-! PROOFS. What the completion of a store write leaves, and the arbiter's choice after it (R11, R50, R55, R61 to R65, R71). -/

namespace Sys2Proof.Machine

open Sys2Proof (Byte Instr)

/-! ## The arbiter's choice: the report queue and Repair -/

theorem State.unpackFaults_growsTo (n : Nat) (s : State) : s.reports.growsTo (State.unpackFaults n s).reports := by
  induction n generalizing s with
  | zero => exact Reports.growsTo_refl _
  | succ n ih => exact Reports.growsTo_trans (Reports.latch_growsTo (s.count .unpackFaults).reports .unpackFault) (ih _)

theorem State.makeLine_growsTo (s : State) : s.reports.growsTo s.makeLine.reports := by
  unfold State.makeLine
  split
  · split
    · exact Reports.growsTo_refl _
    · unfold State.makeImageLine State.placeLine
      exact State.unpackFaults_growsTo _ _
  all_goals exact Reports.growsTo_refl _

theorem State.makeLines_growsTo (n : Nat) (s : State) : s.reports.growsTo (State.makeLines n s).reports := by
  induction n generalizing s with
  | zero => exact Reports.growsTo_refl _
  | succ n ih =>
    unfold State.makeLines
    split
    · exact Reports.growsTo_trans s.makeLine_growsTo (ih _)
    · exact Reports.growsTo_refl _

theorem State.prefetchEvent_growsTo (s : State) : s.reports.growsTo s.prefetchEvent.reports := by
  unfold State.prefetchEvent
  rw [State.primeTest_reports]
  exact State.makeLines_growsTo _ s

theorem State.prefetchFailed_growsTo (s : State) (side : Side) (kind : LayerKind) (n pos : Nat) :
    s.reports.growsTo (s.prefetchFailed side kind n pos).reports := by
  unfold State.prefetchFailed
  split
  · exact Reports.growsTo_same (by simp)
  · split
    · split
      · exact Reports.growsTo_same (by simp)
      · exact Reports.growsTo_trans (Reports.growsTo_same (by split <;> simp)) (State.prefetchEvent_growsTo _)
    · exact Reports.growsTo_same (by simp)

/-- A failed result adds at most reports of a latching, whoever receives it. -/
theorem State.deliverFailure_growsTo (s : State) (r : StoreRead) : s.reports.growsTo (s.deliverFailure r).reports := by
  unfold State.deliverFailure
  split
  · exact Reports.growsTo_refl _
  · exact State.prefetchFailed_growsTo _ _ _ _ _

theorem State.deliverFailure_repair (s : State) (r : StoreRead) :
    (s.deliverFailure r).repair = s.repair ∨ (s.deliverFailure r).repair = { s.repair with engine := .idle } := by
  unfold State.deliverFailure
  split
  · exact .inr rfl
  · exact .inl (by simp)

theorem State.serve_growsTo (n : Nat) (s : State) : s.reports.growsTo (State.serve n s).reports ∧
    ((State.serve n s).repair = s.repair ∨ (State.serve n s).repair = { s.repair with engine := .idle }) := by
  induction n generalizing s with
  | zero => exact ⟨Reports.growsTo_refl _, .inl rfl⟩
  | succ n ih =>
    unfold State.serve
    split
    · exact ⟨Reports.growsTo_refl _, .inl rfl⟩
    · split <;> exact ⟨Reports.growsTo_refl _, .inl rfl⟩
    · split
      · exact ⟨Reports.growsTo_refl _, .inl rfl⟩
      next r rest _ =>
        split
        · obtain ⟨hgrows, hrepair⟩ := ih (State.deliverFailure
            { s with store := { s.store with readSide := rest, lastSide := .read } } r)
          refine ⟨Reports.growsTo_trans (State.deliverFailure_growsTo
            { s with store := { s.store with readSide := rest, lastSide := .read } } r) hgrows, ?_⟩
          rcases State.deliverFailure_repair { s with store := { s.store with readSide := rest, lastSide := .read } } r
            with h | h
          · rw [h] at hrepair
            exact hrepair
          · rw [h] at hrepair
            exact .inr (hrepair.elim id id)
        · exact ⟨Reports.growsTo_refl _, .inl rfl⟩

theorem State.arbitrate_growsTo (s : State) : s.reports.growsTo s.arbitrate.reports := by
  unfold State.arbitrate
  split
  · exact Reports.growsTo_refl _
  · exact (State.serve_growsTo _ s).1

/-- The arbiter's choice leaves Repair, but that a read of Repair's that it answers as failed leaves it IDLE (R50, R72). -/
theorem State.arbitrate_repair (s : State) :
    s.arbitrate.repair = s.repair ∨ s.arbitrate.repair = { s.repair with engine := .idle } := by
  unfold State.arbitrate
  split
  · exact .inl rfl
  · exact (State.serve_growsTo _ s).2

/-! ## Derivation and evaluation -/

theorem State.noteDamage_touches (s : State) (r : Nat) (p : PageRecord) :
    s.reports.touches (s.noteDamage r p).reports [] [.pageDamaged] := by
  unfold State.noteDamage
  split
  · exact Reports.latch_touches _ _ _ _ (by simp)
  · exact Reports.touches_refl _ _ _

/-- A derivation latches PAGE_DAMAGED and no other alarm (R65). -/
theorem State.derivePage_touches (s : State) (r : Nat) : s.reports.touches (s.derivePage r).reports [] [.pageDamaged] := by
  unfold State.derivePage
  split
  · exact Reports.touches_refl _ _ _
  · split
    · exact Reports.touches_refl _ _ _
    · unfold State.pageChanged
      dsimp only
      rw [(State.rearm_same _ _).2.2.2.2.2.2.2.2.2.1]
      split
      · exact Reports.touches_trans (Reports.enqueue_touches _ _ _ _) (State.noteDamage_touches _ _ _)
      · exact Reports.touches_refl _ _ _

/-- A record that is not closed is not derived (R64). -/
theorem State.derivePage_of_open {s : State} {r : Nat} {p : PageRecord} (hp : s.page? r = some p) (hc : p.closed = false) :
    s.derivePage r = s := by
  simp [State.derivePage, hp, hc]

theorem State.joinRepair_repair (s : State) (t : LayerRef) :
    (s.joinRepair t).repair.write = s.repair.write ∧ (s.joinRepair t).repair.engine = s.repair.engine := by
  unfold State.joinRepair
  split <;> exact ⟨rfl, rfl⟩

theorem State.leaveRepair_repair (s : State) (t : LayerRef) :
    (s.leaveRepair t).repair.write = s.repair.write ∧
      (s.repair.engine = .idle → (s.leaveRepair t).repair.engine = .idle) := by
  unfold State.leaveRepair
  dsimp only
  split
  next x i k acc he =>
    split
    · exact ⟨rfl, fun hi => by simp [he] at hi⟩
    · exact ⟨rfl, fun hi => hi⟩
  all_goals exact ⟨rfl, fun hi => hi⟩

/-- An evaluation writes the page table and Repair only. -/
theorem State.evaluateLayer_eq (s : State) (t : LayerRef) :
    s.evaluateLayer t = { s with pages := (s.evaluateLayer t).pages, repair := (s.evaluateLayer t).repair } := by
  unfold State.evaluateLayer State.setLayerState State.joinRepair State.leaveRepair State.modifyPage State.setPage
    State.abandonRepair
  dsimp only
  (repeat' split) <;> rfl

/-- An evaluation moves no write of Repair's, and leaves an IDLE Repair IDLE. -/
theorem State.evaluateLayer_engine (s : State) (t : LayerRef) :
    (s.evaluateLayer t).repair.write = s.repair.write ∧
      (s.repair.engine = .idle → (s.evaluateLayer t).repair.engine = .idle) := by
  unfold State.evaluateLayer State.setLayerState
  dsimp only
  split
  · exact ⟨rfl, id⟩
  · split
    · exact ⟨rfl, id⟩
    · split
      · split
        · refine ⟨(State.joinRepair_repair _ _).1.trans (by simp), fun he => (State.joinRepair_repair _ _).2.trans ?_⟩
          simpa using he
        · split
          · refine ⟨(State.leaveRepair_repair _ _).1.trans (by simp), fun he => (State.leaveRepair_repair _ _).2 ?_⟩
            simpa using he
          · simp
      · exact ⟨rfl, id⟩

/-- The evaluation of a layer of a closed page: the layer is evaluated where it is settled (R61). -/
theorem PageRecord.layer?_afterEvaluation {p : PageRecord} {id : LayerId} {l : LayerRecord} (hc : p.closed = true)
    (hl : p.layer? id = some l) : (p.afterEvaluation id).layer? id = some l.reevaluated := by
  unfold PageRecord.afterEvaluation LayerRecord.reevaluated
  rw [hl]
  dsimp only
  rw [hc, Bool.true_and]
  split
  · rw [PageRecord.layer?_modifyLayer p id id (fun x => { x with state := l.evaluated }) fun _ => rfl, if_pos rfl, hl]
    rfl
  · exact hl

/-- The evaluation of a layer changes layer states only. -/
theorem PageRecord.afterEvaluation_same (p : PageRecord) (id : LayerId) :
    (p.afterEvaluation id).state = p.state ∧ (p.afterEvaluation id).pendingWrites = p.pendingWrites ∧
      (p.afterEvaluation id).useCount = p.useCount ∧ (p.afterEvaluation id).pageId = p.pageId ∧
      (p.afterEvaluation id).version = p.version := by
  unfold PageRecord.afterEvaluation
  split
  · exact ⟨rfl, rfl, rfl, rfl, rfl⟩
  · split <;> exact ⟨rfl, rfl, rfl, rfl, rfl⟩

end Sys2Proof.Machine
end

section
/-! PROOFS. The completion of a store write (R11, R17, R37, R54, R71, R171). -/

namespace Sys2Proof.Machine

open Sys2Proof (Byte Instr)

/-! ## The page table's part, ahead of the derivation -/

/-- What the completion of a write makes of its record `p` ahead of the derivation: the record `p2`, and in it the layer
`m` that the completion has updated to `m0` and an evaluation, or a reconstruction that is over, has given its state. -/
structure State.CompletionNoted (u v : State) (w : StoreWrite) (p p2 : PageRecord) (m0 m : LayerRecord) (rebuilt : Prop) :
    Prop where
  frame : v = { u with pages := v.pages, repair := v.repair, reports := v.reports }
  page : ∀ r, v.page? r = if r = w.target.record then some p2 else u.page? r
  record : p2.state = p.state ∧ p2.pendingWrites = p.pendingWrites - 1 ∧ p2.useCount = p.useCount
  layer : p2.layer? w.target.layer = some m
  same : m = { m0 with state := m.state }
  kept : p.closed = false → m.state = m0.state ∧ v.reports = u.reports
  repaired : p.closed = true → rebuilt → m0.missing = [] →
    m.state = .repaired ∧ u.reports.countsOnce v.reports .layersRepaired
  evaluated : p.closed = true → ¬ (rebuilt ∧ m0.missing = []) → m0.EvaluatedAs m
  lane : v.reports = { u.reports with counters := v.reports.counters }
  write : v.repair.write = u.repair.write
  engine : u.repair.engine = .idle ∨ (p.closed = true ∧ rebuilt) → v.repair.engine = .idle

section

variable {u v : State} {w : StoreWrite} {p p1 : PageRecord} {m0 : LayerRecord} {rebuilt : Prop}

/-- The completed layer of a closed page is evaluated. -/
theorem State.CompletionNoted.evaluateLayer (hv : v = { u with pages := v.pages, repair := v.repair })
    (hpage : ∀ r, v.page? r = if r = w.target.record then some p1 else u.page? r)
    (hrecord : p1.state = p.state ∧ p1.pendingWrites = p.pendingWrites - 1 ∧ p1.useCount = p.useCount)
    (hl : p1.layer? w.target.layer = some m0) (hc : p.closed = true) (hnot : ¬ (rebuilt ∧ m0.missing = []))
    (hw : v.repair.write = u.repair.write) (he : u.repair.engine = .idle ∨ rebuilt → v.repair.engine = .idle) :
    State.CompletionNoted u (v.evaluateLayer w.target) w p (p1.afterEvaluation w.target.layer) m0 m0.reevaluated
      rebuilt where
  frame := by
    rw [State.evaluateLayer_eq, hv]
  page r := by
    rw [State.page?_evaluateLayer, hpage]
    split <;> rfl
  record := by
    obtain ⟨h1, h2, h3, -⟩ := p1.afterEvaluation_same w.target.layer
    rw [h1, h2, h3]
    exact hrecord
  layer := PageRecord.layer?_afterEvaluation (by rw [PageRecord.closed, hrecord.1]; exact hc) hl
  same := m0.evaluatedAs_reevaluated.1
  kept hn := by simp [hc] at hn
  repaired _ hr hm := absurd ⟨hr, hm⟩ hnot
  evaluated _ _ := m0.evaluatedAs_reevaluated
  lane := by
    simp only [State.evaluateLayer_same]
    rw [hv]
  write := (v.evaluateLayer_engine w.target).1.trans hw
  engine h := (v.evaluateLayer_engine w.target).2 (he (h.imp id And.right))

end

/-- The reconstruction is over and its layer REPAIRED, ahead of the derivation (R71). -/
def State.repaired (s : State) (t : LayerRef) : State :=
  (s.modifyPage t.record fun p => p.modifyLayer t.layer fun l => { l with state := .repaired }).count .layersRepaired

theorem State.repaired_eq (s : State) (t : LayerRef) :
    s.repaired t = { s with
      pages := (s.repaired t).pages
      reports := { s.reports with counters := s.reports.counters.add 1 .layersRepaired } } := by
  unfold State.repaired State.modifyPage State.setPage
  split <;> rfl

theorem State.page?_repaired {s : State} {t : LayerRef} {p : PageRecord} (hp : s.page? t.record = some p) (r : Nat) :
    (s.repaired t).page? r = if r = t.record then some (p.modifyLayer t.layer fun l => { l with state := .repaired })
      else s.page? r := by
  refine (State.page?_congr rfl r).trans ((State.page?_modifyPage s t.record r
    fun p => p.modifyLayer t.layer fun l => { l with state := .repaired }).trans ?_)
  rw [hp]
  rfl

/-- The write is that of a reconstruction in progress (R71). -/
def State.rebuilds (s : State) (byRepair : Bool) : Bool :=
  byRepair && match s.repair.engine with
    | .writing _ _ => true
    | .reading _ _ _ _ => false
    | .draining => false
    | .idle => false

theorem State.rebuilds_iff (s : State) (byRepair : Bool) :
    s.rebuilds byRepair = true ↔ byRepair = true ∧ ∃ x i, s.repair.engine = .writing x i := by
  unfold State.rebuilds
  rw [Bool.and_eq_true]
  cases s.repair.engine <;> simp

/-- The page table's part of a completion, by the state of the record (R11, R71). -/
theorem State.noteCompletion_eq {u : State} {w : StoreWrite} {p : PageRecord} (byRepair : Bool)
    (hp : u.page? w.target.record = some p) {p1 : PageRecord} (hp1 : p1 = p.completed w (u.store.retired.contains w.tile))
    {s1 : State} (hs1 : s1 = u.setPage w.target.record (some p1)) :
    u.noteCompletion w byRepair =
      if p.state = .releasing then
        if p1.pendingWrites = 0 then ((s1.freeRecord w.target.record p1).reresolve p1.pageId).evalFlag else s1
      else if p.state = .opened then s1
      else if u.rebuilds byRepair then s1.reconstructionWritten w.target
      else s1.evaluationEvent w.target := by
  unfold State.noteCompletion State.rebuilds
  rw [hp]
  dsimp only
  rw [← hp1, ← hs1]
  cases byRepair with
  | false => rfl
  | true => cases he : u.repair.engine <;> rfl

/-- The completion of a write that does not free its record is noted, and the record's state is derived. -/
theorem State.noteCompletion_noted {u : State} {w : StoreWrite} {p : PageRecord} {l : LayerRecord} (byRepair : Bool)
    (hp : u.page? w.target.record = some p) (hl : p.layer? w.target.layer = some l)
    (hn : ¬ (p.state = .releasing ∧ p.pendingWrites ≤ 1)) :
    ∃ v p2 m, u.noteCompletion w byRepair = v.derivePage w.target.record ∧ State.CompletionNoted u v w p p2
      (l.completed w.item (p.state == .releasing) (u.store.retired.contains w.tile)) m
      (u.rebuilds byRepair = true) := by
  obtain ⟨m0, hm0⟩ : ∃ m0, m0 = l.completed w.item (p.state == .releasing) (u.store.retired.contains w.tile) := ⟨_, rfl⟩
  obtain ⟨p1, hp1⟩ : ∃ p1, p1 = p.completed w (u.store.retired.contains w.tile) := ⟨_, rfl⟩
  obtain ⟨s1, hs1⟩ : ∃ s1, s1 = u.setPage w.target.record (some p1) := ⟨_, rfl⟩
  have hrecord : p1.state = p.state ∧ p1.pendingWrites = p.pendingWrites - 1 ∧ p1.useCount = p.useCount := by
    rw [hp1]
    exact ⟨rfl, rfl, rfl⟩
  have hlayer : p1.layer? w.target.layer = some m0 := by
    rw [hp1, hm0]
    refine (PageRecord.layer?_modifyLayer p w.target.layer w.target.layer
      (fun l => l.completed w.item (p.state == .releasing) (u.store.retired.contains w.tile)) fun l => ?_).trans ?_
    · cases w.item <;> rfl
    · rw [if_pos rfl, hl]
      rfl
  have hpage : ∀ r, s1.page? r = if r = w.target.record then some p1 else u.page? r := fun r => by
    rw [hs1, State.page?_setPage_of_live hp]
  have hframe : s1 = { u with pages := s1.pages, repair := s1.repair } := by
    rw [hs1]
    rfl
  have hreports : s1.reports = u.reports := by rw [hs1]; rfl
  have hrepair : s1.repair = u.repair := by rw [hs1]; rfl
  have hnote := State.noteCompletion_eq byRepair hp hp1 hs1
  rw [← hm0]
  by_cases hc : p.closed = true
  · have hne : p.state ≠ .releasing ∧ p.state ≠ .opened := by
      unfold PageRecord.closed at hc
      constructor <;> intro h <;> simp [h] at hc
    rw [if_neg hne.1, if_neg hne.2] at hnote
    by_cases hr : u.rebuilds byRepair = true
    · rw [if_pos hr, State.reconstructionWritten] at hnote
      dsimp only at hnote
      obtain ⟨z, hz⟩ : ∃ z, z = { s1 with repair := { s1.repair with engine := .idle } } := ⟨_, rfl⟩
      have hzpage : ∀ r, z.page? r = if r = w.target.record then some p1 else u.page? r := fun r => by
        rw [← hpage, hz]
        rfl
      have hzframe : z = { u with pages := z.pages, repair := z.repair } := by rw [hz, hframe]
      have hzreports : z.reports = u.reports := by rw [hz]; exact hreports
      have hzwrite : z.repair.write = u.repair.write := by rw [hz, ← hrepair]
      have hzengine : z.repair.engine = .idle := by rw [hz]
      rw [← hz] at hnote
      have hfound : (z.page? w.target.record).bind (fun p => p.layer? w.target.layer) = some m0 := by
        rw [hzpage, if_pos rfl]
        exact hlayer
      rw [hfound] at hnote
      dsimp only at hnote
      by_cases hm : m0.missing = []
      · rw [if_pos (List.length_eq_zero_iff.mpr hm)] at hnote
        have hveq := z.repaired_eq w.target
        refine ⟨z.repaired w.target, p1.modifyLayer w.target.layer fun l => { l with state := .repaired },
          { m0 with state := .repaired }, hnote, ?_⟩
        refine ⟨?_, fun r => ?_, hrecord, ?_, rfl, fun h => ?_, fun _ _ _ => ⟨rfl, ?_⟩, fun _ h => absurd ⟨hr, hm⟩ h, ?_, ?_,
          fun _ => ?_⟩
        · rw [hveq, hzframe]
        · rw [State.page?_repaired ((hzpage _).trans (if_pos rfl)), hzpage]
          split <;> rfl
        · rw [PageRecord.layer?_modifyLayer p1 w.target.layer w.target.layer (fun l => { l with state := .repaired })
            fun _ => rfl, if_pos rfl, hlayer]
          rfl
        · simp [hc] at h
        · rw [hveq, ← hzreports]
          exact z.count_countsOnce .layersRepaired
        · rw [hveq, ← hzreports]
        · rw [hveq]
          exact hzwrite
        · rw [hveq]
          exact hzengine
      · rw [if_neg fun h => hm (List.length_eq_zero_iff.mp h)] at hnote
        exact ⟨_, _, _, hnote, .evaluateLayer hzframe hzpage hrecord hlayer hc (fun h => hm h.2) hzwrite fun _ => hzengine⟩
    · rw [if_neg hr] at hnote
      exact ⟨_, _, _, hnote, .evaluateLayer hframe hpage hrecord hlayer hc (fun h => hr h.1) (by rw [hrepair])
        fun h => by rw [hrepair]; exact h.resolve_right hr⟩
  · have hc' : p.closed = false := Bool.eq_false_iff.mpr hc
    have hs : u.noteCompletion w byRepair = s1 := by
      rw [hnote]
      split
      next h => rw [if_neg (by rw [hrecord.2.1]; exact fun h0 => hn ⟨h, by omega⟩)]
      next h =>
        rw [if_pos]
        by_contra ho
        exact hc (PageRecord.closed_of_current (by simp [PageRecord.current, h]) ho)
    refine ⟨s1, p1, m0, ?_, ⟨hframe.trans (by rw [hreports]), hpage, hrecord, hlayer, rfl, fun _ => ⟨rfl, hreports⟩,
      fun h => absurd h hc, fun h => absurd h hc, by rw [hreports], by rw [hrepair], fun h => ?_⟩⟩
    · rw [hs, State.derivePage_of_open ((hpage _).trans (if_pos rfl)) (by rw [PageRecord.closed, hrecord.1]; exact hc')]
    · rw [hrepair]
      exact h.resolve_right fun h => hc h.1

/-! ## The writes in flight -/

/-- The state as a write lands: its bytes are in the DRAM, no request is in service, and the writer is free (R37, R47). -/
def State.landed (s : State) (ref : WriteRef) (w : StoreWrite) : State :=
  (State.dramWrite { s with store := { s.store with inService := none } } w).releaseWriter ref

theorem any_isSome_eq_false {α : Type} (l : List (Option α)) :
    l.any (·.isSome) = false ↔ ∀ i, l.getD i none = none := by
  rw [List.any_eq_false]
  constructor
  · intro h i
    rw [List.getD_eq_getElem?_getD]
    cases hi : l[i]? with
    | none => rfl
    | some x => simpa using h x (List.mem_of_getElem? hi)
  · intro h x hx
    obtain ⟨i, hi⟩ := List.getElem?_of_mem hx
    have := h i
    rw [List.getD_eq_getElem?_getD, hi] at this
    simpa using this

theorem State.writesInFlight_eq_false (s : State) : s.writesInFlight = false ↔ ∀ r, s.writeOf r = none := by
  rw [State.writesInFlight, Bool.or_eq_false_iff, any_isSome_eq_false, Option.isSome_eq_false_iff,
    Option.isNone_iff_eq_none]
  constructor
  · rintro ⟨hslots, hwrite⟩ (i | _)
    · exact hslots i
    · exact hwrite
  · intro h
    exact ⟨fun i => h (.intake i), h .repair⟩

/-- The writes in flight once a write has landed: every other one, and that one no more. -/
theorem State.writeOf_landed {s : State} {ref : WriteRef} (w : StoreWrite) (r : WriteRef) :
    (s.landed ref w).writeOf r = if r = ref then none else s.writeOf r := by
  cases ref with
  | intake i =>
    cases r with
    | intake j =>
      by_cases hij : j = i
      · subst hij
        by_cases hj : j < s.intake.slots.length <;>
          simp [State.landed, State.releaseWriter, State.writeOf, List.getD_eq_getElem?_getD, hj]
      · simp [State.landed, State.releaseWriter, State.writeOf, List.getD_eq_getElem?_getD,
          List.getElem?_set_ne (Ne.symm hij), hij, State.dramWrite]
    | repair => rfl
  | repair =>
    cases r with
    | intake j => rfl
    | repair => rfl

/-- No write is in flight once the only one has landed. -/
theorem State.writesInFlight_landed (s : State) (ref : WriteRef) (w : StoreWrite) :
    (s.landed ref w).writesInFlight = false ↔ s.OnlyWrite ref := by
  rw [State.writesInFlight_eq_false]
  constructor
  · intro h r hr
    by_contra hne
    have := h r
    rw [State.writeOf_landed, if_neg hne] at this
    simp [this] at hr
  · intro h r
    rw [State.writeOf_landed]
    split
    · rfl
    next hne => exact Option.not_isSome_iff_eq_none.mp fun hs => hne (h r hs)

/-! ## What the page table's part leaves of the rest -/

/-- What the completion of a write leaves as the landing left it: the write slots, the queue, the DRAM, the retired set,
and every report that waited. -/
structure State.CompletionFrame (u v : State) : Prop where
  intake : v.intake.slots = u.intake.slots ∧ v.intake.queue = u.intake.queue ∧ v.intake.flow = u.intake.flow
  store : v.store.dram = u.store.dram ∧ v.store.retired = u.store.retired ∧ v.store.sweep = u.store.sweep
  write : v.repair.write = u.repair.write
  engine : u.repair.engine = .idle → v.repair.engine = .idle
  grows : u.reports.growsTo v.reports
  mask : v.reports.mask = u.reports.mask
  same : v.straps = u.straps ∧ v.framer = u.framer ∧ v.screener = u.screener ∧ v.restart = u.restart

theorem State.CompletionFrame.arbitrate {u v : State} (h : State.CompletionFrame u v) :
    State.CompletionFrame u v.arbitrate where
  intake := by simpa using h.intake
  store := by simpa using h.store
  write := by
    rcases v.arbitrate_repair with e | e <;> rw [e] <;> exact h.write
  engine he := by
    rcases v.arbitrate_repair with e | e <;> rw [e]
    exact h.engine he
  grows := Reports.growsTo_trans h.grows v.arbitrate_growsTo
  mask := v.arbitrate_touches.2.2.trans h.mask
  same := by simpa using h.same

/-- A completion that is noted, with the derivation behind it. -/
theorem State.CompletionNoted.frame_derived {u v : State} {w : StoreWrite} {p p2 : PageRecord} {m0 m : LayerRecord}
    {rebuilt : Prop} (h : State.CompletionNoted u v w p p2 m0 m rebuilt) (r : Nat) :
    State.CompletionFrame u (v.derivePage r) := by
  have hlane : u.reports.growsTo v.reports := by
    rw [h.lane]
    exact Reports.growsTo_of_eq rfl rfl rfl rfl
  refine ⟨?_, ?_, ?_, fun he => ?_, Reports.growsTo_trans hlane (v.derivePage_growsTo r),
    (v.derivePage_touches r).2.2.trans (by rw [h.lane]), ?_⟩
  · simp only [State.derivePage_same]
    rw [h.frame]
    exact ⟨rfl, rfl, rfl⟩
  · simp only [State.derivePage_same]
    rw [h.frame]
    exact ⟨rfl, rfl, rfl⟩
  · simp only [State.derivePage_same]
    exact h.write
  · simp only [State.derivePage_same]
    exact h.engine (.inl he)
  · simp only [State.derivePage_same]
    rw [h.frame]
    exact ⟨rfl, rfl, rfl, rfl⟩

/-- The record is freed at its last write: its tiles join the pool and its id is resolved anew (R11, R17). -/
def State.freed (u : State) (w : StoreWrite) (p1 : PageRecord) : State :=
  (State.freeRecord (u.setPage w.target.record (some p1)) w.target.record p1).reresolve p1.pageId

theorem State.CompletionFrame.freed (u : State) (w : StoreWrite) (p1 : PageRecord) :
    State.CompletionFrame u (u.freed w p1).evalFlag where
  intake := by simp [State.freed]
  store := by simp [State.freed, State.freeRecord, State.giveToPool]
  write := by simp [State.freed]
  engine he := by simpa [State.freed] using he
  grows := Reports.growsTo_trans (Reports.growsTo_same (by simp [State.freed])) (State.evalFlag_growsTo _)
  mask := ((u.freed w p1).evalFlag_touches [] [.storeLow] (by simp)).2.2.trans (by simp [State.freed])
  same := by simp [State.freed]

/-! ## The event -/

/-- The completion of a write whose tile the store has is one event (R11). -/
theorem exec_storeWriteCompletion {s : State} {ref : WriteRef} {w : StoreWrite}
    (hserv : s.store.inService = some (.write ref)) (hw : s.writeOf ref = some w) (ht : w.tile < s.tileCount) :
    exec .storeWriteCompletion s
      = .next (s.beginStep.settle ((s.beginStep.landed ref w).noteCompletion w (ref == .repair)).arbitrate.finishIfDue) := by
  show execStoreWriteCompletion s = _
  unfold execStoreWriteCompletion
  rw [hserv]
  dsimp only
  rw [hw]
  exact if_pos ht

theorem State.landed_writes (s : State) (ref : WriteRef) (w : StoreWrite) :
    (∀ k, ref = .intake k → (s.landed ref w).intake.slots = s.intake.slots.set k none ∧
      (s.landed ref w).repair.write = s.repair.write) ∧
    (ref = .repair → (s.landed ref w).intake.slots = s.intake.slots ∧ (s.landed ref w).repair.write = none ∧
      (s.repair.engine = .draining → (s.landed ref w).repair.engine = .idle)) := by
  refine ⟨fun k hk => ?_, fun hr => ?_⟩
  · subst hk
    exact ⟨rfl, rfl⟩
  · subst hr
    refine ⟨rfl, rfl, fun hd => ?_⟩
    show (match s.repair.engine with
      | .draining => RepairEngine.idle
      | .writing t i => .writing t i
      | .reading t i k a => .reading t i k a
      | .idle => .idle) = .idle
    rw [hd]

theorem State.landed_same (s : State) (ref : WriteRef) (w : StoreWrite) :
    (s.landed ref w).intake.queue = s.intake.queue ∧ (s.landed ref w).intake.flow = s.intake.flow ∧
    (s.landed ref w).intake.reserveCause = s.intake.reserveCause ∧ (s.landed ref w).pages = s.pages ∧
    (s.landed ref w).store = { s.store with
      inService := none
      dram := s.store.dram.write (slotNumber w.tile w.slot)
        (codedCell (slotNumber w.tile w.slot) (paddedSlot w.payload)) } ∧
    (s.landed ref w).prefetch = s.prefetch ∧ (s.landed ref w).screener = s.screener ∧
    (s.landed ref w).schedule = s.schedule ∧ (s.landed ref w).drive = s.drive ∧ (s.landed ref w).restart = s.restart ∧
    (s.landed ref w).reports = s.reports ∧ (s.landed ref w).straps = s.straps ∧ (s.landed ref w).framer = s.framer := by
  cases ref <;> exact ⟨rfl, rfl, rfl, rfl, rfl, rfl, rfl, rfl, rfl, rfl, rfl, rfl, rfl⟩

/-- The bytes of a landed write: the payload and zeros in its slot, with its check code, and every other byte as before
(R47, R48). -/
theorem Dram.written_spec (d : Dram) (n : Nat) {payload : List Byte} (hp : payload.length ≤ 256) :
    (∀ o, o < 256 → (d.write n (codedCell n (paddedSlot payload))).readByte (n * 256 + o) = payload.getD o 0) ∧
    (d.write n (codedCell n (paddedSlot payload))).agrees n = true ∧
    ∀ a, a / 256 ≠ n → (d.write n (codedCell n (paddedSlot payload))).readByte a = d.readByte a := by
  refine ⟨fun o ho => ?_, ?_, fun a ha => Dram.readByte_write_of_ne _ _ _ _ ha⟩
  · rw [Dram.readByte_write_at _ _ _ _ ho]
    exact getD_paddedSlot _ _ hp
  · rw [Dram.agrees_write, if_pos rfl]

/-- What stands at the end of the event of a completion, whatever the record: a RESTART held for the write included. -/
theorem State.CompletionFrame.settled {s x : State} {ref : WriteRef} {w : StoreWrite}
    (h : State.CompletionFrame (s.beginStep.landed ref w) x) :
    (∀ k, ref = .intake k → (s.beginStep.settle x.finishIfDue).intake.slots = s.intake.slots.set k none ∧
      (s.beginStep.settle x.finishIfDue).repair.write = s.repair.write) ∧
    (ref = .repair → (s.beginStep.settle x.finishIfDue).intake.slots = s.intake.slots ∧
      (s.beginStep.settle x.finishIfDue).repair.write = none) ∧
    (s.beginStep.settle x.finishIfDue).store.dram = s.store.dram.write (slotNumber w.tile w.slot)
      (codedCell (slotNumber w.tile w.slot) (paddedSlot w.payload)) ∧
    (¬ (s.restart.isSome = true ∧ s.OnlyWrite ref) → x.finishIfDue = x) ∧
    (∀ k low, s.restart = some k → s.OnlyWrite ref → s.store.sweep = none →
      (low = true → x.intake.reserveCause = true) → s.RestartFinished (s.beginStep.settle x.finishIfDue) k low) ∧
    (s.beginStep.settle x.finishIfDue).store.retired = s.store.retired ∧
    (s.beginStep.settle x.finishIfDue).intake.queue = s.intake.queue ∧
    (s.beginStep.settle x.finishIfDue).screener = s.screener ∧
    (s.beginStep.settle x.finishIfDue).framer = s.framer := by
  obtain ⟨hintake, hstore, hwrite, -, hgrows, hmask, hsame⟩ := h
  obtain ⟨hlqueue, hlflow, -, -, hlstore, -, hlscreener, -, -, hlrestart, hlreports, hlstraps, hlframer⟩ :=
    s.beginStep.landed_same ref w
  obtain ⟨hlintake, hlrepair⟩ := s.beginStep.landed_writes ref w
  have hflight : x.writesInFlight = (s.beginStep.landed ref w).writesInFlight := by
    rw [State.writesInFlight, State.writesInFlight, hintake.1, hwrite]
  have honly : x.writesInFlight = false ↔ s.OnlyWrite ref := by
    rw [hflight]
    exact s.beginStep.writesInFlight_landed ref w
  have hrestart : x.restart = s.restart := hsame.2.2.2.trans hlrestart
  have hslots : (s.beginStep.settle x.finishIfDue).intake.slots = (s.beginStep.landed ref w).intake.slots := by
    simp [hintake.1]
  have hwrites : (s.beginStep.settle x.finishIfDue).repair.write = (s.beginStep.landed ref w).repair.write := by
    simp [hwrite]
  refine ⟨fun k hk => ?_, fun hr => ?_, ?_, fun hn => ?_, fun k low hk ho hsweep hlow => ?_, ?_, ?_, ?_, ?_⟩
  · rw [hslots, hwrites]
    exact hlintake k hk
  · rw [hslots, hwrites]
    exact ⟨(hlrepair hr).1, (hlrepair hr).2.1⟩
  · simp [hstore.1, hlstore]
  · rcases x.finishIfDue_cases with ⟨heq, -⟩ | ⟨k, hflying, hk, -⟩
    · exact heq
    · exact absurd ⟨by rw [← hrestart, hk]; rfl, honly.mp hflying⟩ hn
  · rcases x.finishIfDue_cases with ⟨-, hno | hno⟩ | ⟨j, -, hj, heq⟩
    · exact absurd (honly.mpr ho) (by simp [hno])
    · rw [hrestart, hk] at hno
      cases hno
    · rw [hrestart, hk] at hj
      cases hj
      rw [heq]
      exact State.finishRestart_finished k (hsame.1.trans hlstraps) (hstore.2.1.trans (by rw [hlstore]; rfl))
        (hstore.2.2.trans (by rw [hlstore]; exact hsweep)) (hintake.2.2.trans hlflow)
        (hmask.trans (by rw [hlreports]; rfl)) (hgrows.1.trans (by rw [hlreports]; rfl)) fun hl _ => hlow hl
  · simp [hstore.2.1, hlstore]
  · simp [hintake.2.1, hlqueue]
  · simp [hsame.2.2.1, hlscreener]
  · simp [hsame.2.1, hlframer]

end Sys2Proof.Machine
end

section
/-! PROOFS. The two ends of a store write: the segment is received, or the last write frees its record (R11, R17, R37). -/

namespace Sys2Proof.Machine

open Sys2Proof (Byte Instr)

/-! ## The last write of a RELEASING record (R11, R17) -/

/-- The completion of a write leaves the tile maps. -/
theorem PageRecord.completed_tiles (p : PageRecord) (w : StoreWrite) (retired : Bool) :
    (p.completed w retired).tiles = p.tiles := by
  simp only [PageRecord.tiles, PageRecord.completed, PageRecord.modifyLayer, List.flatMap_map]
  congr 1
  funext l
  split
  · cases w.item <;> rfl
  · rfl

/-- A freed record is EMPTY, and of the others only the use count may change (R11, R130). -/
theorem State.page?_freed {u : State} {w : StoreWrite} {p p1 : PageRecord} (hp : u.page? w.target.record = some p) :
    (u.freed w p1).page? w.target.record = none ∧
      ∀ r q, r ≠ w.target.record → u.page? r = some q → ∃ n, (u.freed w p1).page? r = some { q with useCount := n } := by
  have hset : ∀ r, (State.freeRecord (u.setPage w.target.record (some p1)) w.target.record p1).page? r
      = if r = w.target.record then none else u.page? r := fun r => by
    unfold State.freeRecord
    have hlive : ((u.setPage w.target.record (some p1)).giveToPool p1.tiles).page? w.target.record = some p1 :=
      (State.page?_congr rfl _).trans ((State.page?_setPage_of_live hp _ _).trans (if_pos rfl))
    rw [State.page?_setPage_of_live hlive]
    split
    · rfl
    next hr => exact (State.page?_congr rfl r).trans ((State.page?_setPage_of_live hp _ r).trans (if_neg hr))
  refine ⟨?_, fun r q hr hq => ?_⟩
  · exact (State.page?_reresolve _ p1.pageId _).1.mpr ((hset _).trans (if_pos rfl))
  · exact (State.page?_reresolve _ p1.pageId r).2 q ((hset r).trans ((if_neg hr).trans hq))

/-- A freed record's bindings are resolved anew (R129, R130). -/
theorem State.freed_reresolves {s u t : State} {w : StoreWrite} {p p1 : PageRecord}
    (hp : u.page? w.target.record = some p) (hreleasing : p.state = .releasing) (hpages : u.pages = s.pages)
    (hschedule : u.schedule = s.schedule) (ht : t.schedule = (u.freed w p1).schedule)
    (htpages : t.pages = (u.freed w p1).pages) (hscreener : t.screener = (u.freed w p1).screener) :
    s.Reresolves t p1.pageId := by
  refine ((State.freeRecord (u.setPage w.target.record (some p1)) w.target.record p1).reresolve_reresolves p1.pageId).congr
    (by simp [hschedule]) (fun h => ?_) ht htpages hscreener
  have huses : u.UsesWf := h.keep (.of_pages hpages) (by rw [hschedule])
  have hunused := huses.not_current hp (by simp [PageRecord.current, hreleasing])
  have hset : (u.setPage w.target.record none).UsesWf := huses.setUnused hunused fun q hq => by cases hq
  refine hset.keep (.of_pages ?_) (by simp)
  simp [State.freeRecord, State.setPage, State.giveToPool]

/-- A completion after which a RESTART finishes leaves no record (R171). -/
theorem State.page?_finished {x : State} (h : x.finishIfDue ≠ x) (r : Nat) : x.finishIfDue.page? r = none := by
  rcases x.finishIfDue_cases with ⟨heq, -⟩ | ⟨k, -, -, heq⟩
  · exact absurd heq h
  · rw [heq]
    exact State.page?_of_cleared (x.finishRestart_tables k).2.2.1 r

/-- Settles O13: the page table's part of the completion frees the record; the arbiter's choice and the finish of a held
RESTART follow. -/
theorem lastWriteFreesReleasingRecord : Obligations.LastWriteFreesReleasingRecord := by
  intro s ref w p hserv hw htile hp hreleasing hpending finishes
  obtain ⟨u, hu⟩ : ∃ u, u = s.beginStep.landed ref w := ⟨_, rfl⟩
  obtain ⟨-, -, -, hupages, hustore, -, huscreener, huschedule, -, hurestart, -, -, -⟩ := s.beginStep.landed_same ref w
  rw [← hu] at hupages hustore huscreener huschedule hurestart
  have hup : u.page? w.target.record = some p := (State.page?_congr hupages _).trans hp
  obtain ⟨p1, hp1⟩ : ∃ p1, p1 = p.completed w (u.store.retired.contains w.tile) := ⟨_, rfl⟩
  have hnote : u.noteCompletion w (ref == .repair) = (u.freed w p1).evalFlag := by
    rw [State.noteCompletion_eq _ hup hp1 rfl, if_pos hreleasing, if_pos (by rw [hp1]; exact (congrArg (· - 1) hpending))]
    rfl
  have hexec := exec_storeWriteCompletion hserv hw htile
  have hframe := (State.CompletionFrame.freed u w p1).arbitrate
  rw [← hu, hnote] at hexec
  rw [hu] at hframe
  obtain ⟨hslots, hslots', -, hstays, hfinished, hretired, hqueue, -, -⟩ := hframe.settled
  rw [← hu] at hslots hslots' hstays hfinished hretired hqueue hframe
  obtain ⟨hgone, hothers⟩ := State.page?_freed (p1 := p1) hup
  obtain ⟨x, hx⟩ : ∃ x, x = (u.freed w p1).evalFlag.arbitrate := ⟨_, rfl⟩
  have hxpages : x.pages = (u.freed w p1).pages := by simp [hx]
  have hxschedule : x.schedule = (u.freed w p1).schedule := by simp [hx]
  have hxscreener : x.screener = (u.freed w p1).screener := by simp [hx]
  have hxpool : x.store.poolOut = (u.freed w p1).store.poolOut := by simp [hx]
  have hid : p1.pageId = p.pageId := by rw [hp1]; rfl
  have htiles : p1.tiles = p.tiles := by rw [hp1, PageRecord.completed_tiles]
  rw [← hx] at hexec hstays hfinished hretired hqueue hslots hslots' hframe
  refine ⟨_, hexec, ?_, fun hn => ?_, fun k hk ho hsweep => hfinished k false hk ho hsweep (by simp), hslots,
    fun hr => ⟨(hslots' hr).1, (hslots' hr).2, fun hd => ?_⟩, hretired, hqueue⟩
  · refine (State.page?_congr (s := x.finishIfDue) (by simp) _).trans ?_
    by_cases hsame : x.finishIfDue = x
    · rw [hsame]
      exact (State.page?_congr hxpages _).trans hgone
    · exact State.page?_finished hsame _
  · rw [hstays hn]
    refine ⟨?_, ?_, ?_, fun r q hr hq => ?_⟩
    · simp [hframe.same.2.2.2, hurestart]
    · simp only [State.settle_same, hxpool]
      simp [State.freed, State.freeRecord, State.giveToPool, htiles, hustore]
    · rw [← hid]
      exact State.freed_reresolves hup hreleasing hupages huschedule (by simp [hxschedule]) (by simp [hxpages])
        (by simp [hxscreener])
    · obtain ⟨n, hn⟩ := hothers r q hr ((State.page?_congr hupages r).trans hq)
      exact ⟨n, (State.page?_congr (by simp [hxpages]) r).trans hn⟩
  · have hidle : u.repair.engine = .idle := by
      rw [hu]
      exact ((s.beginStep.landed_writes ref w).2 hr).2.2 hd
    simpa using hframe.engine hidle

/-! ## The segment is received (R11, R54, R71) -/

/-- The write that has landed is that of a reconstruction in progress exactly where it was before (R71). -/
theorem State.rebuilds_landed (s : State) (ref : WriteRef) (w : StoreWrite) :
    (s.landed ref w).rebuilds (ref == .repair) = true ↔ ref = .repair ∧ ∃ x i, s.repair.engine = .writing x i := by
  rw [State.rebuilds_iff, beq_iff_eq]
  refine and_congr_right fun hr => ?_
  subst hr
  have hengine : (s.landed .repair w).repair.engine = match s.repair.engine with
      | .draining => .idle
      | .writing t i => .writing t i
      | .reading t i k a => .reading t i k a
      | .idle => .idle := rfl
  rw [hengine]
  cases s.repair.engine <;> simp

/-- The rest of the block stands at the page table's part of a completion, whatever the record. -/
theorem State.noteCompletion_frame {u : State} {w : StoreWrite} {p : PageRecord} {l : LayerRecord} (byRepair : Bool)
    (hp : u.page? w.target.record = some p) (hl : p.layer? w.target.layer = some l) :
    State.CompletionFrame u (u.noteCompletion w byRepair) := by
  by_cases hf : p.state = .releasing ∧ p.pendingWrites ≤ 1
  · have hzero : (p.completed w (u.store.retired.contains w.tile)).pendingWrites = 0 := Nat.sub_eq_zero_of_le hf.2
    rw [State.noteCompletion_eq byRepair hp rfl rfl, if_pos hf.1, if_pos hzero]
    exact .freed u w _
  · obtain ⟨v, p2, m, hv, hnoted⟩ := State.noteCompletion_noted byRepair hp hl hf
    rw [hv]
    exact hnoted.frame_derived _

/-- What the completion makes of the layer, ahead of the evaluation (R11, R12, R54). -/
theorem LayerRecord.completed_spec (l : LayerRecord) (item : Item) (releasing retired : Bool) :
    (l.completed item releasing retired).length = l.length ∧ (l.completed item releasing retired).tileMap = l.tileMap ∧
    (l.completed item releasing retired).state = l.state ∧
    (∀ i, item = .segment i →
      (∀ j, j ∈ (l.completed item releasing retired).pending ↔ j ∈ l.pending ∧ j ≠ i) ∧
      (∀ j, j ∈ (l.completed item releasing retired).received ↔
        j ∈ l.received ∨ (j = i ∧ releasing = false ∧ retired = false)) ∧
      (l.completed item releasing retired).parityPending = l.parityPending ∧
      (l.completed item releasing retired).parityHeld = l.parityHeld) ∧
    (item = .parity → (l.completed item releasing retired).parityPending = false ∧
      (l.completed item releasing retired).pending = l.pending ∧
      (l.completed item releasing retired).received = l.received ∧
      (l.completed item releasing retired).parityHeld = if releasing then l.parityHeld else !retired) := by
  cases item with
  | parity => exact ⟨rfl, rfl, rfl, fun i hi => (by cases hi), fun _ => ⟨rfl, rfl, rfl, rfl⟩⟩
  | segment i =>
    refine ⟨rfl, rfl, rfl, fun i' hi => ?_, fun h => (by cases h)⟩
    cases hi
    refine ⟨fun j => ?_, fun j => ?_, rfl, rfl⟩
    · simp [LayerRecord.completed, dropValue]
    · cases releasing <;> cases retired <;> simp [LayerRecord.completed, mem_insertRising, or_comm]

/-- Settles O12: the completion is noted in the record and its layer, the record's state is derived with the arming that
follows, and the arbiter's choice, the finish of a held RESTART and the end of the event touch none of it. -/
theorem writeCompletionReceivesSegment : Obligations.WriteCompletionReceivesSegment := by
  intro s ref w p l hserv hw htile hlen hp hl lands rebuilt finishes
  obtain ⟨u, hu⟩ : ∃ u, u = s.beginStep.landed ref w := ⟨_, rfl⟩
  obtain ⟨-, -, hucause, hupages, hustore, -, huscreener, huschedule, hudrive, hurestart, hureports, hustraps, -⟩ :=
    s.beginStep.landed_same ref w
  rw [← hu] at hucause hupages hustore huscreener huschedule hudrive hurestart hureports hustraps
  have hup : u.page? w.target.record = some p := (State.page?_congr hupages _).trans hp
  have huretired : u.store.retired = s.store.retired := by rw [hustore]; rfl
  have hrebuilds : u.rebuilds (ref == .repair) = true ↔ rebuilt := by
    rw [hu]
    exact s.beginStep.rebuilds_landed ref w
  have hexec := exec_storeWriteCompletion hserv hw htile
  have hframe := (State.noteCompletion_frame (ref == .repair) hup hl).arbitrate
  have hnoted := State.noteCompletion_noted (ref == .repair) hup hl
  obtain ⟨x, hx⟩ : ∃ x, x = (u.noteCompletion w (ref == .repair)).arbitrate := ⟨_, rfl⟩
  rw [← hu, ← hx] at hexec
  rw [← hx, hu] at hframe
  obtain ⟨hslots, hslots', hdram, hstays, hfinished, hretired, hqueue, hscreener, hframer⟩ := hframe.settled
  rw [← hu] at hframe
  obtain ⟨hbytes, hcode, hrest⟩ := s.store.dram.written_spec (slotNumber w.tile w.slot) hlen
  refine ⟨_, hexec, hslots, hslots', ?_, ?_, ?_, fun hn => ?_, fun hn hf => ?_, fun k hk ho hsweep hf => ?_,
    fun hr hcase => ?_, fun hopened => ?_, hretired, hqueue, hscreener, hframer⟩
  · rw [hdram]
    exact hbytes
  · rw [hdram]
    exact hcode
  · rw [hdram]
    exact hrest
  · rw [hstays hn]
    simp [hframe.same.2.2.2, hurestart]
  · rw [hstays hn]
    obtain ⟨v, p2, m, hv, hc⟩ := hnoted hf
    rw [hv] at hx
    obtain ⟨hstate, hcount, huse⟩ := hc.record
    obtain ⟨hlength, hmap, hlstate, hsegment, hparity⟩ :=
      l.completed_spec w.item (p.state == .releasing) (u.store.retired.contains w.tile)
    have hvpage := (hc.page w.target.record).trans (if_pos rfl)
    have hpage : ∀ r, (s.beginStep.settle x).page? r
        = if r = w.target.record then some p2.afterDerivation else s.page? r := fun r => by
      rw [State.page?_congr (s := v.derivePage w.target.record) (by simp [hx]), State.page?_derivePage, hvpage, hc.page]
      split
      · rfl
      · exact State.page?_congr hupages r
    have hlands : (p.state == .releasing) = false ∧ u.store.retired.contains w.tile = false ↔ lands := by
      simp [lands, huretired]
    have hvframe := hc.frame
    have hvschedule : v.schedule = s.schedule := by rw [hvframe]; exact huschedule
    have hvdrive : v.drive = s.beginStep.drive := by rw [hvframe]; exact hudrive
    have hclosed : p2.closed = p.closed := by rw [PageRecord.closed, PageRecord.closed, hstate]
    have hlayer : p2.afterDerivation.layer? w.target.layer = some m := (PageRecord.layer?_afterDerivation _ _).trans hc.layer
    obtain ⟨st, hm⟩ : ∃ st, m = { (l.completed w.item (p.state == .releasing) (u.store.retired.contains w.tile)) with
      state := st } := ⟨_, hc.same⟩
    subst hm
    have hxreports : (v.derivePage w.target.record).reports.growsTo x.reports := hx ▸ State.arbitrate_growsTo _
    refine ⟨p2.afterDerivation, _, (hpage _).trans (if_pos rfl), hlayer, by simp [hcount], by simp [huse], hlength, hmap,
      fun i hi => ?_, fun hi => ?_, fun hopen => ?_, fun hcl => ⟨?_, fun hr hmiss => ?_, fun hnr => ?_⟩, fun hne hcd => ?_, ?_,
      fun r hr => (hpage r).trans (if_neg hr), ?_⟩
    · obtain ⟨h1, h2, h3, h4⟩ := hsegment i hi
      exact ⟨h1, fun j => (h2 j).trans (by rw [hlands]), h3, h4⟩
    · obtain ⟨h1, h2, h3, h4⟩ := hparity hi
      refine ⟨h1, h2, h3, fun hland => ?_, fun hland => ?_⟩
      · obtain ⟨ha, hb⟩ := hlands.mpr hland
        exact h4.trans (by rw [ha, hb]; rfl)
      · refine h4.trans ?_
        by_cases hrel : p.state = .releasing
        · simp [hrel]
        · have hret : u.store.retired.contains w.tile = true := by
            by_contra hc
            exact hland (hlands.mp ⟨by simp [hrel], by simpa using hc⟩)
          rw [hret, if_neg (by simpa using hrel), if_neg hrel]
          rfl
    · rw [PageRecord.afterDerivation_of_open (hclosed.trans hopen)]
      exact ⟨hstate, (hc.kept hopen).1.trans hlstate⟩
    · exact PageRecord.afterDerivation_derives (hclosed.trans hcl)
    · obtain ⟨h1, h2⟩ := hc.repaired hcl (hrebuilds.mpr hr) hmiss
      refine ⟨h1, State.settle_countsOnce ?_⟩
      have hcounts := (Reports.touches_trans
        (Reports.touches_mono (cs' := [.unpackFaults]) (as' := [.pageDamaged, .unpackFault])
          (v.derivePage_touches w.target.record) (by simp) (by simp))
        (Reports.touches_mono (as' := [.pageDamaged, .unpackFault])
          (State.arbitrate_touches (v.derivePage w.target.record)) (by simp) (by simp))).1 .layersRepaired (by simp) (by simp)
      rw [hx, Reports.countsOnce, hcounts]
      rw [hureports] at h2
      exact h2
    · have hevaluated := hc.evaluated hcl fun h => hnr ⟨hrebuilds.mp h.1, h.2⟩
      rw [← hlstate]
      exact hevaluated
    · have hreport := State.derivePage_pageReport hvpage (by rw [hstate]; exact hne) hcd
      refine State.reportsFirst_settle (u := v) ?_ ?_ (Reports.growsTo_trans hreport hxreports)
      · rw [State.laneAs, hc.lane, hureports]
        exact ⟨rfl, rfl, rfl, rfl⟩
      · rw [hx]
        simp only [State.arbitrate_same, State.derivePage_same]
        rw [hvframe]
        exact hustraps
    · have hrearms := State.derivePage_rearms hvpage
      rw [hstate] at hrearms
      refine hrearms.congr hvschedule.symm (by rw [hvdrive]; rfl) (by rw [hvdrive]; rfl) (by simp [hx]) (by simp [hx])
        (by simp [hx]) (fun _ => Iff.rfl) (by rw [hvdrive]; rfl) ?_
      rw [State.settle_same .. |>.2.2.2.2.2.2.2.2.2.2.1, hx]
      exact (State.arbitrate_goesOn _).hold
    · simp only [State.settle_same, hx, State.arbitrate_store, State.derivePage_same]
      rw [hvframe, hustore]
      rfl
  · refine hfinished k s.intake.reserveCause hk ho hsweep fun hl => ?_
    obtain ⟨v, p2, m, hv, hc⟩ := hnoted hf
    rw [hx, hv]
    simp only [State.arbitrate_same, State.derivePage_same]
    rw [hc.frame]
    exact hucause.trans hl
  · rcases hcase with hd | ⟨hcl, hrb⟩
    · have hidle : u.repair.engine = .idle := by
        rw [hu]
        exact ((s.beginStep.landed_writes ref w).2 hr).2.2 hd
      simpa using hframe.engine hidle
    · obtain ⟨v, p2, m, hv, hc⟩ := hnoted fun h => by simp [PageRecord.closed, h.1] at hcl
      have hidle := hc.engine (.inr ⟨hcl, hrebuilds.mpr hrb⟩)
      have hderived : (v.derivePage w.target.record).repair.engine = .idle := by simpa using hidle
      rw [hv] at hx
      have hxidle : x.repair.engine = .idle := by
        rcases (v.derivePage w.target.record).arbitrate_repair with e | e <;> rw [hx, e]
        exact hderived
      simpa using hxidle
  · have hcl : p.closed = false := by simp [PageRecord.closed, hopened]
    obtain ⟨v, p2, m, hv, hc⟩ := hnoted fun h => by simp [hopened] at h
    have hclosed : p2.closed = false := by rw [PageRecord.closed, hc.record.1]; exact hcl
    rw [hv, State.derivePage_of_open ((hc.page _).trans (if_pos rfl)) hclosed] at hx
    have hvframe := hc.frame
    refine ⟨?_, fun hn hread => ?_⟩
    · simp only [State.settle_same, State.finishIfDue_same, hx, State.arbitrate_same]
      rw [hvframe]
      exact huschedule
    · have hvstore : v.store = u.store := by rw [hvframe]
      have hquiet := (v.arbitrate_noRetired (by rw [hvstore, hustore]; exact hread)).1
      rw [← hx, (hc.kept hcl).2, hureports] at hquiet
      rw [hstays hn, State.settle_quiet ?_ (by rw [hquiet]), hquiet]
      rw [hx, (State.arbitrate_same v).2.2.2.1, hvframe, hu]
      cases ref <;> rfl

end Sys2Proof.Machine
end

section
/-! PROOFS. A read that fails its check (R48 to R53), with what its layer and its requester make of it (R12, R72, R92). -/

namespace Sys2Proof.Machine

open Sys2Proof (Byte Instr DramFault)

/-! ## With a plate in context, no event offers the drive a ticket -/

theorem DriveState.busy_of_inContext {d : DriveState} (h : d.inContext = true) : d ≠ .idle ∧ d ≠ .waitPlate := by
  cases d <;> simp [DriveState.inContext] at h ⊢

section

variable {s : State} (h : s.drive.state.inContext = true)

include h

theorem State.rearm_inContext (f : Ticket → Bool) :
    (s.rearm f).drive = s.drive ∧ (s.rearm f).prefetch = s.prefetch := by
  unfold State.rearm
  split
  · exact ⟨rfl, rfl⟩
  · obtain ⟨hidle, hwait⟩ := DriveState.busy_of_inContext h
    rw [State.offer_of_busy (s := { s with schedule := s.armedSchedule f }) hidle hwait]
    exact ⟨rfl, rfl⟩

theorem State.derivePage_inContext (r : Nat) :
    (s.derivePage r).drive = s.drive ∧ (s.derivePage r).prefetch = s.prefetch := by
  unfold State.derivePage
  split
  · exact ⟨rfl, rfl⟩
  · split
    · exact ⟨rfl, rfl⟩
    next p _ _ =>
      unfold State.pageChanged
      dsimp only
      split
      · have hrearm := State.rearm_inContext (s := (((s.setPage r (some { p with state := p.derived })).report
          (PageRecord.report { p with state := p.derived } r)).noteDamage r { p with state := p.derived }))
          (by simpa using h) fun t => t.resolvedTo r
        simpa using hrearm
      · have hrearm := State.rearm_inContext (s := s.setPage r (some { p with state := p.derived }))
          (by simpa using h) fun t => t.resolvedTo r
        simpa using hrearm

theorem State.evaluationEvent_inContext (t : LayerRef) :
    (s.evaluationEvent t).drive = s.drive ∧ (s.evaluationEvent t).prefetch = s.prefetch := by
  have hderive := State.derivePage_inContext (s := s.evaluateLayer t) (by simpa using h) t.record
  simpa [State.evaluationEvent] using hderive

theorem State.leavePlace_inContext (tile : Nat) :
    (s.leavePlace tile).drive = s.drive ∧ (s.leavePlace tile).prefetch = s.prefetch := by
  unfold State.leavePlace
  split
  next t k _ =>
    have hevent := State.evaluationEvent_inContext (t := t)
      (s := s.modifyPage t.record fun p => p.modifyLayer t.layer fun l => l.afterRetirement k) (by simpa using h)
    simpa using hevent
  · simp

end

/-! ## The retirement (R51, R53) -/

theorem State.retireTile_latched (s : State) (tile : Nat) :
    s.retireTile tile = { (s.withRetired tile).leavePlace tile with reports := (s.retireTile tile).reports } ∧
    (s.retireTile tile).reports.latched .tileRetired = true ∧
    (s.degradedThreshold ≤ (insertRising tile s.store.retired).length →
      (s.retireTile tile).reports.latched .storeDegraded = true) := by
  have hretired : (((s.withRetired tile).leavePlace tile).latch .tileRetired).retiredCount
      = (insertRising tile s.store.retired).length := by
    simp [State.retiredCount, State.withRetired]
  have hthreshold : (((s.withRetired tile).leavePlace tile).latch .tileRetired).degradedThreshold = s.degradedThreshold := by
    simp [State.degradedThreshold, State.tileCount, State.withRetired]
  rw [State.retireTile_eq]
  dsimp only
  rw [hretired, hthreshold]
  split
  next hle =>
    refine ⟨rfl, ?_, fun _ => Reports.latch_latched _ _ _ (.inl rfl)⟩
    exact Reports.latch_latched _ _ _ (.inr (Reports.latch_latched _ _ _ (.inl rfl)))
  next hle => exact ⟨rfl, Reports.latch_latched _ _ _ (.inl rfl), fun h => absurd h hle⟩

/-- The layer that has lost the tile of a tile-map slot (R12). -/
theorem LayerRecord.afterRetirement_spec (l : LayerRecord) (n : Nat) :
    (l.afterRetirement n).tileMap = l.tileMap.set n none ∧ (l.afterRetirement n).length = l.length ∧
    (l.afterRetirement n).pending = l.pending ∧ (l.afterRetirement n).parityPending = l.parityPending ∧
    (l.afterRetirement n).state = l.state ∧
    (n ≠ 16 → (∀ i, i ∈ (l.afterRetirement n).received ↔ i ∈ l.received ∧ i / 16 ≠ n) ∧
      (l.afterRetirement n).parityHeld = l.parityHeld) ∧
    (n = 16 → (l.afterRetirement n).received = l.received ∧ (l.afterRetirement n).parityHeld = false) := by
  refine ⟨rfl, rfl, rfl, rfl, rfl, fun hn => ?_, fun hn => ?_⟩
  · simp [LayerRecord.afterRetirement, hn]
  · simp [LayerRecord.afterRetirement, hn]

/-- The state of a layer after the retirement of its tile, evaluated where its page is closed. -/
def LayerRecord.retiredFrom (l : LayerRecord) (n : Nat) (closed : Bool) : LayerRecord :=
  if closed then (l.afterRetirement n).reevaluated else l.afterRetirement n

/-- The record after the retirement of a layer's tile, ahead of the derivation (R12, R51). -/
def PageRecord.retiredFrom (p : PageRecord) (id : LayerId) (n : Nat) : PageRecord :=
  (p.modifyLayer id fun l => l.afterRetirement n).afterEvaluation id

theorem PageRecord.retiredFrom_spec {p : PageRecord} {id : LayerId} {l : LayerRecord} (hl : p.layer? id = some l) (n : Nat) :
    (p.retiredFrom id n).layer? id = some (l.retiredFrom n p.closed) ∧ (p.retiredFrom id n).state = p.state := by
  have hmodified : (p.modifyLayer id fun l => l.afterRetirement n).layer? id = some (l.afterRetirement n) := by
    rw [PageRecord.layer?_modifyLayer p id id (fun l => l.afterRetirement n) fun _ => rfl, if_pos rfl, hl]
    rfl
  refine ⟨?_, (PageRecord.afterEvaluation_same _ id).1⟩
  unfold LayerRecord.retiredFrom
  split
  next hc => exact PageRecord.layer?_afterEvaluation hc hmodified
  next hc =>
    have hopen : (p.modifyLayer id fun l => l.afterRetirement n).closed = false := Bool.eq_false_iff.mpr hc
    simp [PageRecord.retiredFrom, PageRecord.afterEvaluation, hmodified, hopen]

/-- A mapped tile leaves its layer: the record is derived, and the arming it bears on evaluated (R12, R51, R66). -/
theorem State.leavePlace_mapped {s : State} {tile : Nat} {ref : LayerRef} {n : Nat} {p : PageRecord}
    (hplace : s.placeOf tile = some (ref, n)) (hp : s.page? ref.record = some p) :
    (∀ r, (s.leavePlace tile).page? r
      = if r = ref.record then some (p.retiredFrom ref.layer n).afterDerivation else s.page? r) ∧
    s.Rearms (s.leavePlace tile) fun x =>
      (p.retiredFrom ref.layer n).afterDerivation.state ≠ p.state ∧ ∃ z ∈ x.resolutions, z.record = ref.record := by
  have hmodified := State.page?_modifyPage s ref.record ref.record
    fun p => p.modifyLayer ref.layer fun l => l.afterRetirement n
  rw [if_pos rfl, hp] at hmodified
  have hleave : s.leavePlace tile = (s.modifyPage ref.record
      fun p => p.modifyLayer ref.layer fun l => l.afterRetirement n).evaluationEvent ref := by
    unfold State.leavePlace
    rw [hplace]
  rw [hleave]
  refine ⟨fun r => ?_, ?_⟩
  · rw [State.evaluationEvent, State.page?_derivePage, State.page?_evaluateLayer, if_pos rfl, hmodified]
    by_cases hr : r = ref.record
    · rw [if_pos hr, if_pos hr]
      rfl
    · rw [if_neg hr, if_neg hr, State.page?_evaluateLayer, if_neg hr, State.page?_modifyPage, if_neg hr]
  · exact (State.evaluationEvent_rearms hmodified).congr (by simp) (by simp) (by simp) rfl rfl rfl (fun _ => Iff.rfl) (by simp)
      (.of_eq rfl)

/-- A tile that no record maps leaves the free pool alone (R51). -/
theorem State.leavePlace_unmapped {s : State} {tile : Nat} (h : tile ∉ s.mapped) : s.leavePlace tile = s.evalFlag := by
  unfold State.leavePlace
  rw [State.placeOf_none h]

theorem State.leavePlace_intake (s : State) (tile : Nat) :
    (s.leavePlace tile).intake.queue = s.intake.queue ∧ (s.leavePlace tile).intake.slots = s.intake.slots := by
  unfold State.leavePlace
  split <;> simp

/-! ## The requester's answer, with a plate in context and a full pool (R92, R94) -/

@[simp] theorem State.primeTest_plate (s : State) :
    s.primeTest.drive.plate = s.drive.plate ∧ s.primeTest.drive.pool = s.drive.pool := by
  unfold State.primeTest
  split
  · split <;> exact ⟨rfl, rfl⟩
  all_goals exact ⟨rfl, rfl⟩

theorem State.countStoreFault_plate {s : State} {pl : Plate} {j : PrefetchJob} (hp : s.drive.plate = some pl)
    (hj : s.prefetch.job = some j) (n : Nat) :
    (s.countStoreFault n).drive.plate = some { pl with summary := { pl.summary with
      storeFaults := pl.summary.storeFaults + (if j.firstSerial ≤ n ∧ n ∉ j.storeFaulted then 1 else 0) } } := by
  unfold State.countStoreFault
  rw [hj]
  dsimp only
  split
  · simp [State.modifySummary, hp]
  · exact hp

theorem PrefetchJob.setSlot_faults (j : PrefetchJob) (side : Side) (ps : PageSlot) :
    (j.setSlot side ps).firstSerial = j.firstSerial ∧ (j.setSlot side ps).storeFaulted = j.storeFaulted := by
  cases side <;> exact ⟨rfl, rfl⟩

/-- A PICTURE capture that a cut leaves with a row still to be made (R94). -/
def Stream.holdsPicture (u : Stream) (kind : LayerKind) : Bool :=
  kind == .picture && u.cut.isNone && u.mode == .reading && decide (u.rows < u.rowCount)

/-- A failed read of a current capture with a full pool: the summary takes the capture held and the store fault. -/
theorem State.prefetchFailed_plate {s : State} {side : Side} {kind : LayerKind} {c : Capture} {u : Stream} {pl : Plate}
    {j : PrefetchJob} (hc : s.captureOf side kind = some c) (hu : c.stream? = some u) (hp : s.drive.plate = some pl)
    (hj : s.prefetch.job = some j) (hpool : 64 ≤ s.drive.pool.length) (position : Nat) :
    (s.prefetchFailed side kind c.serial position).drive.pool = s.drive.pool ∧
    (s.prefetchFailed side kind c.serial position).drive.plate = some { pl with summary := { pl.summary with
      storeFaults := pl.summary.storeFaults + (if j.firstSerial ≤ c.serial ∧ c.serial ∉ j.storeFaulted then 1 else 0)
      pictureHeld := pl.summary.pictureHeld
        + (if kind = .picture ∧ u.cut = none ∧ u.mode = .reading ∧ u.rows < u.rowCount then 1 else 0) } } := by
  obtain ⟨j', ps, hj', hslot, -⟩ := State.captureOf_some hc
  obtain rfl : j = j' := Option.some.inj (hj.symm.trans hj')
  have hset := State.setCapture_eq (kind := kind) hj hslot (c.withStream (u.cutAt position))
  obtain ⟨hfirst, hfaulted⟩ := j.setSlot_faults side (ps.setCapture kind (c.withStream (u.cutAt position)))
  obtain ⟨s1, hs1⟩ : ∃ s1, s1 = s.setCapture side kind (c.withStream (u.cutAt position)) := ⟨_, rfl⟩
  have hdrive : s1.drive = s.drive := by rw [hs1, hset]
  have hjob : s1.prefetch.job = some (j.setSlot side (ps.setCapture kind (c.withStream (u.cutAt position)))) := by
    rw [hs1, hset]
  have hiff : u.holdsPicture kind = true ↔ kind = .picture ∧ u.cut = none ∧ u.mode = .reading ∧ u.rows < u.rowCount := by
    simp [Stream.holdsPicture, and_assoc]
  obtain ⟨s2, hs2⟩ : ∃ s2, s2 = if u.holdsPicture kind then
    s1.modifySummary fun sm => { sm with pictureHeld := sm.pictureHeld + 1 } else s1 := ⟨_, rfl⟩
  obtain ⟨hpool2, hjob2, hplate2⟩ : s2.drive.pool = s.drive.pool ∧ s2.prefetch = s1.prefetch ∧
      s2.drive.plate = some { pl with summary := { pl.summary with pictureHeld := pl.summary.pictureHeld
        + (if kind = .picture ∧ u.cut = none ∧ u.mode = .reading ∧ u.rows < u.rowCount then 1 else 0) } } := by
    by_cases hh : u.holdsPicture kind = true
    · rw [hs2, if_pos hh, if_pos (hiff.mp hh)]
      simp [State.modifySummary, hdrive, hp]
    · rw [hs2, if_neg hh, if_neg fun h => hh (hiff.mpr h), hdrive]
      exact ⟨rfl, rfl, hp⟩
  have hfailed : s.prefetchFailed side kind c.serial position = (s2.countStoreFault c.serial).prefetchEvent := by
    unfold State.prefetchFailed
    simp only [hc, hu, if_true]
    rw [← hs1, hs2]
    rfl
  rw [hfailed, State.prefetchEvent_of_full (by simpa [hpool2] using hpool), (State.primeTest_plate _).1,
    (State.primeTest_plate _).2, State.countStoreFault_pool, State.countStoreFault_plate hplate2 (by rw [hjob2]; exact hjob),
    hfirst, hfaulted]
  exact ⟨hpool2, rfl⟩

/-! ## The event -/

/-- The completion of a read that fails is one event (R49, R51). -/
theorem exec_failedRead {s : State} {r : StoreRead} {faults : List DramFault} {k : Nat}
    (hserv : s.store.inService = some (.read r)) (ht : r.tile < s.tileCount) (hk : k ∈ r.slots)
    (hfails : s.store.dram.slotPasses r.tile k faults = false) :
    exec (.storeReadCompletion faults) s = .next (s.beginStep.settle
      ((State.retireTile { s.beginStep with store := { s.store with inService := none } } r.tile).deliverFailure r).arbitrate) := by
  have hread : s.beginStep.readFails r faults = true := by
    rw [State.readFails, List.any_eq_true]
    exact ⟨k, hk, by simpa using hfails⟩
  show execStoreReadCompletion faults s = _
  unfold execStoreReadCompletion
  rw [hserv]
  refine (if_pos ht).trans ?_
  have hcomplete : s.beginStep.completeRead r faults = ((State.retireTile
      { s.beginStep with store := { s.beginStep.store with inService := none } } r.tile).deliverFailure r).arbitrate :=
    if_pos hread
  exact congrArg (fun u => Host.Outcome.next (s.beginStep.settle u)) hcomplete

/-- A passed check names the slot and the bytes that the code was written for (R48). -/
theorem SlotCell.passes_written {m n : Nat} {written bytes : List Byte} (hw : written.length = 256) (hb : bytes.length = 256)
    (h : (⟨bytes, checkCodeAt m written⟩ : SlotCell).passes n = true) : m = n ∧ bytes = written := by
  have hcode : checkCodeAt m written = checkCodeAt n bytes :=
    Eq.symm (by simpa [SlotCell.passes] using h)
  obtain ⟨hmn, hbytes⟩ := checkCodeAt_inj (hw.trans hb.symm) hcode
  exact ⟨hmn, hbytes.symm⟩

/-- A tile that a layer maps stands in that tile-map slot and nowhere else (R44). -/
theorem State.StoreWf.placeOf {s : State} (h : s.StoreWf) {tile : Nat} (ht : tile < s.tileCount) {ref : LayerRef}
    {p : PageRecord} {l : LayerRecord} {n : Nat} (hp : s.page? ref.record = some p) (hl : p.layer? ref.layer = some l)
    (hn : l.tileAt n = some tile) : s.placeOf tile = some (ref, n) := by
  have hmem : tile ∈ s.mapped := List.mem_flatMap.mpr ⟨(ref.record, p), (State.mem_liveRecords s _ _).mpr hp,
    List.mem_flatMap.mpr ⟨l, (PageRecord.layer?_id hl).2, (LayerRecord.mem_tiles hn).1⟩⟩
  have hplaces := h.onePlace tile ht
  have hcount := List.count_pos_iff.mpr hmem
  refine State.placeOf_of_mapped ?_ hp hl hn
  unfold State.places at hplaces
  omega

/-- Settles O14: the tile is retired, its layer answers for it, and so does the requester; the arbiter then chooses. -/
theorem failedReadRetiresTile : Obligations.FailedReadRetiresTile := by
  refine ⟨fun m n written bytes hw hb h => SlotCell.passes_written hw hb h, ?_⟩
  intro s r faults k hwf hserv htile hk hfails
  have hexec := exec_failedRead hserv htile hk hfails
  obtain ⟨s0, hs0⟩ : ∃ s0 : State, s0 = { s.beginStep with store := { s.store with inService := none } } := ⟨_, rfl⟩
  rw [← hs0] at hexec
  obtain ⟨w, hw⟩ : ∃ w, w = (s0.withRetired r.tile).leavePlace r.tile := ⟨_, rfl⟩
  obtain ⟨hz, hretired, hdegraded⟩ := s0.retireTile_latched r.tile
  rw [← hw] at hz
  obtain ⟨z, hzdef⟩ : ∃ z, z = s0.retireTile r.tile := ⟨_, rfl⟩
  rw [← hzdef] at hz hretired hdegraded hexec
  have hwstore : w.store = (s0.withRetired r.tile).store := by simp [hw]
  have hzstore : z.store = (s0.withRetired r.tile).store := by rw [hz]; exact hwstore
  obtain ⟨x, hx⟩ : ∃ x, x = (z.deliverFailure r).arbitrate := ⟨_, rfl⟩
  rw [← hx] at hexec
  have htouches : z.reports.touches x.reports [.unpackFaults] [.unpackFault] := by
    rw [hx]
    exact Reports.touches_trans (z.deliverFailure_touches r) (State.arbitrate_touches _)
  have hxstore : x.store.retired = z.store.retired ∧ x.store.poolOut = z.store.poolOut ∧ x.store.dram = z.store.dram := by
    simp [hx]
  obtain ⟨hxpages, hxschedule, hxscreener, hxintake, hxframer⟩ : x.pages = w.pages ∧ x.schedule = w.schedule ∧
      x.screener = w.screener ∧ x.intake = w.intake ∧ x.framer = w.framer := by
    rw [hx]
    simp only [State.arbitrate_same, State.deliverFailure_same]
    rw [hz]
    exact ⟨rfl, rfl, rfl, rfl, rfl⟩
  have hxhold : w.drive.sameHold x.drive := by
    have hgoes := (State.deliverFailure_goesOn z r).trans (State.arbitrate_goesOn _)
    rw [← hx] at hgoes
    have hzdrive : z.drive = w.drive := by rw [hz]
    exact hzdrive ▸ hgoes.hold
  have hpages0 : ∀ r', (s0.withRetired r.tile).page? r' = s.page? r' := fun r' => State.page?_congr (by rw [hs0]; rfl) r'
  have hmapped0 : (s0.withRetired r.tile).mapped = s.mapped := by rw [hs0]; rfl
  refine ⟨_, hexec, ?_, ?_, ?_, ?_, fun hle => ?_, fun ref p l n hp hl hn => ?_, fun hnot => ?_, fun hreq => ?_,
    fun side kind serial c u pl j hreq hc hserial hu hctx hplate hjob hside hpool => ?_, ?_, ?_, ?_, ?_⟩
  · simp only [State.settle_same, hxstore, hzstore]
    rw [hs0]
    rfl
  · simp only [State.settle_same, hxstore, hzstore]
    rw [hs0]
    rfl
  · simp only [State.settle_same, hxstore, hzstore]
    rw [hs0]
    rfl
  · rw [State.settle_latched, htouches.2.1 _ (by simp) (by simp)]
    exact hretired
  · rw [State.settle_latched, htouches.2.1 _ (by simp) (by simp)]
    exact hdegraded (by rw [hs0]; exact hle)
  · have hplace : (s0.withRetired r.tile).placeOf r.tile = some (ref, n) := by
      rw [← hwf.placeOf htile hp hl hn, hs0]
      rfl
    obtain ⟨hpage, hrearms⟩ := State.leavePlace_mapped hplace ((hpages0 _).trans hp)
    obtain ⟨hlayer, hstate⟩ := PageRecord.retiredFrom_spec hl n
    rw [← hw] at hpage hrearms
    have hpage' : ∀ r', (s.beginStep.settle x).page? r'
        = if r' = ref.record then some (p.retiredFrom ref.layer n).afterDerivation else s.page? r' := fun r' => by
      rw [State.page?_congr (s := w) (by simp [hxpages]), hpage, hpages0]
    have hclosed : (p.retiredFrom ref.layer n).closed = p.closed := by rw [PageRecord.closed, PageRecord.closed, hstate]
    obtain ⟨hmap, hlength, hpending, hparity, hlstate, hdata, hpar⟩ := l.afterRetirement_spec n
    obtain ⟨st, hst⟩ : ∃ st, l.retiredFrom n p.closed = { l.afterRetirement n with state := st } := by
      unfold LayerRecord.retiredFrom
      split
      · exact ⟨_, (l.afterRetirement n).evaluatedAs_reevaluated.1⟩
      · exact ⟨_, rfl⟩
    refine ⟨⟨(p.retiredFrom ref.layer n).afterDerivation, l.retiredFrom n p.closed, (hpage' _).trans (if_pos rfl),
      (PageRecord.layer?_afterDerivation _ _).trans hlayer, ?_, ?_, ?_, ?_, fun h => ?_, fun h => ?_, fun hopen => ?_,
      fun hcl => ⟨PageRecord.afterDerivation_derives (hclosed.trans hcl), ?_⟩, ?_⟩, fun r' hr' => (hpage' r').trans (if_neg hr')⟩
    · rw [hst]; exact hmap
    · rw [hst]; exact hlength
    · rw [hst]; exact hpending
    · rw [hst]; exact hparity
    · rw [hst]; exact hdata h
    · rw [hst]; exact hpar h
    · rw [PageRecord.afterDerivation_of_open (hclosed.trans hopen), LayerRecord.retiredFrom, hopen]
      exact ⟨hstate, hlstate⟩
    · rw [LayerRecord.retiredFrom, hcl, if_pos rfl]
      have hevaluated := (l.afterRetirement n).evaluatedAs_reevaluated
      have hbefore : { (l.afterRetirement n).reevaluated with state := l.state } = l.afterRetirement n := by
        rw [hevaluated.1, ← hlstate]
      rw [hbefore]
      exact hevaluated
    · exact hrearms.congr (by rw [hs0]; rfl) (by rw [hs0]; rfl) (by rw [hs0]; rfl) (by simp [hxschedule]) (by simp [hxpages])
        (by simp [hxscreener]) (fun _ => Iff.rfl) (by rw [hs0]; rfl) (by simpa using hxhold)
  · have hflag : w = (s0.withRetired r.tile).evalFlag := by
      rw [hw, State.leavePlace_unmapped (by rw [hmapped0]; exact hnot)]
    refine ⟨?_, fun r' => ?_⟩
    · simp only [State.settle_same, hxschedule, hflag, State.evalFlag_same]
      rw [hs0]
      rfl
    · rw [State.page?_congr (s := s) (by simp only [State.settle_same, hxpages, hflag, State.evalFlag_same]; rw [hs0]; rfl)]
  · have hidle : (z.deliverFailure r).repair.engine = .idle := by
      rw [State.deliverFailure, hreq]
      rfl
    have hxidle : x.repair.engine = .idle := by
      rcases (z.deliverFailure r).arbitrate_repair with e | e <;> rw [hx, e]
      exact hidle
    simpa using hxidle
  · subst hserial
    obtain ⟨hwdrive, hwprefetch⟩ := State.leavePlace_inContext (s := s0.withRetired r.tile) (by rw [hs0]; exact hctx) r.tile
    rw [← hw] at hwdrive hwprefetch
    have hzdrive : z.drive = s.beginStep.drive := by rw [hz, hs0] at *; exact hwdrive
    have hzprefetch : z.prefetch = s.prefetch := by rw [hz, hs0] at *; exact hwprefetch
    have hzc : z.captureOf side kind = some c := (State.captureOf_congr (by rw [hzprefetch]) side kind).trans hc
    have hdeliver : z.deliverFailure r = z.prefetchFailed side kind c.serial r.position := by
      rw [State.deliverFailure, hreq]
    have hquiet := (z.deliverFailure r).arbitrate_noRetired (by
      simp only [State.deliverFailure_same, hzstore]
      rw [hs0]
      simp [State.withRetired, hside])
    rw [← hx, hdeliver] at hquiet
    obtain ⟨-, -, hxprefetch, hxdrive⟩ := hquiet
    obtain ⟨hcapture, -⟩ := State.prefetchFailed_of_full hzc hu (by rw [hzdrive]; exact hpool) r.position
    obtain ⟨hpool', hplate'⟩ := State.prefetchFailed_plate hzc hu (by rw [hzdrive]; exact hplate) (by rw [hzprefetch]; exact hjob)
      (by rw [hzdrive]; exact hpool) r.position
    refine ⟨?_, ?_, ?_⟩
    · rw [State.captureOf_congr (s := z.prefetchFailed side kind c.serial r.position) (by simp [hxprefetch]), hcapture,
        Stream.cutAt_eq]
      rfl
    · simp only [State.settle_same, hxdrive, hpool', hzdrive]
      rfl
    · simp only [State.settle_same, hxdrive, hplate']
  · simp only [State.settle_same, hxintake, hw, State.leavePlace_intake]
    rw [hs0]
    rfl
  · simp only [State.settle_same, hxintake, hw, State.leavePlace_intake]
    rw [hs0]
    rfl
  · simp only [State.settle_same, hxframer, hw, State.leavePlace_same]
    rw [hs0]
    rfl
  · simp only [State.settle_same, hxscreener, hw, State.leavePlace_same]
    rw [hs0]
    rfl

end Sys2Proof.Machine
end

section
/-! PROOFS. A read that passes its check: what Prefetch makes of its bytes (R86, R90, R91). -/

namespace Sys2Proof.Machine

open Sys2Proof (Byte Instr DramFault)

/-! ## The unpacker goes on (R86, R91) -/

theorem PageSlot.goOn_capture (ps : PageSlot) (n : Nat) (kind : LayerKind) :
    (ps.goOn n).capture kind = ps.capture kind ∨ (ps.goOn n).capture kind = (ps.capture kind).goOn := by
  unfold PageSlot.goOn
  split
  · exact .inl rfl
  · cases kind with
    | line => exact .inr rfl
    | picture =>
      dsimp only [PageSlot.capture]
      split
      · exact .inl rfl
      · split
        · exact .inl rfl
        · exact .inr rfl

/-- A slot whose rows are all ready does not go on. -/
theorem PageSlot.goOn_of_ready {ps : PageSlot} {n : Nat} (h : ps.ready n = true) : ps.goOn n = ps := if_pos h

/-- Each slot of a line that can still be made goes on. -/
theorem PrefetchJob.goOn_slot {j : PrefetchJob} {pl : Plate} (h1 : pl.margin ≤ j.nextLine) (h2 : j.nextLine < pl.lineCount)
    (side : Side) : (j.goOn pl).slot side = (j.slot side).map fun ps => ps.goOn (j.nextLine - pl.margin) := by
  unfold PrefetchJob.goOn
  rw [if_neg (by omega)]
  cases side <;> rfl

theorem PrefetchJob.goOn_slot_cases (j : PrefetchJob) (pl : Plate) (side : Side) {ps : PageSlot}
    (h : j.slot side = some ps) :
    (j.goOn pl).slot side = some ps ∨ (j.goOn pl).slot side = some (ps.goOn (j.nextLine - pl.margin)) := by
  by_cases hl : pl.margin ≤ j.nextLine ∧ j.nextLine < pl.lineCount
  · rw [PrefetchJob.goOn_slot hl.1 hl.2, h]
    exact .inr rfl
  · rw [PrefetchJob.goOn, if_pos (by omega)]
    exact .inl h

/-- A capture goes on at most, and stands where the rows of its slot are ready. -/
theorem State.captureOf_prefetchGoOn {s : State} {side : Side} {kind : LayerKind} {c : Capture} {j : PrefetchJob}
    {ps : PageSlot} (hj : s.prefetch.job = some j) (hs : j.slot side = some ps) (hc : ps.capture kind = c) :
    (s.prefetchGoOn.captureOf side kind = some c ∨ s.prefetchGoOn.captureOf side kind = some c.goOn) ∧
      ∀ pl, s.drive.plate = some pl → ps.ready (j.nextLine - pl.margin) = true →
        s.prefetchGoOn.captureOf side kind = some c := by
  have hself : s.captureOf side kind = some c := by
    simp [State.captureOf, hj, hs, hc]
  cases hp : s.drive.plate with
  | none =>
    have hnone : s.prefetchGoOn = s := by simp [State.prefetchGoOn, hp, hj]
    rw [hnone]
    exact ⟨.inl hself, fun pl h => by cases h⟩
  | some pl =>
    have hgo : s.prefetchGoOn.captureOf side kind = ((j.goOn pl).slot side).map fun ps => ps.capture kind := by
      simp [State.prefetchGoOn, hp, hj, State.captureOf]
    rw [hgo]
    rcases j.goOn_slot_cases pl side hs with h | h
    · rw [h, Option.map_some, hc]
      exact ⟨.inl rfl, fun _ _ _ => rfl⟩
    · rw [h, Option.map_some]
      refine ⟨?_, fun pl' hpl hr => ?_⟩
      · rcases ps.goOn_capture (j.nextLine - pl.margin) kind with e | e
        · rw [e, hc]
          exact .inl rfl
        · rw [e, hc]
          exact .inr rfl
      · cases hpl
        rw [PageSlot.goOn_of_ready hr, hc]

theorem Capture.goOn_withStream {c : Capture} {u : Stream} (h : c.stream? = some u) (w : Stream) :
    (c.withStream w).goOn = c.withStream w.goOn := by
  unfold Capture.stream? at h
  unfold Capture.withStream
  split at h
  · cases h
  next v hv => rfl

/-! ## The stream of a passed read (R91) -/

/-- What a passed read makes of the stream it was issued for: its bytes join, and the unpacker goes on, or does not. -/
structure Stream.Received (u filled v : Stream) : Prop where
  arrived : v.arrived = filled.arrived ∧ v.issued = u.issued ∧ v.cut = none
  building : u.building = true → v.GoneOn
  finished : u.mode = .finished → v.rows = u.rows ∧ v.position = u.position ∧ v.buffer = []
  reading : u.mode ≠ .finished →
    (v.rows = u.rows ∧ v.ahead = u.ahead ∧ v.position = u.position ∧ v.buffer = filled.buffer) ∨
    (v.rows = u.rows ∧ v.ahead = u.ahead ∧ v.position = u.position + filled.buffer.length ∧ v.buffer = []) ∨
    (u.ahead = none ∧ ∃ row overrun rest, filled.Completes row overrun rest ∧
      v = { filled.afterRow row rest with ahead := some overrun })

theorem Stream.received_of {u f v : Stream} {arrived : Nat} {buffer : List Byte} (hcut : u.cut = none)
    (hf : f = { u with arrived, buffer := if u.mode == .finished then [] else buffer })
    (hv : v = f.goOn ∨ (u.building = false ∧ v = f)) : Stream.Received u { u with arrived, buffer } v := by
  have hcases : v = f ∨ (u.mode = .reading ∧ v = { f with
        buffer := [], position := f.position + f.buffer.length, placed := v.placed, op := v.op }) ∨
      (u.mode = .reading ∧ u.ahead = none ∧ ∃ row overrun rest, f.Completes row overrun rest ∧
        v = { f.afterRow row rest with ahead := some overrun }) := by
    rcases hv with rfl | ⟨-, rfl⟩
    · rcases f.goOn_cases with h | ⟨hm, -, h⟩ | ⟨hm, ha, h⟩
      · exact .inl h
      · exact .inr (.inl ⟨by rw [hf] at hm; exact hm, h⟩)
      · exact .inr (.inr ⟨by rw [hf] at hm; exact hm, by rw [hf] at ha; exact ha, h⟩)
    · exact .inl rfl
  have hfilled : u.mode ≠ .finished → f = { u with arrived, buffer } := fun hm => by
    rw [hf, if_neg (by simpa using hm)]
  refine ⟨?_, fun hb => ?_, fun hm => ?_, fun hm => ?_⟩
  · rcases hcases with rfl | ⟨-, h⟩ | ⟨-, -, row, overrun, rest, -, rfl⟩
    · rw [hf]
      exact ⟨rfl, rfl, hcut⟩
    · rw [h, hf]
      exact ⟨rfl, rfl, hcut⟩
    · rw [hf]
      exact ⟨rfl, rfl, hcut⟩
  · rcases hv with rfl | ⟨hn, -⟩
    · exact f.goOn_goneOn
    · rw [hb] at hn
      cases hn
  · rcases hcases with rfl | ⟨hr, -⟩ | ⟨hr, -⟩
    · rw [hf, if_pos (by simpa using hm)]
      exact ⟨rfl, rfl, rfl⟩
    · rw [hm] at hr
      cases hr
    · rw [hm] at hr
      cases hr
  · rw [hfilled hm] at hcases
    rcases hcases with rfl | ⟨-, h⟩ | ⟨-, ha, h⟩
    · exact .inl ⟨rfl, rfl, rfl, rfl⟩
    · rw [h]
      exact .inr (.inl ⟨rfl, rfl, rfl, rfl⟩)
    · exact .inr (.inr ⟨ha, h⟩)

/-- The bytes of a passed read join a stream that is not cut (R91). -/
theorem Stream.receive_eq {u : Stream} (hcut : u.cut = none) (data : List (List Byte)) :
    u.receive data = { u with
      arrived := u.arrived + data.length
      buffer := if u.mode == .finished then [] else
        u.buffer ++ (data.zipIdx.flatMap fun (d, i) => d.take (segmentLength u.length (u.arrived + i))) } := by
  unfold Stream.receive
  rw [hcut]
  rfl

/-! ## Prefetch and a passed read, with a full pool -/

/-- What a passed read of a current capture leaves, where the pool is full and no line can be made. -/
theorem State.prefetchPassed_of_full {s : State} {side : Side} {kind : LayerKind} {c : Capture} {u : Stream}
    {data : List (List Byte)} {bytes : List Byte} (hc : s.captureOf side kind = some c) (hu : c.stream? = some u)
    (hpool : 64 ≤ s.drive.pool.length)
    (hbytes : (data.zipIdx.flatMap fun (d, i) => d.take (segmentLength u.length (u.arrived + i))) = bytes) :
    (u.cut.isSome = true → (s.prefetchPassed side kind c.serial data).captureOf side kind = some c) ∧
    (u.cut = none →
      (∃ v, (s.prefetchPassed side kind c.serial data).captureOf side kind = some (c.withStream v) ∧
        Stream.Received u { u with arrived := u.arrived + data.length, buffer := u.buffer ++ bytes } v ∧
        (u.building = false → u.mode ≠ .finished → ∀ pl j ps, s.drive.plate = some pl → s.prefetch.job = some j →
          j.slot side = some ps → (ps.setCapture kind (c.withStream
            { u with arrived := u.arrived + data.length, buffer := u.buffer ++ bytes })).ready (j.nextLine - pl.margin)
              = true →
          v = { u with arrived := u.arrived + data.length, buffer := u.buffer ++ bytes })) ∧
      ∀ pl j sd ps, s.drive.plate = some pl → (s.prefetchPassed side kind c.serial data).prefetch.job = some j →
        pl.margin ≤ j.nextLine → j.nextLine < pl.lineCount → j.slot sd = some ps → ps.GoneOn (j.nextLine - pl.margin)) ∧
    (s.prefetchPassed side kind c.serial data).drive.pool = s.drive.pool ∧
    (s.prefetchPassed side kind c.serial data).drive.plate = s.drive.plate ∧
    (s.prefetchPassed side kind c.serial data).reports = s.reports := by
  have hpassed : s.prefetchPassed side kind c.serial data = if u.cut.isSome then s.prefetchEvent
      else (s.setCapture side kind (c.withStream (u.receive data).goOnBuilding)).prefetchGoOn.prefetchEvent := by
    unfold State.prefetchPassed
    simp only [hc, hu, if_true]
  obtain ⟨j, ps, hj, hs, -⟩ := State.captureOf_some hc
  by_cases hcut : u.cut.isSome = true
  · rw [hpassed, if_pos hcut, State.prefetchEvent_of_full hpool]
    refine ⟨fun _ => (State.captureOf_congr (State.primeTest_job s) side kind).trans hc,
      fun hn => by simp [hn] at hcut, (State.primeTest_plate s).2, (State.primeTest_plate s).1, by simp⟩
  · have hnone : u.cut = none := by simpa using hcut
    obtain ⟨w, hw⟩ : ∃ w, w = (u.receive data).goOnBuilding := ⟨_, rfl⟩
    have hset := State.setCapture_eq (kind := kind) hj hs (c.withStream w)
    obtain ⟨s1, hs1⟩ : ∃ s1, s1 = s.setCapture side kind (c.withStream w) := ⟨_, rfl⟩
    rw [← hw, ← hs1] at hpassed
    rw [← hs1] at hset
    have hfull : 64 ≤ s1.prefetchGoOn.drive.pool.length := by
      rw [(State.prefetchGoOn_same s1).2.2.2.2.2.2.2.2.2.1, hset]
      exact hpool
    rw [hpassed, if_neg hcut, State.prefetchEvent_of_full hfull]
    have hjob : s1.prefetch.job = some (j.setSlot side (ps.setCapture kind (c.withStream w))) := by rw [hset]
    have hplate : s1.drive.plate = s.drive.plate := by rw [hset]
    obtain ⟨hcapture, hready⟩ := State.captureOf_prefetchGoOn (kind := kind) hjob (PrefetchJob.slot_setSlot hs _)
      (PageSlot.capture_setCapture ps kind (c.withStream w))
    rw [Capture.goOn_withStream hu] at hcapture
    have hreceive := Stream.receive_eq hnone data
    rw [hbytes] at hreceive
    have hbuilding := u.receive_building data
    have hwgo : w.goOn = (u.receive data).goOn := by rw [hw, Stream.goOnBuilding_goOn]
    have hwcases : w = (u.receive data).goOn ∨ (u.building = false ∧ w = u.receive data) := by
      cases hb : u.building with
      | true => exact .inl (by rw [hw, Stream.goOnBuilding, if_pos (hbuilding.trans hb)])
      | false => exact .inr ⟨rfl, by rw [hw, Stream.goOnBuilding_of_not (hbuilding.trans hb)]⟩
    refine ⟨fun h => absurd h hcut, fun _ => ⟨?_, fun pl j' sd ps' hpl hj' h1 h2 hslot => ?_⟩, ?_, ?_, by simp [hset]⟩
    · have hprime : ∀ v, s1.prefetchGoOn.captureOf side kind = some (c.withStream v) →
          s1.prefetchGoOn.primeTest.captureOf side kind = some (c.withStream v) := fun v hv =>
        (State.captureOf_congr (State.primeTest_job _) side kind).trans hv
      have hstands : u.building = false → u.mode ≠ .finished → ∀ pl j ps, s.drive.plate = some pl →
          s.prefetch.job = some j → j.slot side = some ps → (ps.setCapture kind (c.withStream
            { u with arrived := u.arrived + data.length, buffer := u.buffer ++ bytes })).ready (j.nextLine - pl.margin)
              = true →
          w = { u with arrived := u.arrived + data.length, buffer := u.buffer ++ bytes } ∧
          s1.prefetchGoOn.captureOf side kind = some (c.withStream w) := fun hb hm pl j' ps' hpl hj' hs' hr => by
        obtain rfl : j = j' := Option.some.inj (hj.symm.trans hj')
        obtain rfl : ps = ps' := Option.some.inj (hs.symm.trans hs')
        have hfilled : w = { u with arrived := u.arrived + data.length, buffer := u.buffer ++ bytes } := by
          rw [hw, Stream.goOnBuilding_of_not (hbuilding.trans hb), hreceive, if_neg (by simpa using hm)]
        refine ⟨hfilled, hready pl (hplate.trans hpl) ?_⟩
        have hnext : (j.setSlot side (ps.setCapture kind (c.withStream w))).nextLine = j.nextLine := by
          cases side <;> rfl
        rw [hnext, hfilled]
        exact hr
      by_cases hsame : s1.prefetchGoOn.captureOf side kind = some (c.withStream w)
      · exact ⟨w, hprime w hsame, Stream.received_of hnone hreceive hwcases,
          fun hb hm pl j' ps' hpl hj' hs' hr => (hstands hb hm pl j' ps' hpl hj' hs' hr).1⟩
      · refine ⟨w.goOn, hprime _ (hcapture.resolve_left hsame), Stream.received_of hnone hreceive (.inl hwgo),
          fun hb hm pl j' ps' hpl hj' hs' hr => absurd (hstands hb hm pl j' ps' hpl hj' hs' hr).2 hsame⟩
    · have hgone : s1.prefetchGoOn.prefetch.job
          = some ((j.setSlot side (ps.setCapture kind (c.withStream w))).goOn pl) := by
        simp [State.prefetchGoOn, hplate, hpl, hjob]
      rw [State.primeTest_job, hgone] at hj'
      obtain rfl := Option.some.inj hj'
      rw [PrefetchJob.goOn_nextLine] at h1 h2 ⊢
      rw [PrefetchJob.goOn_slot h1 h2] at hslot
      obtain ⟨ps0, -, rfl⟩ := Option.map_eq_some_iff.mp hslot
      exact PageSlot.goOn_goneOn _ _
    · rw [(State.primeTest_plate _).2, (State.prefetchGoOn_same s1).2.2.2.2.2.2.2.2.2.1, hset]
    · rw [(State.primeTest_plate _).1, (State.prefetchGoOn_same s1).2.2.2.2.2.2.2.2.2.1, hset]

end Sys2Proof.Machine
end

section
/-! PROOFS. A read that passes its check: what Repair makes of its bytes (R69, R70), and the event. -/

namespace Sys2Proof.Machine

open Sys2Proof (Byte Instr DramFault)

/-! ## The event (R49) -/

/-- The bytes of a passed read are those that stand in its slots. -/
theorem State.readData_nil (s : State) (r : StoreRead) :
    s.readData r [] = r.slots.map fun n => s.store.dram.bytesAt (slotNumber r.tile n) := by
  simp [State.readData, Dram.bytesAt]

theorem exec_passedRead {s : State} {r : StoreRead} (hserv : s.store.inService = some (.read r))
    (ht : r.tile < s.tileCount) (hpass : ∀ n ∈ r.slots, s.store.dram.agrees (slotNumber r.tile n) = true) :
    exec (.storeReadCompletion []) s = .next (s.beginStep.settle
      (State.deliverData { s.beginStep with store := { s.beginStep.store with inService := none } } r
        (r.slots.map fun n => s.store.dram.bytesAt (slotNumber r.tile n))).arbitrate) := by
  have hread : ¬ s.beginStep.readFails r [] = true := by
    rw [State.readFails, List.any_eq_true]
    rintro ⟨n, hn, hf⟩
    rw [Dram.slotPasses_nil, Bool.not_eq_true'] at hf
    rw [show s.beginStep.store.dram.agrees (slotNumber r.tile n) = true from hpass n hn] at hf
    cases hf
  show execStoreReadCompletion [] s = _
  unfold execStoreReadCompletion
  rw [hserv]
  refine (if_pos ht).trans ?_
  have hcomplete : s.beginStep.completeRead r [] = (State.deliverData
      { s.beginStep with store := { s.beginStep.store with inService := none } } r (s.beginStep.readData r [])).arbitrate :=
    if_neg hread
  rw [State.readData_nil] at hcomplete
  exact congrArg (fun u => Host.Outcome.next (s.beginStep.settle u)) hcomplete

/-! ## Repair (R69, R70) -/

section

variable {s : State} {t : LayerRef} {l : LayerRecord} {index k : Nat} {acc : List Byte} {data : List (List Byte)}

/-- A data read is accumulated and the next read issued (R69). -/
theorem State.repairPassed_more (he : s.repair.engine = .reading t index k acc) (hl : s.layer? t = some l) (hk : k ≠ 16) :
    s.repairPassed data = State.queueRead
      { s with repair := { s.repair with engine := .reading t index (l.nextReadSlot (k + 1)) (xorSlots acc data) } }
      (l.repairRead (l.nextReadSlot (k + 1))) := by
  unfold State.repairPassed
  rw [he]
  dsimp only
  rw [hl]
  dsimp only
  rw [if_neg hk]

/-- The parity read ends the accumulation (R70). -/
theorem State.repairPassed_parity (he : s.repair.engine = .reading t index 16 acc) (hl : s.layer? t = some l) :
    s.repairPassed data = s.finishReconstruction t l index (xorSlots acc data) := by
  unfold State.repairPassed
  rw [he]
  dsimp only
  rw [hl]
  dsimp only
  rw [if_pos rfl]

/-- The reconstruction write of a rebuilt segment (R70). -/
def rebuiltWrite (t : LayerRef) (l : LayerRecord) (index tile : Nat) (acc : List Byte) : StoreWrite :=
  ⟨t, .segment index, tile, index % 16, acc.take (segmentLength (l.length.getD 0) index)⟩

/-- The state with the tile taken and the write in hand, ahead of the issue. -/
def State.rebuilding (s : State) (t : LayerRef) (l : LayerRecord) (index tile : Nat) (acc : List Byte) : State :=
  { s with
    store := { s.store with
      poolOut := if l.tileAt (index / 16) = none then insertRising tile s.store.poolOut else s.store.poolOut }
    repair := { s.repair with engine := .writing t index, write := some (rebuiltWrite t l index tile acc) } }

/-- A rebuilt segment that has a tile is written; the pool is evaluated where the tile is a new one (R70). -/
theorem State.finishReconstruction_placed {tile : Nat} (hr : rises s.store.poolOut = true)
    (htile : l.tileAt (index / 16) = some tile ∨
      (l.tileAt (index / 16) = none ∧ s.inPool tile = true ∧ ∀ v, v < tile → s.inPool v = false)) :
    s.finishReconstruction t l index acc = ((s.rebuilding t l index tile acc).noteIssue
        (rebuiltWrite t l index tile acc) (l.length.getD 0)).queueWrite .repair ∨
    s.finishReconstruction t l index acc = (((s.rebuilding t l index tile acc).noteIssue
        (rebuiltWrite t l index tile acc) (l.length.getD 0)).queueWrite .repair).evalFlag := by
  unfold State.finishReconstruction
  rcases htile with hat | ⟨hat, hlow⟩
  · left
    rw [hat]
    dsimp only
    unfold State.rebuilding
    rw [hat]
    rfl
  · right
    rw [hat, (State.lowestFree_iff hr tile).mpr hlow]
    dsimp only
    unfold State.rebuilding
    rw [hat]
    rfl

/-- A rebuilt segment without a tile is lost, and its layer is DAMAGED (R70). -/
theorem State.finishReconstruction_lost (hr : rises s.store.poolOut = true) (hat : l.tileAt (index / 16) = none)
    (hnone : ∀ v, s.inPool v = false) : s.finishReconstruction t l index acc = s.reconstructionFails t := by
  unfold State.finishReconstruction
  rw [hat, (State.lowestFree_none hr).mpr hnone]

end

/-- What a reconstruction that fails for want of a tile leaves (R70). -/
theorem State.reconstructionFails_spec (s : State) (t : LayerRef) :
    (s.reconstructionFails t).repair = { s.repair with engine := .idle } ∧
    (s.reconstructionFails t).store = s.store ∧ (s.reconstructionFails t).reports.latched .storeFull = true ∧
    s.reports.countsOnce (s.reconstructionFails t).reports .storeFullLosses ∧
    ∀ p l, s.page? t.record = some p → p.layer? t.layer = some l → p.closed = true →
      ∃ q, (s.reconstructionFails t).page? t.record = some q ∧ q.layer? t.layer = some { l with state := .damaged } ∧
        q.DerivesTo q.state := by
  obtain ⟨s1, hs1⟩ : ∃ s1, s1 = (s.latch .storeFull).count .storeFullLosses := ⟨_, rfl⟩
  obtain ⟨f, hf⟩ : ∃ f : PageRecord → PageRecord, f = fun p =>
    if p.closed then p.modifyLayer t.layer fun l => { l with state := .damaged } else p := ⟨_, rfl⟩
  obtain ⟨s2, hs2⟩ : ∃ s2, s2 = s1.modifyPage t.record f := ⟨_, rfl⟩
  have hfails : s.reconstructionFails t
      = State.derivePage { s2 with repair := { s2.repair with engine := .idle } } t.record := by
    rw [hs2, hf, hs1]
    rfl
  have hrepair : s2.repair = s.repair := by simp [hs2, hs1]
  have hstore : s2.store = s.store := by simp [hs2, hs1]
  have hreports : s2.reports = s1.reports := by simp [hs2]
  have htouches := State.derivePage_touches { s2 with repair := { s2.repair with engine := .idle } } t.record
  rw [hfails]
  refine ⟨?_, ?_, ?_, ?_, fun p l hp hl hc => ?_⟩
  · simp only [State.derivePage_same, hrepair]
  · simp only [State.derivePage_same, hstore]
  · rw [htouches.2.1 _ (by simp) (by simp)]
    show s2.reports.latched .storeFull = true
    rw [hreports, hs1]
    exact Reports.latch_latched s.reports _ _ (.inl rfl)
  · rw [Reports.countsOnce, htouches.1 _ (by simp) (by simp)]
    show s2.reports.counters.read .storeFullLosses = _
    rw [hreports, hs1]
    have hcount := (s.latch .storeFull).count_countsOnce .storeFullLosses
    rw [Reports.countsOnce, State.latch_reports, Reports.latch_read _ _ _ (by decide)] at hcount
    exact hcount
  · have hp1 : s1.page? t.record = some p := (State.page?_congr (by simp [hs1]) _).trans hp
    have hp2 : State.page? { s2 with repair := { s2.repair with engine := .idle } } t.record = some (f p) := by
      refine (State.page?_congr (s := s2) rfl _).trans ?_
      rw [hs2, State.page?_modifyPage, if_pos rfl, hp1]
      rfl
    have hfp : f p = p.modifyLayer t.layer fun l => { l with state := .damaged } := by rw [hf]; exact if_pos hc
    refine ⟨(f p).afterDerivation, ?_, ?_, PageRecord.afterDerivation_derives (by rw [hfp]; exact hc)⟩
    · rw [State.page?_derivePage, if_pos rfl, hp2]
      rfl
    · rw [PageRecord.layer?_afterDerivation, hfp, PageRecord.layer?_modifyLayer p t.layer t.layer
        (fun l => { l with state := .damaged }) fun _ => rfl, if_pos rfl, hl]
      rfl

/-- The slots of a passed read, each cut to its segment (R91). -/
theorem flatMap_zipIdx_map {α β γ : Type} (l : List α) (f : α → β) (g : β → Nat → List γ) :
    ((l.map f).zipIdx.flatMap fun (d, i) => g d i) = l.zipIdx.flatMap fun (n, i) => g (f n) i := by
  rw [List.zipIdx_map, List.flatMap_map]
  rfl

/-- Settles O15: the bytes reach their requester; Repair accumulates, writes or gives up, and Prefetch goes on. -/
theorem repairAccumulatesReads : Obligations.RepairAccumulatesReads := by
  intro s r hserv htile hpass hside
  have hexec := exec_passedRead hserv htile hpass
  obtain ⟨data, hdata⟩ : ∃ data, data = r.slots.map fun n => s.store.dram.bytesAt (slotNumber r.tile n) := ⟨_, rfl⟩
  obtain ⟨s0, hs0⟩ : ∃ s0 : State, s0 = { s.beginStep with store := { s.beginStep.store with inService := none } } := ⟨_, rfl⟩
  rw [← hs0, ← hdata] at hexec
  refine ⟨fun t l index k acc hreq he hl hwrites => ?_, fun side kind serial c u hreq hc hu hpool => ?_⟩
  · intro sum next payload
    have hdeliver : s0.deliverData r data = s0.repairPassed data := by rw [State.deliverData, hreq]
    have hs0e : s0.repair = s.repair := by rw [hs0]; rfl
    have hs0l : s0.layer? t = some l := by rw [hs0]; exact hl
    have hs0pool : s0.store.poolOut = s.store.poolOut := by rw [hs0]; rfl
    have hsum : xorSlots acc data = sum := by rw [hdata]
    rw [hdeliver] at hexec
    refine ⟨fun hk hnot => ?_, fun tile hk hrises hlen hplace => ?_, fun hk hrises hat hnone => ?_⟩
    · have hmore := State.repairPassed_more (data := data) (by rw [hs0e]; exact he) hs0l hk
      rw [hsum] at hmore
      obtain ⟨y, hy⟩ : ∃ y : State, y = State.queueRead { s0 with repair := { s0.repair with
        engine := .reading t index next sum } } (l.repairRead next) := ⟨_, rfl⟩
      rw [hmore, ← hy] at hexec
      have hfirst := State.arbitrate_read_first (s := y) (r := l.repairRead next) (rs := [])
        (by rw [hy, hs0]; rfl) (by rw [hy, hs0]; exact congrArg (· ++ [l.repairRead next]) hside)
        (.inl (by rw [hy, hs0]; exact hwrites)) (by rw [hy, hs0]; exact hnot)
      rw [hfirst, State.settle_quiet (by rw [hy, hs0]; rfl) (by rw [hy, hs0]; rfl)] at hexec
      refine ⟨_, hexec, ?_⟩
      rw [hy, hs0]
      exact ⟨rfl, rfl, rfl, rfl, rfl, rfl, rfl, rfl⟩
    · subst hk
      have hparity := State.repairPassed_parity (data := data) (by rw [hs0e]; exact he) hs0l
      rw [hsum] at hparity
      obtain ⟨w, hw⟩ : ∃ w, w = rebuiltWrite t l index tile sum := ⟨_, rfl⟩
      obtain ⟨b, hb⟩ : ∃ b, b = s0.rebuilding t l index tile sum := ⟨_, rfl⟩
      obtain ⟨y, hy⟩ : ∃ y, y = s0.finishReconstruction t l index sum := ⟨_, rfl⟩
      obtain ⟨hystore, hyrepair, hypages⟩ : y.store = { b.store with writeSide := b.store.writeSide ++ [.repair] } ∧
          y.repair = b.repair ∧ y.pages = (b.noteIssue w (l.length.getD 0)).pages := by
        rcases s0.finishReconstruction_placed (t := t) (l := l) (index := index) (acc := sum) (tile := tile)
          (by rw [hs0pool]; exact hrises) (by rw [hs0]; exact hplace) with h | h
        · rw [hy, h, hw, hb]
          simp
        · rw [hy, h, hw, hb]
          simp
      rw [hparity, ← hy] at hexec
      have hfirst := State.arbitrate_write_first (s := y) (w := .repair) (ws := []) (by rw [hystore, hb, hs0]; rfl)
        (by rw [hystore, hb, hs0]; exact congrArg (· ++ [WriteRef.repair]) hwrites) (.inl (by rw [hystore, hb, hs0]; exact hside))
      have hpages : ∀ r', (s.beginStep.settle y.arbitrate).page? r' = (b.noteIssue w (l.length.getD 0)).page? r' :=
        State.page?_congr (by simp [hypages])
      have htarget : w.target = t ∧ w.item = .segment index ∧ w.tile = tile := by
        rw [hw]
        exact ⟨rfl, rfl, rfl⟩
      have hpayload : sum.take (segmentLength (l.length.getD 0) index) = payload := by
        obtain ⟨n, hn⟩ := Option.isSome_iff_exists.mp hlen
        simp only [payload, segmentLength, LayerRecord.segments, hn, Option.getD_some]
      refine ⟨_, hexec, ?_, ?_, ?_, ?_, fun p hp => ?_, ?_, ?_⟩
      · rw [hfirst]
        simp only [State.settle_same, hyrepair, hb]
        rfl
      · rw [hfirst]
        simp
      · rw [hfirst]
        simp only [State.settle_same, hyrepair, hb, State.rebuilding, rebuiltWrite, hpayload]
      · rw [hfirst]
        simp only [State.settle_same, hystore, hb, State.rebuilding, hs0pool]
      · have hlayer : p.layer? t.layer = some l := by
          have := hl
          rw [State.layer?, hp] at this
          exact this
        have hbp : b.page? t.record = some p := by
          rw [← hp, hb, hs0]
          rfl
        have hissued := PageRecord.issued_layer hlayer (w := w) (by rw [htarget.1]) (l.length.getD 0)
        rw [htarget.2.1, htarget.2.2] at hissued
        refine ⟨_, _, (hpages _).trans ?_, ?_, fun hc => ?_, hissued, fun i => ?_, rfl, ?_⟩
        · rw [State.page?_noteIssue, htarget.1, if_pos rfl, hbp]
          rfl
        · simp
          rfl
        · have hne : p.state ≠ .opened ∧ p.current = true := by
            unfold PageRecord.closed at hc
            unfold PageRecord.current
            constructor <;> cases hst : p.state <;> simp_all
          rw [PageRecord.issued_state hne.2, if_neg hne.1]
        · simp [LayerRecord.issued, mem_insertRising, or_comm]
        · cases hat : l.tileAt (index / 16) <;> simp [LayerRecord.issued, Item.mapSlot, hat]
      · rw [hfirst]
        simp only [State.settle_same, hyrepair, hb, State.rebuilding, hs0e]
      · rw [hfirst]
        simp only [State.settle_same, hystore, hb, State.rebuilding]
        rw [hs0]
        rfl
    · subst hk
      have hparity := State.repairPassed_parity (data := data) (by rw [hs0e]; exact he) hs0l
      rw [hsum, State.finishReconstruction_lost (by rw [hs0pool]; exact hrises) hat
        (by rw [hs0]; exact hnone)] at hparity
      obtain ⟨hrepair, hstore, hlatched, hcount, hrecord⟩ := s0.reconstructionFails_spec t
      have hidle : (s0.reconstructionFails t).arbitrate = s0.reconstructionFails t :=
        State.arbitrate_idle (by rw [hstore, hs0]; exact hwrites) (by rw [hstore, hs0]; exact hside)
      rw [hparity, hidle] at hexec
      refine ⟨_, hexec, ?_, ?_, ?_, ?_, State.settle_countsOnce ?_, fun p hp hc => ?_⟩
      · simp only [State.settle_same, hrepair, hs0e]
      · simp only [State.settle_same, hstore]
        rw [hs0]
      · simp only [State.settle_same, hstore, hs0pool]
      · rw [State.settle_latched]
        exact hlatched
      · rw [hs0] at hcount ⊢
        exact hcount
      · have hlayer : p.layer? t.layer = some l := by
          have := hl
          rw [State.layer?, hp] at this
          exact this
        obtain ⟨q, hq, hql, hqd⟩ := hrecord p l (by rw [hs0]; exact hp) hlayer hc
        exact ⟨q, (State.page?_congr (by simp) _).trans hq, hql, hqd⟩
  · intro bytes filled
    have hdeliver : s0.deliverData r data = s0.prefetchPassed side kind serial data := by rw [State.deliverData, hreq]
    have hs0c : s0.captureOf side kind = some c := by rw [hs0]; exact hc
    have hs0d : s0.drive = s.beginStep.drive := by rw [hs0]
    have hlength : data.length = r.slots.length := by rw [hdata, List.length_map]
    have hbytes : (data.zipIdx.flatMap fun (d, i) => d.take (segmentLength u.length (u.arrived + i))) = bytes := by
      rw [hdata]
      exact flatMap_zipIdx_map r.slots _ fun (d : List Byte) i => d.take (segmentLength u.length (u.arrived + i))
    obtain ⟨y, hy⟩ : ∃ y, y = s0.prefetchPassed side kind serial data := ⟨_, rfl⟩
    rw [hdeliver, ← hy] at hexec
    obtain ⟨hreports, -, hprefetch, hdrive⟩ := y.arbitrate_noRetired (by
      rw [hy, (State.prefetchPassed_same s0 side kind serial data).2.2.2.2.2.1, hs0]
      simp [hside])
    have hother : c.serial ≠ serial → y = s0 := fun hne => by
      rw [hy]
      unfold State.prefetchPassed
      rw [hs0c]
      exact if_neg hne
    have hfull : c.serial = serial → _ := fun heq => by
      have h := State.prefetchPassed_of_full (bytes := bytes) hs0c hu (by rw [hs0d]; exact hpool) hbytes
      rw [heq, ← hy, hlength] at h
      exact h
    have hyreports : y.reports = s.beginStep.reports := by
      by_cases heq : c.serial = serial
      · rw [(hfull heq).2.2.2.2, hs0]
      · rw [hother heq, hs0]
    have hypool : y.drive.pool = s.drive.pool := by
      by_cases heq : c.serial = serial
      · rw [(hfull heq).2.2.1, hs0d]
        rfl
      · rw [hother heq, hs0d]
        rfl
    have hcapture : ∀ o, y.captureOf side kind = o → (s.beginStep.settle y.arbitrate).captureOf side kind = o :=
      fun o ho => (State.captureOf_congr (by simp [hprefetch]) side kind).trans ho
    refine ⟨_, hexec, fun hne => ?_, fun heq hcut => hcapture _ ((hfull heq).1 hcut), fun heq hcut => ?_,
      fun heq hcut pl j sd ps hpl hj h1 h2 hslot => ?_, ?_, ?_, ?_, ?_, ?_, ?_, ?_⟩
    · have hsame : (s.beginStep.settle y.arbitrate).prefetch = y.prefetch := by simp [hprefetch]
      rw [hsame, hother hne, hs0]
      rfl
    · obtain ⟨⟨v, hv, hreceived, hstands⟩, -⟩ := (hfull heq).2.1 hcut
      refine ⟨v, hcapture _ hv, hreceived.arrived.1, hreceived.arrived.2.1, hreceived.arrived.2.2, hreceived.building,
        fun hb hm pl j ps hpl hj hs hr => hstands hb hm pl j ps (by rw [hs0d]; exact hpl) (by rw [hs0]; exact hj) hs hr,
        hreceived.finished, hreceived.reading⟩
    · refine ((hfull heq).2.1 hcut).2 pl j sd ps ?_ ?_ h1 h2 hslot
      · rw [← (hfull heq).2.2.2.1, ← hdrive]
        simpa using hpl
      · rw [← hprefetch]
        simpa using hj
    · simp only [State.settle_same, hdrive, hypool]
    · simp only [State.settle_same, State.arbitrate_same, hy, State.prefetchPassed_same]
      rw [hs0]
      rfl
    · simp only [State.settle_same, State.arbitrate_store, hy, State.prefetchPassed_same]
      rw [hs0]
      rfl
    · simp only [State.settle_same, State.arbitrate_store, hy, State.prefetchPassed_same]
      rw [hs0]
      rfl
    · simp only [State.settle_same, State.arbitrate_store, hy, State.prefetchPassed_same]
      rw [hs0]
      rfl
    · simp only [State.settle_same, State.arbitrate_same, hy, State.prefetchPassed_same]
      rw [hs0]
      rfl
    · rw [State.settle_quiet ?_ (by rw [hreports, hyreports]), hreports, hyreports]
      simp only [State.arbitrate_same, hy, State.prefetchPassed_same]
      rw [hs0]

end Sys2Proof.Machine
end

section
/-! PROOFS. The making of one line as a command of its own (R86, R98 to R100, R152). -/

namespace Sys2Proof.Machine

open Sys2Proof (Byte Instr)

/-! ## The line (R98 to R100) -/

/-- A dot of the gutter is off. -/
theorem plateDot_gutter (pl : Plate) (tb : ScreenTable) (curve : List Byte) (l r : Option SlotRows) (y : Nat) {x : Nat}
    (h1 : pl.left.width ≤ x) (h2 : x < pl.left.width + pl.gutter) : plateDot pl tb curve l r y x = false := by
  unfold plateDot
  rw [if_neg (by omega)]
  split
  · rfl
  · rw [if_neg (by omega)]

/-- A dot beyond the content is off. -/
theorem plateDot_beyond (pl : Plate) (tb : ScreenTable) (curve : List Byte) (l r : Option SlotRows) (y : Nat) {x : Nat}
    (h : contentWidth pl.left.width pl.gutter (pl.right.map (·.width)) ≤ x) : plateDot pl tb curve l r y x = false := by
  unfold plateDot contentWidth at *
  cases hr : pl.right with
  | none =>
    rw [hr] at h
    dsimp only [Option.map_none] at h
    rw [if_neg (Nat.not_lt.mpr h)]
  | some page =>
    rw [hr] at h
    dsimp only [Option.map_some] at h
    rw [if_neg (by omega)]
    exact if_neg (by omega)

/-! ## The prime test (R152) -/

/-- The drive's state after the prime test. -/
theorem State.primeTest_state {s : State} {pl : Plate} {j : PrefetchJob} (hp : s.drive.plate = some pl)
    (hj : s.prefetch.job = some j) :
    s.primeTest.drive.state = if s.drive.state = .priming ∧
        (s.drive.settings.prime ≤ s.drive.pool.length ∨ pl.lineCount ≤ j.nextLine) then .imaging else s.drive.state := by
  unfold State.primeTest
  rw [hp, hj]
  dsimp only
  split <;> rfl

/-! ## A margin line (R98) -/

theorem PageSlot.GoesOn.refl (ps : PageSlot) : ps.GoesOn ps := ⟨rfl, .refl _, .refl _⟩

/-- A margin line is made of no rows: the slots go on at most. -/
theorem State.makeLine_margin {s : State} {pl : Plate} {j : PrefetchJob} (hp : s.drive.plate = some pl)
    (hj : s.prefetch.job = some j) (hm : j.nextLine < pl.margin) :
    s.makeLine.drive = { s.drive with pool := s.drive.pool ++ [marginLine pl], plate := some pl } ∧
    s.makeLine.reports = s.reports ∧
    ∃ j', s.makeLine.prefetch.job = some j' ∧
      j' = { j with nextLine := j.nextLine + 1, left := j'.left, right := j'.right } ∧ j.left.GoesOn j'.left ∧
      (j.right = none → j'.right = none) ∧ ∀ ps, j.right = some ps → ∃ ps', j'.right = some ps' ∧ ps.GoesOn ps' := by
  have hmake : s.makeLine = s.placeLine pl { j with nextLine := j.nextLine + 1 } pl.summary (marginLine pl) := by
    unfold State.makeLine
    rw [hp, hj]
    exact if_pos hm
  rw [hmake]
  refine ⟨rfl, rfl, _, rfl, ?_⟩
  obtain ⟨left, right, hgo, hleft, hright⟩ := PrefetchJob.goOn_cases { j with nextLine := j.nextLine + 1 } pl
  rw [hgo]
  refine ⟨rfl, ?_, fun hn => ?_, fun ps hps => ?_⟩
  · rcases hleft with rfl | rfl
    · exact .refl _
    · exact PageSlot.goOn_goesOn _ _
  · rcases hright with rfl | rfl
    · exact hn
    · exact congrArg (Option.map _) hn
  · rcases hright with rfl | rfl
    · exact ⟨ps, hps, .refl _⟩
    · exact ⟨_, congrArg (Option.map _) hps, PageSlot.goOn_goesOn _ _⟩

/-! ## The command -/

theorem exec_makeLine {s : State} (h : s.canMakeLine = true) :
    exec .makeLine s = .next (s.beginStep.settle s.beginStep.makeLine.primeTest) := if_pos h

/-- Settles O44: a margin line is made of no rows and an image line of those of its slots; the prime test follows. -/
theorem makeLineFillsPool : Obligations.MakeLineFillsPool := by
  intro s pl j hp hj hc
  have hexec := exec_makeLine hc
  have htouches := State.makeLine_touches s.beginStep
  obtain ⟨y, hy⟩ : ∃ y, y = s.beginStep.makeLine := ⟨_, rfl⟩
  rw [← hy] at hexec htouches
  obtain ⟨hsame, hintake⟩ : (y.pages = s.pages ∧ y.store = s.store ∧ y.schedule = s.schedule ∧ y.screener = s.screener) ∧
      y.intake = s.intake := by
    simp [hy]
  have hfinal : ∀ (line : Line) (sm : Summary) (j' : PrefetchJob),
      y.drive = { s.beginStep.drive with pool := s.drive.pool ++ [line], plate := some { pl with summary := sm } } →
      y.prefetch.job = some j' → j'.nextLine = j.nextLine + 1 →
      (s.beginStep.settle y.primeTest).drive.pool = s.drive.pool ++ [line] ∧
      (s.beginStep.settle y.primeTest).drive.plate = some { pl with summary := sm } ∧
      (s.beginStep.settle y.primeTest).prefetch.job = some j' ∧
      (s.beginStep.settle y.primeTest).drive.state = (if s.drive.state = .priming ∧
          (s.drive.settings.prime ≤ (s.beginStep.settle y.primeTest).drive.pool.length ∨ pl.lineCount ≤ j.nextLine + 1)
        then .imaging else s.drive.state) := fun line sm j' hdrive hjob hnext => by
    have hstate := State.primeTest_state (s := y) (by rw [hdrive]) hjob
    rw [hdrive, hnext] at hstate
    simp only [State.settle_same, (State.primeTest_plate y).1, (State.primeTest_plate y).2, hdrive, State.primeTest_job, hjob]
    exact ⟨trivial, trivial, trivial, hstate⟩
  have hquiet : y.reports = s.beginStep.reports → (s.beginStep.settle y.primeTest).reports = s.beginStep.reports :=
    fun h => by
      rw [State.settle_quiet (by simp [hintake]) (by simp [h])]
      simp [h]
  have htail : s.reports.touches (s.beginStep.settle y.primeTest).reports [.unpackFaults] [.unpackFault] :=
    State.settle_touches (by rw [State.primeTest_reports]; exact htouches)
  by_cases hm : j.nextLine < pl.margin
  · obtain ⟨hdrive, hreports, j', hjob, hj', hleft, hnone, hright⟩ := State.makeLine_margin (s := s.beginStep) hp hj hm
    rw [← hy] at hdrive hreports hjob
    obtain ⟨hpool, hplate, hjob', hstate⟩ := hfinal (marginLine pl) pl.summary j' hdrive hjob (by rw [hj'])
    refine ⟨_, hexec, marginLine pl, j', pl.summary, hpool, length_marginLine pl, hplate, hjob', hj',
      fun _ => ⟨getD_marginLine pl, rfl, hquiet hreports, hleft, hnone, hright⟩, fun h => absurd hm (by omega), htail,
      fun x _ _ => getD_marginLine pl x, fun x _ => getD_marginLine pl x, hstate, ?_⟩
    simp [hsame, hintake]
  · obtain ⟨gl, gr, j', hjob, hj', hleft, hnone, hright, hdrive, hreports⟩ :=
      State.makeImageLine_makes s.beginStep pl j (Nat.le_of_not_lt hm)
    have himage : y = s.beginStep.makeImageLine pl j := by
      rw [hy, State.makeLine, show s.beginStep.drive.plate = some pl from hp, show s.beginStep.prefetch.job = some j from hj]
      exact if_neg hm
    rw [← himage] at hjob hdrive hreports
    obtain ⟨hpool, hplate, hjob', hstate⟩ := hfinal _ _ j' hdrive hjob (by rw [hj'])
    obtain ⟨hcount, hlatch⟩ := State.unpackFaults_counts (gl.faults + gr.faults) s.beginStep
    rw [← hreports] at hcount hlatch
    refine ⟨_, hexec, _, j', _, hpool, length_imageLine .., hplate, hjob', hj', fun h => absurd h hm,
      fun _ => ⟨gl, gr, hleft, hnone, hright, rfl, rfl, fun h0 => hquiet ?_, fun hpos => ⟨?_, ?_⟩⟩, htail,
      fun x h1 h2 => ?_, fun x h1 => ?_, hstate, ?_⟩
    · rw [hreports, h0]
      rfl
    · rw [State.settle_latched, State.primeTest_reports]
      exact hlatch (.inl hpos)
    · rw [(State.settle_reports _ _).2.2.2, State.primeTest_reports]
      exact hcount hpos
    · rw [getD_imageLine, plateDot_gutter pl _ _ _ _ _ h1 h2, Bool.and_false]
    · rw [getD_imageLine, plateDot_beyond pl _ _ _ _ _ h1, Bool.and_false]
    · simp [hsame, hintake]

end Sys2Proof.Machine
end

section
/-! PROOFS. A plate that comes into context is that of the eligible ticket, with the context R150 gives (R137, R148, R150). -/

namespace Sys2Proof.Machine

open Sys2Proof (Byte Instr DramFault)

/-! ## The drive without a plate, and the plate in context -/

/-- The drive has no plate in context. -/
def State.Vacant (s : State) : Prop := s.drive.state.inContext = false

/-- A plate in context is that of an IMAGING ticket of the schedule, with PLATE_READY high (R137, R150). -/
def State.PlateStands (t : State) : Prop :=
  t.drive.state.inContext = true → t.drive.plateReady = true ∧
    ∃ x q, x ∈ t.schedule ∧ x.state = .imaging ∧ t.drive.plate = some q ∧ t.ContextOf x q

theorem State.Vacant.of_drive {s t : State} (h : s.Vacant) (hd : t.drive = s.drive) : t.Vacant := by
  rw [State.Vacant, hd]
  exact h

/-- Prefetch and the arbiter bring no plate into context. -/
theorem State.Vacant.goOn {s t : State} (h : s.Vacant) (hd : s.drive.goesOn t.drive) : t.Vacant := by
  obtain ⟨-, -, hstate⟩ := hd.hold
  rw [State.Vacant, (hstate h).1]
  exact h

theorem State.Vacant.stands {s : State} (h : s.Vacant) : s.PlateStands := fun hc => by
  rw [State.Vacant, hc] at h
  cases h

namespace State.PlateStands

variable {s t : State}

/-- An operation that leaves the drive brings no plate into context. -/
theorem of_drive (h : s.Vacant) (hd : t.drive = s.drive) : t.PlateStands := (h.of_drive hd).stands

/-- The work of Prefetch and of the arbiter leaves the plate in context, but for the counts of its summary. -/
theorem goOn (h : s.PlateStands) (hd : s.drive.goesOn t.drive)
    (hsame : (t.pages, t.schedule, t.screener) = (s.pages, s.schedule, s.screener)) : t.PlateStands := by
  simp only [Prod.mk.injEq] at hsame
  obtain ⟨hpages, hschedule, hscreener⟩ := hsame
  intro hc
  by_cases hs : s.drive.state.inContext = true
  · obtain ⟨hready, x, q, hx, himaging, hq, hcontext⟩ := h hs
    obtain ⟨sm, hplate, hclipped⟩ := hd.plate q hq
    have hpage : ∀ r, t.page? r = s.page? r := State.page?_congr hpages
    exact ⟨hd.ready.trans hready, x, _, by rw [hschedule]; exact hx, himaging, hplate,
      hcontext.congr (fun r p hp => ⟨p, (hpage r).trans hp, rfl, rfl⟩) (by rw [hscreener]) hd.settings rfl hclipped⟩
  · exact (State.Vacant.goOn (Bool.eq_false_iff.mpr hs) hd).stands hc

/-- What is stated of the plate does not read what an operation changes. -/
theorem frame (h : s.PlateStands)
    (hsame : (t.drive, t.pages, t.schedule, t.screener) = (s.drive, s.pages, s.schedule, s.screener)) : t.PlateStands :=
  h.goOn (.of_eq (Prod.mk.inj hsame).1) (Prod.mk.inj hsame).2

/-! ## The drive takes up the eligible ticket (R148, R150) -/

theorem capturePlate (h : s.Vacant) (hr : s.drive.plateReady = true) : s.capturePlate.PlateStands := by
  cases he : s.eligible with
  | none =>
    have hstay : s.capturePlate = s := by simp [State.capturePlate, he]
    rw [hstay]
    exact h.stands
  | some x =>
    cases hpl : s.plateFor x with
    | none =>
      have hstay : s.capturePlate = s := by simp [State.capturePlate, he, hpl]
      rw [hstay]
      exact h.stands
    | some pl =>
      obtain ⟨hready, -, hschedule⟩ := State.capturePlate_frame he hpl
      obtain ⟨q, j, hplate, hcontext, -⟩ := State.capturePlate_captured he hpl
      obtain ⟨hmem, -⟩ := eligibleIn_some he
      refine fun _ => ⟨hready.trans hr, { x with state := .imaging }, q, ?_, rfl, hplate,
        hcontext.congr (sm := q.summary) (fun r p hp => ⟨p, hp, rfl, rfl⟩) rfl rfl rfl rfl⟩
      rw [hschedule]
      exact List.mem_map.mpr ⟨x, hmem, by simp⟩

theorem selectTicket (s : State) (tag : Nat) : (s.selectTicket tag).PlateStands := by
  have hvacant : State.Vacant { s with drive := { s.drive with state := .waitPlate, selected := some tag } } := rfl
  unfold State.selectTicket
  dsimp only
  split
  next hr => exact capturePlate hvacant hr
  · exact hvacant.stands

theorem offer (h : s.Vacant) : s.offer.PlateStands := by
  unfold State.offer
  split
  · split
    · exact h.stands
    · exact selectTicket s _
  · split
    · exact State.Vacant.stands rfl
    · exact selectTicket s _
  all_goals exact h.stands

theorem enterIdle (s : State) : s.enterIdle.PlateStands :=
  offer (s := { s with drive := { s.drive with state := .idle, selected := none } }) rfl

theorem enterUnloading (s : State) : s.enterUnloading.PlateStands := by
  unfold State.enterUnloading
  split
  · exact State.Vacant.stands rfl
  · exact enterIdle s

theorem rearm (h : s.Vacant) (f : Ticket → Bool) : (s.rearm f).PlateStands := by
  unfold State.rearm
  split
  · exact h.stands
  · exact offer (s := { s with schedule := s.armedSchedule f }) h

theorem reresolve (h : s.Vacant) (n : Nat) : (s.reresolve n).PlateStands := by
  rw [State.reresolve_eq]
  exact rearm (h.of_drive (by simp [State.recomputedAll])) _

/-! ## The Page table's events (R10, R11, R51, R64) -/

theorem derivePage (h : s.Vacant) (r : Nat) : (s.derivePage r).PlateStands := by
  unfold State.derivePage
  split
  · exact h.stands
  · split
    · exact h.stands
    · unfold State.pageChanged
      refine rearm (h.of_drive ?_) _
      split <;> simp

theorem evaluationEvent (h : s.Vacant) (x : LayerRef) : (s.evaluationEvent x).PlateStands :=
  derivePage (h.of_drive (by simp)) _

theorem noteIssue (h : s.Vacant) (w : StoreWrite) (n : Nat) : (s.noteIssue w n).PlateStands :=
  derivePage (h.of_drive (by simp)) _

theorem evalFlag (h : s.PlateStands) : s.evalFlag.PlateStands := h.frame (by simp)

theorem arbitrate (h : s.PlateStands) : s.arbitrate.PlateStands := h.goOn (State.arbitrate_goesOn s) (by simp)

theorem reconstructionWritten (h : s.Vacant) (x : LayerRef) : (s.reconstructionWritten x).PlateStands := by
  have hidle : State.Vacant { s with repair := { s.repair with engine := .idle } } := h
  unfold State.reconstructionWritten
  dsimp only
  split
  · exact hidle.stands
  · split
    · exact derivePage (hidle.of_drive (by simp)) _
    · exact evaluationEvent hidle _

theorem noteCompletion (h : s.Vacant) (w : StoreWrite) (byRepair : Bool) : (s.noteCompletion w byRepair).PlateStands := by
  unfold State.noteCompletion
  split
  · exact h.stands
  next p _ =>
    dsimp only
    have hset : (s.setPage w.target.record (some (p.completed w (s.store.retired.contains w.tile)))).Vacant :=
      h.of_drive rfl
    have hfreed : ∀ q, ((s.setPage w.target.record (some (p.completed w (s.store.retired.contains w.tile)))).freeRecord
        w.target.record q).Vacant := fun _ => hset.of_drive rfl
    split
    · split
      · exact evalFlag (reresolve (hfreed _) _)
      · exact hset.stands
    · split
      · exact hset.stands
      · split
        · split
          · exact reconstructionWritten hset _
          all_goals exact evaluationEvent hset _
        · exact evaluationEvent hset _

theorem completeWrite (h : s.Vacant) (ref : WriteRef) (w : StoreWrite) : (s.completeWrite ref w).PlateStands := by
  unfold State.completeWrite
  exact arbitrate (noteCompletion (h.of_drive (by simp)) w _)

theorem leavePlace (h : s.Vacant) (tile : Nat) : (s.leavePlace tile).PlateStands := by
  unfold State.leavePlace
  split
  · exact evaluationEvent (h.of_drive (by simp)) _
  · exact evalFlag h.stands

theorem retireTile (h : s.Vacant) (tile : Nat) : (s.retireTile tile).PlateStands := by
  have hleft : ((s.withRetired tile).leavePlace tile).PlateStands := 
    leavePlace (s := s.withRetired tile) h tile
  rw [State.retireTile_eq]
  dsimp only
  split
  all_goals exact hleft.frame (by simp)

theorem issueReconstruction (h : s.Vacant) (x : LayerRef) (l : LayerRecord) (i tile : Nat) (acc : List Byte) :
    (s.issueReconstruction x l i tile acc).PlateStands := by
  have hwriting : State.Vacant { s with repair := { s.repair with
      engine := .writing x i
      write := some ⟨x, .segment i, tile, i % 16, acc.take (segmentLength (l.length.getD 0) i)⟩ } } := h
  exact (noteIssue hwriting ⟨x, .segment i, tile, i % 16, acc.take (segmentLength (l.length.getD 0) i)⟩
    (l.length.getD 0)).frame rfl

theorem reconstructionFails (h : s.Vacant) (x : LayerRef) : (s.reconstructionFails x).PlateStands := by
  unfold State.reconstructionFails
  exact derivePage (h.of_drive (by simp)) _

theorem finishReconstruction (h : s.Vacant) (x : LayerRef) (l : LayerRecord) (i : Nat) (acc : List Byte) :
    (s.finishReconstruction x l i acc).PlateStands := by
  unfold State.finishReconstruction
  split
  · exact issueReconstruction h _ _ _ _ _
  · split
    · exact reconstructionFails h x
    next tile _ => exact evalFlag (issueReconstruction (s := s.takeFromPool tile) h _ _ _ _ _)

theorem repairPassed (h : s.Vacant) (data : List (List Byte)) : (s.repairPassed data).PlateStands := by
  unfold State.repairPassed
  split
  · split
    · exact of_drive h rfl
    · split
      · exact finishReconstruction h _ _ _ _
      · exact of_drive h rfl
  all_goals exact of_drive h rfl

theorem completeRead (h : s.Vacant) (r : StoreRead) (faults : List DramFault) : (s.completeRead r faults).PlateStands := by
  have hfree : State.Vacant { s with store := { s.store with inService := none } } := h
  unfold State.completeRead
  dsimp only
  split
  · exact arbitrate ((retireTile hfree r.tile).goOn (State.deliverFailure_goesOn _ r) (by simp))
  · refine arbitrate ?_
    unfold State.deliverData
    split
    · exact repairPassed hfree _
    · exact hfree.stands.goOn (State.prefetchPassed_goesOn ..) (by simp)

theorem issueSegment (h : s.Vacant) (slot : Nat) (w : StoreWrite) (n : Nat) (allocated : Bool) :
    (s.issueSegment slot w n allocated).PlateStands := by
  unfold State.issueSegment
  dsimp only
  refine arbitrate (frame (noteIssue (h.of_drive ?_) w n) (by rfl))
  split <;> rfl

theorem takeSegmentParcel (h : s.Vacant) : s.takeSegmentParcel.PlateStands := by
  unfold State.takeSegmentParcel
  split
  next parity flags hd payload k _ _ =>
    split
    · have hpop : s.popInlet.Vacant := h.of_drive rfl
      refine evalFlag ?_
      cases s.judge parity hd payload with
      | accepted r id tile allocated => exact issueSegment hpop _ _ _ _
      | unknownPage => exact of_drive hpop rfl
      | malformed => exact of_drive hpop (by rfl)
      | duplicate => exact of_drive hpop rfl
      | late => exact of_drive hpop rfl
      | noTile => exact of_drive hpop (by rfl)
    · exact h.stands
  all_goals exact h.stands

end State.PlateStands
end Sys2Proof.Machine
end

section
/-! PROOFS. Whatever the command, a plate that comes into context is that of an IMAGING ticket (R137, R150). -/

namespace Sys2Proof.Machine

open Sys2Proof (Byte Instr DramFault)

namespace State.PlateStands

variable {s t : State}

theorem report (h : s.PlateStands) (r : Report) : (s.report r).PlateStands := h.frame (by simp)

theorem accept (h : s.PlateStands) (d : Directive) (body : List Byte) : (s.accept d body).PlateStands :=
  h.frame (by simp)

theorem refuse (h : s.Vacant) (d : Directive) (reason : Reason) (body : List Byte) : (s.refuse d reason body).PlateStands :=
  of_drive h (by simp)

/-! ## Directives -/

theorem openPage (h : s.Vacant) (d : Directive) : (s.openPage d).PlateStands := by
  unfold State.openPage
  dsimp only
  split
  · exact refuse h _ _ _
  split
  · exact refuse h _ _ _
  split
  · exact refuse h _ _ _
  next r _ =>
    have hfilled : ((s.setPage r (some (openArgs d.payload).record)).resupersede (openArgs d.payload).pageId).Vacant :=
      h.of_drive (by simp)
    exact accept (reresolve hfilled _) _ _

theorem closePage (h : s.Vacant) (d : Directive) : (s.closePage d).PlateStands := by
  unfold State.closePage
  split
  · exact refuse h _ _ _
  · split
    · exact derivePage (h.of_drive (by simp)) _
    · exact refuse h _ _ _

theorem releasePage (h : s.Vacant) (d : Directive) : (s.releasePage d).PlateStands := by
  unfold State.releasePage
  split
  · exact refuse h _ _ _
  · split
    · exact refuse h _ _ _
    next r p _ _ =>
      have hreleased : (((s.withdrawFromRepair r).releaseRecord r p).1.resupersede p.pageId).Vacant := h.of_drive (by simp)
      exact accept (reresolve hreleased _) _ _

theorem postTicket (h : s.Vacant) (d : Directive) : (s.postTicket d).PlateStands := by
  unfold State.postTicket
  dsimp only
  split
  · exact refuse h _ _ _
  · split
    · exact refuse h _ _ _
    split
    · exact refuse h _ _ _
    split
    · exact refuse h _ _ _
    · unfold State.enterTicket
      exact accept (offer (h.of_drive (by simp))) _ _

theorem endShort (s : State) {o : PlateOutcome} : (s.endShort o).PlateStands := by
  unfold State.endShort
  dsimp only
  split
  · exact State.Vacant.stands rfl
  · exact enterUnloading _

theorem withdrawTicket (h : s.Vacant) (d : Directive) : (s.withdrawTicket d).PlateStands := by
  unfold State.withdrawTicket
  split
  · exact refuse h _ _ _
  · split
    · exact endShort _
    next x _ _ => exact report (accept (offer (s := s.removeTicket x) (h.of_drive (by simp))) _ _) _

theorem setScreener (h : s.Vacant) (sc : Screener) (d : Directive) (body : List Byte) :
    ((s.setScreener sc).accept d body).PlateStands :=
  accept (rearm (s := { s with screener := sc }) h _) d body

theorem bindInk (h : s.Vacant) (d : Directive) : (s.bindInk d).PlateStands := by
  unfold State.bindInk
  split
  · exact refuse h _ _ _
  · split
    · exact setScreener h _ _ _
    · exact refuse h _ _ _

theorem unbindInk (h : s.Vacant) (d : Directive) : (s.unbindInk d).PlateStands := by
  unfold State.unbindInk
  split
  · exact refuse h _ _ _
  · exact setScreener h _ _ _

theorem screenBegin (h : s.Vacant) (d : Directive) : (s.screenBegin d).PlateStands := by
  unfold State.screenBegin
  dsimp only
  split
  · exact refuse h _ _ _
  split
  · exact refuse h _ _ _
  split
  · exact refuse h _ _ _
  · exact setScreener h _ _ _

theorem screenEnd (h : s.Vacant) (d : Directive) : (s.screenEnd d).PlateStands := by
  unfold State.screenEnd
  split
  · exact refuse h _ _ _
  · split
    · exact refuse h _ _ _
    · exact setScreener h _ _ _

theorem curveLoad (h : s.Vacant) (d : Directive) : (s.curveLoad d).PlateStands := by
  unfold State.curveLoad
  split
  · exact refuse h _ _ _
  split
  · exact refuse h _ _ _
  · exact setScreener h _ _ _

theorem setHead (h : s.Vacant) (d : Directive) : (s.setHead d).PlateStands := by
  have hset : State.Vacant (State.accept { s with drive := { s.drive with settings := headArgs d.payload } } d) := by
    simpa [State.Vacant] using h
  unfold State.setHead
  dsimp only
  split
  · exact refuse h _ _ _
  split
  · exact refuse h _ _ _
  split
  · exact hset.stands
  · exact offer hset

theorem resumeHead (h : s.Vacant) (d : Directive) : (s.resumeHead d).PlateStands := by
  unfold State.resumeHead
  split
  · exact accept (enterUnloading s) _ _
  · exact refuse h _ _ _

/-! ## RESTART and the head's events -/

/-- With an empty schedule nothing is offered (R135). -/
theorem enterUnloading_vacant (hs : s.schedule = []) : s.enterUnloading.Vacant := by
  have hoffer : s.enterIdle = { s with drive := { s.drive with state := .idle, selected := none } } := by
    have hnone : State.eligible { s with drive := { s.drive with state := .idle, selected := none } } = none := by
      simp only [State.eligible, hs]
      cases s.drive.settings.mode <;> rfl
    simp [State.enterIdle, State.offer, hnone]
  unfold State.enterUnloading
  split
  · rfl
  · rw [hoffer]
    rfl

theorem restartDirective (h : s.Vacant) : s.restartDirective.PlateStands := by
  unfold State.restartDirective
  split
  · exact h.stands
  next d _ =>
    have htaken : (s.popInlet.takeRestart d).Vacant := enterUnloading_vacant rfl
    unfold State.finishOrHold
    split
    · exact evalFlag htaken.stands
    · exact of_drive htaken (by simp)

/-- With no RESTART held none finishes (R171). -/
theorem finishIfDue (h : s.PlateStands) (hr : s.restart = none) : s.finishIfDue.PlateStands := by
  rcases s.finishIfDue_cases with ⟨hsame, -⟩ | ⟨k, -, hk, -⟩
  · rw [hsame]
    exact h
  · rw [hr] at hk
    cases hk

theorem pinReset (s : State) (ready : Bool) : (s.pinReset ready).PlateStands := by
  have hreset : (Drive.afterReset ready).state.inContext = false := by cases ready <;> rfl
  have hvacant : (s.afterPin ready).Vacant := hreset
  unfold State.pinReset
  split
  all_goals exact of_drive hvacant (by simp)

theorem afterPowerOn (s : State) (size : Sys2Proof.StoreSize) (crc : Sys2Proof.CrcInit) (ready : Bool) :
    (s.afterPowerOn size crc ready).PlateStands :=
  State.Vacant.stands (by cases ready <;> rfl)

theorem haltRequest (s : State) : s.haltRequest.PlateStands := by
  unfold State.haltRequest
  dsimp only
  split
  · exact endShort _
  · exact State.Vacant.stands rfl

theorem haltSample (h : s.Vacant) (high : Bool) : (s.haltSample high).PlateStands := by
  have hmoved : ∀ d : Drive, d.state = s.drive.state → State.PlateStands { s with drive := d } := fun d hd =>
    State.Vacant.stands (by rw [State.Vacant, hd]; exact h)
  unfold State.haltSample
  dsimp only
  split
  · split
    · exact hmoved _ rfl
    split
    · exact haltRequest _
    · exact hmoved _ rfl
  · split
    · exact hmoved _ rfl
    split
    · exact haltRequest _
    · exact hmoved _ rfl

theorem lineReq (h : s.Vacant) : s.lineReq.PlateStands := by
  unfold State.lineReq
  split
  next hs => simp [State.Vacant, hs, DriveState.inContext] at h
  next hs => simp [State.Vacant, hs, DriveState.inContext] at h
  all_goals exact h.stands

theorem completeTransfer (h : s.Vacant) : s.completeTransfer.PlateStands := by
  have hnone : s.drive.transferring = none := by
    unfold Drive.transferring
    split
    next hs => simp [State.Vacant, hs, DriveState.inContext] at h
    · rfl
  rw [State.completeTransfer, hnone]
  exact h.stands

theorem stallExpiry (h : s.Vacant) : s.stallExpiry.PlateStands := by
  unfold State.stallExpiry
  split
  · exact endShort _
  · exact h.stands

theorem plateReadyRise (h : s.Vacant) : s.plateReadyRise.PlateStands := by
  have hhigh : State.Vacant { s with drive := { s.drive with plateReady := true } } := h
  unfold State.plateReadyRise
  dsimp only
  split
  · exact h.stands
  split
  · exact capturePlate hhigh rfl
  · exact hhigh.stands

theorem plateReadyFall (h : s.Vacant) : s.plateReadyFall.PlateStands := by
  have hlow : State.Vacant { s with drive := { s.drive with plateReady := false } } := h
  unfold State.plateReadyFall
  dsimp only
  split
  · split
    · exact endShort _
    · exact endShort _
    · exact enterIdle _
    all_goals exact hlow.stands
  · exact h.stands

end State.PlateStands

/-! ## The dispatch -/

/-- A command brings into context only a plate that so stands. -/
def State.LeadsToStanding (s : State) (o : Host.Outcome State Fault Refusal) : Prop :=
  s.Vacant → s.restart = none → ∀ t, o = .next t → t.PlateStands

namespace State.LeadsToStanding

variable {s : State}

theorem next {t : State} (h : s.Vacant → s.restart = none → t.PlateStands) : s.LeadsToStanding (.next t) := by
  rintro hs hr _ ⟨⟩
  exact h hs hr

/-- The effects of an event, and then the sending of what is due. -/
theorem event {act : State → State} (h : ∀ u : State, u.Vacant → u.restart = none → (act u).PlateStands) :
    s.LeadsToStanding (.next (s.event act)) :=
  next fun hs hr => (h s.beginStep hs hr).frame (by simp [State.event])

/-- An event that leaves the drive. -/
theorem idle {act : State → State} (h : ∀ u : State, (act u).drive = u.drive) : s.LeadsToStanding (.next (s.event act)) :=
  event fun u hu _ => .of_drive hu (h u)

theorem begin (s : State) : s.LeadsToStanding (.next s.beginStep) := next fun hs _ => State.Vacant.stands hs

theorem directive {row : Instr} {act : Directive → State → State}
    (h : ∀ (u : State) (d : Directive), u.Vacant → (act d u).PlateStands) :
    s.LeadsToStanding (.next (s.event fun s => s.takeDirective row act)) :=
  event fun u hu _ => by
    have hpop : u.popInlet.Vacant := hu
    unfold State.takeDirective
    split
    · exact hu.stands
    · refine State.PlateStands.evalFlag ?_
      unfold State.judgeDirective
      split
      · exact State.PlateStands.refuse hpop _ _ _
      · exact h _ _ hpop

/-- A directive whose rule leaves the drive. -/
theorem steady {row : Instr} {act : Directive → State → State}
    (h : ∀ (u : State) (d : Directive), (act d u).drive = u.drive) :
    s.LeadsToStanding (.next (s.event fun s => s.takeDirective row act)) :=
  directive fun u d hu => .of_drive hu (h u d)

theorem guardTile {t : State} {tile : Nat} (h : s.LeadsToStanding (.next t)) : s.LeadsToStanding (s.guardTile tile t) := by
  unfold State.guardTile
  split
  · exact h
  · rintro _ _ _ ⟨⟩

theorem storeWriteCompletion (s : State) : s.LeadsToStanding (execStoreWriteCompletion s) := by
  unfold execStoreWriteCompletion
  split
  · split
    · exact guardTile (event fun u hu hr => (State.PlateStands.completeWrite hu _ _).finishIfDue (by simp [hr]))
    · exact begin s
  all_goals exact begin s

theorem storeReadCompletion (faults : List DramFault) (s : State) : s.LeadsToStanding (execStoreReadCompletion faults s) := by
  unfold execStoreReadCompletion
  split
  · exact guardTile (event fun u hu _ => State.PlateStands.completeRead hu _ _)
  all_goals exact begin s

theorem repairBegin (s : State) : s.LeadsToStanding (execRepairBegin s) := by
  unfold execRepairBegin
  split
  · exact event fun u hu _ => (State.PlateStands.of_drive hu (by simp)).arbitrate
  · exact begin s

theorem makeLine (s : State) : s.LeadsToStanding (execMakeLine s) := by
  unfold execMakeLine
  split
  · exact event fun u hu _ => (hu.goOn ((State.makeLine_goesOn u).trans (State.primeTest_goesOn _))).stands
  · exact begin s

theorem prefetchReadIssue (s : State) : s.LeadsToStanding (execPrefetchReadIssue s) := by
  unfold execPrefetchReadIssue
  split
  · exact begin s
  · exact event fun u hu _ => (State.PlateStands.of_drive hu (by simp)).arbitrate

theorem owedAlarmReport (s : State) : s.LeadsToStanding (execOwedAlarmReport s) := by
  unfold execOwedAlarmReport
  split
  · exact idle fun u => by simp
  · exact begin s

theorem exec (c : Instr) (s : State) : s.LeadsToStanding (exec c s) := by
  cases c with
  | startMarker => exact idle fun u => by simp
  | headerMalformedDrop b => exact idle fun u => by simp
  | parcelComplete b => exact idle fun u => by simp
  | dataByteArrival b => exact idle fun u => by simp
  | assemblyTimeout => exact idle fun u => by simp
  | takeSegmentParcel => exact event fun u hu _ => .takeSegmentParcel hu
  | storeWriteCompletion => exact storeWriteCompletion s
  | storeReadCompletion faults => exact storeReadCompletion faults s
  | repairBegin => exact repairBegin s
  | sweepTileTest faults => exact idle fun u => by simp
  | powerOnReset size crc ready => exact next fun _ _ => State.PlateStands.afterPowerOn s size crc ready
  | pinReset ready => exact next fun _ _ => State.PlateStands.pinReset s ready
  | unknownDirective => exact directive fun u d hu => .refuse hu d _ _
  | openPage => exact directive fun u d hu => .openPage hu d
  | closePage => exact directive fun u d hu => .closePage hu d
  | releasePage => exact directive fun u d hu => .releasePage hu d
  | postTicket => exact directive fun u d hu => .postTicket hu d
  | withdrawTicket => exact directive fun u d hu => .withdrawTicket hu d
  | setInkBind => exact directive fun u d hu => .bindInk hu d
  | setInkUnbind => exact directive fun u d hu => .unbindInk hu d
  | screenBegin => exact directive fun u d hu => .screenBegin hu d
  | screenData => exact steady fun u d => by simp
  | screenEnd => exact directive fun u d hu => .screenEnd hu d
  | curveLoad => exact directive fun u d hu => .curveLoad hu d
  | setFlow => exact steady fun u d => by simp
  | setHead => exact directive fun u d hu => .setHead hu d
  | resumeHead => exact directive fun u d hu => .resumeHead hu d
  | setAlarmMask => exact steady fun u d => by simp
  | clearAlarms => exact steady fun u d => by simp
  | queryPage => exact steady fun u d => by simp
  | queryPages => exact steady fun u d => by simp
  | querySchedule => exact steady fun u d => by simp
  | queryStore => exact steady fun u d => by simp
  | queryInks => exact steady fun u d => by simp
  | queryHead => exact steady fun u d => by simp
  | queryCounters => exact steady fun u d => by simp
  | queryCountersClear => exact steady fun u d => by simp
  | identify => exact steady fun u d => by simp
  | restart => exact event fun u hu _ => .restartDirective hu
  | restartFinish => exact event fun u hu hr => hu.stands.finishIfDue hr
  | makeLine => exact makeLine s
  | prefetchReadIssue => exact prefetchReadIssue s
  | plateReadyRise => exact event fun u hu _ => .plateReadyRise hu
  | plateReadyFall => exact event fun u hu _ => .plateReadyFall hu
  | lineReq => exact event fun u hu _ => .lineReq hu
  | lineTransferCompletion => exact event fun u hu _ => .completeTransfer hu
  | stallTimerExpiry => exact event fun u hu _ => .stallExpiry hu
  | haltRequest => exact event fun u hu _ => .haltSample hu _
  | haltLineStuck => exact event fun u hu _ => .haltSample hu _
  | haltLineSample high => exact event fun u hu _ => .haltSample hu _
  | reportParcelEnd causeFirst => exact next fun hs _ => .of_drive (s := s.beginStep) hs (by simp)
  | owedAlarmReport => exact owedAlarmReport s

end State.LeadsToStanding
/-- The rise of PLATE_READY in WAIT_PLATE, for the eligible ticket whose pages and ink record stand (R150). -/
theorem State.plateReadyRise_captures {s : State} {x : Ticket} {pl : Plate} (hw : s.drive.state = .waitPlate)
    (hl : s.drive.plateReady = false) (he : s.eligible = some x) (hpl : s.plateFor x = some pl) :
    s.plateReadyRise.PlateCaptured x ∧ s.plateReadyRise.drive.plateReady = true ∧
      s.plateReadyRise.drive.settings = s.drive.settings ∧
      s.plateReadyRise.schedule = imagingSchedule s.schedule x.tag := by
  obtain ⟨u, hu⟩ : ∃ u : State, u = { s with drive := { s.drive with plateReady := true } } := ⟨_, rfl⟩
  have heu : u.eligible = some x := by rw [hu]; exact he
  have hplu : u.plateFor x = some pl := by rw [hu]; exact hpl
  have hrise : s.plateReadyRise = u.capturePlate := by simp [State.plateReadyRise, hl, hw, hu]
  obtain ⟨hready, hsettings, hschedule⟩ := State.capturePlate_frame heu hplu
  rw [hrise]
  exact ⟨State.capturePlate_captured heu hplu, hready.trans (by rw [hu]), hsettings.trans (by rw [hu]),
    hschedule.trans (by rw [hu])⟩

/-- Settles O48: the capture fills the context at the rise and at an offer alike, and no other act of a command puts a plate in
context. -/
theorem plateReadyRiseCapturesPlate : Obligations.PlateReadyRiseCapturesPlate := by
  refine ⟨fun s x b a l hw hl he hb ha hp hr => ?_, fun s x hopen hready hx hm => ?_,
    fun c s t hr hv ht => State.LeadsToStanding.exec c s hv hr t ht⟩
  · obtain ⟨pl, hpl⟩ := State.plateFor_of_stand (s := s.beginStep) hb ha hp hr
    obtain ⟨hcaptured, hready, hsettings, hschedule⟩ := State.plateReadyRise_captures (s := s.beginStep) hw hl he hpl
    have hquiet : s.beginStep.settle s.beginStep.plateReadyRise = s.beginStep.plateReadyRise :=
      State.settle_quiet (by simp) (by simp)
    refine ⟨_, congrArg Host.Outcome.next hquiet, ?_⟩
    exact ⟨hcaptured, hready, hsettings, hschedule, by simp, by simp, by simp, by simp⟩
  · obtain ⟨hcaptured, hhigh, hsettings, hschedule, hreports⟩ := State.offer_captures hopen hready hx hm
    exact ⟨hcaptured, hhigh, hsettings, hschedule, by simp, by simp, by simp, hreports⟩

end Sys2Proof.Machine
end
